-- ==== Sys2Proof/Word.lean ====
section
/-! DEFINITION. The word types of the block (spec 20_memory.md R82, R83): every register and every
port word is a whole 64-bit word; narrower registers are 32-bit integers inside it. -/

namespace Sys2Proof

/-- A 64-bit port word or register (R82, R84). -/
abbrev Word := BitVec 64

/-- A binary64 value as its IEEE 754 bit pattern (R82): bit 63 the sign, bits 62:52 the exponent,
bits 51:0 the fraction. The operators on it are in Machine/F64.lean. -/
abbrev F64 := BitVec 64

/-- A 32-bit integer register, signed (i32) or unsigned (u32) by the use made of it (R83). -/
abbrev Word32 := BitVec 32

/-- One byte of a byte-wide link (R82). -/
abbrev Byte := BitVec 8

end Sys2Proof
end

