-- ==== Sys2Proof/Config.lean ====
section
/-! DEFINITION. What an implementation fixes: the parameters of spec 00_scope.md R6 at the values the
spec gives them, and the free values, which are opaque constants without a body. -/

namespace Sys2Proof

/-! ### The parameters of R6

Fixed at the values R6 states: DESIGN CHOICE, unsafe for a block with others (notes/assumptions/12.md). -/

/-- `FO_MAX`, the frequency ceiling: 20480.0 Hz. -/
def Config.foMax : F64 := 0x40D4000000000000#64

/-- `PW_MIN`, the lower pulse-width clamp: 2.0 percent. -/
def Config.pwMin : F64 := 0x4000000000000000#64

/-- `PW_MAX`, the upper pulse-width clamp: 98.0 percent. -/
def Config.pwMax : F64 := 0x4058800000000000#64

/-- `PWM_SCALE`, the pulse-width modulation scale: 96.0 (90_conflicts.md C4). -/
def Config.pwmScale : F64 := 0x4058000000000000#64

/-- `N_TABLES`, the tables per waveform family. -/
def Config.nTables : Nat := 9

/-- `TABLE_LEN`, the entries per table. -/
def Config.tableLen : Nat := 1024

/-- `DPW_INC_MIN`, the QBL divide-by-zero guard: 2^-24. -/
def Config.dpwIncMin : F64 := 0x3E70000000000000#64

/-- `SINE_P`, the parabolic sine refinement constant: the binary64 value nearest to 0.225. -/
def Config.sineP : F64 := 0x3FCCCCCCCCCCCCCD#64

/-- `SR_MIN`, the lowest legal sample rate: 1.0 Hz. -/
def Config.srMin : F64 := 0x3FF0000000000000#64

/-- `SR_MAX`, the highest legal sample rate: 16777216.0 Hz. -/
def Config.srMax : F64 := 0x4170000000000000#64

/-- `HOLD_MAX`, the largest sample-and-hold period in samples: 2^31 - 1. -/
def Config.holdMax : Nat := 2147483647

/-- `SEED_DEFAULT`, the power-on SEED. -/
def Config.seedDefault : Word32 := 0xACE1ACE1#32

/-- The LFO quadrature offset: 0.25 cycles. -/
def Config.quadOffset : F64 := 0x3FD0000000000000#64

/-- The start phase of the QBL and of the WT saw and triangle families: 0.5. -/
def Config.midPhase : F64 := 0x3FE0000000000000#64

/-- The constant K = 5.0/12.0 of the concave transform (R145). -/
def Config.concaveK : F64 := 0x3FDAAAAAAAAAAAAB#64

/-- The fractional bits with which the exact-real rules (R10, R142, R145, R233, R234) are evaluated
before their one rounding to binary64 (UNVERIFIED, unsafe: notes/assumptions/5.md). -/
def Config.precision : Nat := 256

/-! ### Free values

Nothing constrains these: they have no body. -/

/-- DESIGN CHOICE, safe (notes/assumptions/4.md): the 64 bits from which the sign and the payload of the
quiet NaN are taken that `scaleOut` stores when its product is NaN; the spec fixes no NaN bit
pattern. The arguments are the operands: the sample, AMPLITUDE and MOD_AMP. -/
opaque Config.nanBits : F64 → F64 → F64 → F64

/-- DESIGN CHOICE, safe (notes/assumptions/6.md): EXP2 of a NaN. R142 states no value; R161 says the sum
that EXP2 gets is never NaN, so no reachable state asks for it. -/
opaque Config.exp2OfNaN : F64 → F64

/-- DESIGN CHOICE, safe (notes/assumptions/6.md): LOG10 of a NaN, of a zero or of a negative number. R145
gives LOG10 a positive argument, so no reachable state asks for it. -/
opaque Config.log10OutsideDomain : F64 → F64

/-- DESIGN CHOICE, safe (notes/assumptions/7.md): the sample a WT or an LFO renders when WAVEFORM holds a
code outside its kind's set; R39 says WAVEFORM never does. The arguments are the kind's code, the
waveform's code and the phase read. -/
opaque Config.unlistedSample : Nat → Nat → F64 → F64

end Sys2Proof
end

