-- ==== Sys2Proof/Syntax.lean ====
section
/-! DEFINITION. The syntax of the command port: registers by name, waveform, run-mode and kind codes,
the command word with its operand word, and the instructions of spec/opcode_table.json
(spec 10_state.md R31 to R65, 30_encoding.md R100 to R106). -/

namespace Sys2Proof

/-- The generator kinds (R2, R62): the fixed kind of an instance. -/
inductive Kind where
  | wt   -- the wavetable generator, code 0
  | qbl  -- the quasi-band-limited differentiated generator, code 1
  | lfo  -- the low-frequency oscillator, code 2
  deriving DecidableEq, Repr

/-- The code of a kind in register KIND (R62). -/
def Kind.code : Kind → Nat
  | .wt => 0
  | .qbl => 1
  | .lfo => 2

/-- The waveform tags (R39). -/
inductive Waveform where
  | sine
  | sawUp
  | sawDown
  | triangle
  | square
  | whiteNoise
  | heldNoise
  | heldPn
  | expo
  deriving DecidableEq, Repr

/-- The code of a waveform in register WAVEFORM (R39). -/
def Waveform.code : Waveform → Nat
  | .sine => 0
  | .sawUp => 1
  | .sawDown => 2
  | .triangle => 3
  | .square => 4
  | .whiteNoise => 5
  | .heldNoise => 6
  | .heldPn => 7
  | .expo => 8

/-- The LFO run modes (R40). -/
inductive RunMode where
  | sync
  | shot
  | free
  deriving DecidableEq, Repr

/-- The code of a run mode in register RUN_MODE (R40). -/
def RunMode.code : RunMode → Nat
  | .sync => 0
  | .shot => 1
  | .free => 2

/-- The assigned registers, in the order of the register map of 10_state.md. -/
inductive Reg where
  | sampleRate | targetFreq | freqRatio | octave | semitone | cent | amplitude | pwTarget
  | waveform | runMode | seed
  | modAmp | modFoExp | modPitchBend | modFoLin | modPhase | modPw
  | phase | increment | effFreq | effPw | noteOn | tableIndex | shCounter | shValue
  | pnReg | noiseState | dpwPrev | dpwToggle | wrapPending | status | kind | out | aux
  deriving DecidableEq, Repr

/-- The REG number of each register (the register map of 10_state.md). -/
def Reg.number : Reg → BitVec 8
  | .sampleRate => 0x00#8
  | .targetFreq => 0x01#8
  | .freqRatio => 0x02#8
  | .octave => 0x03#8
  | .semitone => 0x04#8
  | .cent => 0x05#8
  | .amplitude => 0x06#8
  | .pwTarget => 0x07#8
  | .waveform => 0x08#8
  | .runMode => 0x09#8
  | .seed => 0x0A#8
  | .modAmp => 0x10#8
  | .modFoExp => 0x11#8
  | .modPitchBend => 0x12#8
  | .modFoLin => 0x13#8
  | .modPhase => 0x14#8
  | .modPw => 0x15#8
  | .phase => 0x20#8
  | .increment => 0x21#8
  | .effFreq => 0x22#8
  | .effPw => 0x23#8
  | .noteOn => 0x24#8
  | .tableIndex => 0x25#8
  | .shCounter => 0x26#8
  | .shValue => 0x27#8
  | .pnReg => 0x28#8
  | .noiseState => 0x29#8
  | .dpwPrev => 0x2A#8
  | .dpwToggle => 0x2B#8
  | .wrapPending => 0x2C#8
  | .status => 0x2D#8
  | .kind => 0x2E#8
  | .out => 0x2F#8
  | .aux => 0x30#8

/-- The REG field of a WREG or RREG word: the register that has that number, or a number that no
register has (R65; the raw forms of R125 and R127). -/
inductive RegSel where
  | assigned (r : Reg)
  | unassigned (n : BitVec 8)
  deriving DecidableEq, Repr

/-- The instructions, one constructor per row of spec/opcode_table.json (R104). Only SETSR and WREG
use the operand word DATA (R101), so only they carry it. -/
inductive Instr where
  | nop
  | reset
  | update
  | start
  | stop
  | osc
  | setsr (rate : Word)
  | wreg (sel : RegSel) (data : Word)
  | rreg (sel : RegSel)
  deriving DecidableEq, Repr

/-- One command on the command port: the command word CMD and the operand word DATA (R100). -/
structure Command where
  cmd  : BitVec 32
  data : Word
  deriving DecidableEq, Repr

/-- The three response words that each command drives (R102). -/
structure Response where
  rdata : Word
  out   : Word
  aux   : Word
  deriving DecidableEq, Repr

end Sys2Proof
end

