-- ==== Sys2Proof/WellFormed.lean ====
section
/-! DEFINITION. When an instruction term is one that an encoding stands for: its REG field is in the
one canonical form (an assigned number is written by its register's name). Every WREG and RREG word
is encodable whatever its number (spec 30_encoding.md R105, R106), so nothing else is checked. -/

namespace Sys2Proof

/-- The numbers R65 leaves unassigned: 0x0B to 0x0F, 0x16 to 0x1F and 0x31 to 0xFF. -/
def unassignedNumber (n : BitVec 8) : Bool :=
  (0x0B ≤ n.toNat && n.toNat ≤ 0x0F) || (0x16 ≤ n.toNat && n.toNat ≤ 0x1F) || 0x31 ≤ n.toNat

/-- A register selector in canonical form: the raw form is kept for unassigned numbers. -/
def RegSel.wellFormed : RegSel → Bool
  | .assigned _ => true
  | .unassigned n => unassignedNumber n

/-- A well-formed instruction: its register selector, if it has one, is in canonical form. -/
def Instr.wellFormed : Instr → Bool
  | .nop => true
  | .reset => true
  | .update => true
  | .start => true
  | .stop => true
  | .osc => true
  | .setsr _ => true
  | .wreg sel _ => sel.wellFormed
  | .rreg sel => sel.wellFormed

end Sys2Proof
end

