-- ==== Sys2Proof/Decode.lean ====
section
/-! DEFINITION. Decoding and encoding of commands, both written from the format of spec
30_encoding.md R100 and the opcode map R104. The decoder is total on any CMD and DATA (R105). -/

namespace Sys2Proof

/-- Why a command word is not a command (R105, checks 1 to 3 of R352). Each is refused with BADCMD. -/
inductive DecodeError where
  | reservedBits  -- check 1: CMD[31:16] is not 0
  | badOpcode     -- check 2: OP is above 0x08
  | strayReg      -- check 3: REG is not 0 on an opcode that does not use it
  deriving DecidableEq, Repr

/-! ### The fields of a command word (R100) -/

/-- OP = CMD[7:0]. -/
def cmdOp (c : BitVec 32) : BitVec 8 := c.extractLsb' 0 8

/-- REG = CMD[15:8]. -/
def cmdReg (c : BitVec 32) : BitVec 8 := c.extractLsb' 8 8

/-- RSV = CMD[31:16]. -/
def cmdRsv (c : BitVec 32) : BitVec 16 := c.extractLsb' 16 16

/-- The register with a given number, if the number is assigned (the register map of 10_state.md). -/
def regOfNumber (n : BitVec 8) : Option Reg :=
  match n.toNat with
  | 0x00 => some .sampleRate
  | 0x01 => some .targetFreq
  | 0x02 => some .freqRatio
  | 0x03 => some .octave
  | 0x04 => some .semitone
  | 0x05 => some .cent
  | 0x06 => some .amplitude
  | 0x07 => some .pwTarget
  | 0x08 => some .waveform
  | 0x09 => some .runMode
  | 0x0A => some .seed
  | 0x10 => some .modAmp
  | 0x11 => some .modFoExp
  | 0x12 => some .modPitchBend
  | 0x13 => some .modFoLin
  | 0x14 => some .modPhase
  | 0x15 => some .modPw
  | 0x20 => some .phase
  | 0x21 => some .increment
  | 0x22 => some .effFreq
  | 0x23 => some .effPw
  | 0x24 => some .noteOn
  | 0x25 => some .tableIndex
  | 0x26 => some .shCounter
  | 0x27 => some .shValue
  | 0x28 => some .pnReg
  | 0x29 => some .noiseState
  | 0x2A => some .dpwPrev
  | 0x2B => some .dpwToggle
  | 0x2C => some .wrapPending
  | 0x2D => some .status
  | 0x2E => some .kind
  | 0x2F => some .out
  | 0x30 => some .aux
  | _ => none

/-- The selector a REG field stands for. -/
def selOfNumber (n : BitVec 8) : RegSel :=
  match regOfNumber n with
  | some r => .assigned r
  | none => .unassigned n

/-- The REG field that stands for a selector. -/
def selNumber : RegSel → BitVec 8
  | .assigned r => r.number
  | .unassigned n => n

/-- A command of an opcode that does not use REG: REG must be 0 (check 3 of R352). -/
def plainCommand (reg : BitVec 8) (i : Instr) : Except DecodeError Instr :=
  if reg = 0#8 then .ok i else .error .strayReg

/-- The decode of R105, with DATA handed to the opcodes that use it (R101). -/
def decode (c : Command) : Except DecodeError Instr :=
  if cmdRsv c.cmd ≠ 0#16 then .error .reservedBits
  else
    match (cmdOp c.cmd).toNat with
    | 0x00 => plainCommand (cmdReg c.cmd) .nop
    | 0x01 => plainCommand (cmdReg c.cmd) .reset
    | 0x02 => plainCommand (cmdReg c.cmd) .update
    | 0x03 => plainCommand (cmdReg c.cmd) .start
    | 0x04 => plainCommand (cmdReg c.cmd) .stop
    | 0x05 => plainCommand (cmdReg c.cmd) .osc
    | 0x06 => plainCommand (cmdReg c.cmd) (.setsr c.data)
    | 0x07 => .ok (.wreg (selOfNumber (cmdReg c.cmd)) c.data)
    | 0x08 => .ok (.rreg (selOfNumber (cmdReg c.cmd)))
    | _ => .error .badOpcode

/-! ### The encoder -/

/-- The command word with opcode `op`, register field `reg` and reserved bits 0 (R100). -/
def cmdWord (op reg : BitVec 8) : BitVec 32 := 0#16 ++ reg ++ op

/-- The words of an instruction (R100, R104); an operand word that is not used is 0 (R121). -/
def encode : Instr → Command
  | .nop => { cmd := cmdWord 0x00#8 0#8, data := 0#64 }
  | .reset => { cmd := cmdWord 0x01#8 0#8, data := 0#64 }
  | .update => { cmd := cmdWord 0x02#8 0#8, data := 0#64 }
  | .start => { cmd := cmdWord 0x03#8 0#8, data := 0#64 }
  | .stop => { cmd := cmdWord 0x04#8 0#8, data := 0#64 }
  | .osc => { cmd := cmdWord 0x05#8 0#8, data := 0#64 }
  | .setsr rate => { cmd := cmdWord 0x06#8 0#8, data := rate }
  | .wreg sel data => { cmd := cmdWord 0x07#8 (selNumber sel), data := data }
  | .rreg sel => { cmd := cmdWord 0x08#8 (selNumber sel), data := 0#64 }

/-! ### A byte-wide link (R82): the least significant byte of each word first -/

/-- The `k` low bytes of a number, the least significant first. -/
def bytesOfNat : Nat → Nat → List Byte
  | 0, _ => []
  | k + 1, n => BitVec.ofNat 8 n :: bytesOfNat k (n / 256)

/-- The number whose bytes are listed, the least significant first. -/
def natOfBytes : List Byte → Nat
  | [] => 0
  | b :: bs => b.toNat + 256 * natOfBytes bs

/-- The eight bytes of DATA, RDATA, OUT or AUX: byte 0 is bits 7:0 (R82). -/
def wordBytes (w : Word) : List Byte := bytesOfNat 8 w.toNat

/-- The 64-bit word that eight bytes carry. -/
def wordOfBytes (bs : List Byte) : Word := BitVec.ofNat 64 (natOfBytes bs)

/-- The twelve bytes of a command on a byte-wide link. That CMD goes before DATA is a DESIGN CHOICE, unsafe
(notes/assumptions/9.md). -/
def commandBytes (c : Command) : List Byte := bytesOfNat 4 c.cmd.toNat ++ wordBytes c.data

/-- The command that twelve bytes carry; any other number of bytes is no command. -/
def commandOfBytes (bs : List Byte) : Option Command :=
  if bs.length = 12 then
    some { cmd := BitVec.ofNat 32 (natOfBytes (bs.take 4)), data := wordOfBytes (bs.drop 4) }
  else none

/-- The 24 bytes of a response on a byte-wide link. That the words go in the order RDATA, OUT, AUX is a
DESIGN CHOICE, unsafe (notes/assumptions/9.md). -/
def responseBytes (r : Response) : List Byte := wordBytes r.rdata ++ wordBytes r.out ++ wordBytes r.aux

/-- The response that 24 bytes carry; any other number of bytes is no response. -/
def responseOfBytes (bs : List Byte) : Option Response :=
  if bs.length = 24 then
    some { rdata := wordOfBytes (bs.take 8), out := wordOfBytes ((bs.drop 8).take 8),
           aux := wordOfBytes (bs.drop 16) }
  else none

/-- The instruction words numbered as spec/opcode_table.json numbers them: CMD is bits 31:0, DATA is
bits 95:32, and every bit above `nbits` is 0. -/
def tableCommand (nbits w : Nat) : Command :=
  { cmd := BitVec.ofNat 32 (w % 2 ^ nbits), data := BitVec.ofNat 64 (w % 2 ^ nbits / 2 ^ 32) }

/-- The instruction the decoder reads from an instruction whose bits are `w`, laid out on the link as
R82 says; none where the decoder refuses the word. -/
def decodeTableWord (nbits w : Nat) : Option Instr :=
  match commandOfBytes (commandBytes (tableCommand nbits w)) with
  | none => none
  | some c =>
    match decode c with
    | .ok i => some i
    | .error _ => none

end Sys2Proof
end

