-- ==== Sys2Proof/Machine/F64.lean ====
section
/-! DEFINITION. Binary64 arithmetic (spec 00_scope.md R9): each operator computes exactly over the
integers and rounds once, to nearest, ties to even, with subnormals and no fused multiply-add.

A finite binary64 value is a whole number of units of 2^-1074, the least subnormal. `fMag` is that
number for the magnitude and `fInt` with the sign, so sums, comparisons and floors are those of
integers, and `roundMag` is the one place that rounds. -/

namespace Sys2Proof.Machine

open Sys2Proof

/-! ### Literals -/

/-- +0.0. -/
def fZero : F64 := 0#64
/-- 1.0. -/
def fOne : F64 := 0x3FF0000000000000#64
/-- -1.0. -/
def fMinusOne : F64 := 0xBFF0000000000000#64
/-- 0.5. -/
def fHalf : F64 := 0x3FE0000000000000#64
/-- 2.0. -/
def fTwo : F64 := 0x4000000000000000#64
/-- 4.0. -/
def fFour : F64 := 0x4010000000000000#64
/-- 12.0. -/
def fTwelve : F64 := 0x4028000000000000#64
/-- 100.0. -/
def fHundred : F64 := 0x4059000000000000#64
/-- 2^-31. -/
def fTwoPowNeg31 : F64 := 0x3E00000000000000#64
/-- +∞. -/
def fInf : F64 := 0x7FF0000000000000#64
/-- The quiet NaN that stands for every NaN between operators; `scaleOut` is the one place where a
NaN can reach a register, and it replaces this pattern by a free one (notes/assumptions/4.md). -/
def fNaN : F64 := 0x7FF8000000000000#64

/-! ### Fields and classes -/

/-- The sign bit, bit 63 (R82). -/
def fSign (x : F64) : Bool := x.msb

/-- The exponent field, bits 62:52 (R82). -/
def fExpField (x : F64) : Nat := x.toNat / 2 ^ 52 % 2 ^ 11

/-- The fraction field, bits 51:0 (R82). -/
def fFrac (x : F64) : Nat := x.toNat % 2 ^ 52

/-- `isFinite(x)`: the exponent field is not 0x7FF (R107). -/
def fIsFinite (x : F64) : Bool := fExpField x != 0x7FF

/-- `isNaN(x)`. -/
def fIsNaN (x : F64) : Bool := fExpField x == 0x7FF && fFrac x != 0

/-- x is +∞ or -∞. -/
def fIsInf (x : F64) : Bool := fExpField x == 0x7FF && fFrac x == 0

/-- The magnitude of a finite value in units of 2^-1074. (For an infinity it is 2^2098, above every
finite magnitude, which is what the comparisons need.) -/
def fMag (x : F64) : Nat :=
  if fExpField x = 0 then fFrac x else (2 ^ 52 + fFrac x) * 2 ^ (fExpField x - 1)

/-- The value of a finite binary64 in units of 2^-1074. -/
def fInt (x : F64) : Int := if fSign x then -(fMag x : Int) else (fMag x : Int)

/-- 1.0 in units of 2^-1074. -/
def unitsPerOne : Nat := 2 ^ 1074

/-! ### Rounding -/

/-- The integer nearest to n/d, ties to even. -/
def roundHalfEven (n d : Nat) : Nat :=
  let q := n / d
  let r := n % d
  if 2 * r < d then q
  else if d < 2 * r then q + 1
  else if q % 2 = 0 then q else q + 1

/-- The 63 bits below the sign of the binary64 nearest to n/d units of 2^-1074, ties to even; +∞ on
overflow. The spacing of binary64 values at n/d is 2^s units. A carry out of the 53 bits of the
rounded significand runs into the exponent field, which is what rounding up to the next binade is. -/
def roundMag (n d : Nat) : Nat :=
  let s := (n / d).log2 - 52
  min (roundHalfEven n (d * 2 ^ s) + s * 2 ^ 52) 0x7FF0000000000000

/-- The binary64 with a given sign bit and the given 63 bits below it. -/
def fPack (neg : Bool) (m : Nat) : F64 := BitVec.ofNat 64 (if neg then 2 ^ 63 + m else m)

/-- `round64` of ±(n/d) units of 2^-1074 (R10); a zero takes the given sign. -/
def fRound (neg : Bool) (n d : Nat) : F64 := fPack neg (roundMag n d)

/-- `round64` of the real ±(n/d) (R10, R121). -/
def round64 (neg : Bool) (n d : Nat) : F64 := fRound neg (n * unitsPerOne) d

/-! ### Operators (R9) -/

/-- `-x`: flips the sign bit. -/
def fNeg (x : F64) : F64 := x ^^^ 0x8000000000000000#64

/-- `abs(x)`: clears the sign bit. -/
def fAbs (x : F64) : F64 := x &&& 0x7FFFFFFFFFFFFFFF#64

/-- `x + y`. An exact zero sum is +0.0, but for the sum of two -0.0. -/
def fAdd (x y : F64) : F64 :=
  if fIsNaN x || fIsNaN y then fNaN
  else if fIsInf x then (if fIsInf y && (fSign x != fSign y) then fNaN else x)
  else if fIsInf y then y
  else
    let v := fInt x + fInt y
    if v = 0 then fPack (fSign x && fSign y) 0
    else fRound (decide (v < 0)) v.natAbs 1

/-- `x - y`. -/
def fSub (x y : F64) : F64 := fAdd x (fNeg y)

/-- `x × y`. -/
def fMul (x y : F64) : F64 :=
  let neg := fSign x != fSign y
  if fIsNaN x || fIsNaN y then fNaN
  else if fIsInf x || fIsInf y then
    (if fMag x = 0 || fMag y = 0 then fNaN else fPack neg 0x7FF0000000000000)
  else fRound neg (fMag x * fMag y) unitsPerOne

/-- `x / y`. -/
def fDiv (x y : F64) : F64 :=
  let neg := fSign x != fSign y
  if fIsNaN x || fIsNaN y then fNaN
  else if fIsInf x then (if fIsInf y then fNaN else fPack neg 0x7FF0000000000000)
  else if fIsInf y then fPack neg 0
  else if fMag y = 0 then (if fMag x = 0 then fNaN else fPack neg 0x7FF0000000000000)
  else fRound neg (fMag x * unitsPerOne) (fMag y)

/-- The largest integer that is at most the finite value x. -/
def fFloorInt (x : F64) : Int := fInt x / (unitsPerOne : Int)

/-- `floor(x)` as a binary64, exact; a zero result keeps the sign of x, so floor(-0.0) is -0.0. -/
def fFloor (x : F64) : F64 :=
  if fIsFinite x then
    let n := fFloorInt x
    fRound (fSign x) (n.natAbs * unitsPerOne) 1
  else x

/-- `x < y`: false when either operand is NaN. -/
def fLt (x y : F64) : Bool := !fIsNaN x && !fIsNaN y && decide (fInt x < fInt y)

/-- `x ≤ y`: false when either operand is NaN. -/
def fLe (x y : F64) : Bool := !fIsNaN x && !fIsNaN y && decide (fInt x ≤ fInt y)

/-- `max(x, y)` on non-NaN operands. -/
def fMax (x y : F64) : F64 := if fLt x y then y else x

/-- `min(x, y)` on non-NaN operands. -/
def fMin (x y : F64) : F64 := if fLt y x then y else x

/-- The clamp `if x > hi: x <- hi; if x < lo: x <- lo` (R160, R248). -/
def fClamp (lo hi x : F64) : F64 :=
  let y := if fLt hi x then hi else x
  if fLt y lo then lo else y

/-- `f64(i)`: a 32-bit integer as a binary64, exact. -/
def f64OfInt (i : Int) : F64 := round64 (decide (i < 0)) i.natAbs 1

end Sys2Proof.Machine
end

