-- ==== Sys2Proof/Machine/State.lean ====
section
/-! DEFINITION. The state of one instance (spec 10_state.md R30 to R70) with its command port, and the
power-on state (70_reset_and_hazards.md R380). The block has no program counter and no addressable
memory (R67, R80). -/

namespace Sys2Proof.Machine

open Sys2Proof

/-- The reasons the machine can stop with a fault: none. "This spec has no `fault` treatment: every case
is either defined or refused" (93_implementation_defined.md); no command traps (R350). -/
inductive Fault where
  deriving DecidableEq, Repr

/-- The reasons a step can have no meaning. A refusal by the BLOCK (R351) is not one of these: it is a
next state with a STATUS bit set. -/
inductive Refusal where
  /-- An instruction of the opcode table that has no meaning in this model yet. Raised by `exec` only;
  no arm raises it, since every instruction is modelled. Safe: nothing is claimed after it. -/
  | notModelled (mnemonic : String)
  deriving DecidableEq, Repr

/-- The state of one instance: the registers of the register map in its order, the bank, and the command
port. -/
structure State where
  /-- SAMPLE_RATE, REG 0x00 (R31). -/
  sampleRate : F64
  /-- TARGET_FREQ, REG 0x01 (R32). -/
  targetFreq : F64
  /-- FREQ_RATIO, REG 0x02 (R33). -/
  freqRatio : F64
  /-- OCTAVE, REG 0x03 (R34), two's complement. -/
  octave : Word32
  /-- SEMITONE, REG 0x04 (R35), two's complement. -/
  semitone : Word32
  /-- CENT, REG 0x05 (R36), two's complement. -/
  cent : Word32
  /-- AMPLITUDE, REG 0x06 (R37). -/
  amplitude : F64
  /-- PW_TARGET, REG 0x07 (R38). -/
  pwTarget : F64
  /-- WAVEFORM, REG 0x08 (R39). -/
  waveform : Waveform
  /-- RUN_MODE, REG 0x09 (R40). -/
  runMode : RunMode
  /-- SEED, REG 0x0A (R41). -/
  seed : Word32
  /-- MOD_AMP, REG 0x10 (R42). -/
  modAmp : F64
  /-- MOD_FO_EXP, REG 0x11 (R43). -/
  modFoExp : F64
  /-- MOD_PITCH_BEND, REG 0x12 (R44). -/
  modPitchBend : F64
  /-- MOD_FO_LIN, REG 0x13 (R45). -/
  modFoLin : F64
  /-- MOD_PHASE, REG 0x14 (R46). -/
  modPhase : F64
  /-- MOD_PW, REG 0x15 (R47). -/
  modPw : F64
  /-- PHASE, REG 0x20 (R48). -/
  phase : F64
  /-- INCREMENT, REG 0x21 (R49). -/
  increment : F64
  /-- EFF_FREQ, REG 0x22 (R50). -/
  effFreq : F64
  /-- EFF_PW, REG 0x23 (R51). -/
  effPw : F64
  /-- NOTE_ON, REG 0x24 (R52). -/
  noteOn : Bool
  /-- TABLE_INDEX, REG 0x25 (R53). -/
  tableIndex : Word32
  /-- SH_COUNTER, REG 0x26 (R54), two's complement. -/
  shCounter : Word32
  /-- SH_VALUE, REG 0x27 (R55). -/
  shValue : F64
  /-- PN_REG, REG 0x28 (R56). -/
  pnReg : Word32
  /-- NOISE_STATE, REG 0x29 (R57). -/
  noiseState : Word32
  /-- DPW_PREV, REG 0x2A (R58). -/
  dpwPrev : F64
  /-- DPW_TOGGLE, REG 0x2B (R59). -/
  dpwToggle : F64
  /-- WRAP_PENDING, REG 0x2C (R60). -/
  wrapPending : Bool
  /-- STATUS, REG 0x2D (R61): bit 0 BADCMD, 1 BADVALUE, 2 BADWAVE, 3 UPD_PENDING. -/
  status : BitVec 4
  /-- KIND, REG 0x2E (R62): fixed when the instance is made. -/
  kind : Kind
  /-- OUT, REG 0x2F (R63), which is also the response word OUT (R102). -/
  out : F64
  /-- AUX, REG 0x30 (R64), which is also the response word AUX (R102). -/
  aux : F64
  /-- The wavetable bank (R66, WT only), held as the sample rate it was last built for: its entries are a
  function of that rate and of the parameters, and R236 lets a model compute them on demand. DESIGN CHOICE,
  safe (notes/assumptions/3.md). -/
  bankRate : F64
  /-- RDATA, the response word of the last command (R102). -/
  rdata : Word
  /-- The commands the host has presented and the block has not yet executed, the next one first (R13,
  R67, R88). That they wait in a list is a DESIGN CHOICE, safe (notes/assumptions/2.md). -/
  port : List Command
  deriving DecidableEq, Repr

/-- The power-on state of an instance of kind `k`: the power-on column of the register map (R70, R380). The
reset input is this state and no step (DEDUCED, safe: notes/assumptions/13.md). RDATA, of which no rule gives a
power-on value, is 0 (DESIGN CHOICE, unsafe: notes/assumptions/11.md). -/
def State.powerOn (k : Kind) : State where
  sampleRate := 0x40E5888000000000#64     -- 44100.0
  targetFreq := 0x407B800000000000#64     -- 440.0
  freqRatio := 0x3FF0000000000000#64      -- 1.0
  octave := 0#32
  semitone := 0#32
  cent := 0#32
  amplitude := 0x3FF0000000000000#64      -- 1.0
  pwTarget := 0x4049000000000000#64       -- 50.0
  waveform := .sawUp
  runMode := .sync
  seed := Config.seedDefault
  modAmp := 0x3FF0000000000000#64         -- 1.0
  modFoExp := 0#64
  modPitchBend := 0#64
  modFoLin := 0#64
  modPhase := 0#64
  modPw := 0#64
  phase :=
    match k with
    | .wt => Config.midPhase
    | .qbl => Config.midPhase
    | .lfo => 0#64
  increment := 0x3F846EFDCB4A6B82#64      -- 440.0/44100.0
  effFreq := 0x407B800000000000#64        -- 440.0
  effPw := 0x4049000000000000#64          -- 50.0
  noteOn := false
  tableIndex :=
    match k with
    | .wt => 3#32
    | .qbl => 0#32
    | .lfo => 0#32
  shCounter := 0xFFFFFFFF#32              -- the sentinel -1
  shValue := 0#64
  pnReg := Config.seedDefault
  noiseState := Config.seedDefault
  dpwPrev := 0#64
  dpwToggle := 0x3FF0000000000000#64      -- +1.0
  wrapPending := false
  status := 0#4
  kind := k
  out := 0#64
  aux := 0#64
  bankRate := 0x40E5888000000000#64       -- built for 44100.0
  rdata := 0#64
  port := []

/-- The machine right after reset: the power-on state of a WT instance with no command presented. The
kind is an instance parameter (R2); taking WT here is a DESIGN CHOICE, unsafe
(notes/assumptions/1.md). -/
def State.reset : State := State.powerOn .wt

end Sys2Proof.Machine
end

