-- ==== Sys2Proof/Machine/Flags.lean ====
section
/-! DEFINITION. The STATUS register (spec 10_state.md R61, 60_exceptions.md R351, R355). The block has
no condition codes (R68). -/

namespace Sys2Proof.Machine

open Sys2Proof

/-- The three refusal codes (R351): the sticky bits of STATUS. -/
inductive RefusalCode where
  | badCmd    -- bit 0
  | badValue  -- bit 1
  | badWave   -- bit 2
  deriving DecidableEq, Repr

/-- The STATUS bit of a refusal code (R351). -/
def RefusalCode.mask : RefusalCode → BitVec 4
  | .badCmd => 0x1#4
  | .badValue => 0x2#4
  | .badWave => 0x4#4

/-- UPD_PENDING, bit 3 of STATUS (R355). -/
def updPendingMask : BitVec 4 := 0x8#4

/-- STATUS with a refusal recorded; the bits are sticky (R351). -/
def statusRefused (c : RefusalCode) (st : BitVec 4) : BitVec 4 := st ||| c.mask

/-- STATUS after SETSR: UPD_PENDING set (R170, R355). -/
def statusPending (st : BitVec 4) : BitVec 4 := st ||| updPendingMask

/-- STATUS after UPDATE: UPD_PENDING cleared (R160, R355). -/
def statusUpdated (st : BitVec 4) : BitVec 4 := st &&& ~~~updPendingMask

/-- STATUS after a WREG to it: each of bits 2:0 whose DATA bit is 1 is cleared, and bit 3 stays (R207). -/
def statusCleared (data : Word) (st : BitVec 4) : BitVec 4 :=
  st &&& ~~~((data.extractLsb' 0 3).setWidth 4)

end Sys2Proof.Machine
end

