-- ==== Sys2Proof/Machine/Operands.lean ====
section
/-! DEFINITION. The operand forms: how WREG reads DATA and what it refuses (spec 30_encoding.md R107,
41_register_access.md R201 to R208), and how RREG forms RDATA (R108). -/

namespace Sys2Proof.Machine

open Sys2Proof

/-! ### Codes -/

/-- The waveform a code stands for (R39). -/
def waveformOfCode (c : Nat) : Option Waveform :=
  match c with
  | 0 => some .sine
  | 1 => some .sawUp
  | 2 => some .sawDown
  | 3 => some .triangle
  | 4 => some .square
  | 5 => some .whiteNoise
  | 6 => some .heldNoise
  | 7 => some .heldPn
  | 8 => some .expo
  | _ => none

/-- The waveforms a kind supports: WT 0 to 5, QBL 1 to 3, LFO 0 to 4 and 6 to 8 (R39, R204). -/
def waveformLegal : Kind → Waveform → Bool
  | .wt, w => w.code ≤ 5
  | .qbl, w => 1 ≤ w.code && w.code ≤ 3
  | .lfo, w => w.code != 5

/-- The run mode a code stands for (R40). -/
def runModeOfCode (c : Nat) : Option RunMode :=
  match c with
  | 0 => some .sync
  | 1 => some .shot
  | 2 => some .free
  | _ => none

/-! ### WREG -/

/-- The f64 form: DATA as it stands when it is finite, else BADVALUE (R107, R202). -/
def takeF64 (data : Word) (put : F64 → State) : Except RefusalCode State :=
  if fIsFinite data then .ok (put data) else .error .badValue

/-- The i32 and u32 forms: DATA[31:0]; DATA[63:32] is ignored (R107, R203). -/
def lowWord (data : Word) : Word32 := data.setWidth 32

/-- The WAVEFORM form: all 64 bits, a code legal for KIND, else BADWAVE (R204). -/
def takeWaveform (s : State) (data : Word) : Except RefusalCode State :=
  match waveformOfCode data.toNat with
  | none => .error .badWave
  | some w => if waveformLegal s.kind w then .ok { s with waveform := w } else .error .badWave

/-- The RUN_MODE form: all 64 bits, one of 0, 1 and 2, else BADVALUE (R205). -/
def takeRunMode (s : State) (data : Word) : Except RefusalCode State :=
  match runModeOfCode data.toNat with
  | none => .error .badValue
  | some m => .ok { s with runMode := m }

/-- The SEED form: DATA[31:0], nonzero, else BADVALUE (R206). -/
def takeSeed (s : State) (data : Word) : Except RefusalCode State :=
  if lowWord data = 0#32 then .error .badValue else .ok { s with seed := lowWord data }

/-- The write of DATA to a register, or the code with which WREG is refused: BADCMD for a register that
WREG cannot write (check 4 of R352, R208), else by the register's type (check 6, R201). -/
def writeReg (r : Reg) (data : Word) (s : State) : Except RefusalCode State :=
  match r with
  | .targetFreq => takeF64 data fun v => { s with targetFreq := v }
  | .freqRatio => takeF64 data fun v => { s with freqRatio := v }
  | .octave => .ok { s with octave := lowWord data }
  | .semitone => .ok { s with semitone := lowWord data }
  | .cent => .ok { s with cent := lowWord data }
  | .amplitude => takeF64 data fun v => { s with amplitude := v }
  | .pwTarget => takeF64 data fun v => { s with pwTarget := v }
  | .waveform => takeWaveform s data
  | .runMode => takeRunMode s data
  | .seed => takeSeed s data
  | .modAmp => takeF64 data fun v => { s with modAmp := v }
  | .modFoExp => takeF64 data fun v => { s with modFoExp := v }
  | .modPitchBend => takeF64 data fun v => { s with modPitchBend := v }
  | .modFoLin => takeF64 data fun v => { s with modFoLin := v }
  | .modPhase => takeF64 data fun v => { s with modPhase := v }
  | .modPw => takeF64 data fun v => { s with modPw := v }
  | .status => .ok { s with status := statusCleared data s.status }
  | .sampleRate | .phase | .increment | .effFreq | .effPw | .noteOn | .tableIndex | .shCounter
  | .shValue | .pnReg | .noiseState | .dpwPrev | .dpwToggle | .wrapPending | .kind | .out | .aux =>
    .error .badCmd

/-! ### RREG -/

/-- A bit register as RDATA: zero-extended (R108). -/
def bitWord (b : Bool) : Word := if b then 1#64 else 0#64

/-- The value of a register as RREG returns it (R108). -/
def readReg (r : Reg) (s : State) : Word :=
  match r with
  | .sampleRate => s.sampleRate
  | .targetFreq => s.targetFreq
  | .freqRatio => s.freqRatio
  | .octave => s.octave.signExtend 64
  | .semitone => s.semitone.signExtend 64
  | .cent => s.cent.signExtend 64
  | .amplitude => s.amplitude
  | .pwTarget => s.pwTarget
  | .waveform => BitVec.ofNat 64 s.waveform.code
  | .runMode => BitVec.ofNat 64 s.runMode.code
  | .seed => s.seed.setWidth 64
  | .modAmp => s.modAmp
  | .modFoExp => s.modFoExp
  | .modPitchBend => s.modPitchBend
  | .modFoLin => s.modFoLin
  | .modPhase => s.modPhase
  | .modPw => s.modPw
  | .phase => s.phase
  | .increment => s.increment
  | .effFreq => s.effFreq
  | .effPw => s.effPw
  | .noteOn => bitWord s.noteOn
  | .tableIndex => s.tableIndex.setWidth 64
  | .shCounter => s.shCounter.signExtend 64
  | .shValue => s.shValue
  | .pnReg => s.pnReg.setWidth 64
  | .noiseState => s.noiseState.setWidth 64
  | .dpwPrev => s.dpwPrev
  | .dpwToggle => s.dpwToggle
  | .wrapPending => bitWord s.wrapPending
  | .status => s.status.setWidth 64
  | .kind => BitVec.ofNat 64 s.kind.code
  | .out => s.out
  | .aux => s.aux

end Sys2Proof.Machine
end

