-- ==== Sys2Proof/Machine/Transcendental.lean ====
section
/-! DEFINITION. The exact-real functions of the spec, each evaluated in fixed point and rounded once to
binary64: the parameters EXP2 and LOG10 at their default, correct rounding (spec 00_scope.md R9,
40_generator_base.md R142 and R145), and the sines and cosines of the bank (R10, R233, R234).

A natural number n stands for n/2^p, p = `Config.precision` = 256 fractional bits. Every series is
cut off far below one unit of 2^-p, and every operation truncates by less than one such unit. That
256 bits suffice for the ONE rounding to be the correct one is UNVERIFIED, unsafe
(notes/assumptions/5.md). -/

namespace Sys2Proof.Machine

open Sys2Proof

/-- `k n`, with `n` evaluated first: it lets Lean's kernel run the series below on numerals without
carrying unevaluated terms along. `force_eq` (Laws/Numerics.lean): it is `k n`. -/
def force {α : Type} (n : Nat) (k : Nat → α) : α :=
  match n with
  | 0 => k 0
  | m + 1 => k (m + 1)

/-- 1.0 in fixed point. -/
def fixOne (p : Nat) : Nat := 2 ^ p

/-- Terms enough for every series below at p fractional bits. -/
def seriesTerms (p : Nat) : Nat := p / 2

/-! ### Logarithms and powers -/

/-- The tail of atanh(w) = Σ w^(2k+1)/(2k+1): `t` is w^k in fixed point, `w2` is w². -/
def atanhTail (p w2 : Nat) : Nat → Nat → Nat → Nat
  | 0, _, _ => 0
  | n + 1, t, k =>
    force (t * w2 / 2 ^ p) fun t' => force (k + 2) fun k' => t / k + atanhTail p w2 n t' k'

/-- atanh(num/den) in fixed point, for 0 ≤ num/den ≤ 1/3. -/
def atanhFix (p num den : Nat) : Nat :=
  force (num * 2 ^ p / den) fun w => force (w * w / 2 ^ p) fun w2 => atanhTail p w2 (seriesTerms p) w 1

/-- ln 2 = 2·atanh(1/3). -/
def ln2Fix (p : Nat) : Nat := 2 * atanhFix p 1 3

/-- ln 10 = 3·ln 2 + 2·atanh(1/9). -/
def ln10Fix (p : Nat) : Nat := 3 * ln2Fix p + 2 * atanhFix p 1 9

/-- The tail of e^y = Σ y^k/k!: `t` is y^(k-1)/(k-1)! in fixed point. -/
def expTail (p y : Nat) : Nat → Nat → Nat → Nat
  | 0, _, _ => 0
  | n + 1, t, k =>
    force (t * y / 2 ^ p / k) fun t' => force (k + 1) fun k' => t + expTail p y n t' k'

/-- 2^(r/2^1074) in fixed point, for 0 ≤ r < 2^1074: e^(r·ln 2). -/
def exp2FracFix (p r : Nat) : Nat :=
  force (r * 2 ^ p / unitsPerOne * ln2Fix p / 2 ^ p) fun y => force (fixOne p) fun t => expTail p y (seriesTerms p) t 1

/-- `EXP2(x)`: 2^x, correctly rounded (R142). With x = n + r, n its floor, 2^x is 2^n · 2^r; it is at
least 2^1024 when n ≥ 1024 and below half the least subnormal when n < -1075. -/
def fExp2 (x : F64) : F64 :=
  if fIsNaN x then Config.exp2OfNaN x
  else if fIsInf x then (if fSign x then fZero else fInf)
  else
    let n := fFloorInt x
    let r := (fInt x % (unitsPerOne : Int)).toNat
    if n ≥ 1024 then fInf
    else if n < -1075 then fZero
    else
      let scale := 2 ^ (n + 1075).toNat
      if r = 0 then fRound false scale 2
      else fRound false (exp2FracFix Config.precision r * scale) (2 * fixOne Config.precision)

/-- ln(m/2^e) in fixed point, for 2^e ≤ m < 2^(e+1): 2·atanh((m - 2^e)/(m + 2^e)). -/
def lnAboveFix (p m e : Nat) : Nat := 2 * atanhFix p (m - 2 ^ e) (m + 2 ^ e)

/-- -ln(m/2^(e+1)) in fixed point, for 2^e ≤ m < 2^(e+1). -/
def lnBelowFix (p m e : Nat) : Nat := 2 * atanhFix p (2 ^ (e + 1) - m) (2 ^ (e + 1) + m)

/-- `LOG10(x)`, correctly rounded (R145): ln x / ln 10, with x = m · 2^-1074 split at a power of two
on the side where both parts of ln x have one sign. -/
def fLog10 (x : F64) : F64 :=
  if fIsNaN x || fSign x || fMag x = 0 then Config.log10OutsideDomain x
  else if fIsInf x then fInf
  else
    let p := Config.precision
    let m := fMag x
    let e := m.log2
    if e < 1074 then
      fRound true ((lnBelowFix p m e + (1073 - e) * ln2Fix p) * unitsPerOne) (ln10Fix p)
    else
      fRound false ((lnAboveFix p m e + (e - 1074) * ln2Fix p) * unitsPerOne) (ln10Fix p)

/-! ### Sines and cosines -/

/-- The tail of arctan(1/d) = Σ (-1)^k/((2k+1)·d^(2k+1)): `t` is 1/d^k in fixed point. -/
def atanTail (d2 : Nat) : Nat → Nat → Nat → Nat
  | 0, _, _ => 0
  | n + 1, t, k => force (t / d2) fun t' => force (k + 2) fun k' => t / k - atanTail d2 n t' k'

/-- arctan(1/d) in fixed point. -/
def atanInvFix (p d : Nat) : Nat := force (2 ^ p / d) fun t => atanTail (d * d) (seriesTerms p) t 1

/-- π = 16·arctan(1/5) - 4·arctan(1/239). -/
def piFix (p : Nat) : Nat := 16 * atanInvFix p 5 - 4 * atanInvFix p 239

/-- The tail of the sine and cosine series: `t` is x^k/k! in fixed point, `x2` is x². -/
def trigTail (p x2 : Nat) : Nat → Nat → Nat → Nat
  | 0, _, _ => 0
  | _ + 1, 0, _ => 0
  | n + 1, t + 1, k =>
    force (k + 2) fun k' => (t + 1) - trigTail p x2 n ((t + 1) * x2 / 2 ^ p / ((k + 1) * k')) k'

/-- sin(2π·m/len) in fixed point for a turn of `len` steps and 0 ≤ m ≤ len/4; exactly 0 at m = 0 and
exactly 1 at m = len/4. -/
def quarterSineFix (p len m : Nat) : Nat :=
  if 8 * m ≤ len then
    force (2 * piFix p * m / len) fun x => force (x * x / 2 ^ p) fun x2 =>
      trigTail p x2 (seriesTerms p) x 1
  else
    force (2 * piFix p * (len / 4 - m) / len) fun x => force (x * x / 2 ^ p) fun x2 =>
      force (fixOne p) fun t => trigTail p x2 (seriesTerms p) t 0

/-- sin(2π·i/len) in fixed point with a sign, for any i; `len` is a multiple of 4. -/
def sineTurn (p len i : Nat) : Int :=
  let q := len / 4
  let r := i % q
  match i / q % 4 with
  | 0 => (quarterSineFix p len r : Int)
  | 1 => (quarterSineFix p len (q - r) : Int)
  | 2 => -(quarterSineFix p len r : Int)
  | _ => -(quarterSineFix p len (q - r) : Int)

/-- cos(2π·i/len) in fixed point with a sign. -/
def cosineTurn (p len i : Nat) : Int := sineTurn p len (i + len / 4)

end Sys2Proof.Machine
end

