-- ==== Sys2Proof/Machine/Ops.lean ====
section
/-! DEFINITION. The named operations that several instructions share: the response and the refusal of a
command, the state updates, the math utilities of spec 40_generator_base.md R140 to R148, the phase
accumulator R149 and the body of RESET R150. -/

namespace Sys2Proof.Machine

open Sys2Proof

/-! ### State updates -/

/-- The response word RDATA of a command (R102). -/
def State.respond (s : State) (v : Word) : State := { s with rdata := v }

/-- A new STATUS. -/
def State.setStatus (s : State) (st : BitVec 4) : State := { s with status := st }

/-- A new NOTE_ON. -/
def State.setNoteOn (s : State) (b : Bool) : State := { s with noteOn := b }

/-- A new PHASE with its wrap report (R149). -/
def State.setPhase (s : State) (p : F64) (wrapped : Bool) : State :=
  { s with phase := p, wrapPending := wrapped }

/-- A new WRAP_PENDING. -/
def State.setWrap (s : State) (b : Bool) : State := { s with wrapPending := b }

/-- The two outputs of an OSC (R63, R64). -/
def State.setOutputs (s : State) (o a : F64) : State := { s with out := o, aux := a }

/-- A new NOISE_STATE. -/
def State.setNoise (s : State) (x : Word32) : State := { s with noiseState := x }

/-- A new PN_REG. -/
def State.setPn (s : State) (x : Word32) : State := { s with pnReg := x }

/-- A new SH_COUNTER and SH_VALUE. -/
def State.setHold (s : State) (c : Word32) (v : F64) : State := { s with shCounter := c, shValue := v }

/-- A new DPW_PREV. -/
def State.setDpwPrev (s : State) (x : F64) : State := { s with dpwPrev := x }

/-- A new DPW_TOGGLE. -/
def State.setDpwToggle (s : State) (x : F64) : State := { s with dpwToggle := x }

/-- What UPDATE computes (R160, R165). -/
def State.setCombined (s : State) (m : RunMode) (f inc pw : F64) (k : Word32) : State :=
  { s with runMode := m, effFreq := f, increment := inc, effPw := pw, tableIndex := k }

/-- A new SAMPLE_RATE and the rate the bank is built for (R170). -/
def State.setRate (s : State) (rate bank : F64) : State :=
  { s with sampleRate := rate, bankRate := bank }

/-- The port without its oldest command. -/
def State.setPort (s : State) (cs : List Command) : State := { s with port := cs }

/-! ### Completing and refusing a command -/

/-- An accepted command that returns no register value: RDATA is 0 (R102). -/
def complete (s : State) : Host.Outcome State Fault Refusal := .next (s.respond 0#64)

/-- `refuse(BIT)`: the command sets its one STATUS bit, drives RDATA = 0 and changes nothing else (R8,
R351). The block has no other exception entry, and nothing to return from (R350, R358). -/
def refuse (c : RefusalCode) (s : State) : Host.Outcome State Fault Refusal :=
  .next ((s.setStatus (statusRefused c s.status)).respond 0#64)

/-! ### Math utilities -/

/-- `wrap01(x)` (R140). -/
def wrap01 (x : F64) : F64 :=
  let y := fSub x (fFloor x)
  if fLe fOne y then fZero else y

/-- `toBipolar(u) = (2.0 × u) - 1.0` (R141). -/
def toBipolar (u : F64) : F64 := fSub (fMul fTwo u) fOne

/-- `toUnipolar(b) = (0.5 × b) + 0.5` (R141). -/
def toUnipolar (b : F64) : F64 := fAdd (fMul fHalf b) fHalf

/-- `pitchShiftMultiplier(s) = EXP2(s / 12.0)` (R142). -/
def pitchShiftMultiplier (x : F64) : F64 := fExp2 (fDiv x fTwelve)

/-- `parSine(t)` (R143). -/
def parSine (t : F64) : F64 :=
  let t4 := fMul fFour t
  let y := fSub t4 (fMul t4 (fAbs t))
  fAdd (fMul Config.sineP (fSub (fMul y (fAbs y)) y)) y

/-- `roundHalfAway(x)` for finite x ≥ 0: floor(x + 0.5) over the reals (R144). -/
def roundHalfAway (x : F64) : Nat := (2 * fMag x + unitsPerOne) / (2 * unitsPerOne)

/-- `concave(p)` (R145). At p = 0.25 the rule's value differs in the last bit from the one R310 prints, which no
correctly rounded LOG10 gives; the rule is followed (DEDUCED, unsafe: notes/assumptions/8.md). -/
def concave (p : F64) : F64 :=
  let v := fMul Config.concaveK (fLog10 (fSub fOne p))
  if fLe v fMinusOne then fOne else fSub fZero v

/-- What `scaleOut` stores: its product, but a NaN product is some quiet NaN, whose sign and payload no
rule fixes (DESIGN CHOICE, safe: notes/assumptions/4.md). -/
def settleNaN (v amp mod x : F64) : F64 :=
  if fIsNaN x then fNaN ||| Config.nanBits v amp mod else x

/-- `scaleOut(v) = (v × AMPLITUDE) × MOD_AMP` (R146). -/
def scaleOut (s : State) (v : F64) : F64 :=
  settleNaN v s.amplitude s.modAmp (fMul (fMul v s.amplitude) s.modAmp)

/-! ### Noise generators -/

/-- One xorshift32 step (R147). -/
def xorshift32 (x : Word32) : Word32 :=
  let a := x ^^^ (x <<< 13)
  let b := a ^^^ (a >>> 17)
  b ^^^ (b <<< 5)

/-- One step of the Fibonacci LFSR (R148). -/
def lfsrNext (r : Word32) : Word32 :=
  let fb := (r ^^^ (r >>> 1) ^^^ (r >>> 27) ^^^ (r >>> 28)) &&& 1#32
  (r >>> 1) ||| (fb <<< 31)

/-- The value of a draw: (f64(x) × 2^-31) - 1.0 (R147, R148). -/
def noiseValue (x : Word32) : F64 := fSub (fMul (f64OfInt x.toNat) fTwoPowNeg31) fOne

/-- `drawWhite()`: the value and the state with NOISE_STATE stepped (R147). -/
def drawWhite (s : State) : F64 × State :=
  (noiseValue (xorshift32 s.noiseState), s.setNoise (xorshift32 s.noiseState))

/-- `drawPN()`: the value and the state with PN_REG stepped (R148). -/
def drawPN (s : State) : F64 × State :=
  (noiseValue (lfsrNext s.pnReg), s.setPn (lfsrNext s.pnReg))

/-! ### The phase accumulator -/

/-- The new PHASE and the wrap report for an un-normalized sum q (R149). -/
def normalizePhase (q : F64) : F64 × Bool :=
  if fLe fZero q && fLt q fOne then (q, false) else (wrap01 q, true)

/-- `advancePhase()` (R149). -/
def advancePhase (s : State) : State :=
  let r := normalizePhase (fAdd s.phase s.increment)
  s.setPhase r.1 r.2

/-! ### RESET's body -/

/-- `startPhase()`: the phase RESET installs (R151). The WT codes 6 to 8, which WAVEFORM never holds on a
WT (R39), stand with the codes that are no saw and no triangle. -/
def startPhase (k : Kind) (w : Waveform) : F64 :=
  match k with
  | .wt =>
    match w with
    | .sawUp | .sawDown | .triangle => Config.midPhase
    | .sine | .square | .whiteNoise | .heldNoise | .heldPn | .expo => fZero
  | .qbl => Config.midPhase
  | .lfo => fZero

/-- `resetCore()` (R150). -/
def resetCore (s : State) : State :=
  { s with
    phase := startPhase s.kind s.waveform
    wrapPending := false
    dpwPrev := fZero
    dpwToggle := fOne
    noiseState := s.seed
    pnReg := s.seed
    shCounter := 0xFFFFFFFF#32
    modAmp := fOne
    modFoExp := fZero
    modPitchBend := fZero
    modFoLin := fZero
    modPhase := fZero
    modPw := fZero }

/-! ### The read phase of the pitched kinds -/

/-- The read phase wrap01(PHASE + MOD_PHASE) of WT and QBL (R238, R273). -/
def readPhase (s : State) : F64 := wrap01 (fAdd s.phase s.modPhase)

end Sys2Proof.Machine
end

