-- ==== Sys2Proof/Machine/Lfo.lean ====
section
/-! DEFINITION. The LFO engine: its START, shapes, sample and hold and OSC (spec 44_lfo.md R300 to R314). -/

namespace Sys2Proof.Machine

open Sys2Proof

/-! ### Shapes (R305 to R310) -/

/-- Sine: parSine(1.0 - (2.0 × x)) (R305). -/
def sineShape (x : F64) : F64 := parSine (fSub fOne (fMul fTwo x))

/-- Saw-up: bipolar, but the bare phase in shot mode (R306). -/
def sawUpShape (m : RunMode) (x : F64) : F64 :=
  match m with
  | .shot => x
  | .sync | .free => toBipolar x

/-- Saw-down: 1 - 2x, but 1 - x in shot mode (R307). -/
def sawDownShape (m : RunMode) (x : F64) : F64 :=
  match m with
  | .shot => fSub fOne x
  | .sync | .free => fSub fOne (fMul fTwo x)

/-- The bipolar triangle (2.0 × abs((2.0 × x) - 1.0)) - 1.0 (R308). -/
def bipolarTriangle (x : F64) : F64 := fSub (fMul fTwo (fAbs (toBipolar x))) fOne

/-- Triangle: bipolar, but unipolar in shot mode (R308). -/
def triangleShape (m : RunMode) (x : F64) : F64 :=
  match m with
  | .shot => toUnipolar (bipolarTriangle x)
  | .sync | .free => bipolarTriangle x

/-- Square: +1.0 if x ≤ EFF_PW/100.0, else -1.0 (R309). -/
def squareShape (pw x : F64) : F64 := if fLe x (fDiv pw fHundred) then fOne else fMinusOne

/-- `shape(x)`, selected by WAVEFORM and RUN_MODE (R303, R305 to R310). The held-noise codes do not reach
it (R303), and code 5 is never the WAVEFORM of an LFO (R39; DESIGN CHOICE, safe: notes/assumptions/7.md). -/
def lfoShape (s : State) (x : F64) : F64 :=
  match s.waveform with
  | .sine => sineShape x
  | .sawUp => sawUpShape s.runMode x
  | .sawDown => sawDownShape s.runMode x
  | .triangle => triangleShape s.runMode x
  | .square => squareShape s.effPw x
  | .expo => concave x
  | .whiteNoise | .heldNoise | .heldPn => Config.unlistedSample s.kind.code s.waveform.code x

/-- The quadrature phase wrap01(p + 0.25) (R304). -/
def quadPhase (p : F64) : F64 := wrap01 (fAdd p Config.quadOffset)

/-! ### Sample and hold (R311 to R313) -/

/-- `holdCount()` from SAMPLE_RATE and EFF_FREQ (R311). -/
def holdCount (rate freq : F64) : Nat :=
  let h := fDiv rate (fAbs freq)
  if fIsFinite h then min Config.holdMax (max 1 (roundHalfAway h)) else Config.holdMax

/-- A new value is drawn when SH_COUNTER < 0 or SH_COUNTER ≥ n (R312). -/
def holdExpired (s : State) : Bool :=
  decide (s.shCounter.toInt < 0) || decide ((holdCount s.sampleRate s.effFreq : Int) ≤ s.shCounter.toInt)

/-- The draw of the held-noise waveforms: drawWhite for 6, drawPN for 7 (R312, R313). -/
def heldDraw (s : State) : F64 × State :=
  match s.waveform with
  | .heldNoise => drawWhite s
  | .sine | .sawUp | .sawDown | .triangle | .square | .whiteNoise | .heldPn | .expo => drawPN s

/-- `heldValue()`: the state after it; the value is its SH_VALUE (R312). -/
def holdStep (s : State) : State :=
  if holdExpired s then
    let d := heldDraw s
    d.2.setHold 1#32 d.1
  else s.setHold (s.shCounter + 1#32) s.shValue

/-- WAVEFORM is 6 or 7. -/
def isHeld (w : Waveform) : Bool :=
  match w with
  | .heldNoise | .heldPn => true
  | .sine | .sawUp | .sawDown | .triangle | .square | .whiteNoise | .expo => false

/-! ### START and OSC -/

/-- `lfoStart()` before the gate is set: a free-running LFO is not reset (R301). -/
def lfoStart (s : State) : State :=
  match s.runMode with
  | .free => s
  | .sync | .shot => resetCore s

/-- One-shot completion (R314): the gate closes and both outputs are +0.0. -/
def completeShot (s : State) : State := (s.setNoteOn false).setOutputs fZero fZero

/-- The two samples before scaling, OUT's and AUX's, and the state after the sample and hold (R303). -/
def lfoSample (s : State) : F64 × F64 × State :=
  if isHeld s.waveform then
    let t := holdStep s
    (t.shValue, t.shValue, t)
  else (lfoShape s s.phase, lfoShape s (quadPhase s.phase), s)

/-- `lfoOsc()` (R303). -/
def lfoOsc (s : State) : State :=
  let w := s.wrapPending
  let s1 := s.setWrap false
  if s.runMode = .shot ∧ w = true then completeShot s1
  else
    let r := lfoSample s1
    (advancePhase r.2.2).setOutputs (scaleOut s r.1) (scaleOut s r.2.1)

end Sys2Proof.Machine
end

