-- ==== Sys2Proof/Machine/QuasiBandLimited.lean ====
section
/-! DEFINITION. The render of the quasi-band-limited kind (spec 43_qbl.md R270 to R278). -/

namespace Sys2Proof.Machine

open Sys2Proof

/-- The raw value of `sawSegment(pr)` (R274). -/
def sawRaw (pr : F64) : F64 := fMul (toBipolar pr) (toBipolar pr)

/-- The sign T of the half cycle that pr is in (R275). -/
def triSign (pr : F64) : F64 := if fLt pr fHalf then fOne else fMinusOne

/-- The raw value of `triSegment(pr)` (R275). -/
def triRaw (pr : F64) : F64 :=
  let hs := if fLt pr fHalf then fZero else fOne
  let u := fSub (fMul fTwo pr) hs
  let b := toBipolar u
  fMul (triSign pr) (fSub fOne (fMul b b))

/-- The value of `differentiate(raw, δ)` against the previous raw sample (R276). -/
def dpwDifference (prev raw delta : F64) : F64 :=
  let d := fSub raw prev
  if fLt (fAbs delta) Config.dpwIncMin || fLt (fAbs (fSub fOne delta)) Config.dpwIncMin then fZero
  else fDiv d (fMul (fMul fFour delta) (fSub fOne delta))

/-- The segment of the read phase: the raw value, δ, and the state with DPW_TOGGLE as the segment leaves
it (R273 to R275). -/
def qblSegment (s : State) (pr : F64) : F64 × F64 × State :=
  match s.waveform with
  | .sawUp | .sawDown => (sawRaw pr, s.increment, s)
  | .sine | .triangle | .square | .whiteNoise | .heldNoise | .heldPn | .expo =>
    (triRaw pr, fMul fTwo s.increment, s.setDpwToggle (triSign pr))

/-- What the waveform does to the differentiated value: the triangle is clamped (R278), the saw-down
negated (R277). -/
def qblShape (w : Waveform) (y : F64) : F64 :=
  match w with
  | .triangle => fMin (fMax y fMinusOne) fOne
  | .sawDown => fNeg y
  | .sawUp | .sine | .square | .whiteNoise | .heldNoise | .heldPn | .expo => y

/-- `qblOsc()` (R273). -/
def qblOsc (s : State) : State :=
  let seg := qblSegment s (readPhase s)
  let y := qblShape s.waveform (dpwDifference s.dpwPrev seg.1 seg.2.1)
  let o := scaleOut s y
  (advancePhase (seg.2.2.setDpwPrev seg.1)).setOutputs o o

end Sys2Proof.Machine
end

