-- ==== Sys2Proof/Machine/Bank.lean ====
section
/-! DEFINITION. The wavetable bank as a function of the sample rate it was built for (spec
42_wavetable.md R230 to R238; R236 allows entries on demand) and the table selector. The bank's rules
are over the real numbers and round once (R10); see Transcendental.lean for how they are evaluated. -/

namespace Sys2Proof.Machine

open Sys2Proof

/-! ### Bands (R231, R232) -/

/-- S_j = FO_MAX × 2^(j - (N_TABLES - 1)), the highest fundamental table j serves (R231). -/
def bandCeiling (j : Nat) : F64 := fRound false (fMag Config.foMax * 2 ^ j) (2 ^ (Config.nTables - 1))

/-- H_j: the largest integer h ≥ 1 with h × S_j < SAMPLE_RATE/2, or 1 if there is none (R232). -/
def harmonics (rate : F64) (j : Nat) : Nat :=
  max 1 ((fMag rate - 1) / (2 * fMag (bandCeiling j)))

/-- `selectTable(f)`: the smallest j with abs(f) ≤ S_j among `fuel` tables from `j` on (R237). -/
def selectFrom (a : F64) : Nat → Nat → Nat
  | 0, _ => Config.nTables - 1
  | fuel + 1, j => if fLe a (bandCeiling j) then j else selectFrom a fuel (j + 1)

/-- `selectTable(f)` (R237). -/
def selectTable (f : F64) : Nat := selectFrom (fAbs f) Config.nTables 0

/-! ### The series (R233, R234) -/

/-! The sums over harmonics run on values offset by 2, so that they stay natural numbers: `u` stands for
u/2^p - 2. With κ = 2 - 2·cos θ, both x = sin(hθ) and x = cos(hθ) satisfy x_{h+1} = 2·x_h - x_{h-1} - κ·x_h,
which in offset form is `turnNext`. -/

/-- A value in offset form. -/
def offset (p : Nat) (x : Int) : Nat := (x + 2 * (fixOne p : Int)).toNat

/-- The next value of the recurrence in offset form; `kappa` is κ in fixed point. -/
def turnNext (p kappa u u1 : Nat) : Nat := (2 * u + 2 * kappa) - (u1 + kappa * u / 2 ^ p)

/-- 2 - 2·cos(2π·i/len) in fixed point. -/
def kappaOf (p len i : Nat) : Nat := (2 * (fixOne p : Int) - 2 * cosineTurn p len i).toNat

/-- `acc` + Σ of u_h/h over n harmonics from h on: `u` and `u1` are sin(hθ) and sin((h-1)θ) in offset form. -/
def sawTail (p kappa : Nat) : Nat → Nat → Nat → Nat → Nat → Nat
  | 0, _, _, _, acc => acc
  | n + 1, h, u, u1, acc =>
    force (acc + u / h) fun acc' => force (turnNext p kappa u u1) fun u' => force (h + 1) fun h' =>
      sawTail p kappa n h' u' u acc'

/-- -V_j(i) = Σ over h = 1..H of sin(2π·h·i/L)/h in fixed point, for H = `hs`; the second sum takes the
offset of the first away (it is the first for a turn of angle 0). -/
def sawSum (p len hs i : Nat) : Int :=
  force (kappaOf p len i) fun kappa => force (offset p (sineTurn p len i)) fun u =>
    (sawTail p kappa hs 1 u (offset p 0) 0 : Int) - (sawTail p 0 hs 1 (offset p 0) (offset p 0) 0 : Int)

/-- `acc` + Σ of u_k/k² over n odd harmonics from k on: `u` and `u1` are cos(kθ) and cos((k-2)θ) in offset
form, and `kappa` is 2 - 2·cos 2θ. -/
def triTail (p kappa : Nat) : Nat → Nat → Nat → Nat → Nat → Nat
  | 0, _, _, _, acc => acc
  | n + 1, k, u, u1, acc =>
    force (acc + u / (k * k)) fun acc' => force (turnNext p kappa u u1) fun u' => force (k + 2) fun k' =>
      triTail p kappa n k' u' u acc'

/-- W_j(i) = Σ over odd k ≤ H of cos(2π·k·i/L)/k² in fixed point, for H = `hs`; the second sum takes the
offset of the first away. -/
def triSum (p len hs i : Nat) : Int :=
  force (kappaOf p len (2 * i)) fun kappa => force (offset p (cosineTurn p len i)) fun u =>
    (triTail p kappa ((hs + 1) / 2) 1 u u 0 : Int)
      - (triTail p 0 ((hs + 1) / 2) 1 (offset p 0) (offset p 0) 0 : Int)

/-- The largest of f 0, …, f n. -/
def maxUpTo (f : Nat → Nat) : Nat → Nat
  | 0 => f 0
  | n + 1 => force (maxUpTo f n) fun a => force (f (n + 1)) fun b => max b a

/-- max over i of abs(V_j(i)) (R234). The first half turn has it, since V_j(L - i) = -V_j(i). -/
def sawPeak (p len hs : Nat) : Nat := maxUpTo (fun i => (sawSum p len hs i).natAbs) (len / 2)

/-- max over i of abs(W_j(i)) (R234). The first quarter turn has it, since W_j(L/2 - i) = -W_j(i) and
W_j(L - i) = W_j(i), W_j holding odd harmonics only. -/
def triPeak (p len hs : Nat) : Nat := maxUpTo (fun i => (triSum p len hs i).natAbs) (len / 4)

/-- round64 of v/peak; round64(0) is +0.0. -/
def normalized (v : Int) (peak : Nat) : F64 :=
  if v = 0 then fZero else round64 (decide (v < 0)) v.natAbs peak

/-! ### The entries -/

/-- SINE[i] = round64(sin(2π·i/L)) (R233). -/
def sineEntry (i : Nat) : F64 :=
  normalized (sineTurn Config.precision Config.tableLen i) (fixOne Config.precision)

/-- SAW_j[i] for H_j = `hs`, with the peak of V_j given (R234). V_j is exactly 0 at i = 0 and i = L/2, and
V_j(L - i) = -V_j(i) gives the second half turn. -/
def sawEntryAt (peak hs i : Nat) : F64 :=
  let m := i % Config.tableLen
  if m % (Config.tableLen / 2) = 0 then fZero
  else if m < Config.tableLen / 2 then
    normalized (-sawSum Config.precision Config.tableLen hs m) peak
  else fNeg (normalized (-sawSum Config.precision Config.tableLen hs (Config.tableLen - m)) peak)

/-- The peak of V_j, for H_j = `hs`. -/
def sawPeakOf (hs : Nat) : Nat := sawPeak Config.precision Config.tableLen hs

/-- SAW_j[i] of the bank built for `rate` (R234). -/
def sawEntry (rate : F64) (j i : Nat) : F64 :=
  sawEntryAt (sawPeakOf (harmonics rate j)) (harmonics rate j) i

/-- The peak of W_j, for H_j = `hs`. -/
def triPeakOf (hs : Nat) : Nat := triPeak Config.precision Config.tableLen hs

/-- TRI_j[i] for H_j = `hs` in the first quarter turn, 0 ≤ i ≤ L/4, with the peak of W_j given. W_j is
exactly 0 at i = L/4 (R234). -/
def triQuarterAt (peak hs i : Nat) : F64 :=
  if i = Config.tableLen / 4 then fZero
  else normalized (triSum Config.precision Config.tableLen hs i) peak

/-- TRI_j[i] for H_j = `hs`, with the peak of W_j given (R234): W_j(L - i) = W_j(i) and
W_j(L/2 - i) = -W_j(i) give the turn from its first quarter. -/
def triEntryAt (peak hs i : Nat) : F64 :=
  let m := i % Config.tableLen
  let h := if m ≤ Config.tableLen / 2 then m else Config.tableLen - m
  if h ≤ Config.tableLen / 4 then triQuarterAt peak hs h
  else fNeg (triQuarterAt peak hs (Config.tableLen / 2 - h))

/-- TRI_j[i] of the bank built for `rate` (R234). -/
def triEntry (rate : F64) (j i : Nat) : F64 :=
  triEntryAt (triPeakOf (harmonics rate j)) (harmonics rate j) i

/-- D_j in units of 2^-1074: max over i of abs(SAW_j[(i + L/2) mod L] - SAW_j[i]), computed exactly from
the binary64 entries (R235). The first half turn has it, since i and i + L/2 give one magnitude. -/
def sawSpread (peak hs : Nat) : Nat :=
  maxUpTo
    (fun i => (fInt (sawEntryAt peak hs ((i + Config.tableLen / 2) % Config.tableLen))
      - fInt (sawEntryAt peak hs i)).natAbs)
    (Config.tableLen / 2 - 1)

/-- CORR_j = round64(1/D_j) of the bank built for `rate` (R235). -/
def corrFactor (rate : F64) (j : Nat) : F64 :=
  let hs := harmonics rate j
  round64 false unitsPerOne (sawSpread (sawPeakOf hs) hs)

/-! ### Reading (R238) -/

/-- `tableRead(T, i, f) = (f × T[(i + 1) mod L]) + ((1.0 - f) × T[i])` (R238). -/
def tableRead (t : Nat → F64) (i : Nat) (f : F64) : F64 :=
  fAdd (fMul f (t ((i + 1) % Config.tableLen))) (fMul (fSub fOne f) (t i))

end Sys2Proof.Machine
end

