-- ==== Sys2Proof/Machine/Wavetable.lean ====
section
/-! DEFINITION. The render of the wavetable kind (spec 42_wavetable.md R240 to R249). -/

namespace Sys2Proof.Machine

open Sys2Proof

/-- The integer part i0 of the read index r = pr × L (R238). -/
def readIndex (pr : F64) : Nat := (fFloorInt (fMul pr (f64OfInt Config.tableLen))).toNat

/-- The fraction f of the read index r = pr × L (R238). -/
def readFraction (pr : F64) : F64 :=
  let r := fMul pr (f64OfInt Config.tableLen)
  fSub r (fFloor r)

/-- An interpolated read of SAW_k, the bank being the one built for `rate` (R245). -/
def sawRead (rate : F64) (k i : Nat) (f : F64) : F64 :=
  force (sawPeakOf (harmonics rate k)) fun peak =>
    tableRead (fun n => sawEntryAt peak (harmonics rate k) n) i f

/-- An interpolated read of TRI_k, the bank being the one built for `rate` (R247). -/
def triRead (rate : F64) (k i : Nat) (f : F64) : F64 :=
  force (triPeakOf (harmonics rate k)) fun peak =>
    tableRead (fun n => triEntryAt peak (harmonics rate k) n) i f

/-- `square(k, i0, f)` (R248). -/
def squareSample (rate : F64) (k i : Nat) (f : F64) : F64 :=
  let j := (i + Config.tableLen / 2) % Config.tableLen
  let d := fSub (sawRead rate k j f) (sawRead rate k i f)
  fClamp fMinusOne fOne (fMul (corrFactor rate k) d)

/-- The sample of a table waveform at a read phase; WAVEFORM holds one of R240's codes (R39), and for
another code no rule gives a value (DESIGN CHOICE, safe: notes/assumptions/7.md). -/
def tableSample (s : State) (pr : F64) : F64 :=
  let i := readIndex pr
  let f := readFraction pr
  let k := s.tableIndex.toNat
  match s.waveform with
  | .sine => tableRead sineEntry i f
  | .sawUp => sawRead s.bankRate k i f
  | .sawDown => fNeg (sawRead s.bankRate k i f)
  | .triangle => triRead s.bankRate k i f
  | .square => squareSample s.bankRate k i f
  | .whiteNoise | .heldNoise | .heldPn | .expo =>
    Config.unlistedSample s.kind.code s.waveform.code pr

/-- The sample of a WT OSC, with the state after it is drawn: white noise steps NOISE_STATE (R249), every
other waveform reads tables (R244 to R248). -/
def wtSample (s : State) : F64 × State :=
  match s.waveform with
  | .whiteNoise => drawWhite s
  | .sine | .sawUp | .sawDown | .triangle | .square | .heldNoise | .heldPn | .expo =>
    (tableSample s (readPhase s), s)

/-- `wtOsc()` (R243). -/
def wtOsc (s : State) : State :=
  let r := wtSample s
  let o := scaleOut s r.1
  (advancePhase r.2).setOutputs o o

end Sys2Proof.Machine
end

