-- ==== Sys2Proof/Machine/Generator.lean ====
section
/-! DEFINITION. The commands of the generator base: RESET, START, STOP, UPDATE (the modulation stack
combiner), SETSR and OSC (spec 40_generator_base.md R150 to R176). -/

namespace Sys2Proof.Machine

open Sys2Proof

/-! ### RESET, START, STOP -/

/-- RESET (R150). -/
def execReset (s : State) : Host.Outcome State Fault Refusal := complete (resetCore s)

/-- What START does before it sets the gate (R155, R241, R271, R301). -/
def startBody (s : State) : State :=
  match s.kind with
  | .wt => resetCore s
  | .qbl => resetCore s
  | .lfo => lfoStart s

/-- START (R155). -/
def execStart (s : State) : Host.Outcome State Fault Refusal :=
  complete ((startBody s).setNoteOn true)

/-- STOP (R156), for every kind (R242, R272, R302). -/
def execStop (s : State) : Host.Outcome State Fault Refusal := complete (s.setNoteOn false)

/-! ### UPDATE, the modulation stack combiner -/

/-- The run mode after UPDATE: an LFO with a held-noise waveform is forced to free (R164). -/
def updatedRunMode (s : State) : RunMode :=
  match s.kind with
  | .lfo => if isHeld s.waveform then .free else s.runMode
  | .wt => s.runMode
  | .qbl => s.runMode

/-- The semitone sum, left to right (R161). -/
def semitoneSum (s : State) : F64 :=
  fAdd (fAdd (fAdd (fAdd s.modFoExp s.modPitchBend) (fMul (f64OfInt s.octave.toInt) fTwelve))
    (f64OfInt s.semitone.toInt)) (fDiv (f64OfInt s.cent.toInt) fHundred)

/-- The frequency before its clamp: (TARGET_FREQ × FREQ_RATIO) × m + MOD_FO_LIN (R162). -/
def rawFrequency (s : State) : F64 :=
  fAdd (fMul (fMul s.targetFreq s.freqRatio) (pitchShiftMultiplier (semitoneSum s))) s.modFoLin

/-- The clamp of a raw frequency to ±FO_MAX; a NaN becomes +0.0 first (R162). -/
def clampFrequency (f : F64) : F64 :=
  fClamp (fNeg Config.foMax) Config.foMax (if fIsNaN f then fZero else f)

/-- The clamp of a raw pulse width to [PW_MIN, PW_MAX] (R163). -/
def clampPulseWidth (pw : F64) : F64 := fClamp Config.pwMin Config.pwMax pw

/-- The pulse-width combiner (R163). -/
def combinedPulseWidth (s : State) : F64 :=
  clampPulseWidth (fAdd s.pwTarget (fMul s.modPw Config.pwmScale))

/-- TABLE_INDEX after UPDATE: only a WT selects a table (R160, R237). -/
def updatedTableIndex (s : State) (f : F64) : Word32 :=
  match s.kind with
  | .wt => BitVec.ofNat 32 (selectTable f)
  | .qbl => s.tableIndex
  | .lfo => s.tableIndex

/-- The effect of UPDATE (R160). -/
def updateCore (s : State) : State :=
  let f := clampFrequency (rawFrequency s)
  (s.setCombined (updatedRunMode s) f (fDiv f s.sampleRate) (combinedPulseWidth s)
    (updatedTableIndex s f)).setStatus (statusUpdated s.status)

/-- UPDATE (R160). -/
def execUpdate (s : State) : Host.Outcome State Fault Refusal := complete (updateCore s)

/-! ### SETSR -/

/-- A rate SETSR accepts: finite and in [SR_MIN, SR_MAX] (check 7 of R352). -/
def rateLegal (v : F64) : Bool := fIsFinite v && !(fLt v Config.srMin) && !(fLt Config.srMax v)

/-- The rate the bank is built for after SETSR: `buildBank()` runs on a WT only (R170, R236). -/
def builtRate (s : State) (v : F64) : F64 :=
  match s.kind with
  | .wt => v
  | .qbl => s.bankRate
  | .lfo => s.bankRate

/-- SETSR (R170). -/
def execSetsr (rate : Word) (s : State) : Host.Outcome State Fault Refusal :=
  if rateLegal rate then
    complete ((s.setRate rate (builtRate s rate)).setStatus (statusPending s.status))
  else refuse .badValue s

/-! ### OSC -/

/-- The rendering OSC of each kind (R175). -/
def oscRender (s : State) : State :=
  match s.kind with
  | .wt => wtOsc s
  | .qbl => qblOsc s
  | .lfo => lfoOsc s

/-- OSC (R175); with NOTE_ON = 0 it is silent (R176). -/
def execOsc (s : State) : Host.Outcome State Fault Refusal :=
  if s.noteOn then complete (oscRender s) else complete (s.setOutputs fZero fZero)

end Sys2Proof.Machine
end

