-- ==== Sys2Proof/Machine/RegisterAccess.lean ====
section
/-! DEFINITION. NOP, WREG and RREG (spec 41_register_access.md R200 to R215). The six modulation setters
are WREGs (R215), so they need no meaning of their own. -/

namespace Sys2Proof.Machine

open Sys2Proof

/-- NOP (R200): no effect; RDATA is 0. -/
def execNop (s : State) : Host.Outcome State Fault Refusal := complete s

/-- WREG (R201, checks 4 and 6 of R352). -/
def execWreg (sel : RegSel) (data : Word) (s : State) : Host.Outcome State Fault Refusal :=
  match sel with
  | .unassigned _ => refuse .badCmd s
  | .assigned r =>
    match writeReg r data s with
    | .error c => refuse c s
    | .ok s' => complete s'

/-- RREG (R210, check 5 of R352). -/
def execRreg (sel : RegSel) (s : State) : Host.Outcome State Fault Refusal :=
  match sel with
  | .unassigned _ => refuse .badCmd s
  | .assigned r => .next (s.respond (readReg r s))

end Sys2Proof.Machine
end

