-- ==== Sys2Proof/Machine/Dispatch.lean ====
section
/-! DEFINITION. The meaning of each instruction: one arm per row of spec/opcode_table.json. -/

namespace Sys2Proof.Machine

open Sys2Proof

def exec (i : Instr) (s : State) : Host.Outcome State Fault Refusal :=
  match i with
  | .nop => Sys2Proof.Machine.execNop s
  | .reset => Sys2Proof.Machine.execReset s
  | .update => Sys2Proof.Machine.execUpdate s
  | .start => Sys2Proof.Machine.execStart s
  | .stop => Sys2Proof.Machine.execStop s
  | .osc => Sys2Proof.Machine.execOsc s
  | .setsr rate => Sys2Proof.Machine.execSetsr rate s
  | .wreg sel data => Sys2Proof.Machine.execWreg sel data s
  | .rreg sel => Sys2Proof.Machine.execRreg sel s

end Sys2Proof.Machine
end

