-- ==== Sys2Proof/Machine/Port.lean ====
section
/-! DEFINITION. The command port: how a command word that is not a command is carried out, how the
opcode table's words are presented, and the response the host reads (spec 30_encoding.md R100, R102, R105, 60_exceptions.md R351, R352). -/

namespace Sys2Proof.Machine

open Sys2Proof

/-- What the block does with the verdict of the decoder: an Illegal word is refused with BADCMD (R105,
checks 1 to 3 of R352). -/
def carryOut (run : Instr → State → Host.Outcome State Fault Refusal)
    (v : Except DecodeError Instr) (s : State) : Host.Outcome State Fault Refusal :=
  match v with
  | .ok i => run i s
  | .error _ => refuse .badCmd s

/-- The response words as the host finds them after a command (R102): RDATA, and the registers OUT and AUX. -/
def State.response (s : State) : Response := { rdata := s.rdata, out := s.out, aux := s.aux }

/-- The state with a command presented before those already waiting. -/
def presentFirst (c : Command) (s : State) : State := s.setPort (c :: s.port)

end Sys2Proof.Machine
end

