-- ==== Sys2Proof/Machine/Step.lean ====
section
/-! DEFINITION. One step: the block takes the oldest command the host has presented and carries it out,
atomically (spec 00_scope.md R13, 20_memory.md R84, R88). -/

namespace Sys2Proof.Machine

open Sys2Proof

/-- One step. With no command presented the block waits and nothing happens (R356, R381). -/
def step (s : State) : Host.Outcome State Fault Refusal :=
  match s.port with
  | [] => .next s
  | c :: rest => carryOut exec (decode c) (s.setPort rest)

/-- The state with the opcode table's word `w` presented as the next command, DATA being the bits above
CMD. That it goes before any commands that wait is a DESIGN CHOICE, unsafe for a claim that presents it while others
wait (notes/assumptions/2.md, which says how a program comes to run). -/
def State.withFetchWord (s : State) (nbits w : Nat) : State := presentFirst (tableCommand nbits w) s

end Sys2Proof.Machine
end

