-- ==== Sys2Proof/Machine/Assembler.lean ====
section
/-! DEFINITION. The assembler syntax of commands (spec 30_encoding.md R120 to R127): one command a line,
with its operand forms, pseudo-instructions, raw forms and instance prefix; the listing form; and the
disassembly. The block itself never sees a line: it takes the words. -/

namespace Sys2Proof.Machine

open Sys2Proof

/-- A word of a line. -/
abbrev Chars := List Char

/-! ### Names -/

/-- The name of a register (10_state.md). -/
def regName : Reg → Chars
  | .sampleRate => "SAMPLE_RATE".toList
  | .targetFreq => "TARGET_FREQ".toList
  | .freqRatio => "FREQ_RATIO".toList
  | .octave => "OCTAVE".toList
  | .semitone => "SEMITONE".toList
  | .cent => "CENT".toList
  | .amplitude => "AMPLITUDE".toList
  | .pwTarget => "PW_TARGET".toList
  | .waveform => "WAVEFORM".toList
  | .runMode => "RUN_MODE".toList
  | .seed => "SEED".toList
  | .modAmp => "MOD_AMP".toList
  | .modFoExp => "MOD_FO_EXP".toList
  | .modPitchBend => "MOD_PITCH_BEND".toList
  | .modFoLin => "MOD_FO_LIN".toList
  | .modPhase => "MOD_PHASE".toList
  | .modPw => "MOD_PW".toList
  | .phase => "PHASE".toList
  | .increment => "INCREMENT".toList
  | .effFreq => "EFF_FREQ".toList
  | .effPw => "EFF_PW".toList
  | .noteOn => "NOTE_ON".toList
  | .tableIndex => "TABLE_INDEX".toList
  | .shCounter => "SH_COUNTER".toList
  | .shValue => "SH_VALUE".toList
  | .pnReg => "PN_REG".toList
  | .noiseState => "NOISE_STATE".toList
  | .dpwPrev => "DPW_PREV".toList
  | .dpwToggle => "DPW_TOGGLE".toList
  | .wrapPending => "WRAP_PENDING".toList
  | .status => "STATUS".toList
  | .kind => "KIND".toList
  | .out => "OUT".toList
  | .aux => "AUX".toList

/-- Every assigned register, in the order of the register map. -/
def allRegs : List Reg :=
  [.sampleRate, .targetFreq, .freqRatio, .octave, .semitone, .cent, .amplitude, .pwTarget, .waveform,
    .runMode, .seed, .modAmp, .modFoExp, .modPitchBend, .modFoLin, .modPhase, .modPw, .phase,
    .increment, .effFreq, .effPw, .noteOn, .tableIndex, .shCounter, .shValue, .pnReg, .noiseState,
    .dpwPrev, .dpwToggle, .wrapPending, .status, .kind, .out, .aux]

/-- The register with a given name. -/
def regOfName (w : Chars) : Option Reg := allRegs.find? fun r => regName r == w

/-- A value found by its name in a list. -/
def lookupName {α : Type} (w : Chars) : List (Chars × α) → Option α
  | [] => none
  | (n, v) :: rest => if n = w then some v else lookupName w rest

/-- The names of the waveform codes (R121). -/
def waveformNames : List (Chars × Nat) :=
  [("sine".toList, 0), ("saw_up".toList, 1), ("saw_down".toList, 2), ("triangle".toList, 3),
    ("square".toList, 4), ("white_noise".toList, 5), ("held_noise".toList, 6), ("held_pn".toList, 7),
    ("expo".toList, 8)]

/-- The names of the run-mode codes (R121). -/
def runModeNames : List (Chars × Nat) := [("sync".toList, 0), ("shot".toList, 1), ("free".toList, 2)]

/-! ### Numbers -/

/-- The value of a decimal digit. -/
def decDigit (c : Char) : Option Nat :=
  if '0'.toNat ≤ c.toNat && c.toNat ≤ '9'.toNat then some (c.toNat - '0'.toNat) else none

/-- The value of a hexadecimal digit, of either case. -/
def hexDigit (c : Char) : Option Nat :=
  if '0'.toNat ≤ c.toNat && c.toNat ≤ '9'.toNat then some (c.toNat - '0'.toNat)
  else if 'A'.toNat ≤ c.toNat && c.toNat ≤ 'F'.toNat then some (c.toNat - 'A'.toNat + 10)
  else if 'a'.toNat ≤ c.toNat && c.toNat ≤ 'f'.toNat then some (c.toNat - 'a'.toNat + 10)
  else none

/-- The number that hexadecimal digits write, after a number already read. -/
def readHex : Chars → Nat → Option Nat
  | [], acc => some acc
  | c :: cs, acc =>
    match hexDigit c with
    | none => none
    | some d => readHex cs (16 * acc + d)

/-- `0x` followed by exactly k hexadecimal digits. -/
def hexLiteral (k : Nat) (w : Chars) : Option Nat :=
  match w with
  | '0' :: 'x' :: ds => if ds.length = k then readHex ds 0 else none
  | _ => none

/-- The leading decimal digits of a word, after a number already read: the number, how many digits were
read, and the rest. -/
def readDigits : Chars → Nat → Nat → Nat × Nat × Chars
  | [], acc, n => (acc, n, [])
  | c :: cs, acc, n =>
    match decDigit c with
    | none => (acc, n, c :: cs)
    | some d => readDigits cs (10 * acc + d) (n + 1)

/-- An optional sign: whether it is a minus, and the rest. -/
def readSign (w : Chars) : Bool × Chars :=
  match w with
  | '-' :: rest => (true, rest)
  | '+' :: rest => (false, rest)
  | rest => (false, rest)

/-- An optional exponent part: its sign and size; it must end the word. R121 shows a lower-case `e` in one example
and gives no grammar: that `E` marks an exponent as well, and that a `+` may stand before its digits, is a
DESIGN CHOICE, unsafe for claims about text (notes/assumptions/10.md). -/
def readExponent (w : Chars) : Option (Bool × Nat) :=
  match w with
  | [] => some (false, 0)
  | c :: cs =>
    if c = 'e' || c = 'E' then
      let sg := readSign cs
      match readDigits sg.2 0 0 with
      | (e, _ + 1, []) => some (sg.1, e)
      | _ => none
    else none

/-- The digits after an optional decimal point, run on from the integer part: the number without the
point, how many digits stand after the point, and the rest. That a point with no digit after it is
accepted, as in `5.` or `5.e3`, is a DESIGN CHOICE, unsafe for claims about text
(notes/assumptions/10.md): R121 gives examples of a literal and no grammar. -/
def readFraction10 (acc : Nat) (w : Chars) : Nat × Nat × Chars :=
  match w with
  | '.' :: rest => readDigits rest acc 0
  | rest => (acc, 0, rest)

/-- A decimal literal such as 440, 0.25 or -1.5e3, as round64 of its value; refused when that is infinite
(R121, R122). A zero keeps the sign it is written with (DESIGN CHOICE, unsafe for claims
about text: notes/assumptions/10.md). -/
def decimalOperand (w : Chars) : Option Word :=
  let sg := readSign w
  match readDigits sg.2 0 0 with
  | (_, 0, _) => none
  | (ip, _ + 1, r1) =>
    let fr := readFraction10 ip r1
    match readExponent fr.2.2 with
    | none => none
    | some (eneg, e) =>
      let v :=
        if eneg then round64 sg.1 fr.1 (10 ^ fr.2.1 * 10 ^ e)
        else round64 sg.1 (fr.1 * 10 ^ e) (10 ^ fr.2.1)
      if fIsFinite v then some v else none

/-- A signed decimal integer of 32 bits, sign-extended (R121, R122). That it may begin with a `+` is a DESIGN
CHOICE, unsafe for claims about text (notes/assumptions/10.md). -/
def signedOperand (w : Chars) : Option Word :=
  let sg := readSign w
  match readDigits sg.2 0 0 with
  | (n, _ + 1, []) =>
    let v : Int := if sg.1 then -(n : Int) else (n : Int)
    if -2147483648 ≤ v ∧ v ≤ 2147483647 then some (BitVec.ofInt 64 v) else none
  | _ => none

/-- An unsigned integer of 32 bits, zero-extended (R121, R122, R127). Neither rule says in which base it is
written: that it is bare decimal digits, so that 0xACE1ACE1 is refused, is a DESIGN CHOICE, unsafe for claims about
text (notes/assumptions/10.md). -/
def unsignedOperand (w : Chars) : Option Word :=
  match readDigits w 0 0 with
  | (n, _ + 1, []) => if n < 2 ^ 32 then some (BitVec.ofNat 64 n) else none
  | _ => none

/-- The operand of a WREG to a register, by the register's type (R121, R127). SH_COUNTER is an i32 target
(R121: signed) and a read-only integer register (R127: unsigned); that it takes the signed form, so that
-1 is accepted and 4294967295 refused, is a DESIGN CHOICE, and so is that KIND (an enum), NOTE_ON and
WRAP_PENDING (bits) count among R127's integer registers; unsafe for claims about text
(notes/assumptions/10.md). -/
def namedOperand (r : Reg) (w : Chars) : Option Word :=
  match r with
  | .waveform => (lookupName w waveformNames).map (BitVec.ofNat 64)
  | .runMode => (lookupName w runModeNames).map (BitVec.ofNat 64)
  | .octave | .semitone | .cent | .shCounter => signedOperand w
  | .seed | .tableIndex | .pnReg | .noiseState | .kind | .noteOn | .wrapPending | .status =>
    unsignedOperand w
  | .sampleRate | .targetFreq | .freqRatio | .amplitude | .pwTarget | .modAmp | .modFoExp
  | .modPitchBend | .modFoLin | .modPhase | .modPw | .phase | .increment | .effFreq | .effPw
  | .shValue | .dpwPrev | .dpwToggle | .out | .aux => decimalOperand w

/-- Any target takes `0x` and 16 hexadecimal digits as the bits of DATA (R121). -/
def operandOf (r : Reg) (w : Chars) : Option Word :=
  match hexLiteral 16 w with
  | some n => some (BitVec.ofNat 64 n)
  | none => namedOperand r w

/-- The operand of `setsr` (R121). -/
def rateOperand (w : Chars) : Option Word := operandOf .sampleRate w

/-! ### Commands -/

/-- The instructions written as one bare word: mnemonics (R120) and pseudo-instructions (R123). -/
def bareWords : List (Chars × Instr) :=
  [("nop".toList, .nop), ("reset".toList, .reset), ("update".toList, .update), ("start".toList, .start),
    ("stop".toList, .stop), ("osc".toList, .osc), ("startOscillator".toList, .start),
    ("stopOscillator".toList, .stop), ("oscillate".toList, .osc),
    ("clrstatus".toList, .wreg (.assigned .status) 7#64)]

/-- The setter pseudo-instructions and the register each writes (R123, R215). -/
def setterWords : List (Chars × Reg) :=
  [("setAmplitudeMod".toList, .modAmp), ("setFoModExp".toList, .modFoExp),
    ("setPitchBendMod".toList, .modPitchBend), ("setFoModLin".toList, .modFoLin),
    ("setPhaseMod".toList, .modPhase), ("setPWMod".toList, .modPw)]

/-- The register field of a line: a register's name, or `0x` and two hexadecimal digits (R120, R127). -/
def selOfWord (w : Chars) : Option RegSel :=
  match regOfName w with
  | some r => some (.assigned r)
  | none => (hexLiteral 2 w).map fun n => selOfNumber (BitVec.ofNat 8 n)

/-- The operand of a `wreg` line; a number that no register has takes the raw form only (R127). -/
def wregOperand (sel : RegSel) (w : Chars) : Option Word :=
  match sel with
  | .assigned r => operandOf r w
  | .unassigned _ => (hexLiteral 16 w).map (BitVec.ofNat 64)

/-- A one-operand instruction: `setsr`, `setSampleRate`, a setter, or `rreg` (R120, R123). -/
def oneOperand (m w : Chars) : Option Instr :=
  if m = "rreg".toList then (selOfWord w).map .rreg
  else if m = "setsr".toList || m = "setSampleRate".toList then (rateOperand w).map .setsr
  else
    match lookupName m setterWords with
    | none => none
    | some r => (operandOf r w).map (.wreg (.assigned r))

/-- A `wreg` line (R120, R127). -/
def wregLine (n w : Chars) : Option Instr :=
  match selOfWord n with
  | none => none
  | some sel => (wregOperand sel w).map (.wreg sel)

/-- The command a line's words stand for; none where the assembler refuses the line (R120 to R127). -/
def assembleWords (ws : List Chars) : Option Command :=
  match ws with
  | [m] => (lookupName m bareWords).map encode
  | [m, w] =>
    if m = ".word".toList then
      (hexLiteral 8 w).map fun n => { cmd := BitVec.ofNat 32 n, data := 0#64 }
    else (oneOperand m w).map encode
  | [m, x, comma, y] =>
    if comma ≠ [','] then none
    else if m = ".word".toList then
      match hexLiteral 8 x, hexLiteral 16 y with
      | some n, some d => some { cmd := BitVec.ofNat 32 n, data := BitVec.ofNat 64 d }
      | _, _ => none
    else if m = "wreg".toList then (wregLine x y).map encode
    else none
  | _ => none

/-! ### Lines -/

/-- A line without its comment (R120). -/
def cutComment : Chars → Chars
  | [] => []
  | c :: cs => if c = ';' then [] else c :: cutComment cs

/-- A word, if it is not empty, before the words after it. -/
def flushWord (cur : Chars) (rest : List Chars) : List Chars :=
  match cur with
  | [] => rest
  | c :: cs => (c :: cs) :: rest

/-- The words of a line, after a word begun; a comma is a word of its own. -/
def wordsFrom : Chars → Chars → List Chars
  | [], cur => flushWord cur []
  | c :: cs, cur =>
    if c = ' ' || c = '\t' then flushWord cur (wordsFrom cs [])
    else if c = ',' then flushWord cur ([','] :: wordsFrom cs [])
    else wordsFrom cs (cur ++ [c])

/-- The name in an instance prefix `name:` (R126). No rule says which names an instance may have: that any word
ending in a colon is a prefix, an empty name and a name with colons inside included, and that the prefix is a word
of its own, is a DESIGN CHOICE, unsafe for claims about text (notes/assumptions/10.md). -/
def prefixName (w : Chars) : Option Chars :=
  match w.reverse with
  | ':' :: rest => some rest.reverse
  | _ => none

/-- An assembled line: the instance it names, if it names one, and the command (R120, R126). -/
structure AsmLine where
  target  : Option Chars
  command : Command
  deriving DecidableEq, Repr

/-- The assembler on one line; none where it refuses the line (R122). That a line with no command on it, empty or a
comment alone, is among those is a DESIGN CHOICE, unsafe for claims about text (notes/assumptions/10.md). -/
def assembleLine (line : Chars) : Option AsmLine :=
  match wordsFrom (cutComment line) [] with
  | [] => none
  | w :: ws =>
    match prefixName w with
    | some n => (assembleWords ws).map fun c => { target := some n, command := c }
    | none => (assembleWords (w :: ws)).map fun c => { target := none, command := c }

/-! ### Listing and disassembly -/

/-- A hexadecimal digit as a character. -/
def hexChar (d : Nat) : Char :=
  if d < 10 then Char.ofNat ('0'.toNat + d) else Char.ofNat ('A'.toNat + (d - 10))

/-- The k low hexadecimal digits of a number, most significant first. -/
def hexChars : Nat → Nat → Chars
  | 0, _ => []
  | k + 1, n => hexChars k (n / 16) ++ [hexChar (n % 16)]

/-- `0x` and k hexadecimal digits. -/
def hexText (k n : Nat) : Chars := "0x".toList ++ hexChars k n

/-- The listing form `CMD DATA` (R124). -/
def listing (c : Command) : Chars := hexChars 8 c.cmd.toNat ++ ' ' :: hexChars 16 c.data.toNat

/-- A register field as text: a register's name, or its raw form (R125). -/
def selText : RegSel → Chars
  | .assigned r => regName r
  | .unassigned n => hexText 2 n.toNat

/-- An instruction as a line. -/
def instrText : Instr → Chars
  | .nop => "nop".toList
  | .reset => "reset".toList
  | .update => "update".toList
  | .start => "start".toList
  | .stop => "stop".toList
  | .osc => "osc".toList
  | .setsr rate => "setsr ".toList ++ hexText 16 rate.toNat
  | .wreg sel data => "wreg ".toList ++ selText sel ++ ", ".toList ++ hexText 16 data.toNat
  | .rreg sel => "rreg ".toList ++ selText sel

/-- Disassembly (R125): an Illegal word prints as `.illegal 0xXXXXXXXX`. -/
def disassemble (c : Command) : Chars :=
  match decode c with
  | .ok i => instrText i
  | .error _ => ".illegal ".toList ++ hexText 8 c.cmd.toNat

end Sys2Proof.Machine
end

