-- ==== Sys2Proof/Machine/Instances.lean ====
section
/-! DEFINITION. Several instances side by side (spec 60_exceptions.md R362, 30_encoding.md R126): each has
its own state and port, they share nothing, and the host's line prefix names the one that takes a
command; a line without a prefix goes to the program's one instance. -/

namespace Sys2Proof.Machine

open Sys2Proof

/-- The instances of a host's program, by name. -/
abbrev Instances := List (List Char × State)

/-- The state of a named instance, if there is one; of several with one name, the first (DESIGN CHOICE, unsafe for
claims about text: notes/assumptions/10.md). -/
def instanceState (name : List Char) : Instances → Option State
  | [] => none
  | (n, s) :: rest => if n = name then some s else instanceState name rest

/-- One command on the port of the named instance: it carries the command out, and every other instance
is as it was (R362). A stop, which no command makes (R350), changes nothing. R126 is silent on a name that no
instance or more than one has: that the command then changes nothing, or goes to the first, is a DESIGN CHOICE,
unsafe for claims about text (notes/assumptions/10.md). That the command goes before any that
wait on that port is a DESIGN CHOICE, unsafe (notes/assumptions/2.md); the host of R126 and R393 issues one line at
a time, and then none waits. -/
def issue (name : List Char) (c : Command) : Instances → Instances
  | [] => []
  | (n, s) :: rest =>
    if n = name then
      match step (presentFirst c s) with
      | .next t => (n, t) :: rest
      | .fault _ => (n, s) :: rest
      | .refused _ => (n, s) :: rest
    else (n, s) :: issue name c rest

/-- The instance a line goes to: the one its prefix names, or without a prefix the program's one instance
(R126). An unprefixed line in a program of no instance or of several goes to none (DESIGN CHOICE, unsafe for
claims about text: notes/assumptions/10.md). -/
def lineTarget (l : AsmLine) (sys : Instances) : Option (List Char) :=
  match l.target, sys with
  | some name, _ => some name
  | none, [(name, _)] => some name
  | none, [] => none
  | none, _ :: _ :: _ => none

/-- An assembled line, carried out: its command is issued on the port of the instance it goes to (R126). -/
def deliver (l : AsmLine) (sys : Instances) : Instances :=
  match lineTarget l sys with
  | some name => issue name l.command sys
  | none => sys

/-- A line of the host's program: assembled and delivered; none where the assembler refuses it (R120, R126). -/
def runLine (line : Chars) (sys : Instances) : Option Instances :=
  (assembleLine line).map fun l => deliver l sys

end Sys2Proof.Machine
end

