-- ==== Sys2Proof/Safety.lean ====
section
/-! DEFINITION. What a good state of an instance is: the invariants that spec 10_state.md and
40_generator_base.md R180 and R182 give the registers, in the terms the statements use. A refused command
(R351) is a good step; there is no faulting one. -/

namespace Sys2Proof.Machine

open Sys2Proof

/-- A binary64 in [0.0, 1.0) that is not -0.0: as a number its bit pattern lies below that of 1.0. -/
abbrev UnitPhase (x : F64) : Prop := x.toNat < 0x3FF0000000000000

/-- A finite binary64 with abs(x) ≤ b. -/
abbrev WithinMagnitude (b x : F64) : Prop := fIsFinite x = true ∧ fMag x ≤ fMag b

/-- PHASE is in [0, 1) and not -0.0 (R48, R180). -/
abbrev State.PhaseOk (s : State) : Prop := UnitPhase s.phase

/-- SAMPLE_RATE is finite and in [SR_MIN, SR_MAX] (R31); positive binary64 values are ordered as their
bit patterns. -/
abbrev State.RateOk (s : State) : Prop :=
  0x3FF0000000000000 ≤ s.sampleRate.toNat ∧ s.sampleRate.toNat ≤ 0x4170000000000000

/-- The writable binary64 registers are finite (R32, R33, R37, R38, R42 to R47, R202). -/
abbrev State.ControlsFinite (s : State) : Prop :=
  fIsFinite s.targetFreq = true ∧ fIsFinite s.freqRatio = true ∧ fIsFinite s.amplitude = true ∧
  fIsFinite s.pwTarget = true ∧ fIsFinite s.modAmp = true ∧ fIsFinite s.modFoExp = true ∧
  fIsFinite s.modPitchBend = true ∧ fIsFinite s.modFoLin = true ∧ fIsFinite s.modPhase = true ∧
  fIsFinite s.modPw = true

/-- What UPDATE computes is in range (R49 to R51, R53, R182): abs(EFF_FREQ) ≤ FO_MAX,
abs(INCREMENT) ≤ FO_MAX/SR_MIN = FO_MAX, EFF_PW in [PW_MIN, PW_MAX], TABLE_INDEX below N_TABLES. -/
abbrev State.CombinedOk (s : State) : Prop :=
  WithinMagnitude Config.foMax s.effFreq ∧ WithinMagnitude Config.foMax s.increment ∧
  fLe Config.pwMin s.effPw = true ∧ fLe s.effPw Config.pwMax = true ∧
  s.tableIndex.toNat < Config.nTables

/-- WAVEFORM holds a code its kind supports (R39). -/
abbrev State.WaveformOk (s : State) : Prop := waveformLegal s.kind s.waveform = true

/-- SEED and both generator states are nonzero (R41, R56, R57). -/
abbrev State.NoiseOk (s : State) : Prop := s.seed ≠ 0#32 ∧ s.noiseState ≠ 0#32 ∧ s.pnReg ≠ 0#32

/-- SH_COUNTER is the sentinel -1 or at least 1 (R54); its upper bound HOLD_MAX is the largest value of its
type. -/
abbrev State.HoldOk (s : State) : Prop := s.shCounter.toInt = -1 ∨ 1 ≤ s.shCounter.toInt

/-- DPW_TOGGLE is +1.0 or -1.0 (R59). -/
abbrev State.ToggleOk (s : State) : Prop := s.dpwToggle = fOne ∨ s.dpwToggle = fMinusOne

/-- The bank of a WT is the one of its SAMPLE_RATE (R66, R81). -/
abbrev State.BankOk (s : State) : Prop := s.kind = .wt → s.bankRate = s.sampleRate

/-- A WT alone selects a table: for QBL and LFO TABLE_INDEX is 0, never changed (R53). -/
abbrev State.TableOk (s : State) : Prop := s.kind ≠ .wt → s.tableIndex = 0#32

/-- The invariants that involve no arithmetic on binary64 values. -/
abbrev State.SelectorsOk (s : State) : Prop :=
  s.WaveformOk ∧ s.NoiseOk ∧ s.HoldOk ∧ s.ToggleOk ∧ s.BankOk ∧ s.TableOk

/-- SH_VALUE is in [-1.0, 1.0) (R55). -/
abbrev State.HeldOk (s : State) : Prop := fLe fMinusOne s.shValue = true ∧ fLt s.shValue fOne = true

/-- DPW_PREV, a raw sample of a segment, is finite and in [-1, 1]: R58 states no range, and the segments of
R274 and R275 at a read phase in [0, 1) give this one. -/
abbrev State.DpwOk (s : State) : Prop := WithinMagnitude fOne s.dpwPrev

/-- The invariants that involve arithmetic on binary64 values: the rate, the controls, what UPDATE makes of
them, the phase, and the values a render keeps. -/
abbrev State.RangesOk (s : State) : Prop :=
  s.RateOk ∧ s.ControlsFinite ∧ s.CombinedOk ∧ s.PhaseOk ∧ s.HeldOk ∧ s.DpwOk

end Sys2Proof.Machine
end

