-- ==== Sys2Proof/Certificates/Slice0/Obligations.lean ====
section
/-! DEFINITION. The statements for the provers: def Obligations.<Name> : Prop. Each docstring names the
rules of spec/ it comes from. -/

open Sys2Proof Sys2Proof.Machine

/-! ### Decoding and encoding -/

/-- R105 with R352 checks 1 to 3: the verdict on a command word, in terms of its fields as numbers, and
what an Illegal verdict does when the word is presented. -/
def Obligations.DecodeFollowsFieldChecks : Prop :=
  ∀ c : Command,
    (c.cmd.toNat / 65536 ≠ 0 → decode c = .error .reservedBits) ∧
    (c.cmd.toNat / 65536 = 0 → 8 < c.cmd.toNat % 256 → decode c = .error .badOpcode) ∧
    (c.cmd.toNat / 65536 = 0 → c.cmd.toNat % 256 < 7 → c.cmd.toNat / 256 % 256 ≠ 0 →
      decode c = .error .strayReg) ∧
    (c.cmd.toNat / 65536 = 0 → c.cmd.toNat % 256 ≤ 8 →
      (7 ≤ c.cmd.toNat % 256 ∨ c.cmd.toNat / 256 % 256 = 0) →
      ∃ i, decode c = .ok i ∧ (encode i).cmd = c.cmd) ∧
    (∀ (e : DecodeError) (s : State) (rest : List Command),
      decode c = .error e → s.port = c :: rest →
      step s = .next { s with port := rest, status := s.status ||| 1#4, rdata := 0#64 })

/-- R100, R104, R105: decoding the encoding of a well-formed instruction gives the instruction back. -/
def Obligations.DecodeEncodeRoundTrip : Prop :=
  ∀ i : Instr, i.wellFormed = true → decode (encode i) = .ok i

/-- R100, R104, R105: a command that decodes is the encoding of a well-formed instruction, but for an
operand word its opcode ignores. -/
def Obligations.DecodedCommandReencodes : Prop :=
  ∀ (c : Command) (i : Instr), decode c = .ok i →
    i.wellFormed = true ∧ (encode i).cmd = c.cmd ∧
    ((c.cmd.toNat % 256 = 6 ∨ c.cmd.toNat % 256 = 7) → (encode i).data = c.data)

/-- R101: SETSR and WREG take DATA, and every other opcode ignores it, any DATA being legal. -/
def Obligations.OperandWordIsIgnoredOrTaken : Prop :=
  ∀ (cmd : BitVec 32) (d d' : Word),
    (cmd.toNat % 256 ≠ 6 → cmd.toNat % 256 ≠ 7 →
      decode { cmd := cmd, data := d } = decode { cmd := cmd, data := d' }) ∧
    (cmd.toNat = 6 → decode { cmd := cmd, data := d } = .ok (.setsr d)) ∧
    (cmd.toNat / 65536 = 0 → cmd.toNat % 256 = 7 →
      ∃ sel, decode { cmd := cmd, data := d } = .ok (.wreg sel d) ∧
        (selNumber sel).toNat = cmd.toNat / 256)

/-- R104: words written out from the opcode map. -/
def Obligations.SampleWordsDecode : Prop :=
  decode { cmd := 0x00000000#32, data := 0#64 } = .ok .nop ∧
  decode { cmd := 0x00000005#32, data := 0#64 } = .ok .osc ∧
  decode { cmd := 0x00000006#32, data := 0x40E7700000000000#64 } = .ok (.setsr 0x40E7700000000000#64) ∧
  decode { cmd := 0x00000107#32, data := 0x407B800000000000#64 }
    = .ok (.wreg (.assigned .targetFreq) 0x407B800000000000#64) ∧
  decode { cmd := 0x00002008#32, data := 0#64 } = .ok (.rreg (.assigned .phase)) ∧
  decode { cmd := 0x00003108#32, data := 0#64 } = .ok (.rreg (.unassigned 0x31#8)) ∧
  decode { cmd := 0x00000009#32, data := 0#64 } = .error .badOpcode ∧
  decode { cmd := 0x00010005#32, data := 0#64 } = .error .reservedBits ∧
  decode { cmd := 0x00000105#32, data := 0#64 } = .error .strayReg

/-- R82: on a byte-wide link byte 0 of each word is its bits 7:0; twelve bytes carry a command whole and 24 bytes a
response whole. That CMD goes before DATA, and the response words in the order RDATA, OUT, AUX, is the model's choice
(notes/assumptions/9.md). -/
def Obligations.ByteLinkCarriesCommands : Prop :=
  (∀ c : Command, commandOfBytes (commandBytes c) = some c ∧
    (commandBytes c).length = 12 ∧
    (commandBytes c)[0]? = some (c.cmd.extractLsb' 0 8) ∧
    (commandBytes c)[4]? = some (c.data.extractLsb' 0 8)) ∧
  (∀ s : State,
    responseOfBytes (responseBytes s.response) = some { rdata := s.rdata, out := s.out, aux := s.aux } ∧
    (responseBytes s.response).length = 24 ∧
    (responseBytes s.response)[0]? = some (s.rdata.extractLsb' 0 8) ∧
    (responseBytes s.response)[8]? = some (s.out.extractLsb' 0 8) ∧
    (responseBytes s.response)[16]? = some (s.aux.extractLsb' 0 8)) ∧
  (∀ (w : Word), ∀ k < 8, (wordBytes w)[k]? = some (w.extractLsb' (8 * k) 8))

/-- A word of the opcode table (R104), DATA being 0, is read as the decoder reads the command. That the next
step then carries it out, in a state with any commands waiting, rests on the model's choice that withFetchWord
presents the word before all of them (notes/assumptions/2.md), and on no rule. -/
def Obligations.TableWordsReachTheDecoder : Prop :=
  ∀ cmd : BitVec 32,
    (∀ i, decode { cmd := cmd, data := 0#64 } = .ok i →
      decodeTableWord 32 cmd.toNat = some i ∧
      ∀ s : State, step (s.withFetchWord 32 cmd.toNat) = exec i s) ∧
    (∀ e, decode { cmd := cmd, data := 0#64 } = .error e → decodeTableWord 32 cmd.toNat = none)

/-- R120, R125, R127: the assembler reads the disassembly of every well-formed instruction's words back as
those words. The text a legal command prints as is the model's choice (notes/assumptions/10.md). -/
def Obligations.AssemblerReadsDisassembly : Prop :=
  ∀ i : Instr, i.wellFormed = true →
    assembleLine (disassemble (encode i)) = some { target := none, command := encode i }

/-! ### Steps -/

/-- R88, R13: commands are carried out in issue order, one per step: when the oldest command presented
decodes to i, the step is exec of i on the state without that command. -/
def Obligations.StepRunsDecodedCommand : Prop :=
  ∀ (s : State) (c : Command) (rest : List Command) (i : Instr),
    s.port = c :: rest → decode c = .ok i → step s = exec i { s with port := rest }

/-- R356, R381: with no command presented nothing happens. -/
def Obligations.StepWaitsForACommand : Prop :=
  ∀ s : State, s.port = [] → step s = .next s

/-- R350: every command completes, accepted or refused; nothing traps. -/
def Obligations.EveryInstructionCompletes : Prop :=
  ∀ (i : Instr) (s : State), ∃ t, exec i s = .next t ∧ t.kind = s.kind ∧ t.port = s.port

/-- R362: a command on one instance's port is carried out by that instance, as its own step, and leaves every
other instance as it was. R126: a line with a prefix goes to the instance it names, one without to the program's
one instance. Where commands already wait on the port, that the issued one runs ahead of them rests on the model's
choice (notes/assumptions/2.md), and on no rule. -/
def Obligations.OtherInstancesUntouched : Prop :=
  ∀ (name : List Char) (c : Command) (sys : Instances),
    (∀ other, other ≠ name → instanceState other (issue name c sys) = instanceState other sys) ∧
    (∀ s, instanceState name sys = some s →
      ∃ t, step { s with port := c :: s.port } = .next t ∧ instanceState name (issue name c sys) = some t) ∧
    deliver { target := some name, command := c } sys = issue name c sys ∧
    (∀ s, ∃ t, step { s with port := c :: s.port } = .next t ∧
      deliver { target := none, command := c } [(name, s)] = [(name, t)])

/-! ### NOP, RREG, WREG -/

/-- R200: NOP has no effect and drives RDATA = 0; its word is 0 and its DATA is ignored. A NOP word with a nonzero
REG or reserved bit is no command, and is refused with BADCMD. -/
def Obligations.NopOnlyResponds : Prop :=
  ∀ (s : State) (d : Word),
    decode { cmd := 0#32, data := d } = .ok .nop ∧ exec .nop s = .next { s with rdata := 0#64 } ∧
    ∀ (c : BitVec 32) (rest : List Command), c.toNat % 256 = 0 → c ≠ 0#32 →
      s.port = { cmd := c, data := d } :: rest →
      step s = .next { s with port := rest, status := s.status ||| 1#4, rdata := 0#64 }

/-- R108 over the register numbers of the register map (10_state.md): the value in which RREG returns the register
of each number. It changes nothing else. -/
def Obligations.RregReturnsEveryRegister : Prop :=
  ∀ (s : State) (d : Word), ∀ p ∈
    [(0x00#8, s.sampleRate), (0x01#8, s.targetFreq), (0x02#8, s.freqRatio),
      (0x03#8, s.octave.signExtend 64), (0x04#8, s.semitone.signExtend 64),
      (0x05#8, s.cent.signExtend 64), (0x06#8, s.amplitude), (0x07#8, s.pwTarget),
      (0x08#8, BitVec.ofNat 64 s.waveform.code), (0x09#8, BitVec.ofNat 64 s.runMode.code),
      (0x0A#8, s.seed.zeroExtend 64), (0x10#8, s.modAmp), (0x11#8, s.modFoExp),
      (0x12#8, s.modPitchBend), (0x13#8, s.modFoLin), (0x14#8, s.modPhase), (0x15#8, s.modPw),
      (0x20#8, s.phase), (0x21#8, s.increment), (0x22#8, s.effFreq), (0x23#8, s.effPw),
      (0x24#8, BitVec.ofNat 64 s.noteOn.toNat), (0x25#8, s.tableIndex.zeroExtend 64),
      (0x26#8, s.shCounter.signExtend 64), (0x27#8, s.shValue), (0x28#8, s.pnReg.zeroExtend 64),
      (0x29#8, s.noiseState.zeroExtend 64), (0x2A#8, s.dpwPrev), (0x2B#8, s.dpwToggle),
      (0x2C#8, BitVec.ofNat 64 s.wrapPending.toNat), (0x2D#8, s.status.zeroExtend 64),
      (0x2E#8, BitVec.ofNat 64 s.kind.code), (0x2F#8, s.out), (0x30#8, s.aux)],
    decode { cmd := 0#16 ++ p.1 ++ 0x08#8, data := d } = .ok (.rreg (selOfNumber p.1)) ∧
    exec (.rreg (selOfNumber p.1)) s = .next { s with rdata := p.2 }

/-- R65: the unassigned numbers, and what a WREG or an RREG of one does. -/
def Obligations.UnassignedNumbersAreRefused : Prop :=
  ∀ (n : BitVec 8) (d : Word) (s : State),
    ((0x0B ≤ n.toNat ∧ n.toNat ≤ 0x0F) ∨ (0x16 ≤ n.toNat ∧ n.toNat ≤ 0x1F) ∨ 0x31 ≤ n.toNat) →
    exec (.wreg (selOfNumber n) d) s = .next { s with status := s.status ||| 1#4, rdata := 0#64 } ∧
    exec (.rreg (selOfNumber n)) s = .next { s with status := s.status ||| 1#4, rdata := 0#64 }

/-- R208: the numbers WREG cannot write. -/
def Obligations.WregRefusesNumbersItCannotWrite : Prop :=
  ∀ (n : BitVec 8) (d : Word) (s : State),
    ¬ ((0x01 ≤ n.toNat ∧ n.toNat ≤ 0x0A) ∨ (0x10 ≤ n.toNat ∧ n.toNat ≤ 0x15) ∨ n.toNat = 0x2D) →
    exec (.wreg (selOfNumber n) d) s = .next { s with status := s.status ||| 1#4, rdata := 0#64 }

/-- R202: WREG to each writable binary64 register takes a finite DATA unchanged, and refuses a NaN or an
infinity (exponent field 0x7FF) with BADVALUE. -/
def Obligations.WregBinary64Registers : Prop :=
  ∀ (s : State) (d : Word),
    (d.toNat / 2 ^ 52 % 2 ^ 11 ≠ 0x7FF →
      exec (.wreg (.assigned .targetFreq) d) s = .next { s with targetFreq := d, rdata := 0#64 } ∧
      exec (.wreg (.assigned .freqRatio) d) s = .next { s with freqRatio := d, rdata := 0#64 } ∧
      exec (.wreg (.assigned .amplitude) d) s = .next { s with amplitude := d, rdata := 0#64 } ∧
      exec (.wreg (.assigned .pwTarget) d) s = .next { s with pwTarget := d, rdata := 0#64 } ∧
      exec (.wreg (.assigned .modAmp) d) s = .next { s with modAmp := d, rdata := 0#64 } ∧
      exec (.wreg (.assigned .modFoExp) d) s = .next { s with modFoExp := d, rdata := 0#64 } ∧
      exec (.wreg (.assigned .modPitchBend) d) s = .next { s with modPitchBend := d, rdata := 0#64 } ∧
      exec (.wreg (.assigned .modFoLin) d) s = .next { s with modFoLin := d, rdata := 0#64 } ∧
      exec (.wreg (.assigned .modPhase) d) s = .next { s with modPhase := d, rdata := 0#64 } ∧
      exec (.wreg (.assigned .modPw) d) s = .next { s with modPw := d, rdata := 0#64 }) ∧
    (d.toNat / 2 ^ 52 % 2 ^ 11 = 0x7FF →
      ∀ r ∈ [Reg.targetFreq, .freqRatio, .amplitude, .pwTarget, .modAmp, .modFoExp, .modPitchBend,
          .modFoLin, .modPhase, .modPw],
        exec (.wreg (.assigned r) d) s = .next { s with status := s.status ||| 2#4, rdata := 0#64 })

/-- R203: WREG to OCTAVE, SEMITONE or CENT takes DATA[31:0] and ignores DATA[63:32]. -/
def Obligations.WregOffsetRegisters : Prop :=
  ∀ (s : State) (d : Word),
    exec (.wreg (.assigned .octave) d) s = .next { s with octave := d.extractLsb' 0 32, rdata := 0#64 } ∧
    exec (.wreg (.assigned .semitone) d) s = .next { s with semitone := d.extractLsb' 0 32, rdata := 0#64 } ∧
    exec (.wreg (.assigned .cent) d) s = .next { s with cent := d.extractLsb' 0 32, rdata := 0#64 }

/-- R204: WREG to WAVEFORM takes a code the KIND supports, and refuses any other with BADWAVE. -/
def Obligations.WregWaveformByKind : Prop :=
  ∀ (s : State) (d : Word),
    (((s.kind = .wt ∧ d.toNat ≤ 5) ∨ (s.kind = .qbl ∧ 1 ≤ d.toNat ∧ d.toNat ≤ 3) ∨
        (s.kind = .lfo ∧ d.toNat ≤ 8 ∧ d.toNat ≠ 5)) →
      ∃ w : Waveform, w.code = d.toNat ∧
        exec (.wreg (.assigned .waveform) d) s = .next { s with waveform := w, rdata := 0#64 }) ∧
    (¬ ((s.kind = .wt ∧ d.toNat ≤ 5) ∨ (s.kind = .qbl ∧ 1 ≤ d.toNat ∧ d.toNat ≤ 3) ∨
        (s.kind = .lfo ∧ d.toNat ≤ 8 ∧ d.toNat ≠ 5)) →
      exec (.wreg (.assigned .waveform) d) s
        = .next { s with status := s.status ||| 4#4, rdata := 0#64 })

/-- R205: WREG to RUN_MODE takes 0, 1 or 2 for every kind, and refuses any other value with BADVALUE. -/
def Obligations.WregRunMode : Prop :=
  ∀ (s : State) (d : Word),
    (d.toNat ≤ 2 → ∃ m : RunMode, m.code = d.toNat ∧
      exec (.wreg (.assigned .runMode) d) s = .next { s with runMode := m, rdata := 0#64 }) ∧
    (2 < d.toNat → exec (.wreg (.assigned .runMode) d) s
      = .next { s with status := s.status ||| 2#4, rdata := 0#64 })

/-- R206: WREG to SEED takes DATA[31:0], but refuses 0 with BADVALUE, for the noise generators stay at 0 from
a zero state; only SEED changes, and the generators take it at the next RESET, including the one inside
START. -/
def Obligations.WregSeed : Prop :=
  (∀ (s : State) (d : Word),
    (d.toNat % 2 ^ 32 ≠ 0 → ∃ t, exec (.wreg (.assigned .seed) d) s = .next t ∧
      t = { s with seed := d.extractLsb' 0 32, rdata := 0#64 } ∧
      (∃ u, exec .reset t = .next u ∧ u.noiseState = d.extractLsb' 0 32 ∧ u.pnReg = d.extractLsb' 0 32) ∧
      (s.kind ≠ .lfo ∨ s.runMode ≠ .free →
        ∃ u, exec .start t = .next u ∧ u.noiseState = d.extractLsb' 0 32 ∧ u.pnReg = d.extractLsb' 0 32)) ∧
    (d.toNat % 2 ^ 32 = 0 → exec (.wreg (.assigned .seed) d) s
      = .next { s with status := s.status ||| 2#4, rdata := 0#64 })) ∧
  xorshift32 0#32 = 0#32 ∧ lfsrNext 0#32 = 0#32

/-- R207: WREG to STATUS clears each of bits 0 to 2 whose DATA bit is 1, and touches nothing else; it
cannot set a bit and cannot clear UPD_PENDING. -/
def Obligations.WregStatusWritesOneToClear : Prop :=
  ∀ (s : State) (d : Word), ∃ st : BitVec 4,
    exec (.wreg (.assigned .status) d) s = .next { s with status := st, rdata := 0#64 } ∧
    (∀ b < 3, st.getLsbD b = (s.status.getLsbD b && !d.getLsbD b)) ∧
    st.getLsbD 3 = s.status.getLsbD 3

/-- R351: a command either sets no error bit, or sets one of them and changes nothing else but its
response; it never sets two. -/
def Obligations.ErrorBitsComeFromRefusals : Prop :=
  ∀ (i : Instr) (s t : State), exec i s = .next t →
    (∀ b < 3, t.status.getLsbD b = true → s.status.getLsbD b = true) ∨
    (∃ m ∈ [1#4, 2#4, 4#4], t = { s with status := s.status ||| m, rdata := 0#64 })

/-- R351, R355: the error bits are sticky: only a WREG to STATUS clears one; UPD_PENDING falls only at an
UPDATE and rises only at a SETSR. -/
def Obligations.StatusBitsAreSticky : Prop :=
  ∀ (i : Instr) (s t : State), exec i s = .next t →
    ((∀ d, i ≠ .wreg (.assigned .status) d) →
      ∀ b < 3, s.status.getLsbD b = true → t.status.getLsbD b = true) ∧
    (i ≠ .update → s.status.getLsbD 3 = true → t.status.getLsbD 3 = true) ∧
    ((∀ r, i ≠ .setsr r) → t.status.getLsbD 3 = true → s.status.getLsbD 3 = true)

/-! ### RESET, START, STOP -/

/-- R150, R151: RESET installs the start phase of the kind and waveform, clears the wrap report and the
differentiator memory, reseeds both generators, sets the counter's sentinel and the modulation inputs to
neutral, and changes no other register. WAVEFORM holds a code of the kind, as R39 says it always does. -/
def Obligations.ResetInstallsCore : Prop :=
  ∀ (s : State) (d : Word), s.WaveformOk →
    decode { cmd := 1#32, data := d } = .ok .reset ∧ exec .reset s = .next { s with
    phase :=
      (if s.kind = .qbl ∨ (s.kind = .wt ∧ 1 ≤ s.waveform.code ∧ s.waveform.code ≤ 3)
        then 0x3FE0000000000000#64 else 0#64)
    wrapPending := false
    dpwPrev := 0#64
    dpwToggle := 0x3FF0000000000000#64
    noiseState := s.seed
    pnReg := s.seed
    shCounter := BitVec.ofInt 32 (-1)
    modAmp := 0x3FF0000000000000#64
    modFoExp := 0#64
    modPitchBend := 0#64
    modFoLin := 0#64
    modPhase := 0#64
    modPw := 0#64
    rdata := 0#64 }

/-- R155: START opens the gate; a free-running LFO is not reset, every other instance is reset first. -/
def Obligations.StartOpensTheGate : Prop :=
  ∀ (s : State) (d : Word),
    decode { cmd := 3#32, data := d } = .ok .start ∧
    (s.kind = .lfo → s.runMode = .free →
      exec .start s = .next { s with noteOn := true, rdata := 0#64 }) ∧
    (s.kind ≠ .lfo ∨ s.runMode ≠ .free →
      ∃ u, exec .reset s = .next u ∧ exec .start s = .next { u with noteOn := true })

/-- R156: STOP closes the gate and changes nothing else, for every kind. -/
def Obligations.StopOnlyClosesTheGate : Prop :=
  ∀ (s : State) (d : Word),
    decode { cmd := 4#32, data := d } = .ok .stop ∧
    exec .stop s = .next { s with noteOn := false, rdata := 0#64 }

/-- R317 (3), R302: a STOP and START pair of a free-running LFO leaves the phase where it was. -/
def Obligations.FreeRunIsContinuous : Prop :=
  ∀ s t u : State, s.kind = .lfo → s.runMode = .free →
    exec .stop s = .next t → exec .start t = .next u →
    u.phase = s.phase ∧ u.wrapPending = s.wrapPending ∧ u.shCounter = s.shCounter ∧
    u.noiseState = s.noiseState ∧ u.pnReg = s.pnReg ∧ u.modFoExp = s.modFoExp ∧ u.noteOn = true

/-! ### UPDATE and SETSR -/

/-- R160, with R161 to R164: the modulation stack combiner, step by step. -/
def Obligations.UpdateFollowsTheCombiner : Prop :=
  ∀ (s : State) (d : Word),
    let sum := fAdd (fAdd (fAdd (fAdd s.modFoExp s.modPitchBend)
      (fMul (f64OfInt s.octave.toInt) 0x4028000000000000#64)) (f64OfInt s.semitone.toInt))
      (fDiv (f64OfInt s.cent.toInt) 0x4059000000000000#64)
    let m := fExp2 (fDiv sum 0x4028000000000000#64)
    let f0 := fAdd (fMul (fMul s.targetFreq s.freqRatio) m) s.modFoLin
    let f1 := if fIsNaN f0 then 0#64 else f0
    let f2 := if fLt 0x40D4000000000000#64 f1 then 0x40D4000000000000#64 else f1
    let f := if fLt f2 0xC0D4000000000000#64 then 0xC0D4000000000000#64 else f2
    let p0 := fAdd s.pwTarget (fMul s.modPw 0x4058000000000000#64)
    let p1 := if fLt 0x4058800000000000#64 p0 then 0x4058800000000000#64 else p0
    let pw := if fLt p1 0x4000000000000000#64 then 0x4000000000000000#64 else p1
    decode { cmd := 2#32, data := d } = .ok .update ∧ exec .update s = .next { s with
      runMode := (if s.kind = .lfo ∧ (s.waveform.code = 6 ∨ s.waveform.code = 7) then .free
        else s.runMode)
      effFreq := f
      increment := fDiv f s.sampleRate
      effPw := pw
      tableIndex := (if s.kind = .wt then BitVec.ofNat 32 (selectTable f) else s.tableIndex)
      status := s.status &&& 7#4
      rdata := 0#64 }

/-- R182: the ranges after any UPDATE, whatever the frequency registers hold. -/
def Obligations.UpdateResultsAreInRange : Prop :=
  ∀ s t : State, s.RateOk → fIsFinite s.pwTarget = true → fIsFinite s.modPw = true →
    exec .update s = .next t →
    WithinMagnitude Config.foMax t.effFreq ∧ WithinMagnitude Config.foMax t.increment ∧
    fLe Config.pwMin t.effPw = true ∧ fLe t.effPw Config.pwMax = true ∧
    (t.kind = .wt → t.tableIndex.toNat < 9)

/-- R181: after UPDATE, INCREMENT = round64(EFF_FREQ/SAMPLE_RATE), and no command but SETSR ends that. -/
def Obligations.IncrementIsTheQuotient : Prop :=
  ∀ (i : Instr) (s t : State), exec i s = .next t →
    (i = .update → t.increment = fDiv t.effFreq t.sampleRate) ∧
    ((∀ r, i ≠ .setsr r) → s.increment = fDiv s.effFreq s.sampleRate →
      t.increment = fDiv t.effFreq t.sampleRate)

/-- R165, R31: UPDATE is the only command that writes EFF_FREQ, INCREMENT, EFF_PW and TABLE_INDEX, and
SETSR the only one that writes SAMPLE_RATE and the bank (R81). -/
def Obligations.OnlyUpdateAndSetsrWriteTheirRegisters : Prop :=
  ∀ (i : Instr) (s t : State), exec i s = .next t →
    (i ≠ .update → t.effFreq = s.effFreq ∧ t.increment = s.increment ∧ t.effPw = s.effPw ∧
      t.tableIndex = s.tableIndex) ∧
    ((∀ r, i ≠ .setsr r) → t.sampleRate = s.sampleRate ∧ t.bankRate = s.bankRate)

/-- R170: SETSR takes exactly the finite rates in [1.0, 16777216.0], which are the bit patterns from that
of 1.0 to that of 16777216.0; it rebuilds the bank of a WT and sets UPD_PENDING; any other rate is
refused with BADVALUE. -/
def Obligations.SetsrTakesLegalRates : Prop :=
  ∀ (s : State) (v : Word),
    decode { cmd := 6#32, data := v } = .ok (.setsr v) ∧
    ((0x3FF0000000000000 ≤ v.toNat ∧ v.toNat ≤ 0x4170000000000000) →
      exec (.setsr v) s = .next { s with
        sampleRate := v
        bankRate := (if s.kind = .wt then v else s.bankRate)
        status := s.status ||| 8#4
        rdata := 0#64 }) ∧
    (¬ (0x3FF0000000000000 ≤ v.toNat ∧ v.toNat ≤ 0x4170000000000000) →
      exec (.setsr v) s = .next { s with status := s.status ||| 2#4, rdata := 0#64 })

/-! ### Math utilities -/

/-- R140: wrap01 of a finite value is x - floor(x), or +0.0 where that rounds up to 1.0; it is in [0.0, 1.0) and
never -0.0, and it leaves a value already there as it is. The floor is the exact one. -/
def Obligations.Wrap01LandsInTheUnitInterval : Prop :=
  (∀ x : F64, fIsFinite x = true →
    fInt (fFloor x) = fInt x / (unitsPerOne : Int) * (unitsPerOne : Int) ∧
    wrap01 x = if fLe fOne (fSub x (fFloor x)) then 0#64 else fSub x (fFloor x)) ∧
  (∀ x : F64, fIsFinite x = true → UnitPhase (wrap01 x)) ∧
  (∀ x : F64, UnitPhase x → wrap01 x = x) ∧
  wrap01 0x8000000000000000#64 = 0#64 ∧
  wrap01 0x3FF4000000000000#64 = 0x3FD0000000000000#64 ∧
  wrap01 0xBFD0000000000000#64 = 0x3FE8000000000000#64 ∧
  wrap01 0xBBC79CA10C924223#64 = 0#64

/-- R142: EXP2 is exact at every integer whose power of two is representable, +∞ from 1024 on, +0.0 at -∞
and at -1075 and below, and never negative. -/
def Obligations.Exp2AtIntegersAndEnds : Prop :=
  (∀ k : Int, -1074 ≤ k → k ≤ 1023 → fInt (fExp2 (f64OfInt k)) = 2 ^ (k + 1074).toNat) ∧
  (∀ x : F64, fIsNaN x = false → 1024 * (unitsPerOne : Int) ≤ fInt x → fExp2 x = 0x7FF0000000000000#64) ∧
  (∀ x : F64, fIsNaN x = false → fInt x ≤ -1075 * (unitsPerOne : Int) → fExp2 x = 0#64) ∧
  (∀ x : F64, fIsNaN x = false → (fExp2 x).toNat ≤ 0x7FF0000000000000)

/-- R142 says that EXP2 is correctly rounded, and R145 that LOG10 is (R9). The first clause is about the model's
own 256-bit series for 2^r (notes/assumptions/5.md). The others say of every finite argument that no binary64
value is nearer to the exact result than the one the model gives, up to an allowance of 2^-190 of the result for
EXP2 and of 2^-200 for LOG10, which are the model's own bounds, from the same entry. -/
def Obligations.Exp2SeriesApproximatesThePower : Prop :=
  (∀ r : Nat, r < 2 ^ 1074 →
    |(exp2FracFix 256 r : ℝ) / 2 ^ 256 - (2 : ℝ) ^ ((r : ℝ) / 2 ^ 1074)| ≤ 1 / 2 ^ 200) ∧
  (∀ x y : F64, fIsFinite x = true → fInt x < 1024 * 2 ^ 1074 → fIsFinite y = true →
    let power := (2 : ℝ) ^ ((fInt x : ℝ) / 2 ^ 1074)
    |(fInt (fExp2 x) : ℝ) / 2 ^ 1074 - power| ≤ |(fInt y : ℝ) / 2 ^ 1074 - power| + power / 2 ^ 190) ∧
  (∀ z y : F64, fIsFinite z = true → 0 < fInt z → fIsFinite y = true →
    let log := Real.logb 10 ((fInt z : ℝ) / 2 ^ 1074)
    |(fInt (fLog10 z) : ℝ) / 2 ^ 1074 - log| ≤ |(fInt y : ℝ) / 2 ^ 1074 - log| + 1 / 2 ^ 200)

/-- R143: the two stages of parSine, its exact values, and that parSine(-t) and -parSine(t) are the same number for
every t in [-1, 1]. -/
def Obligations.ParSineIsOdd : Prop :=
  (∀ t : F64,
    let t4 := fMul 0x4010000000000000#64 t
    let y := fSub t4 (fMul t4 (fAbs t))
    parSine t = fAdd (fMul 0x3FCCCCCCCCCCCCCD#64 (fSub (fMul y (fAbs y)) y)) y) ∧
  (∀ t : F64, WithinMagnitude fOne t → fInt (parSine (fNeg t)) = -fInt (parSine t)) ∧
  (∀ t ∈ [0#64, 0x8000000000000000#64, 0x3FF0000000000000#64, 0xBFF0000000000000#64],
    fMag (parSine t) = 0) ∧
  parSine 0x3FE0000000000000#64 = 0x3FF0000000000000#64 ∧
  parSine 0xBFE0000000000000#64 = 0xBFF0000000000000#64 ∧
  parSine 0x3FD0000000000000#64 = 0x3FE6A66666666666#64

/-- R147, R148: the three shift-xor stages of the one generator step; the other as a shift towards bit 0 with the xor
of bits 0, 1, 27 and 28 entering at bit 31; neither maps a nonzero state to 0; and the rules' worked values. -/
def Obligations.NoiseStepsKeepStatesNonzero : Prop :=
  (∀ x : Word32,
    let x1 := x ^^^ (x <<< 13)
    let x2 := x1 ^^^ (x1 >>> 17)
    xorshift32 x = x2 ^^^ (x2 <<< 5)) ∧
  (∀ r : Word32,
    (lfsrNext r).getLsbD 31 =
      (((r.getLsbD 0).xor (r.getLsbD 1)).xor ((r.getLsbD 27).xor (r.getLsbD 28))) ∧
    ∀ k < 31, (lfsrNext r).getLsbD k = r.getLsbD (k + 1)) ∧
  (∀ x : Word32, x ≠ 0#32 → xorshift32 x ≠ 0#32 ∧ lfsrNext x ≠ 0#32) ∧
  xorshift32 0xACE1ACE1#32 = 0xB6C5CBBF#32 ∧ lfsrNext 0xACE1ACE1#32 = 0x5670D670#32

/-- R147, R148: the value of a draw is exact: (x - 2^31) × 2^-31; from a nonzero state it lies in
[-1 + 2^-31, 1 - 2^-31]. -/
def Obligations.NoiseValueIsExact : Prop :=
  ∀ x : Word32, fIsFinite (noiseValue x) = true ∧
    fInt (noiseValue x) = ((x.toNat : Int) - 2 ^ 31) * 2 ^ 1043 ∧
    (x ≠ 0#32 → (1 - 2 ^ 31) * 2 ^ 1043 ≤ fInt (noiseValue x) ∧
      fInt (noiseValue x) ≤ (2 ^ 31 - 1) * 2 ^ 1043)

/-! ### The wavetable bank and selector -/

/-- R231: the band ceilings, 80 Hz doubled up to 20480 Hz. -/
def Obligations.BandCeilingsAreOctaves : Prop :=
  ∀ j < 9, fInt (bandCeiling j) = 80 * 2 ^ j * (unitsPerOne : Int)

/-- R232: H_j is the largest h ≥ 1 with h × S_j < SAMPLE_RATE/2, or 1 if there is none, over the reals
(here both sides in units of 2^-1074, the rate not halved); it does not rise with j. The counts at 44100,
4096 and 160 Hz, and H_0 and H_8 at 48000. -/
def Obligations.HarmonicCountIsTheLargest : Prop :=
  (List.range 9).map (harmonics 0x40E5888000000000#64) = [275, 137, 68, 34, 17, 8, 4, 2, 1] ∧
  (List.range 9).map (harmonics 0x40B0000000000000#64) = [25, 12, 6, 3, 1, 1, 1, 1, 1] ∧
  harmonics 0x40E7700000000000#64 0 = 299 ∧ harmonics 0x40E7700000000000#64 8 = 1 ∧
  (∀ rate : F64, fIsFinite rate = true → fMag rate ≤ 160 * unitsPerOne → ∀ j < 9, harmonics rate j = 1) ∧
  ∀ (rate : F64) (j : Nat), j < 9 →
    1 ≤ harmonics rate j ∧
    (∀ h, 1 ≤ h → (2 * h * fMag (bandCeiling j) < fMag rate ↔
      h ≤ harmonics rate j ∧ 2 * fMag (bandCeiling j) < fMag rate)) ∧
    (2 * fMag (bandCeiling j) ≥ fMag rate → harmonics rate j = 1) ∧
    harmonics rate (j + 1) ≤ harmonics rate j

/-- R237: selectTable gives the smallest j in 0..8 with abs(f) ≤ S_j, or 8 if there is none; a WT UPDATE writes
it for the new EFF_FREQ, and no other command writes TABLE_INDEX. The rule's examples. -/
def Obligations.SelectTableIsTheSmallest : Prop :=
  (∀ f : F64,
    selectTable f ≤ 8 ∧
    (∀ j < selectTable f, fLe (fAbs f) (bandCeiling j) = false) ∧
    (fLe (fAbs f) (bandCeiling (selectTable f)) = true ∨
      (selectTable f = 8 ∧ ∀ j < 9, fLe (fAbs f) (bandCeiling j) = false))) ∧
  (∀ (i : Instr) (s t : State), exec i s = .next t →
    (i = .update → s.kind = .wt → t.tableIndex.toNat = selectTable t.effFreq) ∧
    (i ≠ .update ∨ s.kind ≠ .wt → t.tableIndex = s.tableIndex)) ∧
  selectTable 0#64 = 0 ∧ selectTable 0x4054000000000000#64 = 0 ∧ selectTable 0x4054000000000001#64 = 1 ∧
  selectTable 0x407B800000000000#64 = 3 ∧ selectTable 0xC07B800000000000#64 = 3 ∧
  selectTable 0x408F400000000000#64 = 4 ∧ selectTable 0x40B3880000000000#64 = 6 ∧
  selectTable 0x40D4000000000000#64 = 8

/-- R239 (1) and (2): a rising abs(f) never selects a richer table, and above a sample rate of 2 × FO_MAX the
top harmonic of the selected table at any frequency UPDATE can produce lies below half the sample rate. -/
def Obligations.SelectionIsMonotoneAndSafe : Prop :=
  (∀ f g : F64, fLe (fAbs f) (fAbs g) = true → selectTable f ≤ selectTable g) ∧
  (∀ f rate : F64, fLe (fAbs f) Config.foMax = true → 2 * fMag Config.foMax < fMag rate →
    2 * (harmonics rate (selectTable f) * fMag f) < fMag rate)

/-- R233: SINE[i] is a binary64 nearest to sin(2π·i/1024); the four exact points and the rule's examples. -/
def Obligations.SineTableIsNearest : Prop :=
  (∀ i < 1024, ∀ y : F64, fIsFinite y = true →
    |(fInt (sineEntry i) : ℝ) / 2 ^ 1074 - Real.sin (2 * Real.pi * i / 1024)|
      ≤ |(fInt y : ℝ) / 2 ^ 1074 - Real.sin (2 * Real.pi * i / 1024)|) ∧
  sineEntry 0 = 0#64 ∧ sineEntry 512 = 0#64 ∧
  sineEntry 256 = 0x3FF0000000000000#64 ∧ sineEntry 768 = 0xBFF0000000000000#64 ∧
  sineEntry 1 = 0x3F7921F0FE670071#64 ∧ sineEntry 128 = 0x3FE6A09E667F3BCD#64 ∧
  sineEntry 384 = 0x3FE6A09E667F3BCD#64

/-- R234, R235, R239 (4). For every rate, table and index: every entry is in [-1.0, 1.0], the saw is exactly 0 at
i = 0 and i = L/2, the triangle at i = L/4 and i = 3L/4. For every legal rate (R31): the triangle is exactly 1.0 at
0 and -1.0 at L/2, the saw peaks at exactly 1.0, each entry of SAW_j and TRI_j is within 2^-53 of the quotient of
V_j(i) or W_j(i) by its maximum, and CORR_j is a binary64 nearest to 1/D_j. The last two clauses bound the model's
own fixed-point sums (notes/assumptions/5.md). -/
def Obligations.TableEntriesAreBounded : Prop :=
  let V : Nat → Nat → ℝ := fun hs i =>
    -∑ n ∈ Finset.range hs, Real.sin (2 * Real.pi * (n + 1) * i / 1024) / (n + 1)
  let W : Nat → Nat → ℝ := fun hs i =>
    ∑ n ∈ Finset.range ((hs + 1) / 2), Real.cos (2 * Real.pi * (2 * n + 1) * i / 1024) / (2 * n + 1) ^ 2
  let isMax : ℝ → (Nat → ℝ) → Prop := fun m f => (∀ i < 1024, |f i| ≤ m) ∧ ∃ i < 1024, |f i| = m
  (∀ (rate : F64) (j i : Nat), i < 1024 →
    WithinMagnitude fOne (sineEntry i) ∧ WithinMagnitude fOne (sawEntry rate j i) ∧
    WithinMagnitude fOne (triEntry rate j i) ∧
    sawEntry rate j 0 = 0#64 ∧ sawEntry rate j 512 = 0#64 ∧
    fMag (triEntry rate j 256) = 0 ∧ fMag (triEntry rate j 768) = 0) ∧
  (∀ (rate : F64) (j : Nat), 0x3FF0000000000000 ≤ rate.toNat → rate.toNat ≤ 0x4170000000000000 → j < 9 →
    triEntry rate j 0 = 0x3FF0000000000000#64 ∧ triEntry rate j 512 = 0xBFF0000000000000#64 ∧
    (∃ i < 1024, fMag (sawEntry rate j i) = 2 ^ 1074) ∧
    (∃ m : ℝ, isMax m (V (harmonics rate j)) ∧ ∀ i < 1024,
      |(fInt (sawEntry rate j i) : ℝ) / 2 ^ 1074 * m - V (harmonics rate j) i| ≤ m / 2 ^ 53) ∧
    (∃ m : ℝ, isMax m (W (harmonics rate j)) ∧ ∀ i < 1024,
      |(fInt (triEntry rate j i) : ℝ) / 2 ^ 1074 * m - W (harmonics rate j) i| ≤ m / 2 ^ 53) ∧
    (∃ D : ℝ, isMax D (fun i => (fInt (sawEntry rate j ((i + 512) % 1024)) - fInt (sawEntry rate j i) : ℝ) / 2 ^ 1074) ∧
      ∀ y : F64, fIsFinite y = true →
        |(fInt (corrFactor rate j) : ℝ) / 2 ^ 1074 - 1 / D| ≤ |(fInt y : ℝ) / 2 ^ 1074 - 1 / D|)) ∧
  (∀ hs i : Nat, hs ≤ 2 ^ 17 → i < 1024 → |(sawSum 256 1024 hs i : ℝ) / 2 ^ 256 + V hs i| ≤ 1 / 2 ^ 200) ∧
  (∀ hs i : Nat, hs ≤ 2 ^ 17 → i < 1024 → |(triSum 256 1024 hs i : ℝ) / 2 ^ 256 - W hs i| ≤ 1 / 2 ^ 200)

/-! ### OSC -/

/-- R176: with NOTE_ON = 0, OSC writes +0.0 to OUT and AUX and changes nothing else. -/
def Obligations.SilentOscOnlyMutes : Prop :=
  ∀ (s : State) (d : Word), decode { cmd := 5#32, data := d } = .ok .osc ∧ (s.noteOn = false →
    exec .osc s = .next { s with out := 0#64, aux := 0#64, rdata := 0#64 })

/-- R243 to R249, R149, R238, R86, R354: a rendering WT OSC. The sample is read at wrap01(PHASE + MOD_PHASE) from the
table of WAVEFORM and TABLE_INDEX in the bank, or drawn; then the phase advances; OUT = AUX = the scaled
sample; nothing else changes but, for white noise, NOISE_STATE. The scaling of every render is R146's: the product
of the value by AMPLITUDE and then by MOD_AMP; where that is NaN it stays NaN, and its bits are the model's free
value (notes/assumptions/4.md). For a PHASE in [0, 1) and a finite MOD_PHASE the read index is in [0, 1023], before it
is made a natural number, and the fraction is in [0, 1), both exact. -/
def Obligations.WtOscRenders : Prop :=
  (∀ s : State, s.PhaseOk → fIsFinite s.modPhase = true →
    let pr := wrap01 (fAdd s.phase s.modPhase)
    let r := fMul pr 0x4090000000000000#64
    let f := fSub r (fFloor r)
    fInt r = 1024 * fInt pr ∧ 0 ≤ fInt r / 2 ^ 1074 ∧ fInt r / 2 ^ 1074 ≤ 1023 ∧
    UnitPhase f ∧ fInt f = fInt r % 2 ^ 1074) ∧
  (∀ (s : State) (v : F64),
    (fIsNaN (fMul (fMul v s.amplitude) s.modAmp) = false →
      scaleOut s v = fMul (fMul v s.amplitude) s.modAmp) ∧
    (fIsNaN (fMul (fMul v s.amplitude) s.modAmp) = true → fIsNaN (scaleOut s v) = true)) ∧
  ∀ s : State, s.kind = .wt → s.noteOn = true → s.WaveformOk →
    let pr := wrap01 (fAdd s.phase s.modPhase)
    let r := fMul pr 0x4090000000000000#64
    let i := (fInt r / (unitsPerOne : Int)).toNat
    let f := fSub r (fFloor r)
    let k := s.tableIndex.toNat
    let read : (Nat → F64) → Nat → F64 := fun T n =>
      fAdd (fMul f (T ((n + 1) % 1024))) (fMul (fSub fOne f) (T n))
    let saw := read (sawEntry s.bankRate k)
    let v :=
      match s.waveform with
      | .sine => read sineEntry i
      | .sawUp => saw i
      | .sawDown => fNeg (saw i)
      | .triangle => read (triEntry s.bankRate k) i
      | .square =>
        fClamp fMinusOne fOne
          (fMul (corrFactor s.bankRate k) (fSub (saw ((i + 512) % 1024)) (saw i)))
      | _ => noiseValue (xorshift32 s.noiseState)
    let q := fAdd s.phase s.increment
    let inside := fLe 0#64 q && fLt q fOne
    exec .osc s = .next { s with
      noiseState := (if s.waveform = .whiteNoise then xorshift32 s.noiseState else s.noiseState)
      phase := (if inside then q else wrap01 q)
      wrapPending := !inside
      out := scaleOut s v
      aux := scaleOut s v
      rdata := 0#64 }

/-- R273 to R278, R149: a rendering QBL OSC. -/
def Obligations.QblOscRenders : Prop :=
  ∀ s : State, s.kind = .qbl → s.noteOn = true → s.WaveformOk →
    let pr := wrap01 (fAdd s.phase s.modPhase)
    let tri := decide (s.waveform = .triangle)
    let half := fLt pr fHalf
    let sign := if half then fOne else fMinusOne
    let b := fSub (fMul fTwo pr) fOne
    let u := fSub (fMul fTwo pr) (if half then 0#64 else fOne)
    let c := fSub (fMul fTwo u) fOne
    let raw := if tri then fMul sign (fSub fOne (fMul c c)) else fMul b b
    let delta := if tri then fMul fTwo s.increment else s.increment
    let y :=
      if fLt (fAbs delta) 0x3E70000000000000#64 || fLt (fAbs (fSub fOne delta)) 0x3E70000000000000#64
        then 0#64
        else fDiv (fSub raw s.dpwPrev) (fMul (fMul fFour delta) (fSub fOne delta))
    let v :=
      if tri then fMin (fMax y fMinusOne) fOne else if s.waveform = .sawDown then fNeg y else y
    let q := fAdd s.phase s.increment
    let inside := fLe 0#64 q && fLt q fOne
    exec .osc s = .next { s with
      dpwToggle := (if tri then sign else s.dpwToggle)
      dpwPrev := raw
      phase := (if inside then q else wrap01 q)
      wrapPending := !inside
      out := scaleOut s v
      aux := scaleOut s v
      rdata := 0#64 }

/-- R303, R305 to R310, R149: a rendering LFO OSC with a shape waveform, in which no one-shot completes.
OUT is the shape at PHASE and AUX the shape at wrap01(PHASE + 0.25). The exponential shape is the transform of
R145: K × LOG10(1 - x) negated, or 1.0 where that product is at most -1.0; in [0, 1] for every x in [0, 1), +0.0 at 0,
1.0 once 1 - x ≤ 10^(-2.4) (here (1 - x)^5 ≤ 10^-12), and the rule's three examples. -/
def Obligations.LfoOscRendersShapes : Prop :=
  (∀ x : F64,
    let v := fMul 0x3FDAAAAAAAAAAAAB#64 (fLog10 (fSub fOne x))
    concave x = if fLe v fMinusOne then fOne else fSub 0#64 v) ∧
  (∀ x : F64, UnitPhase x → WithinMagnitude fOne (concave x) ∧ fLe 0#64 (concave x) = true) ∧
  (∀ x : F64, UnitPhase x → fInt (fSub fOne x) ^ 5 * 10 ^ 12 ≤ (2 ^ 1074) ^ 5 → concave x = fOne) ∧
  concave 0#64 = 0#64 ∧ concave 0x3FE0000000000000#64 = 0x3FC00E101884E5AA#64 ∧
  concave 0x3FECCCCCCCCCCCCD#64 = 0x3FDAAAAAAAAAAAAB#64 ∧
  concave 0x3FEFAE147AE147AE#64 = 0x3FEAAAAAAAAAAAA9#64 ∧
  ∀ s : State, s.kind = .lfo → s.noteOn = true → s.WaveformOk →
    s.waveform ≠ .heldNoise → s.waveform ≠ .heldPn →
    (s.runMode ≠ .shot ∨ s.wrapPending = false) →
    let shot := decide (s.runMode = .shot)
    let shape : F64 → F64 := fun x =>
      match s.waveform with
      | .sine => parSine (fSub fOne (fMul fTwo x))
      | .sawUp => if shot then x else fSub (fMul fTwo x) fOne
      | .sawDown => if shot then fSub fOne x else fSub fOne (fMul fTwo x)
      | .triangle =>
        let v := fSub (fMul fTwo (fAbs (fSub (fMul fTwo x) fOne))) fOne
        if shot then fAdd (fMul fHalf v) fHalf else v
      | .square => if fLe x (fDiv s.effPw fHundred) then fOne else fMinusOne
      | _ => concave x
    let q := fAdd s.phase s.increment
    let inside := fLe 0#64 q && fLt q fOne
    exec .osc s = .next { s with
      phase := (if inside then q else wrap01 q)
      wrapPending := !inside
      out := scaleOut s (shape s.phase)
      aux := scaleOut s (shape (wrap01 (fAdd s.phase 0x3FD0000000000000#64)))
      rdata := 0#64 }

/-- R312, R313, R149: a rendering LFO OSC with a held-noise waveform, in which no one-shot completes: it
draws when SH_COUNTER < 0 or SH_COUNTER ≥ holdCount(), else it counts; OUT = AUX = the scaled SH_VALUE. -/
def Obligations.LfoOscHoldsNoise : Prop :=
  ∀ s : State, s.kind = .lfo → s.noteOn = true →
    (s.waveform = .heldNoise ∨ s.waveform = .heldPn) →
    (s.runMode ≠ .shot ∨ s.wrapPending = false) →
    let draw := decide (s.shCounter.toInt < 0 ∨
      (holdCount s.sampleRate s.effFreq : Int) ≤ s.shCounter.toInt)
    let white := decide (s.waveform = .heldNoise)
    let x := if white then xorshift32 s.noiseState else lfsrNext s.pnReg
    let v := if draw then noiseValue x else s.shValue
    let q := fAdd s.phase s.increment
    let inside := fLe 0#64 q && fLt q fOne
    exec .osc s = .next { s with
      shCounter := (if draw then 1#32 else s.shCounter + 1#32)
      shValue := v
      noiseState := (if draw && white then x else s.noiseState)
      pnReg := (if draw && !white then x else s.pnReg)
      phase := (if inside then q else wrap01 q)
      wrapPending := !inside
      out := scaleOut s v
      aux := scaleOut s v
      rdata := 0#64 }

/-- R314: one-shot completion, exactly; and the OSC after it is silent. -/
def Obligations.OneShotCompletes : Prop :=
  ∀ s : State, s.kind = .lfo → s.noteOn = true → s.runMode = .shot → s.wrapPending = true →
    ∃ t, exec .osc s = .next t ∧
      t = { s with wrapPending := false, noteOn := false, out := 0#64, aux := 0#64, rdata := 0#64 } ∧
      exec .osc t = .next t

/-- R304, R317 (1): the AUX of an OSC at phase p is bit for bit the OUT of an OSC of the same state at
phase wrap01(p + 0.25), for every waveform but the held-noise pair, for which AUX = OUT. -/
def Obligations.QuadratureLeadsByAQuarter : Prop :=
  ∀ s t t' : State, s.kind = .lfo → s.noteOn = true → s.WaveformOk → s.wrapPending = false →
    exec .osc s = .next t →
    exec .osc { s with phase := wrap01 (fAdd s.phase 0x3FD0000000000000#64) } = .next t' →
    (s.waveform ≠ .heldNoise → s.waveform ≠ .heldPn → t.aux = t'.out) ∧
    ((s.waveform = .heldNoise ∨ s.waveform = .heldPn) → t.aux = t.out)

/-- R311, R144: where the quotient h = rate/abs(freq) is finite and at least 0, the hold count is
min(2^31 - 1, max(1, floor(h + 1/2))) over the reals, and at h = +∞ it is 2^31 - 1. It is in [1, 2^31 - 1] and ignores
the frequency's sign. The rule's examples: 2.5 rounds up to 3. -/
def Obligations.HoldCountIsInRange : Prop :=
  (∀ rate freq : F64, 1 ≤ holdCount rate freq ∧ holdCount rate freq ≤ 2147483647 ∧
    holdCount rate (fNeg freq) = holdCount rate freq) ∧
  (∀ rate freq : F64,
    let h := fDiv rate (fAbs freq)
    (fIsFinite h = true → 0 ≤ fInt h →
      (holdCount rate freq : Int) = min 2147483647 (max 1 ⌊(fInt h : ℝ) / 2 ^ 1074 + 1 / 2⌋)) ∧
    (h = 0x7FF0000000000000#64 → holdCount rate freq = 2147483647)) ∧
  holdCount 0x40E5888000000000#64 0x3FF0000000000000#64 = 44100 ∧
  holdCount 0x40E5888000000000#64 0xBFF0000000000000#64 = 44100 ∧
  holdCount 0x40E5888000000000#64 0x4008000000000000#64 = 14700 ∧
  holdCount 0x4020000000000000#64 0x4008000000000000#64 = 3 ∧
  holdCount 0x4020000000000000#64 0x4000000000000000#64 = 4 ∧
  holdCount 0x40E5888000000000#64 0x40D13A0000000000#64 = 3 ∧
  holdCount 0x40E5888000000000#64 0#64 = 2147483647

/-- R308: the LFO triangle is in [-1, 1] for every phase in [0, 1), in shot mode in [0, 1]. -/
def Obligations.LfoTriangleIsBounded : Prop :=
  ∀ x : F64, UnitPhase x →
    WithinMagnitude fOne (triangleShape .sync x) ∧ WithinMagnitude fOne (triangleShape .free x) ∧
    WithinMagnitude fOne (triangleShape .shot x) ∧ fLe 0#64 (triangleShape .shot x) = true

/-- R278, R279 (2): the QBL triangle is within [-1, 1] before scaling, in every state whose increment is in
range and whose MOD_PHASE and DPW_PREV are finite, which RangesInvariantIsKept says every step keeps. -/
def Obligations.QblTriangleIsBounded : Prop :=
  ∀ s : State, s.PhaseOk → WithinMagnitude Config.foMax s.increment → fIsFinite s.modPhase = true →
    fIsFinite s.dpwPrev = true → s.waveform = .triangle →
    WithinMagnitude fOne (qblShape .triangle
      (dpwDifference s.dpwPrev (qblSegment s (readPhase s)).1 (qblSegment s (readPhase s)).2.1))

/-! ### Invariants -/

/-- R380, R70: the power-on state is what the sequence of R380 computes: the defaults, then resetCore, then
the effect of UPDATE, then STATUS 0; with the values that makes of PHASE, INCREMENT, EFF_FREQ, EFF_PW and
TABLE_INDEX. RDATA 0 (notes/assumptions/11.md), the empty port (notes/assumptions/2.md) and, on a QBL and an LFO, the
unused rate of the bank (notes/assumptions/3.md) are the model's choices. -/
def Obligations.PowerOnRunsResetAndUpdate : Prop :=
  (∀ (k : Kind) (p q r : F64) (a b c : Word32) (w : Bool),
    let defaults : State := {
      sampleRate := 0x40E5888000000000#64
      targetFreq := 0x407B800000000000#64
      freqRatio := 0x3FF0000000000000#64
      octave := 0#32
      semitone := 0#32
      cent := 0#32
      amplitude := 0x3FF0000000000000#64
      pwTarget := 0x4049000000000000#64
      waveform := .sawUp
      runMode := .sync
      seed := 0xACE1ACE1#32
      modAmp := q
      modFoExp := q
      modPitchBend := q
      modFoLin := q
      modPhase := q
      modPw := q
      phase := p
      increment := 0#64
      effFreq := 0#64
      effPw := 0x4049000000000000#64
      noteOn := false
      tableIndex := 0#32
      shCounter := c
      shValue := 0#64
      pnReg := b
      noiseState := a
      dpwPrev := r
      dpwToggle := r
      wrapPending := w
      status := 0#4
      kind := k
      out := 0#64
      aux := 0#64
      bankRate := 0x40E5888000000000#64
      rdata := 0#64
      port := [] }
    { updateCore (resetCore defaults) with status := 0#4 } = State.powerOn k) ∧
  (∀ k : Kind, (State.powerOn k).increment = 0x3F846EFDCB4A6B82#64 ∧
    (State.powerOn k).effFreq = 0x407B800000000000#64 ∧ (State.powerOn k).effPw = 0x4049000000000000#64) ∧
  (State.powerOn .wt).phase = 0x3FE0000000000000#64 ∧ (State.powerOn .qbl).phase = 0x3FE0000000000000#64 ∧
  (State.powerOn .lfo).phase = 0#64 ∧ (State.powerOn .wt).tableIndex = 3#32 ∧
  (State.powerOn .qbl).tableIndex = 0#32 ∧ (State.powerOn .lfo).tableIndex = 0#32

/-- R383, R70: the power-on state of every kind satisfies every invariant. -/
def Obligations.PowerOnMeetsTheInvariants : Prop :=
  ∀ k : Kind, (State.powerOn k).PhaseOk ∧ (State.powerOn k).RangesOk ∧ (State.powerOn k).SelectorsOk ∧
    State.reset.kind = .wt ∧ State.reset = State.powerOn .wt

/-- R180: no step moves PHASE out of [0, 1), whatever the increment's sign and MOD_PHASE. The increment is
finite in every reachable state (RangesInvariantIsKept). -/
def Obligations.PhaseStaysInUnitInterval : Prop :=
  ∀ s t : State, s.PhaseOk → fIsFinite s.increment = true → step s = .next t → t.PhaseOk

/-- R31 to R33, R37, R38, R42 to R51, R53, R55, R180, R202: the rate stays legal, the controls stay finite, what
UPDATE computed stays in range, PHASE stays in [0, 1), SH_VALUE in [-1, 1) and DPW_PREV in [-1, 1]. The range of
DPW_PREV is what the segments of R274 and R275 give; R58 states none. -/
def Obligations.RangesInvariantIsKept : Prop :=
  ∀ s t : State, s.RangesOk → step s = .next t → t.RangesOk

/-- R39, R41, R54, R56, R57, R59, R66, R53: WAVEFORM stays legal for the kind, the noise states nonzero, the
hold counter the sentinel or positive, the toggle ±1, the bank of a WT that of its rate, and the
TABLE_INDEX of the other kinds 0. -/
def Obligations.SelectorsInvariantIsKept : Prop :=
  ∀ s t : State, s.SelectorsOk → step s = .next t → t.SelectorsOk
end

