-- ==== Sys2Proof/Laws/Numerics.lean ====
section
/-! SUPPORT. What the binary64 layer does: the fields of packed, negated and absolute values, and rounding as a
monotone function that leaves every finite binary64 as it is (spec 00_scope.md R9). -/

namespace Sys2Proof.Machine

open Sys2Proof

/-- `force` only orders evaluation. -/
theorem force_eq {α : Type} (n : Nat) (k : Nat → α) : force n k = k n := by
  cases n <;> rfl

/-! ### Rounding to an integer -/

theorem roundHalfEven_one (n : Nat) : roundHalfEven n 1 = n := by
  simp [roundHalfEven, Nat.mod_one]

theorem roundHalfEven_mul (n d : Nat) (hd : 0 < d) : roundHalfEven (n * d) d = n := by
  simp [roundHalfEven, Nat.mul_mod_left, Nat.mul_div_cancel _ hd, hd]

/-- `roundHalfEven n d` is within one half of n/d. -/
theorem roundHalfEven_near (n d : Nat) (hd : 0 < d) :
    2 * n ≤ 2 * (d * roundHalfEven n d) + d ∧ 2 * (d * roundHalfEven n d) ≤ 2 * n + d := by
  have h := Nat.div_add_mod n d
  have hr := Nat.mod_lt n hd
  dsimp only [roundHalfEven]
  split
  · omega
  · split
    · rw [Nat.mul_add]; omega
    · split
      · omega
      · rw [Nat.mul_add]; omega

/-- At a tie the result is even. -/
theorem roundHalfEven_tie (n d : Nat) (h : 2 * (n % d) = d) : roundHalfEven n d % 2 = 0 := by
  dsimp only [roundHalfEven]
  split
  · omega
  · split
    · omega
    · split <;> omega

/-- Rounding is monotone in the quotient. -/
theorem roundHalfEven_mono (n d n' d' : Nat) (hd : 0 < d) (hd' : 0 < d') (h : n * d' ≤ n' * d) :
    roundHalfEven n d ≤ roundHalfEven n' d' := by
  by_contra hlt
  have hq : roundHalfEven n' d' + 1 ≤ roundHalfEven n d := by omega
  have h1 := (roundHalfEven_near n d hd).2
  have h2 := (roundHalfEven_near n' d' hd').1
  have hr := roundHalfEven_tie n d
  have hr' := roundHalfEven_tie n' d'
  generalize hA : roundHalfEven n d = a at *
  generalize hB : roundHalfEven n' d' = b at *
  have hm := Nat.div_add_mod n d
  have hm' := Nat.div_add_mod n' d'
  -- 2·a·d·d' ≤ 2·n·d' + d·d' ≤ 2·n'·d + d·d' ≤ 2·b·d·d' + 2·d·d'
  have e1 : 2 * (d * a) * d' ≤ (2 * n + d) * d' := Nat.mul_le_mul_right _ h1
  have e2 : 2 * n' * d ≤ (2 * (d' * b) + d') * d := Nat.mul_le_mul_right _ h2
  have hab : a = b + 1 := by
    have : 2 * (d * a) * d' ≤ 2 * (d * d' * (b + 1)) := by nlinarith
    have h3 : (d * d') * a ≤ (d * d') * (b + 1) := by nlinarith
    have := Nat.le_of_mul_le_mul_left h3 (Nat.mul_pos hd hd')
    omega
  subst hab
  have t1 : 2 * (d * (b + 1)) = 2 * n + d := by
    refine le_antisymm h1 ?_
    have : (2 * n + d) * d' ≤ 2 * (d * (b + 1)) * d' := by nlinarith
    exact Nat.le_of_mul_le_mul_right this hd'
  have t2 : 2 * n' = 2 * (d' * b) + d' := by
    refine le_antisymm h2 ?_
    have : (2 * (d' * b) + d') * d ≤ 2 * n' * d := by nlinarith
    exact Nat.le_of_mul_le_mul_right this hd
  have r1 : n % d = n - d * b := by
    have hn : n / d = b := by
      apply Nat.div_eq_of_lt_le <;> nlinarith
    rw [hn] at hm; omega
  have r2 : n' % d' = n' - d' * b := by
    have hn : n' / d' = b := by
      apply Nat.div_eq_of_lt_le <;> nlinarith
    rw [hn] at hm'; omega
  have p1 := hr (by rw [r1]; rw [Nat.mul_add] at t1; omega)
  have p2 := hr' (by rw [r2]; omega)
  omega

/-! ### Rounding to binary64 -/

/-- No rounding goes above the pattern of +∞. -/
theorem roundMag_le (n d : Nat) : roundMag n d ≤ 0x7FF0000000000000 := by
  dsimp only [roundMag]; exact Nat.min_le_right _ _

/-- The rounded significand of n/d at spacing 2^s, s = log2(n/d) - 52: at most 2^53, and at least 2^52 when
s is not 0. -/
theorem significand_bounds (n d : Nat) (hd : 0 < d) :
    roundHalfEven n (d * 2 ^ ((n / d).log2 - 52)) ≤ 2 ^ 53 ∧
    (0 < (n / d).log2 - 52 → 2 ^ 52 ≤ roundHalfEven n (d * 2 ^ ((n / d).log2 - 52))) := by
  set s := (n / d).log2 - 52 with hs
  have hds : 0 < d * 2 ^ s := Nat.mul_pos hd (by positivity)
  constructor
  · have hlt : n / d < 2 ^ 53 * 2 ^ s := by
      rw [← pow_add]
      exact Nat.lt_of_lt_of_le Nat.lt_log2_self (Nat.pow_le_pow_right (by norm_num) (by omega))
    have hn : n < (2 ^ 53 * 2 ^ s) * d := (Nat.div_lt_iff_lt_mul hd).1 hlt
    have := roundHalfEven_mono n (d * 2 ^ s) (2 ^ 53) 1 hds one_pos (by nlinarith)
    rwa [roundHalfEven_one] at this
  · intro hpos
    have hne : n / d ≠ 0 := by
      intro h0; rw [h0] at hs; simp at hs; omega
    have hle : 2 ^ 52 * 2 ^ s ≤ n / d := by
      rw [← pow_add]
      exact le_trans (Nat.pow_le_pow_right (by norm_num) (by omega)) (Nat.log2_self_le hne)
    have hn : (2 ^ 52 * 2 ^ s) * d ≤ n := (Nat.le_div_iff_mul_le hd).1 hle
    have := roundHalfEven_mono (2 ^ 52) 1 n (d * 2 ^ s) one_pos hds (by nlinarith)
    rwa [roundHalfEven_one] at this

/-- Rounding to binary64 is monotone in the quotient. -/
theorem roundMag_mono (n d n' d' : Nat) (hd : 0 < d) (hd' : 0 < d') (h : n * d' ≤ n' * d) :
    roundMag n d ≤ roundMag n' d' := by
  have hq : n / d ≤ n' / d' := by
    rw [Nat.le_div_iff_mul_le hd']
    have h1 : n / d * d ≤ n := Nat.div_mul_le_self n d
    have : n / d * d' * d ≤ n' * d := by nlinarith
    exact Nat.le_of_mul_le_mul_right this hd
  have hlog : (n / d).log2 ≤ (n' / d').log2 := by
    by_cases h0 : n / d = 0
    · simp [h0]
    · have h1 : n' / d' ≠ 0 := fun h' => h0 (Nat.le_zero.1 (h' ▸ hq))
      exact (Nat.le_log2 h1).2 (le_trans (Nat.log2_self_le h0) hq)
  have b1 := (significand_bounds n d hd).1
  have b2 := (significand_bounds n' d' hd').2
  dsimp only [roundMag]
  refine min_le_min ?_ le_rfl
  rcases Nat.eq_or_lt_of_le (Nat.sub_le_sub_right hlog 52) with heq | hlt
  · rw [← heq] at b2 ⊢
    refine Nat.add_le_add_right ?_ _
    refine roundHalfEven_mono _ _ _ _ (Nat.mul_pos hd (by positivity)) (Nat.mul_pos hd' (by positivity)) ?_
    calc n * (d' * 2 ^ ((n / d).log2 - 52)) = n * d' * 2 ^ ((n / d).log2 - 52) := by ring
      _ ≤ n' * d * 2 ^ ((n / d).log2 - 52) := Nat.mul_le_mul_right _ h
      _ = n' * (d * 2 ^ ((n / d).log2 - 52)) := by ring
  · have := b2 (by omega)
    omega

/-! ### Fields -/

/-- The 63 bits below the sign. -/
def fLow (x : F64) : Nat := x.toNat % 2 ^ 63

theorem fSign_eq (x : F64) : fSign x = decide (2 ^ 63 ≤ x.toNat) := by
  simp [fSign, BitVec.msb_eq_decide]

theorem fLow_lt (x : F64) : fLow x < 2 ^ 63 := Nat.mod_lt _ (by norm_num)

/-- A pattern is its sign and the 63 bits below it. -/
theorem toNat_eq_sign_low (x : F64) : x.toNat = (if fSign x then 2 ^ 63 else 0) + fLow x := by
  have h := x.isLt
  simp only [fSign_eq, fLow, decide_eq_true_eq]
  split <;> omega

theorem fExpField_eq_low (x : F64) : fExpField x = fLow x / 2 ^ 52 := by
  have h := x.isLt
  simp only [fExpField, fLow]; omega

theorem fFrac_eq_low (x : F64) : fFrac x = fLow x % 2 ^ 52 := by
  simp only [fFrac, fLow]; omega

/-- A value is finite when the 63 bits below its sign are below those of +∞. -/
theorem fIsFinite_iff_low (x : F64) : fIsFinite x = true ↔ fLow x < 0x7FF0000000000000 := by
  have h := fLow_lt x
  simp only [fIsFinite, fExpField_eq_low, bne_iff_ne, ne_eq]
  omega

theorem fMag_eq_low (x : F64) :
    fMag x = if fLow x < 2 ^ 52 then fLow x
      else (2 ^ 52 + fLow x % 2 ^ 52) * 2 ^ (fLow x / 2 ^ 52 - 1) := by
  simp only [fMag, fExpField_eq_low, fFrac_eq_low]
  by_cases h : fLow x < 2 ^ 52
  · rw [if_pos (by omega), if_pos h]; omega
  · rw [if_neg (by omega), if_neg h]

theorem fIsNaN_of_finite {x : F64} (h : fIsFinite x = true) : fIsNaN x = false := by
  simp only [fIsFinite, bne_iff_ne] at h
  simp [fIsNaN, h]

theorem fIsInf_of_finite {x : F64} (h : fIsFinite x = true) : fIsInf x = false := by
  simp only [fIsFinite, bne_iff_ne] at h
  simp [fIsInf, h]

/-! ### Packing -/

theorem toNat_fPack (neg : Bool) {m : Nat} (h : m < 2 ^ 63) :
    (fPack neg m).toNat = (if neg then 2 ^ 63 else 0) + m := by
  simp only [fPack, BitVec.toNat_ofNat]
  cases neg <;> (simp; omega)

@[simp] theorem fLow_fPack (neg : Bool) {m : Nat} (h : m < 2 ^ 63) : fLow (fPack neg m) = m := by
  rw [fLow, toNat_fPack neg h]; cases neg <;> (simp; omega)

@[simp] theorem fSign_fPack (neg : Bool) {m : Nat} (h : m < 2 ^ 63) : fSign (fPack neg m) = neg := by
  rw [fSign_eq, toNat_fPack neg h]; cases neg
  · simp; omega
  · simp

theorem roundMag_lt (n d : Nat) : roundMag n d < 2 ^ 63 :=
  Nat.lt_of_le_of_lt (roundMag_le n d) (by norm_num)

/-- The sign of a rounded value is the one asked for. -/
@[simp] theorem fSign_fRound (neg : Bool) (n d : Nat) : fSign (fRound neg n d) = neg :=
  fSign_fPack neg (roundMag_lt n d)

/-- The 63 bits below the sign of a rounded value. -/
@[simp] theorem fLow_fRound (neg : Bool) (n d : Nat) : fLow (fRound neg n d) = roundMag n d :=
  fLow_fPack neg (roundMag_lt n d)

/-- A value is its sign and magnitude packed. -/
theorem fPack_sign_low (x : F64) : fPack (fSign x) (fLow x) = x := by
  apply BitVec.eq_of_toNat_eq
  rw [toNat_fPack _ (fLow_lt x), ← toNat_eq_sign_low]

/-- The operators never make a NaN by rounding. -/
theorem fIsNaN_fRound (neg : Bool) (n d : Nat) : fIsNaN (fRound neg n d) = false := by
  have h := roundMag_le n d
  simp only [fIsNaN, fExpField_eq_low, fFrac_eq_low, fLow_fRound, Bool.and_eq_false_iff, beq_eq_false_iff_ne,
    bne_eq_false_iff_eq]
  omega

/-! ### Representable values round to themselves -/

theorem roundMag_fMag {x : F64} (h : fIsFinite x = true) : roundMag (fMag x) 1 = fLow x := by
  rw [fIsFinite_iff_low] at h
  rw [fMag_eq_low]
  by_cases hs : fLow x < 2 ^ 52
  · have hl : (fLow x).log2 - 52 = 0 := by
      by_cases h0 : fLow x = 0
      · simp [h0]
      · have := (Nat.log2_lt h0).2 hs; omega
    dsimp only [roundMag]
    rw [if_pos hs, Nat.div_one, hl]
    simp [roundHalfEven_one]; omega
  · have he : 1 ≤ fLow x / 2 ^ 52 := by omega
    set e := fLow x / 2 ^ 52 with hE
    set m := 2 ^ 52 + fLow x % 2 ^ 52 with hM
    have hm1 : 2 ^ 52 ≤ m := by omega
    have hm2 : m < 2 ^ 53 := by omega
    have hl : (m * 2 ^ (e - 1)).log2 = 52 + (e - 1) := by
      rw [Nat.log2_eq_iff (Nat.mul_ne_zero (by omega) (by positivity))]
      refine ⟨?_, ?_⟩
      · rw [pow_add]; exact Nat.mul_le_mul_right _ hm1
      · rw [show 52 + (e - 1) + 1 = 53 + (e - 1) by omega, pow_add]
        exact Nat.mul_lt_mul_of_pos_right hm2 (by positivity)
    dsimp only [roundMag]
    rw [if_neg hs, Nat.div_one, hl, show 52 + (e - 1) - 52 = e - 1 by omega, one_mul,
      roundHalfEven_mul _ _ (by positivity)]
    omega

/-- A finite value rounds to itself. -/
theorem fRound_self {x : F64} (h : fIsFinite x = true) : fRound (fSign x) (fMag x) 1 = x := by
  rw [fRound, roundMag_fMag h, fPack_sign_low]

/-- Magnitudes of finite values are ordered as the 63 bits below the sign. -/
theorem fMag_le_iff {x y : F64} (hx : fIsFinite x = true) (hy : fIsFinite y = true) :
    fMag x ≤ fMag y ↔ fLow x ≤ fLow y := by
  constructor
  · intro h
    have := roundMag_mono (fMag x) 1 (fMag y) 1 one_pos one_pos (by omega)
    rwa [roundMag_fMag hx, roundMag_fMag hy] at this
  · intro h
    by_contra hlt
    have hle := roundMag_mono (fMag y) 1 (fMag x) 1 one_pos one_pos (by omega)
    rw [roundMag_fMag hx, roundMag_fMag hy] at hle
    have heq : fLow x = fLow y := le_antisymm h hle
    rw [fMag_eq_low, fMag_eq_low, heq] at hlt
    exact hlt le_rfl

/-- A quotient of at most a finite value's magnitude rounds to at most it, and to a finite value. -/
theorem fMag_fRound_le {x : F64} (hx : fIsFinite x = true) (neg : Bool) (n d : Nat) (hd : 0 < d)
    (h : n ≤ fMag x * d) : fIsFinite (fRound neg n d) = true ∧ fMag (fRound neg n d) ≤ fMag x := by
  have hr := roundMag_mono n d (fMag x) 1 hd one_pos (by omega)
  rw [roundMag_fMag hx] at hr
  have hf : fIsFinite (fRound neg n d) = true := by
    rw [fIsFinite_iff_low, fLow_fRound]
    exact Nat.lt_of_le_of_lt hr ((fIsFinite_iff_low x).1 hx)
  exact ⟨hf, (fMag_le_iff hf hx).2 (by rw [fLow_fRound]; exact hr)⟩

/-- A quotient of at least a finite value's magnitude rounds to at least it, unless it overflows. -/
theorem fMag_le_fRound {x : F64} (hx : fIsFinite x = true) (neg : Bool) (n d : Nat) (hd : 0 < d)
    (h : fMag x * d ≤ n) (hf : fIsFinite (fRound neg n d) = true) : fMag x ≤ fMag (fRound neg n d) := by
  have hr := roundMag_mono (fMag x) 1 n d one_pos hd (by omega)
  rw [roundMag_fMag hx] at hr
  exact (fMag_le_iff hx hf).2 (by rw [fLow_fRound]; exact hr)

/-! ### Negation and absolute value -/

theorem fNeg_div (x : F64) : (fNeg x).toNat / 2 ^ 63 = x.toNat / 2 ^ 63 ^^^ 1 := by
  rw [fNeg, BitVec.toNat_xor, Nat.xor_div_two_pow]; rfl

theorem fNeg_mod (x : F64) : fLow (fNeg x) = fLow x := by
  rw [fLow, fNeg, BitVec.toNat_xor, Nat.xor_mod_two_pow]; simp [fLow]

@[simp] theorem fLow_fNeg (x : F64) : fLow (fNeg x) = fLow x := fNeg_mod x

@[simp] theorem fSign_fNeg (x : F64) : fSign (fNeg x) = !fSign x := by
  have h := fNeg_div x
  have hx := x.isLt
  have h1 : (fSign x = true ∧ x.toNat / 2 ^ 63 = 1) ∨ (fSign x = false ∧ x.toNat / 2 ^ 63 = 0) := by
    rw [fSign_eq]; simp only [decide_eq_true_eq, decide_eq_false_iff_not]; omega
  rcases h1 with ⟨hs, hd⟩ | ⟨hs, hd⟩ <;> rw [hs, fSign_eq] <;> rw [hd] at h <;> simp at h ⊢ <;> omega

@[simp] theorem fMag_fNeg (x : F64) : fMag (fNeg x) = fMag x := by rw [fMag_eq_low, fMag_eq_low, fLow_fNeg]

@[simp] theorem fIsFinite_fNeg (x : F64) : fIsFinite (fNeg x) = fIsFinite x := by
  rw [fIsFinite, fIsFinite, fExpField_eq_low, fExpField_eq_low, fLow_fNeg]

@[simp] theorem fIsNaN_fNeg (x : F64) : fIsNaN (fNeg x) = fIsNaN x := by
  rw [fIsNaN, fIsNaN, fExpField_eq_low, fExpField_eq_low, fFrac_eq_low, fFrac_eq_low, fLow_fNeg]

/-- Negation is exact. -/
@[simp] theorem fInt_fNeg (x : F64) : fInt (fNeg x) = -fInt x := by
  simp only [fInt, fSign_fNeg, fMag_fNeg]; cases fSign x <;> simp

@[simp] theorem fLow_fAbs (x : F64) : fLow (fAbs x) = fLow x := by
  rw [fLow, fAbs, BitVec.toNat_and, Nat.and_mod_two_pow]
  change x.toNat % 2 ^ 63 &&& (2 ^ 63 - 1) % 2 ^ 63 = fLow x
  rw [Nat.mod_eq_of_lt (by norm_num : 2 ^ 63 - 1 < 2 ^ 63), Nat.and_two_pow_sub_one_eq_mod, Nat.mod_mod]; rfl

@[simp] theorem fSign_fAbs (x : F64) : fSign (fAbs x) = false := by
  have h : (fAbs x).toNat ≤ 2 ^ 63 - 1 := by
    rw [fAbs, BitVec.toNat_and]; exact Nat.and_le_right
  rw [fSign_eq, decide_eq_false_iff_not]; omega

@[simp] theorem fMag_fAbs (x : F64) : fMag (fAbs x) = fMag x := by rw [fMag_eq_low, fMag_eq_low, fLow_fAbs]

@[simp] theorem fIsFinite_fAbs (x : F64) : fIsFinite (fAbs x) = fIsFinite x := by
  rw [fIsFinite, fIsFinite, fExpField_eq_low, fExpField_eq_low, fLow_fAbs]

@[simp] theorem fInt_fAbs (x : F64) : fInt (fAbs x) = fMag x := by simp [fInt]

@[simp] theorem fAbs_fNeg (x : F64) : fAbs (fNeg x) = fAbs x := by
  rw [← fPack_sign_low (fAbs (fNeg x)), ← fPack_sign_low (fAbs x)]; simp

/-! ### Rounding a signed value -/

/-- An exact value of magnitude at most that of a finite b rounds to a finite value of at most it. -/
theorem fInt_round_bound {b : F64} (hb : fIsFinite b = true) (v : Int) (h : v.natAbs ≤ fMag b) :
    fIsFinite (fRound (decide (v < 0)) v.natAbs 1) = true ∧
    fMag (fRound (decide (v < 0)) v.natAbs 1) ≤ fMag b :=
  fMag_fRound_le hb _ _ _ one_pos (by omega)

/-- Rounding keeps an upper bound that is itself a finite value. -/
theorem fInt_round_le {b : F64} (hb : fIsFinite b = true) (v : Int) (h : v ≤ fInt b)
    (hf : fIsFinite (fRound (decide (v < 0)) v.natAbs 1) = true) :
    fInt (fRound (decide (v < 0)) v.natAbs 1) ≤ fInt b := by
  by_cases hv : v < 0
  · have hm : fInt (fRound (decide (v < 0)) v.natAbs 1) = -(fMag (fRound (decide (v < 0)) v.natAbs 1) : Int) := by
      simp [fInt, hv]
    rw [hm]
    by_cases hs : fSign b = true
    · have hbm : fInt b = -(fMag b : Int) := by simp [fInt, hs]
      have := fMag_le_fRound hb (decide (v < 0)) v.natAbs 1 one_pos (by omega) hf
      omega
    · have hbm : fInt b = (fMag b : Int) := by simp [fInt, hs]
      omega
  · have hm : fInt (fRound (decide (v < 0)) v.natAbs 1) = (fMag (fRound (decide (v < 0)) v.natAbs 1) : Int) := by
      simp [fInt, hv]
    have hbm : (fMag b : Int) = fInt b ∨ fMag b = 0 ∨ fInt b < 0 := by
      by_cases hs : fSign b = true <;> simp [fInt, hs]; omega
    rcases hbm with hbm | hbm | hbm
    · have := (fMag_fRound_le hb (decide (v < 0)) v.natAbs 1 one_pos (by omega)).2
      omega
    · have h0 : fInt b = 0 := by simp [fInt, hbm]
      have := (fMag_fRound_le hb (decide (v < 0)) v.natAbs 1 one_pos (by omega)).2
      omega
    · omega

/-- Rounding keeps a lower bound that is itself a finite value. -/
theorem le_fInt_round {b : F64} (hb : fIsFinite b = true) (v : Int) (h : fInt b ≤ v)
    (hf : fIsFinite (fRound (decide (v < 0)) v.natAbs 1) = true) :
    fInt b ≤ fInt (fRound (decide (v < 0)) v.natAbs 1) := by
  by_cases hv : v < 0
  · have hm : fInt (fRound (decide (v < 0)) v.natAbs 1) = -(fMag (fRound (decide (v < 0)) v.natAbs 1) : Int) := by
      simp [fInt, hv]
    have hbm : fInt b = -(fMag b : Int) := by
      have : fInt b < 0 := by omega
      by_cases hs : fSign b = true <;> simp [fInt, hs] at this ⊢; omega
    have := (fMag_fRound_le hb (decide (v < 0)) v.natAbs 1 one_pos (by omega)).2
    omega
  · have hm : fInt (fRound (decide (v < 0)) v.natAbs 1) = (fMag (fRound (decide (v < 0)) v.natAbs 1) : Int) := by
      simp [fInt, hv]
    by_cases hs : fSign b = true
    · have hbm : fInt b = -(fMag b : Int) := by simp [fInt, hs]
      omega
    · have hbm : fInt b = (fMag b : Int) := by simp [fInt, hs]
      have := fMag_le_fRound hb (decide (v < 0)) v.natAbs 1 one_pos (by omega) hf
      omega

/-! ### The exact operators -/

/-- What a sum of finite values is: the exact sum rounded once, an exact zero taking the common sign. -/
theorem fAdd_finite {x y : F64} (hx : fIsFinite x = true) (hy : fIsFinite y = true) :
    fAdd x y = if fInt x + fInt y = 0 then fPack (fSign x && fSign y) 0
      else fRound (decide (fInt x + fInt y < 0)) (fInt x + fInt y).natAbs 1 := by
  simp [fAdd, fIsNaN_of_finite hx, fIsNaN_of_finite hy, fIsInf_of_finite hx, fIsInf_of_finite hy]

/-- What a difference of finite values is. -/
theorem fSub_finite {x y : F64} (hx : fIsFinite x = true) (hy : fIsFinite y = true) :
    fSub x y = if fInt x - fInt y = 0 then fPack (fSign x && !fSign y) 0
      else fRound (decide (fInt x - fInt y < 0)) (fInt x - fInt y).natAbs 1 := by
  rw [fSub, fAdd_finite hx (by rw [fIsFinite_fNeg]; exact hy), fInt_fNeg, fSign_fNeg, ← sub_eq_add_neg]

/-- What a product of finite values is: the exact product rounded once. -/
theorem fMul_finite {x y : F64} (hx : fIsFinite x = true) (hy : fIsFinite y = true) :
    fMul x y = fRound (fSign x != fSign y) (fMag x * fMag y) unitsPerOne := by
  simp [fMul, fIsNaN_of_finite hx, fIsNaN_of_finite hy, fIsInf_of_finite hx, fIsInf_of_finite hy]

/-- What a quotient of finite values is when the divisor is not 0: the exact quotient rounded once. -/
theorem fDiv_finite {x y : F64} (hx : fIsFinite x = true) (hy : fIsFinite y = true) (h0 : fMag y ≠ 0) :
    fDiv x y = fRound (fSign x != fSign y) (fMag x * unitsPerOne) (fMag y) := by
  simp [fDiv, fIsNaN_of_finite hx, fIsNaN_of_finite hy, fIsInf_of_finite hx, fIsInf_of_finite hy, h0]

/-- The comparisons of finite values are those of their exact values. -/
theorem fLt_finite {x y : F64} (hx : fIsFinite x = true) (hy : fIsFinite y = true) :
    fLt x y = decide (fInt x < fInt y) := by
  simp [fLt, fIsNaN_of_finite hx, fIsNaN_of_finite hy]

theorem fLe_finite {x y : F64} (hx : fIsFinite x = true) (hy : fIsFinite y = true) :
    fLe x y = decide (fInt x ≤ fInt y) := by
  simp [fLe, fIsNaN_of_finite hx, fIsNaN_of_finite hy]

/-! ### Rounding is to nearest -/

/-- `roundHalfEven n d` is an integer nearest to n/d. -/
theorem roundHalfEven_nearest (n d k : Nat) (hd : 0 < d) :
    |((roundHalfEven n d * d : Nat) : Int) - n| ≤ |((k * d : Nat) : Int) - n| := by
  have h := roundHalfEven_near n d hd
  rw [Nat.mul_comm d] at h
  rcases lt_trichotomy k (roundHalfEven n d) with hk | hk | hk
  · have h1 : k * d + d ≤ roundHalfEven n d * d := by rw [← Nat.succ_mul]; exact Nat.mul_le_mul_right d hk
    rw [abs_le, abs_eq_max_neg]; omega
  · rw [hk]
  · have h1 : roundHalfEven n d * d + d ≤ k * d := by rw [← Nat.succ_mul]; exact Nat.mul_le_mul_right d hk
    rw [abs_le, abs_eq_max_neg]; omega

/-- From 2^(52+s) units on, the finite values are multiples of 2^s units. -/
theorem two_pow_dvd_fMag {y : F64} (s : Nat) (h : 2 ^ (52 + s) ≤ fMag y) : 2 ^ s ∣ fMag y := by
  rw [fMag_eq_low] at h ⊢
  by_cases hl : fLow y < 2 ^ 52
  · rw [if_pos hl, pow_add] at h
    have : 1 ≤ 2 ^ s := Nat.one_le_two_pow
    nlinarith
  · rw [if_neg hl] at h ⊢
    have hlt : (2 ^ 52 + fLow y % 2 ^ 52) * 2 ^ (fLow y / 2 ^ 52 - 1) < 2 ^ (53 + (fLow y / 2 ^ 52 - 1)) := by
      rw [pow_add]; exact Nat.mul_lt_mul_of_pos_right (by omega) (by positivity)
    have := (Nat.pow_lt_pow_iff_right (by norm_num : 1 < 2)).1 (Nat.lt_of_le_of_lt h hlt)
    exact Dvd.dvd.mul_left (pow_dvd_pow 2 (by omega)) _

/-- The magnitude of a rounded quotient: its rounded significand at the spacing 2^s, s = log2(n/d) - 52; or the
2^2098 units of an infinity, where that is not less. -/
theorem fMag_fRound (neg : Bool) (n d : Nat) (hd : 0 < d) :
    let s := (n / d).log2 - 52
    let q := roundHalfEven n (d * 2 ^ s)
    (q + s * 2 ^ 52 ≤ 0x7FF0000000000000 ∧ fMag (fRound neg n d) = q * 2 ^ s) ∨
    (0x7FF0000000000000 < q + s * 2 ^ 52 ∧ fMag (fRound neg n d) = 2 ^ 2098) := by
  intro s q
  obtain ⟨hq, hq'⟩ := significand_bounds n d hd
  change q ≤ 2 ^ 53 at hq
  change 0 < s → 2 ^ 52 ≤ q at hq'
  have hm : roundMag n d = min (q + s * 2 ^ 52) 0x7FF0000000000000 := rfl
  rcases Nat.lt_or_ge 0x7FF0000000000000 (q + s * 2 ^ 52) with h | h
  · refine .inr ⟨h, ?_⟩
    rw [fMag_eq_low, fLow_fRound, hm, min_eq_right (by omega), if_neg (by norm_num),
      show 0x7FF0000000000000 % 2 ^ 52 = 0 by norm_num, show 0x7FF0000000000000 / 2 ^ 52 - 1 = 2046 by norm_num,
      Nat.add_zero, ← pow_add]
  · refine .inl ⟨h, ?_⟩
    rw [fMag_eq_low, fLow_fRound, hm, min_eq_left h]
    by_cases hlow : q + s * 2 ^ 52 < 2 ^ 52
    · have hs : s = 0 := by omega
      rw [if_pos hlow, hs]; omega
    · rw [if_neg hlow]
      rcases Nat.eq_or_lt_of_le hq with hq2 | hq2
      · rw [hq2, show (2 ^ 53 + s * 2 ^ 52) % 2 ^ 52 = 0 by omega,
          show (2 ^ 53 + s * 2 ^ 52) / 2 ^ 52 - 1 = s + 1 by omega, Nat.add_zero, ← pow_add, ← pow_add]
        congr 1; omega
      · have hq3 : 2 ^ 52 ≤ q := by
          rcases Nat.eq_zero_or_pos s with h0 | h0
          · rw [h0] at hlow; omega
          · exact hq' h0
        rw [show 2 ^ 52 + (q + s * 2 ^ 52) % 2 ^ 52 = q by omega,
          show (q + s * 2 ^ 52) / 2 ^ 52 - 1 = s by omega]

/-- No finite magnitude reaches 2^2098 units. -/
theorem fMag_lt_of_finite {y : F64} (hy : fIsFinite y = true) : fMag y < 2 ^ 2098 := by
  have h := (fIsFinite_iff_low y).1 hy
  rw [fMag_eq_low]
  split
  · exact Nat.lt_of_lt_of_le ‹_› (pow_le_pow_right₀ (a := 2) one_le_two (show 52 ≤ 2098 by omega))
  · rw [show 2098 = 53 + 2045 by norm_num, pow_add]
    exact Nat.mul_lt_mul_of_lt_of_le (by omega)
      (pow_le_pow_right₀ (a := 2) one_le_two (show fLow y / 2 ^ 52 - 1 ≤ 2045 by omega)) (by positivity)

/-- No finite magnitude is nearer to n/d than that of the rounded quotient. -/
theorem fMag_fRound_nearest {y : F64} (hy : fIsFinite y = true) (neg : Bool) (n d : Nat) (hd : 0 < d) :
    |((fMag (fRound neg n d) * d : Nat) : Int) - n| ≤ |((fMag y * d : Nat) : Int) - n| := by
  have hcase := fMag_fRound neg n d hd
  obtain ⟨hq, hq'⟩ := significand_bounds n d hd
  set s := (n / d).log2 - 52 with hs
  set q := roundHalfEven n (d * 2 ^ s) with hqd
  have hds : 0 < d * 2 ^ s := Nat.mul_pos hd (by positivity)
  have hbig : 0 < s → 2 ^ (52 + s) * d ≤ n := fun h0 => by
    have hne : n / d ≠ 0 := fun h => by rw [h] at hs; simp at hs; omega
    rw [show 52 + s = (n / d).log2 by omega]
    exact (Nat.le_div_iff_mul_le hd).1 (Nat.log2_self_le hne)
  rcases hcase with ⟨-, hR⟩ | ⟨hov, hR⟩
  · rw [hR, show q * 2 ^ s * d = q * (d * 2 ^ s) by ring]
    by_cases hY : s = 0 ∨ 2 ^ (52 + s) ≤ fMag y
    · obtain ⟨k, hk⟩ : 2 ^ s ∣ fMag y := by
        rcases hY with h0 | h1
        · rw [h0]; exact one_dvd _
        · exact two_pow_dvd_fMag s h1
      have := roundHalfEven_nearest n (d * 2 ^ s) k hds
      rwa [show k * (d * 2 ^ s) = fMag y * d by rw [hk]; ring] at this
    · have hs0 : 0 < s := by omega
      have h1 := roundHalfEven_nearest n (d * 2 ^ s) (2 ^ 52) hds
      rw [show 2 ^ 52 * (d * 2 ^ s) = 2 ^ (52 + s) * d by rw [pow_add]; ring] at h1
      have h2 := hbig hs0
      have h3 : fMag y * d ≤ 2 ^ (52 + s) * d := Nat.mul_le_mul_right d (by omega)
      refine h1.trans ?_
      rw [abs_le, abs_eq_max_neg]; omega
  · have hs1 : 2046 ≤ s := by omega
    have h1 : 2 ^ 2098 * d ≤ n :=
      le_trans (Nat.mul_le_mul_right d (pow_le_pow_right₀ (a := 2) one_le_two (show 2098 ≤ 52 + s by omega)))
        (hbig (by omega))
    have h2 : fMag y * d ≤ 2 ^ 2098 * d := Nat.mul_le_mul_right d (fMag_lt_of_finite hy).le
    rw [hR, abs_le, abs_eq_max_neg]
    generalize 2 ^ 2098 * d = a at *
    omega

/-- No finite value is nearer to ±n/d than the rounded quotient. -/
theorem fInt_fRound_nearest {y : F64} (hy : fIsFinite y = true) (neg : Bool) (n d : Nat) (hd : 0 < d) :
    |fInt (fRound neg n d) * d - (if neg then -(n : Int) else n)|
      ≤ |fInt y * d - (if neg then -(n : Int) else n)| := by
  have h := fMag_fRound_nearest hy neg n d hd
  simp only [fInt, fSign_fRound]
  push_cast at h
  generalize hA : (fMag (fRound neg n d) : Int) * d = a at h
  have hb : (0 : Int) ≤ (fMag y : Int) * d := by positivity
  generalize hB : (fMag y : Int) * d = b at h hb
  rw [abs_le, abs_eq_max_neg] at h ⊢
  cases neg <;> cases fSign y <;>
    simp only [Bool.false_eq_true, ↓reduceIte, neg_mul, hA, hB] at h ⊢ <;> omega

end Sys2Proof.Machine
end

