-- ==== Sys2Proof/Laws/State.lean ====
section
/-! SUPPORT. One lemma per field per state update, and per field for `resetCore`: each reads one field of the
updated state. -/

namespace Sys2Proof.Machine

open Sys2Proof

/-! ### `State.respond` -/

@[simp] theorem State.respond_sampleRate (s : State) (v : Word) : (s.respond v).sampleRate = s.sampleRate := rfl
@[simp] theorem State.respond_targetFreq (s : State) (v : Word) : (s.respond v).targetFreq = s.targetFreq := rfl
@[simp] theorem State.respond_freqRatio (s : State) (v : Word) : (s.respond v).freqRatio = s.freqRatio := rfl
@[simp] theorem State.respond_octave (s : State) (v : Word) : (s.respond v).octave = s.octave := rfl
@[simp] theorem State.respond_semitone (s : State) (v : Word) : (s.respond v).semitone = s.semitone := rfl
@[simp] theorem State.respond_cent (s : State) (v : Word) : (s.respond v).cent = s.cent := rfl
@[simp] theorem State.respond_amplitude (s : State) (v : Word) : (s.respond v).amplitude = s.amplitude := rfl
@[simp] theorem State.respond_pwTarget (s : State) (v : Word) : (s.respond v).pwTarget = s.pwTarget := rfl
@[simp] theorem State.respond_waveform (s : State) (v : Word) : (s.respond v).waveform = s.waveform := rfl
@[simp] theorem State.respond_runMode (s : State) (v : Word) : (s.respond v).runMode = s.runMode := rfl
@[simp] theorem State.respond_seed (s : State) (v : Word) : (s.respond v).seed = s.seed := rfl
@[simp] theorem State.respond_modAmp (s : State) (v : Word) : (s.respond v).modAmp = s.modAmp := rfl
@[simp] theorem State.respond_modFoExp (s : State) (v : Word) : (s.respond v).modFoExp = s.modFoExp := rfl
@[simp] theorem State.respond_modPitchBend (s : State) (v : Word) : (s.respond v).modPitchBend = s.modPitchBend := rfl
@[simp] theorem State.respond_modFoLin (s : State) (v : Word) : (s.respond v).modFoLin = s.modFoLin := rfl
@[simp] theorem State.respond_modPhase (s : State) (v : Word) : (s.respond v).modPhase = s.modPhase := rfl
@[simp] theorem State.respond_modPw (s : State) (v : Word) : (s.respond v).modPw = s.modPw := rfl
@[simp] theorem State.respond_phase (s : State) (v : Word) : (s.respond v).phase = s.phase := rfl
@[simp] theorem State.respond_increment (s : State) (v : Word) : (s.respond v).increment = s.increment := rfl
@[simp] theorem State.respond_effFreq (s : State) (v : Word) : (s.respond v).effFreq = s.effFreq := rfl
@[simp] theorem State.respond_effPw (s : State) (v : Word) : (s.respond v).effPw = s.effPw := rfl
@[simp] theorem State.respond_noteOn (s : State) (v : Word) : (s.respond v).noteOn = s.noteOn := rfl
@[simp] theorem State.respond_tableIndex (s : State) (v : Word) : (s.respond v).tableIndex = s.tableIndex := rfl
@[simp] theorem State.respond_shCounter (s : State) (v : Word) : (s.respond v).shCounter = s.shCounter := rfl
@[simp] theorem State.respond_shValue (s : State) (v : Word) : (s.respond v).shValue = s.shValue := rfl
@[simp] theorem State.respond_pnReg (s : State) (v : Word) : (s.respond v).pnReg = s.pnReg := rfl
@[simp] theorem State.respond_noiseState (s : State) (v : Word) : (s.respond v).noiseState = s.noiseState := rfl
@[simp] theorem State.respond_dpwPrev (s : State) (v : Word) : (s.respond v).dpwPrev = s.dpwPrev := rfl
@[simp] theorem State.respond_dpwToggle (s : State) (v : Word) : (s.respond v).dpwToggle = s.dpwToggle := rfl
@[simp] theorem State.respond_wrapPending (s : State) (v : Word) : (s.respond v).wrapPending = s.wrapPending := rfl
@[simp] theorem State.respond_status (s : State) (v : Word) : (s.respond v).status = s.status := rfl
@[simp] theorem State.respond_kind (s : State) (v : Word) : (s.respond v).kind = s.kind := rfl
@[simp] theorem State.respond_out (s : State) (v : Word) : (s.respond v).out = s.out := rfl
@[simp] theorem State.respond_aux (s : State) (v : Word) : (s.respond v).aux = s.aux := rfl
@[simp] theorem State.respond_bankRate (s : State) (v : Word) : (s.respond v).bankRate = s.bankRate := rfl
@[simp] theorem State.respond_rdata (s : State) (v : Word) : (s.respond v).rdata = v := rfl
@[simp] theorem State.respond_port (s : State) (v : Word) : (s.respond v).port = s.port := rfl

/-! ### `State.setStatus` -/

@[simp] theorem State.setStatus_sampleRate (s : State) (v : BitVec 4) : (s.setStatus v).sampleRate = s.sampleRate := rfl
@[simp] theorem State.setStatus_targetFreq (s : State) (v : BitVec 4) : (s.setStatus v).targetFreq = s.targetFreq := rfl
@[simp] theorem State.setStatus_freqRatio (s : State) (v : BitVec 4) : (s.setStatus v).freqRatio = s.freqRatio := rfl
@[simp] theorem State.setStatus_octave (s : State) (v : BitVec 4) : (s.setStatus v).octave = s.octave := rfl
@[simp] theorem State.setStatus_semitone (s : State) (v : BitVec 4) : (s.setStatus v).semitone = s.semitone := rfl
@[simp] theorem State.setStatus_cent (s : State) (v : BitVec 4) : (s.setStatus v).cent = s.cent := rfl
@[simp] theorem State.setStatus_amplitude (s : State) (v : BitVec 4) : (s.setStatus v).amplitude = s.amplitude := rfl
@[simp] theorem State.setStatus_pwTarget (s : State) (v : BitVec 4) : (s.setStatus v).pwTarget = s.pwTarget := rfl
@[simp] theorem State.setStatus_waveform (s : State) (v : BitVec 4) : (s.setStatus v).waveform = s.waveform := rfl
@[simp] theorem State.setStatus_runMode (s : State) (v : BitVec 4) : (s.setStatus v).runMode = s.runMode := rfl
@[simp] theorem State.setStatus_seed (s : State) (v : BitVec 4) : (s.setStatus v).seed = s.seed := rfl
@[simp] theorem State.setStatus_modAmp (s : State) (v : BitVec 4) : (s.setStatus v).modAmp = s.modAmp := rfl
@[simp] theorem State.setStatus_modFoExp (s : State) (v : BitVec 4) : (s.setStatus v).modFoExp = s.modFoExp := rfl
@[simp] theorem State.setStatus_modPitchBend (s : State) (v : BitVec 4) : (s.setStatus v).modPitchBend = s.modPitchBend := rfl
@[simp] theorem State.setStatus_modFoLin (s : State) (v : BitVec 4) : (s.setStatus v).modFoLin = s.modFoLin := rfl
@[simp] theorem State.setStatus_modPhase (s : State) (v : BitVec 4) : (s.setStatus v).modPhase = s.modPhase := rfl
@[simp] theorem State.setStatus_modPw (s : State) (v : BitVec 4) : (s.setStatus v).modPw = s.modPw := rfl
@[simp] theorem State.setStatus_phase (s : State) (v : BitVec 4) : (s.setStatus v).phase = s.phase := rfl
@[simp] theorem State.setStatus_increment (s : State) (v : BitVec 4) : (s.setStatus v).increment = s.increment := rfl
@[simp] theorem State.setStatus_effFreq (s : State) (v : BitVec 4) : (s.setStatus v).effFreq = s.effFreq := rfl
@[simp] theorem State.setStatus_effPw (s : State) (v : BitVec 4) : (s.setStatus v).effPw = s.effPw := rfl
@[simp] theorem State.setStatus_noteOn (s : State) (v : BitVec 4) : (s.setStatus v).noteOn = s.noteOn := rfl
@[simp] theorem State.setStatus_tableIndex (s : State) (v : BitVec 4) : (s.setStatus v).tableIndex = s.tableIndex := rfl
@[simp] theorem State.setStatus_shCounter (s : State) (v : BitVec 4) : (s.setStatus v).shCounter = s.shCounter := rfl
@[simp] theorem State.setStatus_shValue (s : State) (v : BitVec 4) : (s.setStatus v).shValue = s.shValue := rfl
@[simp] theorem State.setStatus_pnReg (s : State) (v : BitVec 4) : (s.setStatus v).pnReg = s.pnReg := rfl
@[simp] theorem State.setStatus_noiseState (s : State) (v : BitVec 4) : (s.setStatus v).noiseState = s.noiseState := rfl
@[simp] theorem State.setStatus_dpwPrev (s : State) (v : BitVec 4) : (s.setStatus v).dpwPrev = s.dpwPrev := rfl
@[simp] theorem State.setStatus_dpwToggle (s : State) (v : BitVec 4) : (s.setStatus v).dpwToggle = s.dpwToggle := rfl
@[simp] theorem State.setStatus_wrapPending (s : State) (v : BitVec 4) : (s.setStatus v).wrapPending = s.wrapPending := rfl
@[simp] theorem State.setStatus_status (s : State) (v : BitVec 4) : (s.setStatus v).status = v := rfl
@[simp] theorem State.setStatus_kind (s : State) (v : BitVec 4) : (s.setStatus v).kind = s.kind := rfl
@[simp] theorem State.setStatus_out (s : State) (v : BitVec 4) : (s.setStatus v).out = s.out := rfl
@[simp] theorem State.setStatus_aux (s : State) (v : BitVec 4) : (s.setStatus v).aux = s.aux := rfl
@[simp] theorem State.setStatus_bankRate (s : State) (v : BitVec 4) : (s.setStatus v).bankRate = s.bankRate := rfl
@[simp] theorem State.setStatus_rdata (s : State) (v : BitVec 4) : (s.setStatus v).rdata = s.rdata := rfl
@[simp] theorem State.setStatus_port (s : State) (v : BitVec 4) : (s.setStatus v).port = s.port := rfl

/-! ### `State.setNoteOn` -/

@[simp] theorem State.setNoteOn_sampleRate (s : State) (b : Bool) : (s.setNoteOn b).sampleRate = s.sampleRate := rfl
@[simp] theorem State.setNoteOn_targetFreq (s : State) (b : Bool) : (s.setNoteOn b).targetFreq = s.targetFreq := rfl
@[simp] theorem State.setNoteOn_freqRatio (s : State) (b : Bool) : (s.setNoteOn b).freqRatio = s.freqRatio := rfl
@[simp] theorem State.setNoteOn_octave (s : State) (b : Bool) : (s.setNoteOn b).octave = s.octave := rfl
@[simp] theorem State.setNoteOn_semitone (s : State) (b : Bool) : (s.setNoteOn b).semitone = s.semitone := rfl
@[simp] theorem State.setNoteOn_cent (s : State) (b : Bool) : (s.setNoteOn b).cent = s.cent := rfl
@[simp] theorem State.setNoteOn_amplitude (s : State) (b : Bool) : (s.setNoteOn b).amplitude = s.amplitude := rfl
@[simp] theorem State.setNoteOn_pwTarget (s : State) (b : Bool) : (s.setNoteOn b).pwTarget = s.pwTarget := rfl
@[simp] theorem State.setNoteOn_waveform (s : State) (b : Bool) : (s.setNoteOn b).waveform = s.waveform := rfl
@[simp] theorem State.setNoteOn_runMode (s : State) (b : Bool) : (s.setNoteOn b).runMode = s.runMode := rfl
@[simp] theorem State.setNoteOn_seed (s : State) (b : Bool) : (s.setNoteOn b).seed = s.seed := rfl
@[simp] theorem State.setNoteOn_modAmp (s : State) (b : Bool) : (s.setNoteOn b).modAmp = s.modAmp := rfl
@[simp] theorem State.setNoteOn_modFoExp (s : State) (b : Bool) : (s.setNoteOn b).modFoExp = s.modFoExp := rfl
@[simp] theorem State.setNoteOn_modPitchBend (s : State) (b : Bool) : (s.setNoteOn b).modPitchBend = s.modPitchBend := rfl
@[simp] theorem State.setNoteOn_modFoLin (s : State) (b : Bool) : (s.setNoteOn b).modFoLin = s.modFoLin := rfl
@[simp] theorem State.setNoteOn_modPhase (s : State) (b : Bool) : (s.setNoteOn b).modPhase = s.modPhase := rfl
@[simp] theorem State.setNoteOn_modPw (s : State) (b : Bool) : (s.setNoteOn b).modPw = s.modPw := rfl
@[simp] theorem State.setNoteOn_phase (s : State) (b : Bool) : (s.setNoteOn b).phase = s.phase := rfl
@[simp] theorem State.setNoteOn_increment (s : State) (b : Bool) : (s.setNoteOn b).increment = s.increment := rfl
@[simp] theorem State.setNoteOn_effFreq (s : State) (b : Bool) : (s.setNoteOn b).effFreq = s.effFreq := rfl
@[simp] theorem State.setNoteOn_effPw (s : State) (b : Bool) : (s.setNoteOn b).effPw = s.effPw := rfl
@[simp] theorem State.setNoteOn_noteOn (s : State) (b : Bool) : (s.setNoteOn b).noteOn = b := rfl
@[simp] theorem State.setNoteOn_tableIndex (s : State) (b : Bool) : (s.setNoteOn b).tableIndex = s.tableIndex := rfl
@[simp] theorem State.setNoteOn_shCounter (s : State) (b : Bool) : (s.setNoteOn b).shCounter = s.shCounter := rfl
@[simp] theorem State.setNoteOn_shValue (s : State) (b : Bool) : (s.setNoteOn b).shValue = s.shValue := rfl
@[simp] theorem State.setNoteOn_pnReg (s : State) (b : Bool) : (s.setNoteOn b).pnReg = s.pnReg := rfl
@[simp] theorem State.setNoteOn_noiseState (s : State) (b : Bool) : (s.setNoteOn b).noiseState = s.noiseState := rfl
@[simp] theorem State.setNoteOn_dpwPrev (s : State) (b : Bool) : (s.setNoteOn b).dpwPrev = s.dpwPrev := rfl
@[simp] theorem State.setNoteOn_dpwToggle (s : State) (b : Bool) : (s.setNoteOn b).dpwToggle = s.dpwToggle := rfl
@[simp] theorem State.setNoteOn_wrapPending (s : State) (b : Bool) : (s.setNoteOn b).wrapPending = s.wrapPending := rfl
@[simp] theorem State.setNoteOn_status (s : State) (b : Bool) : (s.setNoteOn b).status = s.status := rfl
@[simp] theorem State.setNoteOn_kind (s : State) (b : Bool) : (s.setNoteOn b).kind = s.kind := rfl
@[simp] theorem State.setNoteOn_out (s : State) (b : Bool) : (s.setNoteOn b).out = s.out := rfl
@[simp] theorem State.setNoteOn_aux (s : State) (b : Bool) : (s.setNoteOn b).aux = s.aux := rfl
@[simp] theorem State.setNoteOn_bankRate (s : State) (b : Bool) : (s.setNoteOn b).bankRate = s.bankRate := rfl
@[simp] theorem State.setNoteOn_rdata (s : State) (b : Bool) : (s.setNoteOn b).rdata = s.rdata := rfl
@[simp] theorem State.setNoteOn_port (s : State) (b : Bool) : (s.setNoteOn b).port = s.port := rfl

/-! ### `State.setPhase` -/

@[simp] theorem State.setPhase_sampleRate (s : State) (p : F64) (b : Bool) : (s.setPhase p b).sampleRate = s.sampleRate := rfl
@[simp] theorem State.setPhase_targetFreq (s : State) (p : F64) (b : Bool) : (s.setPhase p b).targetFreq = s.targetFreq := rfl
@[simp] theorem State.setPhase_freqRatio (s : State) (p : F64) (b : Bool) : (s.setPhase p b).freqRatio = s.freqRatio := rfl
@[simp] theorem State.setPhase_octave (s : State) (p : F64) (b : Bool) : (s.setPhase p b).octave = s.octave := rfl
@[simp] theorem State.setPhase_semitone (s : State) (p : F64) (b : Bool) : (s.setPhase p b).semitone = s.semitone := rfl
@[simp] theorem State.setPhase_cent (s : State) (p : F64) (b : Bool) : (s.setPhase p b).cent = s.cent := rfl
@[simp] theorem State.setPhase_amplitude (s : State) (p : F64) (b : Bool) : (s.setPhase p b).amplitude = s.amplitude := rfl
@[simp] theorem State.setPhase_pwTarget (s : State) (p : F64) (b : Bool) : (s.setPhase p b).pwTarget = s.pwTarget := rfl
@[simp] theorem State.setPhase_waveform (s : State) (p : F64) (b : Bool) : (s.setPhase p b).waveform = s.waveform := rfl
@[simp] theorem State.setPhase_runMode (s : State) (p : F64) (b : Bool) : (s.setPhase p b).runMode = s.runMode := rfl
@[simp] theorem State.setPhase_seed (s : State) (p : F64) (b : Bool) : (s.setPhase p b).seed = s.seed := rfl
@[simp] theorem State.setPhase_modAmp (s : State) (p : F64) (b : Bool) : (s.setPhase p b).modAmp = s.modAmp := rfl
@[simp] theorem State.setPhase_modFoExp (s : State) (p : F64) (b : Bool) : (s.setPhase p b).modFoExp = s.modFoExp := rfl
@[simp] theorem State.setPhase_modPitchBend (s : State) (p : F64) (b : Bool) : (s.setPhase p b).modPitchBend = s.modPitchBend := rfl
@[simp] theorem State.setPhase_modFoLin (s : State) (p : F64) (b : Bool) : (s.setPhase p b).modFoLin = s.modFoLin := rfl
@[simp] theorem State.setPhase_modPhase (s : State) (p : F64) (b : Bool) : (s.setPhase p b).modPhase = s.modPhase := rfl
@[simp] theorem State.setPhase_modPw (s : State) (p : F64) (b : Bool) : (s.setPhase p b).modPw = s.modPw := rfl
@[simp] theorem State.setPhase_phase (s : State) (p : F64) (b : Bool) : (s.setPhase p b).phase = p := rfl
@[simp] theorem State.setPhase_increment (s : State) (p : F64) (b : Bool) : (s.setPhase p b).increment = s.increment := rfl
@[simp] theorem State.setPhase_effFreq (s : State) (p : F64) (b : Bool) : (s.setPhase p b).effFreq = s.effFreq := rfl
@[simp] theorem State.setPhase_effPw (s : State) (p : F64) (b : Bool) : (s.setPhase p b).effPw = s.effPw := rfl
@[simp] theorem State.setPhase_noteOn (s : State) (p : F64) (b : Bool) : (s.setPhase p b).noteOn = s.noteOn := rfl
@[simp] theorem State.setPhase_tableIndex (s : State) (p : F64) (b : Bool) : (s.setPhase p b).tableIndex = s.tableIndex := rfl
@[simp] theorem State.setPhase_shCounter (s : State) (p : F64) (b : Bool) : (s.setPhase p b).shCounter = s.shCounter := rfl
@[simp] theorem State.setPhase_shValue (s : State) (p : F64) (b : Bool) : (s.setPhase p b).shValue = s.shValue := rfl
@[simp] theorem State.setPhase_pnReg (s : State) (p : F64) (b : Bool) : (s.setPhase p b).pnReg = s.pnReg := rfl
@[simp] theorem State.setPhase_noiseState (s : State) (p : F64) (b : Bool) : (s.setPhase p b).noiseState = s.noiseState := rfl
@[simp] theorem State.setPhase_dpwPrev (s : State) (p : F64) (b : Bool) : (s.setPhase p b).dpwPrev = s.dpwPrev := rfl
@[simp] theorem State.setPhase_dpwToggle (s : State) (p : F64) (b : Bool) : (s.setPhase p b).dpwToggle = s.dpwToggle := rfl
@[simp] theorem State.setPhase_wrapPending (s : State) (p : F64) (b : Bool) : (s.setPhase p b).wrapPending = b := rfl
@[simp] theorem State.setPhase_status (s : State) (p : F64) (b : Bool) : (s.setPhase p b).status = s.status := rfl
@[simp] theorem State.setPhase_kind (s : State) (p : F64) (b : Bool) : (s.setPhase p b).kind = s.kind := rfl
@[simp] theorem State.setPhase_out (s : State) (p : F64) (b : Bool) : (s.setPhase p b).out = s.out := rfl
@[simp] theorem State.setPhase_aux (s : State) (p : F64) (b : Bool) : (s.setPhase p b).aux = s.aux := rfl
@[simp] theorem State.setPhase_bankRate (s : State) (p : F64) (b : Bool) : (s.setPhase p b).bankRate = s.bankRate := rfl
@[simp] theorem State.setPhase_rdata (s : State) (p : F64) (b : Bool) : (s.setPhase p b).rdata = s.rdata := rfl
@[simp] theorem State.setPhase_port (s : State) (p : F64) (b : Bool) : (s.setPhase p b).port = s.port := rfl

/-! ### `State.setWrap` -/

@[simp] theorem State.setWrap_sampleRate (s : State) (b : Bool) : (s.setWrap b).sampleRate = s.sampleRate := rfl
@[simp] theorem State.setWrap_targetFreq (s : State) (b : Bool) : (s.setWrap b).targetFreq = s.targetFreq := rfl
@[simp] theorem State.setWrap_freqRatio (s : State) (b : Bool) : (s.setWrap b).freqRatio = s.freqRatio := rfl
@[simp] theorem State.setWrap_octave (s : State) (b : Bool) : (s.setWrap b).octave = s.octave := rfl
@[simp] theorem State.setWrap_semitone (s : State) (b : Bool) : (s.setWrap b).semitone = s.semitone := rfl
@[simp] theorem State.setWrap_cent (s : State) (b : Bool) : (s.setWrap b).cent = s.cent := rfl
@[simp] theorem State.setWrap_amplitude (s : State) (b : Bool) : (s.setWrap b).amplitude = s.amplitude := rfl
@[simp] theorem State.setWrap_pwTarget (s : State) (b : Bool) : (s.setWrap b).pwTarget = s.pwTarget := rfl
@[simp] theorem State.setWrap_waveform (s : State) (b : Bool) : (s.setWrap b).waveform = s.waveform := rfl
@[simp] theorem State.setWrap_runMode (s : State) (b : Bool) : (s.setWrap b).runMode = s.runMode := rfl
@[simp] theorem State.setWrap_seed (s : State) (b : Bool) : (s.setWrap b).seed = s.seed := rfl
@[simp] theorem State.setWrap_modAmp (s : State) (b : Bool) : (s.setWrap b).modAmp = s.modAmp := rfl
@[simp] theorem State.setWrap_modFoExp (s : State) (b : Bool) : (s.setWrap b).modFoExp = s.modFoExp := rfl
@[simp] theorem State.setWrap_modPitchBend (s : State) (b : Bool) : (s.setWrap b).modPitchBend = s.modPitchBend := rfl
@[simp] theorem State.setWrap_modFoLin (s : State) (b : Bool) : (s.setWrap b).modFoLin = s.modFoLin := rfl
@[simp] theorem State.setWrap_modPhase (s : State) (b : Bool) : (s.setWrap b).modPhase = s.modPhase := rfl
@[simp] theorem State.setWrap_modPw (s : State) (b : Bool) : (s.setWrap b).modPw = s.modPw := rfl
@[simp] theorem State.setWrap_phase (s : State) (b : Bool) : (s.setWrap b).phase = s.phase := rfl
@[simp] theorem State.setWrap_increment (s : State) (b : Bool) : (s.setWrap b).increment = s.increment := rfl
@[simp] theorem State.setWrap_effFreq (s : State) (b : Bool) : (s.setWrap b).effFreq = s.effFreq := rfl
@[simp] theorem State.setWrap_effPw (s : State) (b : Bool) : (s.setWrap b).effPw = s.effPw := rfl
@[simp] theorem State.setWrap_noteOn (s : State) (b : Bool) : (s.setWrap b).noteOn = s.noteOn := rfl
@[simp] theorem State.setWrap_tableIndex (s : State) (b : Bool) : (s.setWrap b).tableIndex = s.tableIndex := rfl
@[simp] theorem State.setWrap_shCounter (s : State) (b : Bool) : (s.setWrap b).shCounter = s.shCounter := rfl
@[simp] theorem State.setWrap_shValue (s : State) (b : Bool) : (s.setWrap b).shValue = s.shValue := rfl
@[simp] theorem State.setWrap_pnReg (s : State) (b : Bool) : (s.setWrap b).pnReg = s.pnReg := rfl
@[simp] theorem State.setWrap_noiseState (s : State) (b : Bool) : (s.setWrap b).noiseState = s.noiseState := rfl
@[simp] theorem State.setWrap_dpwPrev (s : State) (b : Bool) : (s.setWrap b).dpwPrev = s.dpwPrev := rfl
@[simp] theorem State.setWrap_dpwToggle (s : State) (b : Bool) : (s.setWrap b).dpwToggle = s.dpwToggle := rfl
@[simp] theorem State.setWrap_wrapPending (s : State) (b : Bool) : (s.setWrap b).wrapPending = b := rfl
@[simp] theorem State.setWrap_status (s : State) (b : Bool) : (s.setWrap b).status = s.status := rfl
@[simp] theorem State.setWrap_kind (s : State) (b : Bool) : (s.setWrap b).kind = s.kind := rfl
@[simp] theorem State.setWrap_out (s : State) (b : Bool) : (s.setWrap b).out = s.out := rfl
@[simp] theorem State.setWrap_aux (s : State) (b : Bool) : (s.setWrap b).aux = s.aux := rfl
@[simp] theorem State.setWrap_bankRate (s : State) (b : Bool) : (s.setWrap b).bankRate = s.bankRate := rfl
@[simp] theorem State.setWrap_rdata (s : State) (b : Bool) : (s.setWrap b).rdata = s.rdata := rfl
@[simp] theorem State.setWrap_port (s : State) (b : Bool) : (s.setWrap b).port = s.port := rfl

/-! ### `State.setOutputs` -/

@[simp] theorem State.setOutputs_sampleRate (s : State) (o a : F64) : (s.setOutputs o a).sampleRate = s.sampleRate := rfl
@[simp] theorem State.setOutputs_targetFreq (s : State) (o a : F64) : (s.setOutputs o a).targetFreq = s.targetFreq := rfl
@[simp] theorem State.setOutputs_freqRatio (s : State) (o a : F64) : (s.setOutputs o a).freqRatio = s.freqRatio := rfl
@[simp] theorem State.setOutputs_octave (s : State) (o a : F64) : (s.setOutputs o a).octave = s.octave := rfl
@[simp] theorem State.setOutputs_semitone (s : State) (o a : F64) : (s.setOutputs o a).semitone = s.semitone := rfl
@[simp] theorem State.setOutputs_cent (s : State) (o a : F64) : (s.setOutputs o a).cent = s.cent := rfl
@[simp] theorem State.setOutputs_amplitude (s : State) (o a : F64) : (s.setOutputs o a).amplitude = s.amplitude := rfl
@[simp] theorem State.setOutputs_pwTarget (s : State) (o a : F64) : (s.setOutputs o a).pwTarget = s.pwTarget := rfl
@[simp] theorem State.setOutputs_waveform (s : State) (o a : F64) : (s.setOutputs o a).waveform = s.waveform := rfl
@[simp] theorem State.setOutputs_runMode (s : State) (o a : F64) : (s.setOutputs o a).runMode = s.runMode := rfl
@[simp] theorem State.setOutputs_seed (s : State) (o a : F64) : (s.setOutputs o a).seed = s.seed := rfl
@[simp] theorem State.setOutputs_modAmp (s : State) (o a : F64) : (s.setOutputs o a).modAmp = s.modAmp := rfl
@[simp] theorem State.setOutputs_modFoExp (s : State) (o a : F64) : (s.setOutputs o a).modFoExp = s.modFoExp := rfl
@[simp] theorem State.setOutputs_modPitchBend (s : State) (o a : F64) : (s.setOutputs o a).modPitchBend = s.modPitchBend := rfl
@[simp] theorem State.setOutputs_modFoLin (s : State) (o a : F64) : (s.setOutputs o a).modFoLin = s.modFoLin := rfl
@[simp] theorem State.setOutputs_modPhase (s : State) (o a : F64) : (s.setOutputs o a).modPhase = s.modPhase := rfl
@[simp] theorem State.setOutputs_modPw (s : State) (o a : F64) : (s.setOutputs o a).modPw = s.modPw := rfl
@[simp] theorem State.setOutputs_phase (s : State) (o a : F64) : (s.setOutputs o a).phase = s.phase := rfl
@[simp] theorem State.setOutputs_increment (s : State) (o a : F64) : (s.setOutputs o a).increment = s.increment := rfl
@[simp] theorem State.setOutputs_effFreq (s : State) (o a : F64) : (s.setOutputs o a).effFreq = s.effFreq := rfl
@[simp] theorem State.setOutputs_effPw (s : State) (o a : F64) : (s.setOutputs o a).effPw = s.effPw := rfl
@[simp] theorem State.setOutputs_noteOn (s : State) (o a : F64) : (s.setOutputs o a).noteOn = s.noteOn := rfl
@[simp] theorem State.setOutputs_tableIndex (s : State) (o a : F64) : (s.setOutputs o a).tableIndex = s.tableIndex := rfl
@[simp] theorem State.setOutputs_shCounter (s : State) (o a : F64) : (s.setOutputs o a).shCounter = s.shCounter := rfl
@[simp] theorem State.setOutputs_shValue (s : State) (o a : F64) : (s.setOutputs o a).shValue = s.shValue := rfl
@[simp] theorem State.setOutputs_pnReg (s : State) (o a : F64) : (s.setOutputs o a).pnReg = s.pnReg := rfl
@[simp] theorem State.setOutputs_noiseState (s : State) (o a : F64) : (s.setOutputs o a).noiseState = s.noiseState := rfl
@[simp] theorem State.setOutputs_dpwPrev (s : State) (o a : F64) : (s.setOutputs o a).dpwPrev = s.dpwPrev := rfl
@[simp] theorem State.setOutputs_dpwToggle (s : State) (o a : F64) : (s.setOutputs o a).dpwToggle = s.dpwToggle := rfl
@[simp] theorem State.setOutputs_wrapPending (s : State) (o a : F64) : (s.setOutputs o a).wrapPending = s.wrapPending := rfl
@[simp] theorem State.setOutputs_status (s : State) (o a : F64) : (s.setOutputs o a).status = s.status := rfl
@[simp] theorem State.setOutputs_kind (s : State) (o a : F64) : (s.setOutputs o a).kind = s.kind := rfl
@[simp] theorem State.setOutputs_out (s : State) (o a : F64) : (s.setOutputs o a).out = o := rfl
@[simp] theorem State.setOutputs_aux (s : State) (o a : F64) : (s.setOutputs o a).aux = a := rfl
@[simp] theorem State.setOutputs_bankRate (s : State) (o a : F64) : (s.setOutputs o a).bankRate = s.bankRate := rfl
@[simp] theorem State.setOutputs_rdata (s : State) (o a : F64) : (s.setOutputs o a).rdata = s.rdata := rfl
@[simp] theorem State.setOutputs_port (s : State) (o a : F64) : (s.setOutputs o a).port = s.port := rfl

/-! ### `State.setNoise` -/

@[simp] theorem State.setNoise_sampleRate (s : State) (x : Word32) : (s.setNoise x).sampleRate = s.sampleRate := rfl
@[simp] theorem State.setNoise_targetFreq (s : State) (x : Word32) : (s.setNoise x).targetFreq = s.targetFreq := rfl
@[simp] theorem State.setNoise_freqRatio (s : State) (x : Word32) : (s.setNoise x).freqRatio = s.freqRatio := rfl
@[simp] theorem State.setNoise_octave (s : State) (x : Word32) : (s.setNoise x).octave = s.octave := rfl
@[simp] theorem State.setNoise_semitone (s : State) (x : Word32) : (s.setNoise x).semitone = s.semitone := rfl
@[simp] theorem State.setNoise_cent (s : State) (x : Word32) : (s.setNoise x).cent = s.cent := rfl
@[simp] theorem State.setNoise_amplitude (s : State) (x : Word32) : (s.setNoise x).amplitude = s.amplitude := rfl
@[simp] theorem State.setNoise_pwTarget (s : State) (x : Word32) : (s.setNoise x).pwTarget = s.pwTarget := rfl
@[simp] theorem State.setNoise_waveform (s : State) (x : Word32) : (s.setNoise x).waveform = s.waveform := rfl
@[simp] theorem State.setNoise_runMode (s : State) (x : Word32) : (s.setNoise x).runMode = s.runMode := rfl
@[simp] theorem State.setNoise_seed (s : State) (x : Word32) : (s.setNoise x).seed = s.seed := rfl
@[simp] theorem State.setNoise_modAmp (s : State) (x : Word32) : (s.setNoise x).modAmp = s.modAmp := rfl
@[simp] theorem State.setNoise_modFoExp (s : State) (x : Word32) : (s.setNoise x).modFoExp = s.modFoExp := rfl
@[simp] theorem State.setNoise_modPitchBend (s : State) (x : Word32) : (s.setNoise x).modPitchBend = s.modPitchBend := rfl
@[simp] theorem State.setNoise_modFoLin (s : State) (x : Word32) : (s.setNoise x).modFoLin = s.modFoLin := rfl
@[simp] theorem State.setNoise_modPhase (s : State) (x : Word32) : (s.setNoise x).modPhase = s.modPhase := rfl
@[simp] theorem State.setNoise_modPw (s : State) (x : Word32) : (s.setNoise x).modPw = s.modPw := rfl
@[simp] theorem State.setNoise_phase (s : State) (x : Word32) : (s.setNoise x).phase = s.phase := rfl
@[simp] theorem State.setNoise_increment (s : State) (x : Word32) : (s.setNoise x).increment = s.increment := rfl
@[simp] theorem State.setNoise_effFreq (s : State) (x : Word32) : (s.setNoise x).effFreq = s.effFreq := rfl
@[simp] theorem State.setNoise_effPw (s : State) (x : Word32) : (s.setNoise x).effPw = s.effPw := rfl
@[simp] theorem State.setNoise_noteOn (s : State) (x : Word32) : (s.setNoise x).noteOn = s.noteOn := rfl
@[simp] theorem State.setNoise_tableIndex (s : State) (x : Word32) : (s.setNoise x).tableIndex = s.tableIndex := rfl
@[simp] theorem State.setNoise_shCounter (s : State) (x : Word32) : (s.setNoise x).shCounter = s.shCounter := rfl
@[simp] theorem State.setNoise_shValue (s : State) (x : Word32) : (s.setNoise x).shValue = s.shValue := rfl
@[simp] theorem State.setNoise_pnReg (s : State) (x : Word32) : (s.setNoise x).pnReg = s.pnReg := rfl
@[simp] theorem State.setNoise_noiseState (s : State) (x : Word32) : (s.setNoise x).noiseState = x := rfl
@[simp] theorem State.setNoise_dpwPrev (s : State) (x : Word32) : (s.setNoise x).dpwPrev = s.dpwPrev := rfl
@[simp] theorem State.setNoise_dpwToggle (s : State) (x : Word32) : (s.setNoise x).dpwToggle = s.dpwToggle := rfl
@[simp] theorem State.setNoise_wrapPending (s : State) (x : Word32) : (s.setNoise x).wrapPending = s.wrapPending := rfl
@[simp] theorem State.setNoise_status (s : State) (x : Word32) : (s.setNoise x).status = s.status := rfl
@[simp] theorem State.setNoise_kind (s : State) (x : Word32) : (s.setNoise x).kind = s.kind := rfl
@[simp] theorem State.setNoise_out (s : State) (x : Word32) : (s.setNoise x).out = s.out := rfl
@[simp] theorem State.setNoise_aux (s : State) (x : Word32) : (s.setNoise x).aux = s.aux := rfl
@[simp] theorem State.setNoise_bankRate (s : State) (x : Word32) : (s.setNoise x).bankRate = s.bankRate := rfl
@[simp] theorem State.setNoise_rdata (s : State) (x : Word32) : (s.setNoise x).rdata = s.rdata := rfl
@[simp] theorem State.setNoise_port (s : State) (x : Word32) : (s.setNoise x).port = s.port := rfl

/-! ### `State.setPn` -/

@[simp] theorem State.setPn_sampleRate (s : State) (x : Word32) : (s.setPn x).sampleRate = s.sampleRate := rfl
@[simp] theorem State.setPn_targetFreq (s : State) (x : Word32) : (s.setPn x).targetFreq = s.targetFreq := rfl
@[simp] theorem State.setPn_freqRatio (s : State) (x : Word32) : (s.setPn x).freqRatio = s.freqRatio := rfl
@[simp] theorem State.setPn_octave (s : State) (x : Word32) : (s.setPn x).octave = s.octave := rfl
@[simp] theorem State.setPn_semitone (s : State) (x : Word32) : (s.setPn x).semitone = s.semitone := rfl
@[simp] theorem State.setPn_cent (s : State) (x : Word32) : (s.setPn x).cent = s.cent := rfl
@[simp] theorem State.setPn_amplitude (s : State) (x : Word32) : (s.setPn x).amplitude = s.amplitude := rfl
@[simp] theorem State.setPn_pwTarget (s : State) (x : Word32) : (s.setPn x).pwTarget = s.pwTarget := rfl
@[simp] theorem State.setPn_waveform (s : State) (x : Word32) : (s.setPn x).waveform = s.waveform := rfl
@[simp] theorem State.setPn_runMode (s : State) (x : Word32) : (s.setPn x).runMode = s.runMode := rfl
@[simp] theorem State.setPn_seed (s : State) (x : Word32) : (s.setPn x).seed = s.seed := rfl
@[simp] theorem State.setPn_modAmp (s : State) (x : Word32) : (s.setPn x).modAmp = s.modAmp := rfl
@[simp] theorem State.setPn_modFoExp (s : State) (x : Word32) : (s.setPn x).modFoExp = s.modFoExp := rfl
@[simp] theorem State.setPn_modPitchBend (s : State) (x : Word32) : (s.setPn x).modPitchBend = s.modPitchBend := rfl
@[simp] theorem State.setPn_modFoLin (s : State) (x : Word32) : (s.setPn x).modFoLin = s.modFoLin := rfl
@[simp] theorem State.setPn_modPhase (s : State) (x : Word32) : (s.setPn x).modPhase = s.modPhase := rfl
@[simp] theorem State.setPn_modPw (s : State) (x : Word32) : (s.setPn x).modPw = s.modPw := rfl
@[simp] theorem State.setPn_phase (s : State) (x : Word32) : (s.setPn x).phase = s.phase := rfl
@[simp] theorem State.setPn_increment (s : State) (x : Word32) : (s.setPn x).increment = s.increment := rfl
@[simp] theorem State.setPn_effFreq (s : State) (x : Word32) : (s.setPn x).effFreq = s.effFreq := rfl
@[simp] theorem State.setPn_effPw (s : State) (x : Word32) : (s.setPn x).effPw = s.effPw := rfl
@[simp] theorem State.setPn_noteOn (s : State) (x : Word32) : (s.setPn x).noteOn = s.noteOn := rfl
@[simp] theorem State.setPn_tableIndex (s : State) (x : Word32) : (s.setPn x).tableIndex = s.tableIndex := rfl
@[simp] theorem State.setPn_shCounter (s : State) (x : Word32) : (s.setPn x).shCounter = s.shCounter := rfl
@[simp] theorem State.setPn_shValue (s : State) (x : Word32) : (s.setPn x).shValue = s.shValue := rfl
@[simp] theorem State.setPn_pnReg (s : State) (x : Word32) : (s.setPn x).pnReg = x := rfl
@[simp] theorem State.setPn_noiseState (s : State) (x : Word32) : (s.setPn x).noiseState = s.noiseState := rfl
@[simp] theorem State.setPn_dpwPrev (s : State) (x : Word32) : (s.setPn x).dpwPrev = s.dpwPrev := rfl
@[simp] theorem State.setPn_dpwToggle (s : State) (x : Word32) : (s.setPn x).dpwToggle = s.dpwToggle := rfl
@[simp] theorem State.setPn_wrapPending (s : State) (x : Word32) : (s.setPn x).wrapPending = s.wrapPending := rfl
@[simp] theorem State.setPn_status (s : State) (x : Word32) : (s.setPn x).status = s.status := rfl
@[simp] theorem State.setPn_kind (s : State) (x : Word32) : (s.setPn x).kind = s.kind := rfl
@[simp] theorem State.setPn_out (s : State) (x : Word32) : (s.setPn x).out = s.out := rfl
@[simp] theorem State.setPn_aux (s : State) (x : Word32) : (s.setPn x).aux = s.aux := rfl
@[simp] theorem State.setPn_bankRate (s : State) (x : Word32) : (s.setPn x).bankRate = s.bankRate := rfl
@[simp] theorem State.setPn_rdata (s : State) (x : Word32) : (s.setPn x).rdata = s.rdata := rfl
@[simp] theorem State.setPn_port (s : State) (x : Word32) : (s.setPn x).port = s.port := rfl

/-! ### `State.setHold` -/

@[simp] theorem State.setHold_sampleRate (s : State) (c : Word32) (v : F64) : (s.setHold c v).sampleRate = s.sampleRate := rfl
@[simp] theorem State.setHold_targetFreq (s : State) (c : Word32) (v : F64) : (s.setHold c v).targetFreq = s.targetFreq := rfl
@[simp] theorem State.setHold_freqRatio (s : State) (c : Word32) (v : F64) : (s.setHold c v).freqRatio = s.freqRatio := rfl
@[simp] theorem State.setHold_octave (s : State) (c : Word32) (v : F64) : (s.setHold c v).octave = s.octave := rfl
@[simp] theorem State.setHold_semitone (s : State) (c : Word32) (v : F64) : (s.setHold c v).semitone = s.semitone := rfl
@[simp] theorem State.setHold_cent (s : State) (c : Word32) (v : F64) : (s.setHold c v).cent = s.cent := rfl
@[simp] theorem State.setHold_amplitude (s : State) (c : Word32) (v : F64) : (s.setHold c v).amplitude = s.amplitude := rfl
@[simp] theorem State.setHold_pwTarget (s : State) (c : Word32) (v : F64) : (s.setHold c v).pwTarget = s.pwTarget := rfl
@[simp] theorem State.setHold_waveform (s : State) (c : Word32) (v : F64) : (s.setHold c v).waveform = s.waveform := rfl
@[simp] theorem State.setHold_runMode (s : State) (c : Word32) (v : F64) : (s.setHold c v).runMode = s.runMode := rfl
@[simp] theorem State.setHold_seed (s : State) (c : Word32) (v : F64) : (s.setHold c v).seed = s.seed := rfl
@[simp] theorem State.setHold_modAmp (s : State) (c : Word32) (v : F64) : (s.setHold c v).modAmp = s.modAmp := rfl
@[simp] theorem State.setHold_modFoExp (s : State) (c : Word32) (v : F64) : (s.setHold c v).modFoExp = s.modFoExp := rfl
@[simp] theorem State.setHold_modPitchBend (s : State) (c : Word32) (v : F64) : (s.setHold c v).modPitchBend = s.modPitchBend := rfl
@[simp] theorem State.setHold_modFoLin (s : State) (c : Word32) (v : F64) : (s.setHold c v).modFoLin = s.modFoLin := rfl
@[simp] theorem State.setHold_modPhase (s : State) (c : Word32) (v : F64) : (s.setHold c v).modPhase = s.modPhase := rfl
@[simp] theorem State.setHold_modPw (s : State) (c : Word32) (v : F64) : (s.setHold c v).modPw = s.modPw := rfl
@[simp] theorem State.setHold_phase (s : State) (c : Word32) (v : F64) : (s.setHold c v).phase = s.phase := rfl
@[simp] theorem State.setHold_increment (s : State) (c : Word32) (v : F64) : (s.setHold c v).increment = s.increment := rfl
@[simp] theorem State.setHold_effFreq (s : State) (c : Word32) (v : F64) : (s.setHold c v).effFreq = s.effFreq := rfl
@[simp] theorem State.setHold_effPw (s : State) (c : Word32) (v : F64) : (s.setHold c v).effPw = s.effPw := rfl
@[simp] theorem State.setHold_noteOn (s : State) (c : Word32) (v : F64) : (s.setHold c v).noteOn = s.noteOn := rfl
@[simp] theorem State.setHold_tableIndex (s : State) (c : Word32) (v : F64) : (s.setHold c v).tableIndex = s.tableIndex := rfl
@[simp] theorem State.setHold_shCounter (s : State) (c : Word32) (v : F64) : (s.setHold c v).shCounter = c := rfl
@[simp] theorem State.setHold_shValue (s : State) (c : Word32) (v : F64) : (s.setHold c v).shValue = v := rfl
@[simp] theorem State.setHold_pnReg (s : State) (c : Word32) (v : F64) : (s.setHold c v).pnReg = s.pnReg := rfl
@[simp] theorem State.setHold_noiseState (s : State) (c : Word32) (v : F64) : (s.setHold c v).noiseState = s.noiseState := rfl
@[simp] theorem State.setHold_dpwPrev (s : State) (c : Word32) (v : F64) : (s.setHold c v).dpwPrev = s.dpwPrev := rfl
@[simp] theorem State.setHold_dpwToggle (s : State) (c : Word32) (v : F64) : (s.setHold c v).dpwToggle = s.dpwToggle := rfl
@[simp] theorem State.setHold_wrapPending (s : State) (c : Word32) (v : F64) : (s.setHold c v).wrapPending = s.wrapPending := rfl
@[simp] theorem State.setHold_status (s : State) (c : Word32) (v : F64) : (s.setHold c v).status = s.status := rfl
@[simp] theorem State.setHold_kind (s : State) (c : Word32) (v : F64) : (s.setHold c v).kind = s.kind := rfl
@[simp] theorem State.setHold_out (s : State) (c : Word32) (v : F64) : (s.setHold c v).out = s.out := rfl
@[simp] theorem State.setHold_aux (s : State) (c : Word32) (v : F64) : (s.setHold c v).aux = s.aux := rfl
@[simp] theorem State.setHold_bankRate (s : State) (c : Word32) (v : F64) : (s.setHold c v).bankRate = s.bankRate := rfl
@[simp] theorem State.setHold_rdata (s : State) (c : Word32) (v : F64) : (s.setHold c v).rdata = s.rdata := rfl
@[simp] theorem State.setHold_port (s : State) (c : Word32) (v : F64) : (s.setHold c v).port = s.port := rfl

/-! ### `State.setDpwPrev` -/

@[simp] theorem State.setDpwPrev_sampleRate (s : State) (x : F64) : (s.setDpwPrev x).sampleRate = s.sampleRate := rfl
@[simp] theorem State.setDpwPrev_targetFreq (s : State) (x : F64) : (s.setDpwPrev x).targetFreq = s.targetFreq := rfl
@[simp] theorem State.setDpwPrev_freqRatio (s : State) (x : F64) : (s.setDpwPrev x).freqRatio = s.freqRatio := rfl
@[simp] theorem State.setDpwPrev_octave (s : State) (x : F64) : (s.setDpwPrev x).octave = s.octave := rfl
@[simp] theorem State.setDpwPrev_semitone (s : State) (x : F64) : (s.setDpwPrev x).semitone = s.semitone := rfl
@[simp] theorem State.setDpwPrev_cent (s : State) (x : F64) : (s.setDpwPrev x).cent = s.cent := rfl
@[simp] theorem State.setDpwPrev_amplitude (s : State) (x : F64) : (s.setDpwPrev x).amplitude = s.amplitude := rfl
@[simp] theorem State.setDpwPrev_pwTarget (s : State) (x : F64) : (s.setDpwPrev x).pwTarget = s.pwTarget := rfl
@[simp] theorem State.setDpwPrev_waveform (s : State) (x : F64) : (s.setDpwPrev x).waveform = s.waveform := rfl
@[simp] theorem State.setDpwPrev_runMode (s : State) (x : F64) : (s.setDpwPrev x).runMode = s.runMode := rfl
@[simp] theorem State.setDpwPrev_seed (s : State) (x : F64) : (s.setDpwPrev x).seed = s.seed := rfl
@[simp] theorem State.setDpwPrev_modAmp (s : State) (x : F64) : (s.setDpwPrev x).modAmp = s.modAmp := rfl
@[simp] theorem State.setDpwPrev_modFoExp (s : State) (x : F64) : (s.setDpwPrev x).modFoExp = s.modFoExp := rfl
@[simp] theorem State.setDpwPrev_modPitchBend (s : State) (x : F64) : (s.setDpwPrev x).modPitchBend = s.modPitchBend := rfl
@[simp] theorem State.setDpwPrev_modFoLin (s : State) (x : F64) : (s.setDpwPrev x).modFoLin = s.modFoLin := rfl
@[simp] theorem State.setDpwPrev_modPhase (s : State) (x : F64) : (s.setDpwPrev x).modPhase = s.modPhase := rfl
@[simp] theorem State.setDpwPrev_modPw (s : State) (x : F64) : (s.setDpwPrev x).modPw = s.modPw := rfl
@[simp] theorem State.setDpwPrev_phase (s : State) (x : F64) : (s.setDpwPrev x).phase = s.phase := rfl
@[simp] theorem State.setDpwPrev_increment (s : State) (x : F64) : (s.setDpwPrev x).increment = s.increment := rfl
@[simp] theorem State.setDpwPrev_effFreq (s : State) (x : F64) : (s.setDpwPrev x).effFreq = s.effFreq := rfl
@[simp] theorem State.setDpwPrev_effPw (s : State) (x : F64) : (s.setDpwPrev x).effPw = s.effPw := rfl
@[simp] theorem State.setDpwPrev_noteOn (s : State) (x : F64) : (s.setDpwPrev x).noteOn = s.noteOn := rfl
@[simp] theorem State.setDpwPrev_tableIndex (s : State) (x : F64) : (s.setDpwPrev x).tableIndex = s.tableIndex := rfl
@[simp] theorem State.setDpwPrev_shCounter (s : State) (x : F64) : (s.setDpwPrev x).shCounter = s.shCounter := rfl
@[simp] theorem State.setDpwPrev_shValue (s : State) (x : F64) : (s.setDpwPrev x).shValue = s.shValue := rfl
@[simp] theorem State.setDpwPrev_pnReg (s : State) (x : F64) : (s.setDpwPrev x).pnReg = s.pnReg := rfl
@[simp] theorem State.setDpwPrev_noiseState (s : State) (x : F64) : (s.setDpwPrev x).noiseState = s.noiseState := rfl
@[simp] theorem State.setDpwPrev_dpwPrev (s : State) (x : F64) : (s.setDpwPrev x).dpwPrev = x := rfl
@[simp] theorem State.setDpwPrev_dpwToggle (s : State) (x : F64) : (s.setDpwPrev x).dpwToggle = s.dpwToggle := rfl
@[simp] theorem State.setDpwPrev_wrapPending (s : State) (x : F64) : (s.setDpwPrev x).wrapPending = s.wrapPending := rfl
@[simp] theorem State.setDpwPrev_status (s : State) (x : F64) : (s.setDpwPrev x).status = s.status := rfl
@[simp] theorem State.setDpwPrev_kind (s : State) (x : F64) : (s.setDpwPrev x).kind = s.kind := rfl
@[simp] theorem State.setDpwPrev_out (s : State) (x : F64) : (s.setDpwPrev x).out = s.out := rfl
@[simp] theorem State.setDpwPrev_aux (s : State) (x : F64) : (s.setDpwPrev x).aux = s.aux := rfl
@[simp] theorem State.setDpwPrev_bankRate (s : State) (x : F64) : (s.setDpwPrev x).bankRate = s.bankRate := rfl
@[simp] theorem State.setDpwPrev_rdata (s : State) (x : F64) : (s.setDpwPrev x).rdata = s.rdata := rfl
@[simp] theorem State.setDpwPrev_port (s : State) (x : F64) : (s.setDpwPrev x).port = s.port := rfl

/-! ### `State.setDpwToggle` -/

@[simp] theorem State.setDpwToggle_sampleRate (s : State) (x : F64) : (s.setDpwToggle x).sampleRate = s.sampleRate := rfl
@[simp] theorem State.setDpwToggle_targetFreq (s : State) (x : F64) : (s.setDpwToggle x).targetFreq = s.targetFreq := rfl
@[simp] theorem State.setDpwToggle_freqRatio (s : State) (x : F64) : (s.setDpwToggle x).freqRatio = s.freqRatio := rfl
@[simp] theorem State.setDpwToggle_octave (s : State) (x : F64) : (s.setDpwToggle x).octave = s.octave := rfl
@[simp] theorem State.setDpwToggle_semitone (s : State) (x : F64) : (s.setDpwToggle x).semitone = s.semitone := rfl
@[simp] theorem State.setDpwToggle_cent (s : State) (x : F64) : (s.setDpwToggle x).cent = s.cent := rfl
@[simp] theorem State.setDpwToggle_amplitude (s : State) (x : F64) : (s.setDpwToggle x).amplitude = s.amplitude := rfl
@[simp] theorem State.setDpwToggle_pwTarget (s : State) (x : F64) : (s.setDpwToggle x).pwTarget = s.pwTarget := rfl
@[simp] theorem State.setDpwToggle_waveform (s : State) (x : F64) : (s.setDpwToggle x).waveform = s.waveform := rfl
@[simp] theorem State.setDpwToggle_runMode (s : State) (x : F64) : (s.setDpwToggle x).runMode = s.runMode := rfl
@[simp] theorem State.setDpwToggle_seed (s : State) (x : F64) : (s.setDpwToggle x).seed = s.seed := rfl
@[simp] theorem State.setDpwToggle_modAmp (s : State) (x : F64) : (s.setDpwToggle x).modAmp = s.modAmp := rfl
@[simp] theorem State.setDpwToggle_modFoExp (s : State) (x : F64) : (s.setDpwToggle x).modFoExp = s.modFoExp := rfl
@[simp] theorem State.setDpwToggle_modPitchBend (s : State) (x : F64) : (s.setDpwToggle x).modPitchBend = s.modPitchBend := rfl
@[simp] theorem State.setDpwToggle_modFoLin (s : State) (x : F64) : (s.setDpwToggle x).modFoLin = s.modFoLin := rfl
@[simp] theorem State.setDpwToggle_modPhase (s : State) (x : F64) : (s.setDpwToggle x).modPhase = s.modPhase := rfl
@[simp] theorem State.setDpwToggle_modPw (s : State) (x : F64) : (s.setDpwToggle x).modPw = s.modPw := rfl
@[simp] theorem State.setDpwToggle_phase (s : State) (x : F64) : (s.setDpwToggle x).phase = s.phase := rfl
@[simp] theorem State.setDpwToggle_increment (s : State) (x : F64) : (s.setDpwToggle x).increment = s.increment := rfl
@[simp] theorem State.setDpwToggle_effFreq (s : State) (x : F64) : (s.setDpwToggle x).effFreq = s.effFreq := rfl
@[simp] theorem State.setDpwToggle_effPw (s : State) (x : F64) : (s.setDpwToggle x).effPw = s.effPw := rfl
@[simp] theorem State.setDpwToggle_noteOn (s : State) (x : F64) : (s.setDpwToggle x).noteOn = s.noteOn := rfl
@[simp] theorem State.setDpwToggle_tableIndex (s : State) (x : F64) : (s.setDpwToggle x).tableIndex = s.tableIndex := rfl
@[simp] theorem State.setDpwToggle_shCounter (s : State) (x : F64) : (s.setDpwToggle x).shCounter = s.shCounter := rfl
@[simp] theorem State.setDpwToggle_shValue (s : State) (x : F64) : (s.setDpwToggle x).shValue = s.shValue := rfl
@[simp] theorem State.setDpwToggle_pnReg (s : State) (x : F64) : (s.setDpwToggle x).pnReg = s.pnReg := rfl
@[simp] theorem State.setDpwToggle_noiseState (s : State) (x : F64) : (s.setDpwToggle x).noiseState = s.noiseState := rfl
@[simp] theorem State.setDpwToggle_dpwPrev (s : State) (x : F64) : (s.setDpwToggle x).dpwPrev = s.dpwPrev := rfl
@[simp] theorem State.setDpwToggle_dpwToggle (s : State) (x : F64) : (s.setDpwToggle x).dpwToggle = x := rfl
@[simp] theorem State.setDpwToggle_wrapPending (s : State) (x : F64) : (s.setDpwToggle x).wrapPending = s.wrapPending := rfl
@[simp] theorem State.setDpwToggle_status (s : State) (x : F64) : (s.setDpwToggle x).status = s.status := rfl
@[simp] theorem State.setDpwToggle_kind (s : State) (x : F64) : (s.setDpwToggle x).kind = s.kind := rfl
@[simp] theorem State.setDpwToggle_out (s : State) (x : F64) : (s.setDpwToggle x).out = s.out := rfl
@[simp] theorem State.setDpwToggle_aux (s : State) (x : F64) : (s.setDpwToggle x).aux = s.aux := rfl
@[simp] theorem State.setDpwToggle_bankRate (s : State) (x : F64) : (s.setDpwToggle x).bankRate = s.bankRate := rfl
@[simp] theorem State.setDpwToggle_rdata (s : State) (x : F64) : (s.setDpwToggle x).rdata = s.rdata := rfl
@[simp] theorem State.setDpwToggle_port (s : State) (x : F64) : (s.setDpwToggle x).port = s.port := rfl

/-! ### `State.setCombined` -/

@[simp] theorem State.setCombined_sampleRate (s : State) (m : RunMode) (f i p : F64) (k : Word32) : (s.setCombined m f i p k).sampleRate = s.sampleRate := rfl
@[simp] theorem State.setCombined_targetFreq (s : State) (m : RunMode) (f i p : F64) (k : Word32) : (s.setCombined m f i p k).targetFreq = s.targetFreq := rfl
@[simp] theorem State.setCombined_freqRatio (s : State) (m : RunMode) (f i p : F64) (k : Word32) : (s.setCombined m f i p k).freqRatio = s.freqRatio := rfl
@[simp] theorem State.setCombined_octave (s : State) (m : RunMode) (f i p : F64) (k : Word32) : (s.setCombined m f i p k).octave = s.octave := rfl
@[simp] theorem State.setCombined_semitone (s : State) (m : RunMode) (f i p : F64) (k : Word32) : (s.setCombined m f i p k).semitone = s.semitone := rfl
@[simp] theorem State.setCombined_cent (s : State) (m : RunMode) (f i p : F64) (k : Word32) : (s.setCombined m f i p k).cent = s.cent := rfl
@[simp] theorem State.setCombined_amplitude (s : State) (m : RunMode) (f i p : F64) (k : Word32) : (s.setCombined m f i p k).amplitude = s.amplitude := rfl
@[simp] theorem State.setCombined_pwTarget (s : State) (m : RunMode) (f i p : F64) (k : Word32) : (s.setCombined m f i p k).pwTarget = s.pwTarget := rfl
@[simp] theorem State.setCombined_waveform (s : State) (m : RunMode) (f i p : F64) (k : Word32) : (s.setCombined m f i p k).waveform = s.waveform := rfl
@[simp] theorem State.setCombined_runMode (s : State) (m : RunMode) (f i p : F64) (k : Word32) : (s.setCombined m f i p k).runMode = m := rfl
@[simp] theorem State.setCombined_seed (s : State) (m : RunMode) (f i p : F64) (k : Word32) : (s.setCombined m f i p k).seed = s.seed := rfl
@[simp] theorem State.setCombined_modAmp (s : State) (m : RunMode) (f i p : F64) (k : Word32) : (s.setCombined m f i p k).modAmp = s.modAmp := rfl
@[simp] theorem State.setCombined_modFoExp (s : State) (m : RunMode) (f i p : F64) (k : Word32) : (s.setCombined m f i p k).modFoExp = s.modFoExp := rfl
@[simp] theorem State.setCombined_modPitchBend (s : State) (m : RunMode) (f i p : F64) (k : Word32) : (s.setCombined m f i p k).modPitchBend = s.modPitchBend := rfl
@[simp] theorem State.setCombined_modFoLin (s : State) (m : RunMode) (f i p : F64) (k : Word32) : (s.setCombined m f i p k).modFoLin = s.modFoLin := rfl
@[simp] theorem State.setCombined_modPhase (s : State) (m : RunMode) (f i p : F64) (k : Word32) : (s.setCombined m f i p k).modPhase = s.modPhase := rfl
@[simp] theorem State.setCombined_modPw (s : State) (m : RunMode) (f i p : F64) (k : Word32) : (s.setCombined m f i p k).modPw = s.modPw := rfl
@[simp] theorem State.setCombined_phase (s : State) (m : RunMode) (f i p : F64) (k : Word32) : (s.setCombined m f i p k).phase = s.phase := rfl
@[simp] theorem State.setCombined_increment (s : State) (m : RunMode) (f i p : F64) (k : Word32) : (s.setCombined m f i p k).increment = i := rfl
@[simp] theorem State.setCombined_effFreq (s : State) (m : RunMode) (f i p : F64) (k : Word32) : (s.setCombined m f i p k).effFreq = f := rfl
@[simp] theorem State.setCombined_effPw (s : State) (m : RunMode) (f i p : F64) (k : Word32) : (s.setCombined m f i p k).effPw = p := rfl
@[simp] theorem State.setCombined_noteOn (s : State) (m : RunMode) (f i p : F64) (k : Word32) : (s.setCombined m f i p k).noteOn = s.noteOn := rfl
@[simp] theorem State.setCombined_tableIndex (s : State) (m : RunMode) (f i p : F64) (k : Word32) : (s.setCombined m f i p k).tableIndex = k := rfl
@[simp] theorem State.setCombined_shCounter (s : State) (m : RunMode) (f i p : F64) (k : Word32) : (s.setCombined m f i p k).shCounter = s.shCounter := rfl
@[simp] theorem State.setCombined_shValue (s : State) (m : RunMode) (f i p : F64) (k : Word32) : (s.setCombined m f i p k).shValue = s.shValue := rfl
@[simp] theorem State.setCombined_pnReg (s : State) (m : RunMode) (f i p : F64) (k : Word32) : (s.setCombined m f i p k).pnReg = s.pnReg := rfl
@[simp] theorem State.setCombined_noiseState (s : State) (m : RunMode) (f i p : F64) (k : Word32) : (s.setCombined m f i p k).noiseState = s.noiseState := rfl
@[simp] theorem State.setCombined_dpwPrev (s : State) (m : RunMode) (f i p : F64) (k : Word32) : (s.setCombined m f i p k).dpwPrev = s.dpwPrev := rfl
@[simp] theorem State.setCombined_dpwToggle (s : State) (m : RunMode) (f i p : F64) (k : Word32) : (s.setCombined m f i p k).dpwToggle = s.dpwToggle := rfl
@[simp] theorem State.setCombined_wrapPending (s : State) (m : RunMode) (f i p : F64) (k : Word32) : (s.setCombined m f i p k).wrapPending = s.wrapPending := rfl
@[simp] theorem State.setCombined_status (s : State) (m : RunMode) (f i p : F64) (k : Word32) : (s.setCombined m f i p k).status = s.status := rfl
@[simp] theorem State.setCombined_kind (s : State) (m : RunMode) (f i p : F64) (k : Word32) : (s.setCombined m f i p k).kind = s.kind := rfl
@[simp] theorem State.setCombined_out (s : State) (m : RunMode) (f i p : F64) (k : Word32) : (s.setCombined m f i p k).out = s.out := rfl
@[simp] theorem State.setCombined_aux (s : State) (m : RunMode) (f i p : F64) (k : Word32) : (s.setCombined m f i p k).aux = s.aux := rfl
@[simp] theorem State.setCombined_bankRate (s : State) (m : RunMode) (f i p : F64) (k : Word32) : (s.setCombined m f i p k).bankRate = s.bankRate := rfl
@[simp] theorem State.setCombined_rdata (s : State) (m : RunMode) (f i p : F64) (k : Word32) : (s.setCombined m f i p k).rdata = s.rdata := rfl
@[simp] theorem State.setCombined_port (s : State) (m : RunMode) (f i p : F64) (k : Word32) : (s.setCombined m f i p k).port = s.port := rfl

/-! ### `State.setRate` -/

@[simp] theorem State.setRate_sampleRate (s : State) (r b : F64) : (s.setRate r b).sampleRate = r := rfl
@[simp] theorem State.setRate_targetFreq (s : State) (r b : F64) : (s.setRate r b).targetFreq = s.targetFreq := rfl
@[simp] theorem State.setRate_freqRatio (s : State) (r b : F64) : (s.setRate r b).freqRatio = s.freqRatio := rfl
@[simp] theorem State.setRate_octave (s : State) (r b : F64) : (s.setRate r b).octave = s.octave := rfl
@[simp] theorem State.setRate_semitone (s : State) (r b : F64) : (s.setRate r b).semitone = s.semitone := rfl
@[simp] theorem State.setRate_cent (s : State) (r b : F64) : (s.setRate r b).cent = s.cent := rfl
@[simp] theorem State.setRate_amplitude (s : State) (r b : F64) : (s.setRate r b).amplitude = s.amplitude := rfl
@[simp] theorem State.setRate_pwTarget (s : State) (r b : F64) : (s.setRate r b).pwTarget = s.pwTarget := rfl
@[simp] theorem State.setRate_waveform (s : State) (r b : F64) : (s.setRate r b).waveform = s.waveform := rfl
@[simp] theorem State.setRate_runMode (s : State) (r b : F64) : (s.setRate r b).runMode = s.runMode := rfl
@[simp] theorem State.setRate_seed (s : State) (r b : F64) : (s.setRate r b).seed = s.seed := rfl
@[simp] theorem State.setRate_modAmp (s : State) (r b : F64) : (s.setRate r b).modAmp = s.modAmp := rfl
@[simp] theorem State.setRate_modFoExp (s : State) (r b : F64) : (s.setRate r b).modFoExp = s.modFoExp := rfl
@[simp] theorem State.setRate_modPitchBend (s : State) (r b : F64) : (s.setRate r b).modPitchBend = s.modPitchBend := rfl
@[simp] theorem State.setRate_modFoLin (s : State) (r b : F64) : (s.setRate r b).modFoLin = s.modFoLin := rfl
@[simp] theorem State.setRate_modPhase (s : State) (r b : F64) : (s.setRate r b).modPhase = s.modPhase := rfl
@[simp] theorem State.setRate_modPw (s : State) (r b : F64) : (s.setRate r b).modPw = s.modPw := rfl
@[simp] theorem State.setRate_phase (s : State) (r b : F64) : (s.setRate r b).phase = s.phase := rfl
@[simp] theorem State.setRate_increment (s : State) (r b : F64) : (s.setRate r b).increment = s.increment := rfl
@[simp] theorem State.setRate_effFreq (s : State) (r b : F64) : (s.setRate r b).effFreq = s.effFreq := rfl
@[simp] theorem State.setRate_effPw (s : State) (r b : F64) : (s.setRate r b).effPw = s.effPw := rfl
@[simp] theorem State.setRate_noteOn (s : State) (r b : F64) : (s.setRate r b).noteOn = s.noteOn := rfl
@[simp] theorem State.setRate_tableIndex (s : State) (r b : F64) : (s.setRate r b).tableIndex = s.tableIndex := rfl
@[simp] theorem State.setRate_shCounter (s : State) (r b : F64) : (s.setRate r b).shCounter = s.shCounter := rfl
@[simp] theorem State.setRate_shValue (s : State) (r b : F64) : (s.setRate r b).shValue = s.shValue := rfl
@[simp] theorem State.setRate_pnReg (s : State) (r b : F64) : (s.setRate r b).pnReg = s.pnReg := rfl
@[simp] theorem State.setRate_noiseState (s : State) (r b : F64) : (s.setRate r b).noiseState = s.noiseState := rfl
@[simp] theorem State.setRate_dpwPrev (s : State) (r b : F64) : (s.setRate r b).dpwPrev = s.dpwPrev := rfl
@[simp] theorem State.setRate_dpwToggle (s : State) (r b : F64) : (s.setRate r b).dpwToggle = s.dpwToggle := rfl
@[simp] theorem State.setRate_wrapPending (s : State) (r b : F64) : (s.setRate r b).wrapPending = s.wrapPending := rfl
@[simp] theorem State.setRate_status (s : State) (r b : F64) : (s.setRate r b).status = s.status := rfl
@[simp] theorem State.setRate_kind (s : State) (r b : F64) : (s.setRate r b).kind = s.kind := rfl
@[simp] theorem State.setRate_out (s : State) (r b : F64) : (s.setRate r b).out = s.out := rfl
@[simp] theorem State.setRate_aux (s : State) (r b : F64) : (s.setRate r b).aux = s.aux := rfl
@[simp] theorem State.setRate_bankRate (s : State) (r b : F64) : (s.setRate r b).bankRate = b := rfl
@[simp] theorem State.setRate_rdata (s : State) (r b : F64) : (s.setRate r b).rdata = s.rdata := rfl
@[simp] theorem State.setRate_port (s : State) (r b : F64) : (s.setRate r b).port = s.port := rfl

/-! ### `State.setPort` -/

@[simp] theorem State.setPort_sampleRate (s : State) (cs : List Command) : (s.setPort cs).sampleRate = s.sampleRate := rfl
@[simp] theorem State.setPort_targetFreq (s : State) (cs : List Command) : (s.setPort cs).targetFreq = s.targetFreq := rfl
@[simp] theorem State.setPort_freqRatio (s : State) (cs : List Command) : (s.setPort cs).freqRatio = s.freqRatio := rfl
@[simp] theorem State.setPort_octave (s : State) (cs : List Command) : (s.setPort cs).octave = s.octave := rfl
@[simp] theorem State.setPort_semitone (s : State) (cs : List Command) : (s.setPort cs).semitone = s.semitone := rfl
@[simp] theorem State.setPort_cent (s : State) (cs : List Command) : (s.setPort cs).cent = s.cent := rfl
@[simp] theorem State.setPort_amplitude (s : State) (cs : List Command) : (s.setPort cs).amplitude = s.amplitude := rfl
@[simp] theorem State.setPort_pwTarget (s : State) (cs : List Command) : (s.setPort cs).pwTarget = s.pwTarget := rfl
@[simp] theorem State.setPort_waveform (s : State) (cs : List Command) : (s.setPort cs).waveform = s.waveform := rfl
@[simp] theorem State.setPort_runMode (s : State) (cs : List Command) : (s.setPort cs).runMode = s.runMode := rfl
@[simp] theorem State.setPort_seed (s : State) (cs : List Command) : (s.setPort cs).seed = s.seed := rfl
@[simp] theorem State.setPort_modAmp (s : State) (cs : List Command) : (s.setPort cs).modAmp = s.modAmp := rfl
@[simp] theorem State.setPort_modFoExp (s : State) (cs : List Command) : (s.setPort cs).modFoExp = s.modFoExp := rfl
@[simp] theorem State.setPort_modPitchBend (s : State) (cs : List Command) : (s.setPort cs).modPitchBend = s.modPitchBend := rfl
@[simp] theorem State.setPort_modFoLin (s : State) (cs : List Command) : (s.setPort cs).modFoLin = s.modFoLin := rfl
@[simp] theorem State.setPort_modPhase (s : State) (cs : List Command) : (s.setPort cs).modPhase = s.modPhase := rfl
@[simp] theorem State.setPort_modPw (s : State) (cs : List Command) : (s.setPort cs).modPw = s.modPw := rfl
@[simp] theorem State.setPort_phase (s : State) (cs : List Command) : (s.setPort cs).phase = s.phase := rfl
@[simp] theorem State.setPort_increment (s : State) (cs : List Command) : (s.setPort cs).increment = s.increment := rfl
@[simp] theorem State.setPort_effFreq (s : State) (cs : List Command) : (s.setPort cs).effFreq = s.effFreq := rfl
@[simp] theorem State.setPort_effPw (s : State) (cs : List Command) : (s.setPort cs).effPw = s.effPw := rfl
@[simp] theorem State.setPort_noteOn (s : State) (cs : List Command) : (s.setPort cs).noteOn = s.noteOn := rfl
@[simp] theorem State.setPort_tableIndex (s : State) (cs : List Command) : (s.setPort cs).tableIndex = s.tableIndex := rfl
@[simp] theorem State.setPort_shCounter (s : State) (cs : List Command) : (s.setPort cs).shCounter = s.shCounter := rfl
@[simp] theorem State.setPort_shValue (s : State) (cs : List Command) : (s.setPort cs).shValue = s.shValue := rfl
@[simp] theorem State.setPort_pnReg (s : State) (cs : List Command) : (s.setPort cs).pnReg = s.pnReg := rfl
@[simp] theorem State.setPort_noiseState (s : State) (cs : List Command) : (s.setPort cs).noiseState = s.noiseState := rfl
@[simp] theorem State.setPort_dpwPrev (s : State) (cs : List Command) : (s.setPort cs).dpwPrev = s.dpwPrev := rfl
@[simp] theorem State.setPort_dpwToggle (s : State) (cs : List Command) : (s.setPort cs).dpwToggle = s.dpwToggle := rfl
@[simp] theorem State.setPort_wrapPending (s : State) (cs : List Command) : (s.setPort cs).wrapPending = s.wrapPending := rfl
@[simp] theorem State.setPort_status (s : State) (cs : List Command) : (s.setPort cs).status = s.status := rfl
@[simp] theorem State.setPort_kind (s : State) (cs : List Command) : (s.setPort cs).kind = s.kind := rfl
@[simp] theorem State.setPort_out (s : State) (cs : List Command) : (s.setPort cs).out = s.out := rfl
@[simp] theorem State.setPort_aux (s : State) (cs : List Command) : (s.setPort cs).aux = s.aux := rfl
@[simp] theorem State.setPort_bankRate (s : State) (cs : List Command) : (s.setPort cs).bankRate = s.bankRate := rfl
@[simp] theorem State.setPort_rdata (s : State) (cs : List Command) : (s.setPort cs).rdata = s.rdata := rfl
@[simp] theorem State.setPort_port (s : State) (cs : List Command) : (s.setPort cs).port = cs := rfl

/-! ### `resetCore` (R150) -/

@[simp] theorem resetCore_sampleRate (s : State) : (resetCore s).sampleRate = s.sampleRate := rfl
@[simp] theorem resetCore_targetFreq (s : State) : (resetCore s).targetFreq = s.targetFreq := rfl
@[simp] theorem resetCore_freqRatio (s : State) : (resetCore s).freqRatio = s.freqRatio := rfl
@[simp] theorem resetCore_octave (s : State) : (resetCore s).octave = s.octave := rfl
@[simp] theorem resetCore_semitone (s : State) : (resetCore s).semitone = s.semitone := rfl
@[simp] theorem resetCore_cent (s : State) : (resetCore s).cent = s.cent := rfl
@[simp] theorem resetCore_amplitude (s : State) : (resetCore s).amplitude = s.amplitude := rfl
@[simp] theorem resetCore_pwTarget (s : State) : (resetCore s).pwTarget = s.pwTarget := rfl
@[simp] theorem resetCore_waveform (s : State) : (resetCore s).waveform = s.waveform := rfl
@[simp] theorem resetCore_runMode (s : State) : (resetCore s).runMode = s.runMode := rfl
@[simp] theorem resetCore_seed (s : State) : (resetCore s).seed = s.seed := rfl
@[simp] theorem resetCore_modAmp (s : State) : (resetCore s).modAmp = fOne := rfl
@[simp] theorem resetCore_modFoExp (s : State) : (resetCore s).modFoExp = fZero := rfl
@[simp] theorem resetCore_modPitchBend (s : State) : (resetCore s).modPitchBend = fZero := rfl
@[simp] theorem resetCore_modFoLin (s : State) : (resetCore s).modFoLin = fZero := rfl
@[simp] theorem resetCore_modPhase (s : State) : (resetCore s).modPhase = fZero := rfl
@[simp] theorem resetCore_modPw (s : State) : (resetCore s).modPw = fZero := rfl
@[simp] theorem resetCore_phase (s : State) : (resetCore s).phase = startPhase s.kind s.waveform := rfl
@[simp] theorem resetCore_increment (s : State) : (resetCore s).increment = s.increment := rfl
@[simp] theorem resetCore_effFreq (s : State) : (resetCore s).effFreq = s.effFreq := rfl
@[simp] theorem resetCore_effPw (s : State) : (resetCore s).effPw = s.effPw := rfl
@[simp] theorem resetCore_noteOn (s : State) : (resetCore s).noteOn = s.noteOn := rfl
@[simp] theorem resetCore_tableIndex (s : State) : (resetCore s).tableIndex = s.tableIndex := rfl
@[simp] theorem resetCore_shCounter (s : State) : (resetCore s).shCounter = 0xFFFFFFFF#32 := rfl
@[simp] theorem resetCore_shValue (s : State) : (resetCore s).shValue = s.shValue := rfl
@[simp] theorem resetCore_pnReg (s : State) : (resetCore s).pnReg = s.seed := rfl
@[simp] theorem resetCore_noiseState (s : State) : (resetCore s).noiseState = s.seed := rfl
@[simp] theorem resetCore_dpwPrev (s : State) : (resetCore s).dpwPrev = fZero := rfl
@[simp] theorem resetCore_dpwToggle (s : State) : (resetCore s).dpwToggle = fOne := rfl
@[simp] theorem resetCore_wrapPending (s : State) : (resetCore s).wrapPending = false := rfl
@[simp] theorem resetCore_status (s : State) : (resetCore s).status = s.status := rfl
@[simp] theorem resetCore_kind (s : State) : (resetCore s).kind = s.kind := rfl
@[simp] theorem resetCore_out (s : State) : (resetCore s).out = s.out := rfl
@[simp] theorem resetCore_aux (s : State) : (resetCore s).aux = s.aux := rfl
@[simp] theorem resetCore_bankRate (s : State) : (resetCore s).bankRate = s.bankRate := rfl
@[simp] theorem resetCore_rdata (s : State) : (resetCore s).rdata = s.rdata := rfl
@[simp] theorem resetCore_port (s : State) : (resetCore s).port = s.port := rfl

end Sys2Proof.Machine
end

