-- ==== Sys2Proof/Laws/Ops.lean ====
section
/-! SUPPORT. One lemma per shared operation: everything it can do, so that a proof cites it and does not unfold
the operation. -/

namespace Sys2Proof.Machine

open Sys2Proof

/-! ### Outcomes -/

theorem complete_eq_next {s t : State} : complete s = .next t ↔ t = s.respond 0#64 := by
  simp [complete, eq_comm]

theorem refuse_eq_next {c : RefusalCode} {s t : State} :
    refuse c s = .next t ↔ t = (s.setStatus (s.status ||| c.mask)).respond 0#64 := by
  simp [refuse, statusRefused, eq_comm]

/-! ### The phase accumulator and the noise generators -/

/-- The phase step keeps a sum in [0, 1) and reports no wrap, or wraps it and reports the wrap. -/
theorem advancePhase_cases (s : State) :
    (fLe fZero (fAdd s.phase s.increment) = true ∧ fLt (fAdd s.phase s.increment) fOne = true ∧
      advancePhase s = s.setPhase (fAdd s.phase s.increment) false) ∨
    (¬ (fLe fZero (fAdd s.phase s.increment) = true ∧ fLt (fAdd s.phase s.increment) fOne = true) ∧
      advancePhase s = s.setPhase (wrap01 (fAdd s.phase s.increment)) true) := by
  unfold advancePhase normalizePhase
  by_cases h : fLe fZero (fAdd s.phase s.increment) = true ∧ fLt (fAdd s.phase s.increment) fOne = true
  · exact .inl ⟨h.1, h.2, by simp [h]⟩
  · refine .inr ⟨h, ?_⟩
    have h' : (fLe fZero (fAdd s.phase s.increment) && fLt (fAdd s.phase s.increment) fOne) = false := by
      rw [← Bool.not_eq_true, Bool.and_eq_true]; exact h
    simp [h']

/-- The phase step writes PHASE and WRAP_PENDING only. -/
theorem advancePhase_frame (s : State) : ∃ p w, advancePhase s = s.setPhase p w := ⟨_, _, rfl⟩

theorem drawWhite_spec (s : State) :
    drawWhite s = (noiseValue (xorshift32 s.noiseState), s.setNoise (xorshift32 s.noiseState)) := rfl

theorem drawPN_spec (s : State) : drawPN s = (noiseValue (lfsrNext s.pnReg), s.setPn (lfsrNext s.pnReg)) := rfl

/-- `scaleOut` reads AMPLITUDE and MOD_AMP only. -/
theorem scaleOut_congr {s t : State} (h1 : s.amplitude = t.amplitude) (h2 : s.modAmp = t.modAmp) (v : F64) :
    scaleOut s v = scaleOut t v := by
  simp [scaleOut, h1, h2]

/-! ### WREG's forms -/

theorem takeF64_cases (d : Word) (put : F64 → State) :
    (fIsFinite d = true ∧ takeF64 d put = .ok (put d)) ∨
    (fIsFinite d = false ∧ takeF64 d put = .error .badValue) := by
  unfold takeF64; cases h : fIsFinite d <;> simp

theorem takeWaveform_cases (s : State) (d : Word) :
    (∃ w, waveformOfCode d.toNat = some w ∧ waveformLegal s.kind w = true ∧
      takeWaveform s d = .ok { s with waveform := w }) ∨
    takeWaveform s d = .error .badWave := by
  unfold takeWaveform
  cases h : waveformOfCode d.toNat with
  | none => exact .inr rfl
  | some w => cases hl : waveformLegal s.kind w <;> simp

theorem takeRunMode_cases (s : State) (d : Word) :
    (∃ m, runModeOfCode d.toNat = some m ∧ takeRunMode s d = .ok { s with runMode := m }) ∨
    takeRunMode s d = .error .badValue := by
  unfold takeRunMode
  cases h : runModeOfCode d.toNat <;> simp

theorem takeSeed_cases (s : State) (d : Word) :
    (lowWord d ≠ 0#32 ∧ takeSeed s d = .ok { s with seed := lowWord d }) ∨
    (lowWord d = 0#32 ∧ takeSeed s d = .error .badValue) := by
  unfold takeSeed; by_cases h : lowWord d = 0#32 <;> simp [h]

/-- What a WREG that is accepted leaves as it was: the rate, what UPDATE computes, everything the block itself
writes, the kind, the outputs, the bank, the response and the port. -/
theorem writeReg_frame {r : Reg} {d : Word} {s t : State} (h : writeReg r d s = .ok t) :
    t.sampleRate = s.sampleRate ∧ t.phase = s.phase ∧ t.increment = s.increment ∧ t.effFreq = s.effFreq ∧
    t.effPw = s.effPw ∧ t.noteOn = s.noteOn ∧ t.tableIndex = s.tableIndex ∧ t.shCounter = s.shCounter ∧
    t.shValue = s.shValue ∧ t.pnReg = s.pnReg ∧ t.noiseState = s.noiseState ∧ t.dpwPrev = s.dpwPrev ∧
    t.dpwToggle = s.dpwToggle ∧ t.wrapPending = s.wrapPending ∧ t.kind = s.kind ∧ t.out = s.out ∧
    t.aux = s.aux ∧ t.bankRate = s.bankRate ∧ t.rdata = s.rdata ∧ t.port = s.port ∧
    (r ≠ .status → t.status = s.status) := by
  cases r <;> simp only [writeReg, takeF64, takeWaveform, takeRunMode, takeSeed] at h <;>
    (repeat' split at h) <;> simp_all <;> subst h <;> simp

/-! ### The renders -/

/-- A WT render writes NOISE_STATE, PHASE, WRAP_PENDING, OUT and AUX only. -/
theorem wtOsc_frame (s : State) : ∃ x p w o, wtOsc s = ((s.setNoise x).setPhase p w).setOutputs o o := by
  unfold wtOsc wtSample
  cases s.waveform
  case whiteNoise => exact ⟨_, _, _, _, rfl⟩
  all_goals exact ⟨s.noiseState, _, _, _, rfl⟩

/-- A QBL render writes DPW_TOGGLE, DPW_PREV, PHASE, WRAP_PENDING, OUT and AUX only. -/
theorem qblOsc_frame (s : State) :
    ∃ g r p w o, (g = s.dpwToggle ∨ g = fOne ∨ g = fMinusOne) ∧
      qblOsc s = (((s.setDpwToggle g).setDpwPrev r).setPhase p w).setOutputs o o := by
  unfold qblOsc qblSegment
  have ht (pr : F64) : triSign pr = fOne ∨ triSign pr = fMinusOne := by
    unfold triSign; split <;> simp
  cases s.waveform
  case sawUp => exact ⟨s.dpwToggle, _, _, _, _, .inl rfl, rfl⟩
  case sawDown => exact ⟨s.dpwToggle, _, _, _, _, .inl rfl, rfl⟩
  all_goals exact ⟨_, _, _, _, _, .inr (ht (readPhase s)), rfl⟩

/-- The sample and hold draws and starts counting at 1, or holds and counts on below the hold count. -/
theorem holdStep_cases (s : State) :
    (holdExpired s = true ∧
      ((s.waveform = .heldNoise ∧ holdStep s
          = (s.setNoise (xorshift32 s.noiseState)).setHold 1#32 (noiseValue (xorshift32 s.noiseState))) ∨
        (s.waveform ≠ .heldNoise ∧ holdStep s
          = (s.setPn (lfsrNext s.pnReg)).setHold 1#32 (noiseValue (lfsrNext s.pnReg))))) ∨
    (0 ≤ s.shCounter.toInt ∧ s.shCounter.toInt < (holdCount s.sampleRate s.effFreq : Int) ∧
      holdStep s = s.setHold (s.shCounter + 1#32) s.shValue) := by
  unfold holdStep
  cases h : holdExpired s with
  | false =>
    right
    simp only [holdExpired, Bool.or_eq_false_iff, decide_eq_false_iff_not, not_lt, not_le] at h
    exact ⟨h.1, h.2, by simp⟩
  | true =>
    left
    refine ⟨rfl, ?_⟩
    unfold heldDraw
    cases hw : s.waveform <;> simp [drawWhite, drawPN]

/-- An LFO render completes a one-shot, or holds noise, or renders a shape. -/
theorem lfoOsc_cases (s : State) :
    (s.runMode = .shot ∧ s.wrapPending = true ∧ lfoOsc s = completeShot (s.setWrap false)) ∨
    (¬ (s.runMode = .shot ∧ s.wrapPending = true) ∧ isHeld s.waveform = true ∧
      lfoOsc s = (advancePhase (holdStep (s.setWrap false))).setOutputs
        (scaleOut s (holdStep (s.setWrap false)).shValue) (scaleOut s (holdStep (s.setWrap false)).shValue)) ∨
    (¬ (s.runMode = .shot ∧ s.wrapPending = true) ∧ isHeld s.waveform = false ∧
      lfoOsc s = (advancePhase (s.setWrap false)).setOutputs
        (scaleOut s (lfoShape s s.phase)) (scaleOut s (lfoShape s (quadPhase s.phase)))) := by
  unfold lfoOsc
  by_cases h : s.runMode = .shot ∧ s.wrapPending = true
  · exact .inl ⟨h.1, h.2, by simp [h]⟩
  · right
    cases hh : isHeld s.waveform with
    | true => exact .inl ⟨h, rfl, by simp only [h, if_false, lfoSample, hh, State.setWrap_waveform, if_true, scaleOut]; try rfl⟩
    | false =>
      refine .inr ⟨h, rfl, ?_⟩
      simp only [h, if_false, lfoSample, hh, State.setWrap_waveform, Bool.false_eq_true]; rfl

/-- Every render is of the instance's kind. -/
theorem oscRender_spec (s : State) :
    oscRender s = match s.kind with | .wt => wtOsc s | .qbl => qblOsc s | .lfo => lfoOsc s := rfl

/-- What START does before it opens the gate. -/
theorem startBody_cases (s : State) :
    (s.kind = .lfo ∧ s.runMode = .free ∧ startBody s = s) ∨
    (¬ (s.kind = .lfo ∧ s.runMode = .free) ∧ startBody s = resetCore s) := by
  unfold startBody lfoStart
  cases s.kind <;> cases s.runMode <;> simp

/-! ### The instructions -/

/-- A WREG is refused, or writes a register. -/
theorem execWreg_cases (sel : RegSel) (d : Word) (s : State) :
    (∃ c, execWreg sel d s = refuse c s) ∨
    (∃ r t, sel = .assigned r ∧ writeReg r d s = .ok t ∧ execWreg sel d s = complete t) := by
  cases sel with
  | unassigned n => exact .inl ⟨_, rfl⟩
  | assigned r =>
    unfold execWreg
    cases h : writeReg r d s with
    | error c => exact .inl ⟨c, by simp [h]⟩
    | ok t => exact .inr ⟨r, t, rfl, h, by simp [h]⟩

/-- An RREG is refused, or answers a register's value. -/
theorem execRreg_cases (sel : RegSel) (s : State) :
    (∃ n, sel = .unassigned n ∧ execRreg sel s = refuse .badCmd s) ∨
    (∃ r, sel = .assigned r ∧ execRreg sel s = .next (s.respond (readReg r s))) := by
  cases sel with
  | unassigned n => exact .inl ⟨n, rfl, rfl⟩
  | assigned r => exact .inr ⟨r, rfl, rfl⟩

/-- A SETSR is refused, or installs a legal rate. -/
theorem execSetsr_cases (v : Word) (s : State) :
    (rateLegal v = true ∧ execSetsr v s
      = complete ((s.setRate v (builtRate s v)).setStatus (statusPending s.status))) ∨
    (rateLegal v = false ∧ execSetsr v s = refuse .badValue s) := by
  unfold execSetsr; cases rateLegal v <;> simp

/-- An OSC is silent, or renders. -/
theorem execOsc_cases (s : State) :
    (s.noteOn = false ∧ execOsc s = complete (s.setOutputs fZero fZero)) ∨
    (s.noteOn = true ∧ execOsc s = complete (oscRender s)) := by
  unfold execOsc; cases s.noteOn <;> simp

/-- A step waits, refuses a word that is no command, or runs the decoded instruction. -/
theorem step_cases (s : State) :
    (s.port = [] ∧ step s = .next s) ∨
    (∃ c rest e, s.port = c :: rest ∧ decode c = .error e ∧ step s = refuse .badCmd (s.setPort rest)) ∨
    (∃ c rest i, s.port = c :: rest ∧ decode c = .ok i ∧ step s = exec i (s.setPort rest)) := by
  unfold step carryOut
  cases hp : s.port with
  | nil => exact .inl ⟨rfl, rfl⟩
  | cons c rest =>
    right
    cases hd : decode c with
    | error e => exact .inl ⟨c, rest, e, rfl, hd, by simp [hd]⟩
    | ok i => exact .inr ⟨c, rest, i, rfl, hd, by simp [hd]⟩

/-! ### Lines and instances -/

/-- A prefixed line goes to the instance it names. -/
@[simp] theorem lineTarget_prefixed (name : List Char) (c : Command) (sys : Instances) :
    lineTarget { target := some name, command := c } sys = some name := rfl

/-- A line without a prefix goes to the program's one instance. -/
@[simp] theorem lineTarget_bare (name : List Char) (c : Command) (s : State) :
    lineTarget { target := none, command := c } [(name, s)] = some name := rfl

/-- Delivering a line leaves the instances as they are, or issues its command on one of them. -/
theorem deliver_cases (l : AsmLine) (sys : Instances) :
    (lineTarget l sys = none ∧ deliver l sys = sys) ∨
    (∃ name, lineTarget l sys = some name ∧ deliver l sys = issue name l.command sys) := by
  unfold deliver
  cases lineTarget l sys with
  | none => exact .inl ⟨rfl, rfl⟩
  | some name => exact .inr ⟨name, rfl, rfl⟩

/-! ### The byte-wide link -/

@[simp] theorem length_bytesOfNat (k n : Nat) : (bytesOfNat k n).length = k := by
  induction k generalizing n with
  | zero => rfl
  | succ k ih => simp [bytesOfNat, ih]

/-- The bytes of a number, read back, are its low 8·k bits. -/
@[simp] theorem natOfBytes_bytesOfNat (k n : Nat) : natOfBytes (bytesOfNat k n) = n % 256 ^ k := by
  induction k generalizing n with
  | zero => simp [bytesOfNat, natOfBytes, Nat.mod_one]
  | succ k ih =>
    rw [bytesOfNat, natOfBytes, ih, BitVec.toNat_ofNat, show 2 ^ 8 = 256 from rfl, pow_succ' 256 k,
      ← Nat.mod_mul]

@[simp] theorem length_wordBytes (w : Word) : (wordBytes w).length = 8 := length_bytesOfNat 8 _

@[simp] theorem wordOfBytes_wordBytes (w : Word) : wordOfBytes (wordBytes w) = w := by
  apply BitVec.eq_of_toNat_eq
  rw [wordOfBytes, wordBytes, natOfBytes_bytesOfNat, BitVec.toNat_ofNat]
  have := w.isLt
  omega

/-- The response names RDATA and the registers OUT and AUX. -/
@[simp] theorem State.response_rdata (s : State) : s.response.rdata = s.rdata := rfl
@[simp] theorem State.response_out (s : State) : s.response.out = s.out := rfl
@[simp] theorem State.response_aux (s : State) : s.response.aux = s.aux := rfl

end Sys2Proof.Machine
end

