-- ==== Sys2Proof/Laws/PerInstr.lean ====
section
/-! SUPPORT. The family `encodingFields`: what the encoding of an instruction looks like, one lemma per
constructor (spec 30_encoding.md R100, R104). -/

namespace Sys2Proof.Laws

open Sys2Proof

/-- The reserved bits of the encoding are 0, its opcode is one of the nine, its REG field is 0 but for WREG and
RREG, and its operand word is 0 but for SETSR and WREG. -/
def encodingFields.Statement (i : Instr) : Prop :=
  cmdRsv (encode i).cmd = 0#16 ∧ (cmdOp (encode i).cmd).toNat ≤ 8 ∧
  (7 ≤ (cmdOp (encode i).cmd).toNat ∨ cmdReg (encode i).cmd = 0#8) ∧
  ((cmdOp (encode i).cmd).toNat = 6 ∨ (cmdOp (encode i).cmd).toNat = 7 ∨ (encode i).data = 0#64)

/-- The reserved bits of a command word put together from an opcode and a register field. -/
theorem cmdRsv_cmdWord (op reg : BitVec 8) : cmdRsv (cmdWord op reg) = 0#16 := by
  change (0#16 ++ reg ++ op).extractLsb' 16 16 = 0#16
  ext j hj
  rw [BitVec.getElem_extractLsb', BitVec.getLsbD_append, BitVec.getLsbD_append]
  rw [if_neg (by omega), if_neg (by omega)]
  simp

/-- Its REG field. -/
theorem cmdReg_cmdWord (op reg : BitVec 8) : cmdReg (cmdWord op reg) = reg := by
  change (0#16 ++ reg ++ op).extractLsb' 8 8 = reg
  ext j hj
  rw [BitVec.getElem_extractLsb', BitVec.getLsbD_append, BitVec.getLsbD_append]
  rw [if_neg (by omega), if_pos (by omega)]
  simp [← BitVec.getLsbD_eq_getElem]

/-- Its opcode. -/
theorem cmdOp_cmdWord (op reg : BitVec 8) : cmdOp (cmdWord op reg) = op := by
  change (0#16 ++ reg ++ op).extractLsb' 0 8 = op
  ext j hj
  rw [BitVec.getElem_extractLsb', BitVec.getLsbD_append]
  rw [if_pos (by omega)]
  simp [← BitVec.getLsbD_eq_getElem]

theorem encodingFields.nop : encodingFields.Statement .nop := by
  simp [encodingFields.Statement, encode, cmdRsv_cmdWord, cmdReg_cmdWord, cmdOp_cmdWord]

theorem encodingFields.reset : encodingFields.Statement .reset := by
  simp [encodingFields.Statement, encode, cmdRsv_cmdWord, cmdReg_cmdWord, cmdOp_cmdWord]

theorem encodingFields.update : encodingFields.Statement .update := by
  simp [encodingFields.Statement, encode, cmdRsv_cmdWord, cmdReg_cmdWord, cmdOp_cmdWord]

theorem encodingFields.start : encodingFields.Statement .start := by
  simp [encodingFields.Statement, encode, cmdRsv_cmdWord, cmdReg_cmdWord, cmdOp_cmdWord]

theorem encodingFields.stop : encodingFields.Statement .stop := by
  simp [encodingFields.Statement, encode, cmdRsv_cmdWord, cmdReg_cmdWord, cmdOp_cmdWord]

theorem encodingFields.osc : encodingFields.Statement .osc := by
  simp [encodingFields.Statement, encode, cmdRsv_cmdWord, cmdReg_cmdWord, cmdOp_cmdWord]

theorem encodingFields.setsr (rate : Word) : encodingFields.Statement (.setsr rate) := by
  simp [encodingFields.Statement, encode, cmdRsv_cmdWord, cmdReg_cmdWord, cmdOp_cmdWord]

theorem encodingFields.wreg (sel : RegSel) (data : Word) : encodingFields.Statement (.wreg sel data) := by
  simp [encodingFields.Statement, encode, cmdRsv_cmdWord, cmdReg_cmdWord, cmdOp_cmdWord]

theorem encodingFields.rreg (sel : RegSel) : encodingFields.Statement (.rreg sel) := by
  simp [encodingFields.Statement, encode, cmdRsv_cmdWord, cmdReg_cmdWord, cmdOp_cmdWord]

end Sys2Proof.Laws
end

