-- ==== Sys2Proof/Tests/Slice0.lean ====
section
/-! SUPPORT. Tests: ill-formed terms, words written out from the encoding, small checks of operations and
instructions against values of the spec, and a witness of the hypotheses of each statement. Every expected
value comes from the spec's text; each docstring names where. -/

namespace Sys2Proof.Tests

open Sys2Proof Sys2Proof.Machine

set_option Elab.async false

/-! ### Well-formedness -/

/-- R65, 10_state.md: 0x01 is TARGET_FREQ, so the raw selector of it is not canonical. -/
theorem test_wreg_raw_assigned_is_ill_formed :
    (Instr.wreg (.unassigned 0x01#8) 0#64).wellFormed = false := by decide

theorem test_rreg_raw_assigned_is_ill_formed : (Instr.rreg (.unassigned 0x30#8)).wellFormed = false := by decide

/-- R65: the ends of the three unassigned ranges. -/
theorem test_unassigned_selectors_are_well_formed :
    ∀ n ∈ [0x0B#8, 0x0F#8, 0x16#8, 0x1F#8, 0x31#8, 0xFF#8], (Instr.rreg (.unassigned n)).wellFormed = true := by
  decide

/-! ### Decoding: the full command words of R104 -/

theorem test_decode_nop : decode { cmd := 0x00000000#32, data := 5#64 } = .ok .nop := by decide
theorem test_decode_reset : decode { cmd := 0x00000001#32, data := 0#64 } = .ok .reset := by decide
theorem test_decode_update : decode { cmd := 0x00000002#32, data := 0#64 } = .ok .update := by decide
theorem test_decode_start : decode { cmd := 0x00000003#32, data := 0#64 } = .ok .start := by decide
theorem test_decode_stop : decode { cmd := 0x00000004#32, data := 0#64 } = .ok .stop := by decide
theorem test_decode_osc : decode { cmd := 0x00000005#32, data := 0#64 } = .ok .osc := by decide
theorem test_decode_setsr : decode { cmd := 0x00000006#32, data := 0x40E7700000000000#64 }
    = .ok (.setsr 0x40E7700000000000#64) := by decide
/-- R124: `00000107 407B800000000000` is `wreg TARGET_FREQ, 440`. -/
theorem test_decode_wreg : decode { cmd := 0x00000107#32, data := 0x407B800000000000#64 }
    = .ok (.wreg (.assigned .targetFreq) 0x407B800000000000#64) := by decide
/-- R104: 0x00002008 is `rreg PHASE`. -/
theorem test_decode_rreg : decode { cmd := 0x00002008#32, data := 0#64 } = .ok (.rreg (.assigned .phase)) := by
  decide
/-- R352: the words its examples refuse by checks 1 to 3. -/
theorem test_decode_refuses :
    decode { cmd := 0x00010005#32, data := 0#64 } = .error .reservedBits ∧
    decode { cmd := 0x00000009#32, data := 0#64 } = .error .badOpcode ∧
    decode { cmd := 0x00000105#32, data := 0#64 } = .error .strayReg := by decide
/-- R104 through the numbering of spec/opcode_table.json. -/
theorem test_table_word : decodeTableWord 32 0x2D07 = some (.wreg (.assigned .status) 0#64) := by decide
/-- The encoder gives the words of R104. -/
theorem test_encode : (encode (.rreg (.assigned .phase))).cmd = 0x00002008#32 ∧
    (encode (.wreg (.assigned .targetFreq) 7#64)) = { cmd := 0x00000107#32, data := 7#64 } := by decide
/-- R82: byte 0 of a word is its bits 7:0. -/
theorem test_word_bytes : wordBytes 0x0807060504030201#64 = [1#8, 2#8, 3#8, 4#8, 5#8, 6#8, 7#8, 8#8] := by decide
/-- R82, in the order of the words that log entry 9 takes. -/
theorem test_response_bytes :
    ((responseBytes { rdata := 0x11#64, out := 0x22#64, aux := 0x33#64 })[0]?,
      (responseBytes { rdata := 0x11#64, out := 0x22#64, aux := 0x33#64 })[8]?,
      (responseBytes { rdata := 0x11#64, out := 0x22#64, aux := 0x33#64 })[16]?)
      = (some 0x11#8, some 0x22#8, some 0x33#8) := by decide
/-- Every register of the map decodes from its number (10_state.md). -/
theorem test_every_register_number : ∀ r ∈ allRegs, regOfNumber r.number = some r := by decide

/-! ### The assembler -/

/-- R124's example, and its listing. -/
theorem test_assemble_wreg : (assembleLine "wreg TARGET_FREQ, 440".toList).map (fun l => listing l.command)
    = some "00000107 407B800000000000".toList := by decide +kernel
/-- R126, R123, R205: a prefix, a pseudo-instruction and a run-mode name. -/
theorem test_assemble_forms :
    assembleLine "lfo: osc ; sample".toList
      = some { target := some "lfo".toList, command := { cmd := 5#32, data := 0#64 } } ∧
    assembleLine "clrstatus".toList
      = some { target := none, command := { cmd := 0x2D07#32, data := 7#64 } } ∧
    assembleLine "wreg RUN_MODE, shot".toList
      = some { target := none, command := { cmd := 0x0907#32, data := 1#64 } } := by decide +kernel
/-- R126: a prefixed line reaches the instance it names, and a line without a prefix the program's one instance. -/
theorem test_runLine :
    runLine "lfo: start".toList [("wt".toList, State.reset), ("lfo".toList, State.powerOn .lfo)]
      = some [("wt".toList, State.reset), ("lfo".toList, { State.powerOn .lfo with noteOn := true })] ∧
    runLine "start".toList [("lfo".toList, State.powerOn .lfo)]
      = some [("lfo".toList, { State.powerOn .lfo with noteOn := true })] := by decide +kernel
/-- R122, R125, R127. -/
theorem test_assemble_refuses :
    assembleLine "wreg NO_SUCH, 1".toList = none ∧ assembleLine "wreg TARGET_FREQ, 1e400".toList = none ∧
    disassemble { cmd := 9#32, data := 0#64 } = ".illegal 0x00000009".toList := by decide +kernel

/-! ### Math utilities -/

/-- R140's examples. -/
theorem test_wrap01 : wrap01 0x3FF4000000000000#64 = 0x3FD0000000000000#64 ∧
    wrap01 0xBFD0000000000000#64 = 0x3FE8000000000000#64 ∧ wrap01 0xBBC79CA10C924223#64 = 0#64 := by decide +kernel
/-- R142's examples: one octave, and one semitone. -/
theorem test_pitch : pitchShiftMultiplier 0x4028000000000000#64 = 0x4000000000000000#64 ∧
    pitchShiftMultiplier 0x3FF0000000000000#64 = 0x3FF0F38F92D97963#64 := by decide +kernel
/-- R143: parSine(0.25) = 0.7078125; R305: x = 0.1 gives 0.5881599999999997. -/
theorem test_parSine : parSine 0x3FD0000000000000#64 = 0x3FE6A66666666666#64 ∧
    sineShape 0x3FB999999999999A#64 = 0x3FE2D234EB9A176B#64 := by decide +kernel
/-- R145's examples at 0.5, 0.9 and 0.99. -/
theorem test_concave : concave 0x3FE0000000000000#64 = 0x3FC00E101884E5AA#64 ∧
    concave 0x3FECCCCCCCCCCCCD#64 = 0x3FDAAAAAAAAAAAAB#64 ∧
    concave 0x3FEFAE147AE147AE#64 = 0x3FEAAAAAAAAAAAA9#64 := by decide +kernel
/-- R147's example. -/
theorem test_xorshift : xorshift32 0xACE1ACE1#32 = 0xB6C5CBBF#32 ∧
    noiseValue 0xB6C5CBBF#32 = 0x3FDB62E5DF800000#64 := by decide +kernel
/-- R148's example. -/
theorem test_lfsr : lfsrNext 0xACE1ACE1#32 = 0x5670D670#32 ∧
    noiseValue 0x5670D670#32 = 0xBFD4C794C8000000#64 := by decide +kernel
/-- R149's three worked examples. -/
theorem test_normalizePhase :
    normalizePhase (fAdd 0x3FE8000000000000#64 0x3FD0000000000000#64) = (0#64, true) ∧
    normalizePhase (fAdd 0#64 0xBFD0000000000000#64) = (0x3FE8000000000000#64, true) ∧
    normalizePhase (fAdd 0x3FD0000000000000#64 0xBFD0000000000000#64) = (0#64, false) := by decide +kernel
/-- R232 at 44100, R237's examples at 80.0, 80.00000000000001 and 5000. -/
theorem test_tables :
    (List.range 9).map (harmonics 0x40E5888000000000#64) = [275, 137, 68, 34, 17, 8, 4, 2, 1] ∧
    selectTable 0x4054000000000000#64 = 0 ∧ selectTable 0x4054000000000001#64 = 1 ∧
    selectTable 0x40B3880000000000#64 = 6 := by decide +kernel
/-- R233: SINE[1] and SINE[128]. -/
theorem test_sine_entries : sineEntry 1 = 0x3F7921F0FE670071#64 ∧ sineEntry 128 = 0x3FE6A09E667F3BCD#64 := by
  decide +kernel
/-- R234's example SAW_8 = -SINE at 44100, and TRI_8 at its zero. -/
theorem test_saw_entries : sawEntry 0x40E5888000000000#64 8 256 = 0xBFF0000000000000#64 ∧
    sawEntry 0x40E5888000000000#64 8 512 = 0#64 ∧ triEntry 0x40E5888000000000#64 8 256 = 0#64 := by decide +kernel
/-- R311's examples at EFF_FREQ 17640 (2.5 rounds up) and 0. -/
theorem test_holdCount : holdCount 0x40E5888000000000#64 0x40D13A0000000000#64 = 3 ∧
    holdCount 0x40E5888000000000#64 0#64 = 2147483647 := by decide +kernel

/-! ### Instructions -/

/-- The state after an instruction. -/
def after (i : Instr) (s : State) : State :=
  match exec i s with
  | .next t => t
  | .fault _ => s
  | .refused _ => s

/-- The power-on state of a kind with the gate open, a waveform, a run mode and a phase. -/
def running (k : Kind) (w : Waveform) (m : RunMode) (p : F64) : State :=
  { State.powerOn k with noteOn := true, waveform := w, runMode := m, phase := p }

/-- R200: NOP changes nothing but the response. -/
theorem test_nop : after .nop { State.reset with rdata := 9#64 } = State.reset := by decide +kernel

/-- R150's worked example. -/
theorem test_reset :
    let t := after .reset { State.powerOn .lfo with
      phase := 0x3FE3333333333333#64, modPhase := 0x3FD3333333333333#64, shCounter := 17#32, seed := 77#32 }
    t.phase = 0#64 ∧ t.modPhase = 0#64 ∧ t.shCounter.toInt = -1 ∧ t.noiseState = 77#32 ∧ t.pnReg = 77#32 := by
  decide +kernel

/-- R160's worked example: one octave up. -/
theorem test_update_octave :
    let t := after .update { State.reset with octave := 1#32 }
    t.effFreq = 0x408B800000000000#64 ∧ t.increment = 0x3F946EFDCB4A6B82#64 ∧ t.tableIndex = 4#32 := by
  decide +kernel

/-- R161's and R163's examples: CENT = 100, and MOD_PW = 0.25. -/
theorem test_update_cent :
    let t := after .update { State.reset with cent := 100#32, modPw := 0x3FD0000000000000#64 }
    t.effFreq = 0x407D229EC465C8A2#64 ∧ t.effPw = 0x4052800000000000#64 := by decide +kernel

/-- R155's worked example. -/
theorem test_start :
    let t := after .start { State.reset with waveform := .triangle, phase := 0x3FD3333333333333#64 }
    t.phase = 0x3FE0000000000000#64 ∧ t.noteOn = true := by decide +kernel

/-- R301's worked example: a free-running LFO keeps its phase. -/
theorem test_start_free :
    let t := after .start { State.powerOn .lfo with runMode := .free, phase := 0x3FE3333333333333#64 }
    t.phase = 0x3FE3333333333333#64 ∧ t.noteOn = true := by decide +kernel

/-- R302's example. -/
theorem test_stop :
    let t := after .stop (running .lfo .sawUp .free 0x3FD8000000000000#64)
    t.phase = 0x3FD8000000000000#64 ∧ t.noteOn = false := by decide +kernel

/-- R244's example (PHASE = 0.25 reads SINE[256]), and the second QBL saw sample of R273. -/
theorem test_osc_pitched :
    (after .osc (running .wt .sine .sync 0x3FD0000000000000#64)).out = 0x3FF0000000000000#64 ∧
    (let t := after .osc { running .qbl .sawUp .sync 0x3FE0B9C27795302E#64 with
        increment := 0x3F97384EF2A605CE#64 }
     t.out = 0x3F97C23A357502DB#64 ∧ t.dpwPrev = 0x3F60D95491E2B371#64) := by decide +kernel

/-- R315: the last OSC of a shot saw-up cycle, and R314: the completion after it. -/
theorem test_osc_shot :
    let s := { running .lfo .sawUp .shot 0x3FE8000000000000#64 with increment := 0x3FD0000000000000#64 }
    let t := after .osc s
    t.out = 0x3FE8000000000000#64 ∧ t.aux = 0#64 ∧ t.phase = 0#64 ∧ t.wrapPending = true ∧
    (after .osc t).noteOn = false ∧ (after .osc t).out = 0#64 := by decide +kernel

/-- R170's worked example: 48000 Hz. -/
theorem test_setsr :
    let t := after (.setsr 0x40E7700000000000#64) State.reset
    t.sampleRate = 0x40E7700000000000#64 ∧ harmonics t.bankRate 0 = 299 ∧
    t.increment = 0x3F846EFDCB4A6B82#64 ∧ t.status = 8#4 := by decide +kernel

/-- R170: -0.0 is below SR_MIN. -/
theorem test_setsr_refuses :
    after (.setsr 0x8000000000000000#64) State.reset = { State.reset with status := 2#4 } := by decide +kernel

/-- R203's example. -/
theorem test_wreg_octave :
    (after (.wreg (.assigned .octave) 0x00000000FFFFFFFF#64) State.reset).octave.toInt = -1 := by decide +kernel

/-- R351's and R208's examples: NaN to TARGET_FREQ, then `wreg PHASE`. -/
theorem test_wreg_refuses :
    let t := after (.wreg (.assigned .targetFreq) 0x7FF8000000000000#64) State.reset
    t = { State.reset with status := 2#4 } ∧
    after (.wreg (.assigned .phase) 0x3FD0000000000000#64) t = { State.reset with status := 3#4 } := by
  decide +kernel

/-- R210: `rreg INCREMENT`, and SH_COUNTER at the sentinel. -/
theorem test_rreg :
    (after (.rreg (.assigned .increment)) State.reset).rdata = 0x3F846EFDCB4A6B82#64 ∧
    (after (.rreg (.assigned .shCounter)) State.reset).rdata = 0xFFFFFFFFFFFFFFFF#64 := by decide +kernel

/-! ### Witnesses: each shows values that meet all the hypotheses of a statement together, and one for each
clause at the ends of its range -/

theorem witness_DecodeFollowsFieldChecks :
    (0x00010000#32).toNat / 65536 ≠ 0 ∧
    ((0x0000FF09#32).toNat / 65536 = 0 ∧ 8 < (0x0000FF09#32).toNat % 256) ∧
    ((0x00000106#32).toNat / 65536 = 0 ∧ (0x00000106#32).toNat % 256 < 7 ∧ (0x00000106#32).toNat / 256 % 256 ≠ 0) ∧
    ((0x0000FF07#32).toNat / 65536 = 0 ∧ (0x0000FF07#32).toNat % 256 ≤ 8 ∧ 7 ≤ (0x0000FF07#32).toNat % 256) ∧
    ((0x00000006#32).toNat / 65536 = 0 ∧ (0x00000006#32).toNat / 256 % 256 = 0) ∧
    decode { cmd := 9#32, data := 0#64 } = .error .badOpcode ∧
    { State.reset with port := [{ cmd := 9#32, data := 0#64 }] }.port
      = { cmd := 9#32, data := 0#64 } :: ([] : List Command) := by decide +kernel

theorem witness_DecodeEncodeRoundTrip : (Instr.wreg (.unassigned 0x31#8) 5#64).wellFormed = true := by decide

theorem witness_DecodedCommandReencodes :
    decode { cmd := 6#32, data := 3#64 } = .ok (.setsr 3#64) ∧ (6#32).toNat % 256 = 6 ∧
    decode { cmd := 0xFF07#32, data := 3#64 } = .ok (.wreg (.unassigned 0xFF#8) 3#64) := by decide

theorem witness_OperandWordIsIgnoredOrTaken :
    ((8#32).toNat % 256 ≠ 6 ∧ (8#32).toNat % 256 ≠ 7) ∧ (6#32).toNat = 6 ∧
    ((0xFF07#32).toNat / 65536 = 0 ∧ (0xFF07#32).toNat % 256 = 7) := by decide

theorem witness_ByteLinkCarriesCommands : (0 : Nat) < 8 ∧ (7 : Nat) < 8 := by decide

theorem witness_TableWordsReachTheDecoder :
    decode { cmd := 8#32, data := 0#64 } = .ok (.rreg (.assigned .sampleRate)) ∧
    decode { cmd := 9#32, data := 0#64 } = .error .badOpcode := by decide

theorem witness_AssemblerReadsDisassembly : (Instr.rreg (.unassigned 0xFF#8)).wellFormed = true := by decide

theorem witness_StepRunsDecodedCommand :
    { State.reset with port := [{ cmd := 5#32, data := 0#64 }] }.port
      = { cmd := 5#32, data := 0#64 } :: ([] : List Command) ∧
    decode { cmd := 5#32, data := 0#64 } = .ok .osc := by decide +kernel

theorem witness_StepWaitsForACommand : State.reset.port = [] := by decide

theorem witness_OtherInstancesUntouched :
    ['l'] ≠ ['w'] ∧ instanceState ['w'] [(['l'], State.powerOn .lfo), (['w'], State.reset)] = some State.reset := by
  decide +kernel

theorem witness_NopOnlyResponds :
    (0x0000FF00#32).toNat % 256 = 0 ∧ (0x0000FF00#32) ≠ 0#32 ∧
    { State.reset with port := [{ cmd := 0x0000FF00#32, data := 0#64 }] }.port
      = { cmd := 0x0000FF00#32, data := 0#64 } :: ([] : List Command) := by decide +kernel

theorem witness_UnassignedNumbersAreRefused :
    ∀ n ∈ [0x0B#8, 0x0F#8, 0x16#8, 0x1F#8, 0x31#8, 0xFF#8],
      (0x0B ≤ n.toNat ∧ n.toNat ≤ 0x0F) ∨ (0x16 ≤ n.toNat ∧ n.toNat ≤ 0x1F) ∨ 0x31 ≤ n.toNat := by decide

theorem witness_WregRefusesNumbersItCannotWrite :
    ∀ n ∈ [0x00#8, 0x0B#8, 0x0F#8, 0x16#8, 0x2C#8, 0x2E#8, 0xFF#8],
      ¬ ((0x01 ≤ n.toNat ∧ n.toNat ≤ 0x0A) ∨ (0x10 ≤ n.toNat ∧ n.toNat ≤ 0x15) ∨ n.toNat = 0x2D) := by decide

theorem witness_WregBinary64Registers :
    (0xFFEFFFFFFFFFFFFF#64).toNat / 2 ^ 52 % 2 ^ 11 ≠ 0x7FF ∧
    (0x7FF0000000000000#64).toNat / 2 ^ 52 % 2 ^ 11 = 0x7FF ∧
    (0xFFFFFFFFFFFFFFFF#64).toNat / 2 ^ 52 % 2 ^ 11 = 0x7FF := by decide

theorem witness_WregWaveformByKind :
    ((State.powerOn .wt).kind = .wt ∧ (5#64).toNat ≤ 5) ∧
    ((State.powerOn .qbl).kind = .qbl ∧ 1 ≤ (3#64).toNat ∧ (3#64).toNat ≤ 3) ∧
    ((State.powerOn .lfo).kind = .lfo ∧ (8#64).toNat ≤ 8 ∧ (8#64).toNat ≠ 5) ∧
    ¬ (((State.powerOn .lfo).kind = .wt ∧ (5#64).toNat ≤ 5) ∨
      ((State.powerOn .lfo).kind = .qbl ∧ 1 ≤ (5#64).toNat ∧ (5#64).toNat ≤ 3) ∨
      ((State.powerOn .lfo).kind = .lfo ∧ (5#64).toNat ≤ 8 ∧ (5#64).toNat ≠ 5)) := by decide

theorem witness_WregRunMode : (2#64).toNat ≤ 2 ∧ 2 < (3#64).toNat := by decide

theorem witness_WregSeed :
    (1#64).toNat % 2 ^ 32 ≠ 0 ∧ (0x0000000100000000#64).toNat % 2 ^ 32 = 0 ∧ State.reset.kind ≠ .lfo := by decide

theorem witness_WregStatusWritesOneToClear : (0 : Nat) < 3 ∧ (2 : Nat) < 3 := by decide

theorem witness_ErrorBitsComeFromRefusals :
    ∃ t, exec (.rreg (.unassigned 0x31#8)) State.reset = .next t ∧ t.status.getLsbD 0 = true := ⟨_, rfl, by decide⟩

theorem witness_StatusBitsAreSticky :
    ∃ t, exec .stop { State.reset with status := 0xF#4 } = .next t ∧
      (∀ d, Instr.stop ≠ .wreg (.assigned .status) d) ∧ (∀ r, Instr.stop ≠ .setsr r) ∧ Instr.stop ≠ .update ∧
      t.status.getLsbD 2 = true ∧ t.status.getLsbD 3 = true :=
  ⟨_, rfl, fun _ => by simp, fun _ => by simp, by simp, by decide, by decide⟩

theorem witness_ResetInstallsCore :
    (running .wt .whiteNoise .sync 0#64).WaveformOk ∧ (running .wt .triangle .sync 0#64).WaveformOk ∧
    (running .qbl .triangle .sync 0#64).WaveformOk ∧ (running .lfo .expo .sync 0#64).WaveformOk := by decide

theorem witness_StartOpensTheGate :
    ((running .lfo .sine .free 0#64).kind = .lfo ∧ (running .lfo .sine .free 0#64).runMode = .free) ∧
    (running .lfo .sine .shot 0#64).runMode ≠ .free ∧ (running .wt .sine .free 0#64).kind ≠ .lfo := by decide

theorem witness_FreeRunIsContinuous :
    ∃ t u, (running .lfo .sine .free 0x3FD8000000000000#64).kind = .lfo ∧
      (running .lfo .sine .free 0x3FD8000000000000#64).runMode = .free ∧
      exec .stop (running .lfo .sine .free 0x3FD8000000000000#64) = .next t ∧ exec .start t = .next u :=
  ⟨_, _, rfl, rfl, rfl, rfl⟩

theorem witness_UpdateResultsAreInRange :
    ∃ t, State.reset.RateOk ∧ fIsFinite State.reset.pwTarget = true ∧ fIsFinite State.reset.modPw = true ∧
      exec .update State.reset = .next t ∧ t.kind = .wt :=
  ⟨_, by decide +kernel, by decide +kernel, by decide +kernel, rfl, by decide⟩

theorem witness_IncrementIsTheQuotient :
    ∃ t, exec .stop State.reset = .next t ∧ (∀ r, Instr.stop ≠ .setsr r) ∧
      State.reset.increment = fDiv State.reset.effFreq State.reset.sampleRate :=
  ⟨_, rfl, fun _ => by simp, by decide +kernel⟩

theorem witness_OnlyUpdateAndSetsrWriteTheirRegisters :
    ∃ t, exec .reset State.reset = .next t ∧ Instr.reset ≠ .update ∧ (∀ r, Instr.reset ≠ .setsr r) :=
  ⟨_, rfl, by simp, fun _ => by simp⟩

theorem witness_SetsrTakesLegalRates :
    (0x3FF0000000000000 ≤ (0x3FF0000000000000#64).toNat ∧ (0x4170000000000000#64).toNat ≤ 0x4170000000000000) ∧
    ¬ (0x3FF0000000000000 ≤ (0x3FEFFFFFFFFFFFFF#64).toNat ∧ (0x3FEFFFFFFFFFFFFF#64).toNat ≤ 0x4170000000000000) ∧
    ¬ (0x3FF0000000000000 ≤ (0x4170000000000001#64).toNat ∧ (0x4170000000000001#64).toNat ≤ 0x4170000000000000) := by
  decide

theorem witness_Wrap01LandsInTheUnitInterval :
    fIsFinite 0xFFEFFFFFFFFFFFFF#64 = true ∧ UnitPhase 0x3FEFFFFFFFFFFFFF#64 ∧ UnitPhase 0#64 := by decide +kernel

theorem witness_Exp2AtIntegersAndEnds :
    ((-1074 : Int) ≤ -1074 ∧ (1023 : Int) ≤ 1023) ∧
    (fIsNaN 0x4090000000000000#64 = false ∧ 1024 * (unitsPerOne : Int) ≤ fInt 0x4090000000000000#64) ∧
    (fIsNaN 0xC090CC0000000000#64 = false ∧ fInt 0xC090CC0000000000#64 ≤ -1075 * (unitsPerOne : Int)) := by
  decide +kernel

theorem witness_Exp2SeriesApproximatesThePower : (0 : Nat) < 2 ^ 1074 ∧ 2 ^ 1074 - 1 < 2 ^ 1074 ∧
    (fIsFinite 0x408FFFFFFFFFFFFF#64 = true ∧ fInt 0x408FFFFFFFFFFFFF#64 < 1024 * 2 ^ 1074) ∧
    (fIsFinite 1#64 = true ∧ 0 < fInt 1#64) ∧ (fIsFinite 0x7FEFFFFFFFFFFFFF#64 = true ∧
      0 < fInt 0x7FEFFFFFFFFFFFFF#64) := by
  decide +kernel

theorem witness_ParSineIsOdd :
    WithinMagnitude fOne 0xBFF0000000000000#64 ∧ WithinMagnitude fOne 0x3FE8000000000000#64 := by decide +kernel

theorem witness_NoiseStepsKeepStatesNonzero : ((1#32) ≠ 0#32 ∧ (0xFFFFFFFF#32) ≠ 0#32) ∧ (0 : Nat) < 31 ∧ (30 : Nat) < 31 := by
  decide

theorem witness_NoiseValueIsExact : (1#32) ≠ 0#32 := by decide

theorem witness_BandCeilingsAreOctaves : (0 : Nat) < 9 ∧ (8 : Nat) < 9 := by decide

/-- The last clause at a rate of 160 Hz: 2·S_0 = 160 is not below the rate. -/
theorem witness_HarmonicCountIsTheLargest :
    (8 : Nat) < 9 ∧ (1 : Nat) ≤ 1 ∧ 2 * fMag (bandCeiling 0) ≥ fMag 0x4064000000000000#64 ∧
    fIsFinite 0x4064000000000000#64 = true ∧ fMag 0x4064000000000000#64 ≤ 160 * unitsPerOne := by decide +kernel

theorem witness_SelectTableIsTheSmallest : 7 < selectTable Config.foMax ∧
    (∃ t, exec .update State.reset = .next t ∧ State.reset.kind = .wt) ∧
    ∃ t, exec .stop State.reset = .next t ∧ Instr.stop ≠ .update :=
  ⟨by decide +kernel, ⟨_, rfl, rfl⟩, _, rfl, by simp⟩

theorem witness_SelectionIsMonotoneAndSafe :
    fLe (fAbs 0x4054000000000000#64) (fAbs 0xC0D4000000000000#64) = true ∧
    fLe (fAbs 0xC0D4000000000000#64) Config.foMax = true ∧ 2 * fMag Config.foMax < fMag 0x40E5888000000000#64 := by
  decide +kernel

theorem witness_SineTableIsNearest : (1023 : Nat) < 1024 ∧ fIsFinite 0x3FE0000000000000#64 = true := by decide +kernel

theorem witness_TableEntriesAreBounded : ((0 : Nat) < 1024 ∧ (1023 : Nat) < 1024) ∧
    (0x3FF0000000000000 ≤ (0x3FF0000000000000#64).toNat ∧ (0x4170000000000000#64).toNat ≤ 0x4170000000000000 ∧
      (8 : Nat) < 9) ∧ 2 ^ 17 ≤ 2 ^ 17 := by decide

theorem witness_SilentOscOnlyMutes : State.reset.noteOn = false := by decide

theorem witness_WtOscRenders :
    (running .wt .whiteNoise .sync 0#64).kind = .wt ∧ (running .wt .whiteNoise .sync 0#64).noteOn = true ∧
    (running .wt .whiteNoise .sync 0#64).WaveformOk := by decide

/-- The clause of the same statement about the read index, at the ends of the phase and of MOD_PHASE. -/
theorem witness_WtOscRenders_index :
    ((running .wt .sine .sync 0x3FEFFFFFFFFFFFFF#64).PhaseOk ∧
      fIsFinite (running .wt .sine .sync 0x3FEFFFFFFFFFFFFF#64).modPhase = true) ∧
    ({ State.reset with phase := 0#64, modPhase := 0xFFEFFFFFFFFFFFFF#64 }.PhaseOk ∧
      fIsFinite { State.reset with phase := 0#64, modPhase := 0xFFEFFFFFFFFFFFFF#64 }.modPhase = true) := by
  decide +kernel

/-- The clauses of the same statement about the scaling: a product that is a number, and ∞ × 0. -/
theorem witness_WtOscRenders_scaling :
    fIsNaN (fMul (fMul fOne State.reset.amplitude) State.reset.modAmp) = false ∧
    fIsNaN (fMul (fMul 0x7FE0000000000000#64 fFour) 0#64) = true := by decide +kernel

theorem witness_QblOscRenders :
    (running .qbl .triangle .sync 0#64).kind = .qbl ∧ (running .qbl .triangle .sync 0#64).noteOn = true ∧
    (running .qbl .triangle .sync 0#64).WaveformOk := by decide

theorem witness_LfoOscRendersShapes :
    (running .lfo .expo .shot 0#64).kind = .lfo ∧ (running .lfo .expo .shot 0#64).noteOn = true ∧
    (running .lfo .expo .shot 0#64).WaveformOk ∧ (running .lfo .expo .shot 0#64).waveform ≠ .heldNoise ∧
    (running .lfo .expo .shot 0#64).waveform ≠ .heldPn ∧ (running .lfo .expo .shot 0#64).wrapPending = false := by
  decide

/-- The clauses of the same statement about `concave`. -/
theorem witness_LfoOscRendersShapes_concave :
    UnitPhase 0#64 ∧ UnitPhase 0x3FEFFFFFFFFFFFFF#64 ∧
    fInt (fSub fOne 0x3FEFFFFFFFFFFFFF#64) ^ 5 * 10 ^ 12 ≤ (2 ^ 1074) ^ 5 := by decide +kernel

theorem witness_LfoOscHoldsNoise :
    (running .lfo .heldPn .free 0#64).kind = .lfo ∧ (running .lfo .heldPn .free 0#64).noteOn = true ∧
    (running .lfo .heldPn .free 0#64).waveform = .heldPn ∧ (running .lfo .heldPn .free 0#64).runMode ≠ .shot := by
  decide

theorem witness_OneShotCompletes :
    { running .lfo .sawUp .shot 0#64 with wrapPending := true }.kind = .lfo ∧
    { running .lfo .sawUp .shot 0#64 with wrapPending := true }.noteOn = true ∧
    { running .lfo .sawUp .shot 0#64 with wrapPending := true }.runMode = .shot ∧
    { running .lfo .sawUp .shot 0#64 with wrapPending := true }.wrapPending = true := by decide

theorem witness_QuadratureLeadsByAQuarter :
    ∃ t t', (running .lfo .sawUp .sync 0#64).kind = .lfo ∧ (running .lfo .sawUp .sync 0#64).noteOn = true ∧
      (running .lfo .sawUp .sync 0#64).WaveformOk ∧ (running .lfo .sawUp .sync 0#64).wrapPending = false ∧
      exec .osc (running .lfo .sawUp .sync 0#64) = .next t ∧
      exec .osc { running .lfo .sawUp .sync 0#64 with phase := wrap01 (fAdd 0#64 0x3FD0000000000000#64) }
        = .next t' ∧
      (running .lfo .sawUp .sync 0#64).waveform ≠ .heldNoise ∧ (running .lfo .sawUp .sync 0#64).waveform ≠ .heldPn :=
  ⟨_, _, rfl, rfl, by decide, rfl, rfl, rfl, by decide, by decide⟩

/-- The second clause of the same statement. -/
theorem witness_QuadratureLeadsByAQuarter_held :
    ∃ t t', (running .lfo .heldNoise .free 0#64).WaveformOk ∧
      (running .lfo .heldNoise .free 0#64).wrapPending = false ∧
      exec .osc (running .lfo .heldNoise .free 0#64) = .next t ∧
      exec .osc { running .lfo .heldNoise .free 0#64 with phase := wrap01 (fAdd 0#64 0x3FD0000000000000#64) }
        = .next t' ∧ (running .lfo .heldNoise .free 0#64).waveform = .heldNoise :=
  ⟨_, _, by decide, rfl, rfl, rfl, rfl⟩

/-- A quotient below 1/2, one above 2^31 - 1, and one that is +∞. -/
theorem witness_HoldCountIsInRange :
    (fIsFinite (fDiv fOne (fAbs Config.foMax)) = true ∧ 0 ≤ fInt (fDiv fOne (fAbs Config.foMax))) ∧
    (fIsFinite (fDiv fOne (fAbs 0x3E00000000000000#64)) = true ∧
      0 ≤ fInt (fDiv fOne (fAbs 0x3E00000000000000#64))) ∧
    fDiv fOne (fAbs 0#64) = 0x7FF0000000000000#64 := by decide +kernel

theorem witness_LfoTriangleIsBounded : UnitPhase 0#64 ∧ UnitPhase 0x3FEFFFFFFFFFFFFF#64 := by decide

theorem witness_QblTriangleIsBounded :
    (running .qbl .triangle .sync 0x3FE0000000000000#64).PhaseOk ∧
    WithinMagnitude Config.foMax (running .qbl .triangle .sync 0x3FE0000000000000#64).increment ∧
    fIsFinite (running .qbl .triangle .sync 0x3FE0000000000000#64).modPhase = true ∧
    fIsFinite (running .qbl .triangle .sync 0x3FE0000000000000#64).dpwPrev = true ∧
    (running .qbl .triangle .sync 0x3FE0000000000000#64).waveform = .triangle := by decide +kernel

/-- The power-on state of a kind with one OSC presented. -/
def oneOsc (k : Kind) : State := { State.powerOn k with port := [{ cmd := 5#32, data := 0#64 }] }

theorem witness_PhaseStaysInUnitInterval :
    ∃ t, (oneOsc .lfo).PhaseOk ∧ fIsFinite (oneOsc .lfo).increment = true ∧ step (oneOsc .lfo) = .next t :=
  ⟨_, by decide +kernel, by decide +kernel, rfl⟩

theorem witness_RangesInvariantIsKept : ∃ t, (oneOsc .wt).RangesOk ∧ step (oneOsc .wt) = .next t :=
  ⟨_, by decide +kernel, rfl⟩

theorem witness_SelectorsInvariantIsKept : ∃ t, (oneOsc .qbl).SelectorsOk ∧ step (oneOsc .qbl) = .next t :=
  ⟨_, by decide +kernel, rfl⟩

end Sys2Proof.Tests
end

section
/-! The register numbers no register has (spec 10_state.md R65), and what an access to one does. -/

namespace Sys2Proof.Machine

open Sys2Proof

theorem unassignedNumber_iff {n : BitVec 8} :
    unassignedNumber n = true ↔
      (0x0B ≤ n.toNat ∧ n.toNat ≤ 0x0F) ∨ (0x16 ≤ n.toNat ∧ n.toNat ≤ 0x1F) ∨ 0x31 ≤ n.toNat := by
  simp [unassignedNumber, or_assoc]

/-- The register map has no row for exactly the numbers R65 lists as unassigned: each row of the map stands
outside the three ranges, and a number outside them has a row. -/
theorem regOfNumber_eq_none_iff {n : BitVec 8} : regOfNumber n = none ↔ unassignedNumber n = true := by
  rw [unassignedNumber_iff]
  unfold regOfNumber
  split
  -- `h_35` is the map's last branch: the number is that of no row.
  case h_35 => simp only [imp_false, true_iff] at *; omega
  all_goals simp only [reduceCtorEq, false_iff]; omega

theorem selOfNumber_of_unassignedNumber {n : BitVec 8} (h : unassignedNumber n = true) :
    selOfNumber n = .unassigned n := by
  simp [selOfNumber, regOfNumber_eq_none_iff.mpr h]

/-- A BADCMD refusal, field by field (R351). -/
theorem refuse_badCmd (s : State) :
    refuse .badCmd s = .next { s with status := s.status ||| 1#4, rdata := 0#64 } := rfl

/-- Check 4 of R352. -/
theorem exec_wreg_unassigned (n : BitVec 8) (d : Word) (s : State) :
    exec (.wreg (.unassigned n) d) s = refuse .badCmd s := rfl

/-- Check 5 of R352. -/
theorem exec_rreg_unassigned (n : BitVec 8) (s : State) :
    exec (.rreg (.unassigned n)) s = refuse .badCmd s := rfl

/-- Settles O15: a number in one of R65's ranges has no row in the register map, so its selector is the raw one,
which WREG and RREG refuse. -/
theorem unassignedNumbersAreRefused : Obligations.UnassignedNumbersAreRefused := by
  intro n d s hn
  have hsel : selOfNumber n = .unassigned n := selOfNumber_of_unassignedNumber (unassignedNumber_iff.mpr hn)
  rw [hsel, exec_wreg_unassigned, exec_rreg_unassigned, refuse_badCmd]
  exact ⟨rfl, rfl⟩

end Sys2Proof.Machine
end

section
/-! The decoder by the fields of a command word (spec 30_encoding.md R100, R104, R105), and what a step does with an
Illegal word (60_exceptions.md R352). -/

namespace Sys2Proof.Machine

open Sys2Proof

/-! ### The fields as numbers -/

theorem toNat_cmdOp (c : BitVec 32) : (cmdOp c).toNat = c.toNat % 256 := by
  simp [cmdOp, BitVec.extractLsb'_toNat]

theorem toNat_cmdReg (c : BitVec 32) : (cmdReg c).toNat = c.toNat / 256 % 256 := by
  simp [cmdReg, BitVec.extractLsb'_toNat, Nat.shiftRight_eq_div_pow]

theorem toNat_cmdRsv (c : BitVec 32) : (cmdRsv c).toNat = c.toNat / 65536 := by
  have hlt : c.toNat < 2 ^ 32 := c.isLt
  rw [cmdRsv, BitVec.extractLsb'_toNat, Nat.shiftRight_eq_div_pow]
  exact Nat.mod_eq_of_lt (by omega)

theorem cmdReg_eq_zero_iff {c : BitVec 32} : cmdReg c = 0#8 ↔ c.toNat / 256 % 256 = 0 := by
  rw [← toNat_cmdReg, BitVec.toNat_eq, BitVec.toNat_zero]

theorem cmdRsv_eq_zero_iff {c : BitVec 32} : cmdRsv c = 0#16 ↔ c.toNat / 65536 = 0 := by
  rw [← toNat_cmdRsv, BitVec.toNat_eq, BitVec.toNat_zero]

/-- The three fields make up the whole word. -/
theorem cmdRsv_append_cmdReg_append_cmdOp (c : BitVec 32) : cmdRsv c ++ cmdReg c ++ cmdOp c = c := by
  have hhigh : cmdRsv c ++ cmdReg c = c.extractLsb' 8 24 := BitVec.extractLsb'_append_extractLsb'_eq_extractLsb' rfl
  have hall : c.extractLsb' 8 24 ++ cmdOp c = c.extractLsb' 0 32 :=
    BitVec.extractLsb'_append_extractLsb'_eq_extractLsb' rfl
  rw [hhigh, hall, BitVec.extractLsb'_eq_self]

theorem cmdWord_cmdOp_cmdReg {c : BitVec 32} (hrsv : cmdRsv c = 0#16) : cmdWord (cmdOp c) (cmdReg c) = c := by
  rw [cmdWord, ← hrsv, cmdRsv_append_cmdReg_append_cmdOp]

/-! ### Selectors -/

/-- A number with a row in the register map is that row's. -/
theorem number_of_regOfNumber {n : BitVec 8} {r : Reg} (h : regOfNumber n = some r) : r.number = n := by
  unfold regOfNumber at h
  split at h
  -- `h_35` is the map's last branch: the number is that of no row.
  case h_35 => cases h
  all_goals next hn => cases h; exact (BitVec.eq_of_toNat_eq hn).symm

theorem regOfNumber_number (r : Reg) : regOfNumber r.number = some r := by cases r <;> rfl

theorem selOfNumber_number (r : Reg) : selOfNumber r.number = .assigned r := by
  rw [selOfNumber, regOfNumber_number]

theorem selNumber_selOfNumber (n : BitVec 8) : selNumber (selOfNumber n) = n := by
  unfold selOfNumber
  split
  next r h => exact number_of_regOfNumber h
  next => rfl

/-! ### The verdict -/

theorem decode_of_cmdRsv_ne_zero {c : Command} (hrsv : cmdRsv c.cmd ≠ 0#16) : decode c = .error .reservedBits :=
  if_pos hrsv

theorem decode_of_eight_lt_cmdOp {c : Command} (hrsv : cmdRsv c.cmd = 0#16) (hop : 8 < (cmdOp c.cmd).toNat) :
    decode c = .error .badOpcode := by
  rw [decode, if_neg (not_not.mpr hrsv)]
  split
  -- `h_10` is the branch of every opcode above the table's nine.
  case h_10 => rfl
  all_goals omega

/-- An opcode below 0x07 takes no REG: its command is the one whose encoding has that opcode and REG 0, and its
verdict rests on check 3 alone. -/
theorem decode_of_cmdOp_lt_seven {c : Command} (hrsv : cmdRsv c.cmd = 0#16) (hop : (cmdOp c.cmd).toNat < 7) :
    ∃ i, decode c = plainCommand (cmdReg c.cmd) i ∧ (encode i).cmd = cmdWord (cmdOp c.cmd) 0#8 := by
  rw [decode, if_neg (not_not.mpr hrsv)]
  split
  -- `h_8`, `h_9` and `h_10` are the branches of WREG, RREG and every opcode above the table's nine.
  case h_8 | h_9 => omega
  case h_10 => simp only [imp_false] at *; omega
  all_goals next h => exact ⟨_, rfl, congrArg (cmdWord · 0#8) (BitVec.eq_of_toNat_eq h).symm⟩

theorem decode_of_cmdOp_eq_seven {c : Command} (hrsv : cmdRsv c.cmd = 0#16) (hop : cmdOp c.cmd = 7#8) :
    decode c = .ok (.wreg (selOfNumber (cmdReg c.cmd)) c.data) := by
  simp [decode, hrsv, hop]

theorem decode_of_cmdOp_eq_eight {c : Command} (hrsv : cmdRsv c.cmd = 0#16) (hop : cmdOp c.cmd = 8#8) :
    decode c = .ok (.rreg (selOfNumber (cmdReg c.cmd))) := by
  simp [decode, hrsv, hop]

theorem decode_of_strayReg {c : Command} (hrsv : cmdRsv c.cmd = 0#16) (hop : (cmdOp c.cmd).toNat < 7)
    (hreg : cmdReg c.cmd ≠ 0#8) : decode c = .error .strayReg := by
  obtain ⟨i, hi, -⟩ := decode_of_cmdOp_lt_seven hrsv hop
  rw [hi, plainCommand, if_neg hreg]

/-- A word that passes checks 1 to 3 is the CMD of the instruction it decodes to. -/
theorem exists_decode_eq_ok {c : Command} (hrsv : cmdRsv c.cmd = 0#16) (hop : (cmdOp c.cmd).toNat ≤ 8)
    (hreg : 7 ≤ (cmdOp c.cmd).toNat ∨ cmdReg c.cmd = 0#8) :
    ∃ i, decode c = .ok i ∧ (encode i).cmd = c.cmd := by
  obtain hlt | h7 | h8 : (cmdOp c.cmd).toNat < 7 ∨ cmdOp c.cmd = 7#8 ∨ cmdOp c.cmd = 8#8 := by
    bv_omega
  · have hreg : cmdReg c.cmd = 0#8 := hreg.resolve_left (by omega)
    obtain ⟨i, hi, henc⟩ := decode_of_cmdOp_lt_seven hrsv hlt
    exact ⟨i, by rw [hi, plainCommand, if_pos hreg], by rw [henc, ← hreg, cmdWord_cmdOp_cmdReg hrsv]⟩
  · refine ⟨_, decode_of_cmdOp_eq_seven hrsv h7, ?_⟩
    rw [encode, selNumber_selOfNumber, ← h7, cmdWord_cmdOp_cmdReg hrsv]
  · refine ⟨_, decode_of_cmdOp_eq_eight hrsv h8, ?_⟩
    rw [encode, selNumber_selOfNumber, ← h8, cmdWord_cmdOp_cmdReg hrsv]

/-! ### The step -/

theorem step_of_port_cons {s : State} {c : Command} {rest : List Command} (hp : s.port = c :: rest) :
    step s = carryOut exec (decode c) (s.setPort rest) := by
  simp [step, hp]

theorem step_of_decode_error {s : State} {c : Command} {rest : List Command} {e : DecodeError}
    (hp : s.port = c :: rest) (hd : decode c = .error e) : step s = refuse .badCmd (s.setPort rest) := by
  rw [step_of_port_cons hp, hd, carryOut]

/-- Settles O1: each clause is the verdict lemma of its check, the fields read as numbers, and an Illegal word is
refused with BADCMD on the state without it. -/
theorem decodeFollowsFieldChecks : Obligations.DecodeFollowsFieldChecks := by
  intro c
  simp only [ne_eq, ← cmdRsv_eq_zero_iff, ← cmdReg_eq_zero_iff, ← toNat_cmdOp]
  refine ⟨decode_of_cmdRsv_ne_zero, decode_of_eight_lt_cmdOp, decode_of_strayReg, exists_decode_eq_ok, ?_⟩
  intro e s rest hd hp
  rw [step_of_decode_error hp hd, refuse_badCmd]
  rfl

end Sys2Proof.Machine
end

section
/-! RREG of every row of the register map (spec 10_state.md, 30_encoding.md R108, 41_register_access.md R210). -/

namespace Sys2Proof.Machine

open Sys2Proof Sys2Proof.Laws

theorem decode_rregWord (n : BitVec 8) (d : Word) :
    decode { cmd := cmdWord 0x08#8 n, data := d } = .ok (.rreg (selOfNumber n)) := by
  have hrsv : cmdRsv (cmdWord 0x08#8 n) = 0#16 := cmdRsv_cmdWord _ _
  have hop : cmdOp (cmdWord 0x08#8 n) = 0x08#8 := cmdOp_cmdWord _ _
  rw [decode_of_cmdOp_eq_eight (c := { cmd := cmdWord 0x08#8 n, data := d }) hrsv hop, cmdReg_cmdWord]

/-- An RREG of an assigned register drives the register's value on RDATA and changes nothing else. -/
theorem exec_rreg_assigned (r : Reg) (s : State) :
    exec (.rreg (.assigned r)) s = .next { s with rdata := readReg r s } := rfl

/-- R108's form of a bit: the number 0 or 1. -/
theorem bitWord_eq_ofNat (b : Bool) : bitWord b = BitVec.ofNat 64 b.toNat := by cases b <;> rfl

/-- What RREG of a register answers: its number in the map and its value in the form of R108. -/
def numberedReading (s : State) (r : Reg) : BitVec 8 × Word := (r.number, readReg r s)

/-- Settles O14: the statement's table is the list of every register's number and value as `readReg` gives it, and
an RREG word of a register's number decodes to the RREG of that register. -/
theorem rregReturnsEveryRegister : Obligations.RregReturnsEveryRegister := by
  intro s d p hp
  have hmap : p ∈ allRegs.map (numberedReading s) := by
    simp only [← bitWord_eq_ofNat] at hp
    exact hp
  obtain ⟨r, -, rfl⟩ := List.mem_map.mp hmap
  refine ⟨decode_rregWord r.number d, ?_⟩
  rw [numberedReading, selOfNumber_number]
  exact exec_rreg_assigned r s

end Sys2Proof.Machine
end

section
/-! The commands of the generator base: which words are theirs (spec 30_encoding.md R104) and what RESET, START, STOP,
UPDATE and a silent OSC leave in each register (40_generator_base.md R150 to R176). -/

namespace Sys2Proof.Machine

open Sys2Proof

/-! ### The command words (R104) -/

/-- R104's rows of the generator base: CMD and the instruction it stands for beside the operand word `d`. -/
def generatorWords (d : Word) : List (BitVec 32 × Instr) :=
  [(1#32, .reset), (2#32, .update), (3#32, .start), (4#32, .stop), (5#32, .osc), (6#32, .setsr d)]

theorem decode_generatorWord {d : Word} {cmd : BitVec 32} {i : Instr} (h : (cmd, i) ∈ generatorWords d) :
    decode { cmd := cmd, data := d } = .ok i := by
  simp only [generatorWords, List.mem_cons, Prod.mk.injEq, List.not_mem_nil, or_false] at h
  obtain ⟨rfl, rfl⟩ | ⟨rfl, rfl⟩ | ⟨rfl, rfl⟩ | ⟨rfl, rfl⟩ | ⟨rfl, rfl⟩ | ⟨rfl, rfl⟩ := h <;>
    simp [decode, plainCommand, cmdRsv, cmdOp, cmdReg]

/-! ### RESET, START and STOP (R150, R151, R155, R156) -/

/-- R151's table: the QBL and the saws and triangle of a WT start in mid-cycle. -/
theorem startPhase_eq (k : Kind) (w : Waveform) :
    startPhase k w = if k = .qbl ∨ (k = .wt ∧ 1 ≤ w.code ∧ w.code ≤ 3) then Config.midPhase else fZero := by
  cases k with
  | wt => cases w <;> rfl
  | qbl => rfl
  | lfo => rfl

theorem exec_reset (s : State) : exec .reset s = .next ((resetCore s).respond 0#64) := rfl

theorem exec_start (s : State) : exec .start s = .next (((startBody s).setNoteOn true).respond 0#64) := rfl

theorem exec_stop (s : State) : exec .stop s = .next ((s.setNoteOn false).respond 0#64) := rfl

/-- Settles O25: RESET leaves `resetCore`'s state, whose start phase is R151's. The model's start phase for the codes
a WT never holds (notes/assumptions/7.md) agrees too, so the premise on WAVEFORM goes unused. -/
theorem resetInstallsCore : Obligations.ResetInstallsCore := by
  intro s d _
  refine ⟨decode_generatorWord (by simp [generatorWords]), ?_⟩
  rw [exec_reset, resetCore, startPhase_eq]
  rfl

/-- Settles O26: the gate opens on the state as it is for a free-running LFO, and on RESET's in every other case. -/
theorem startOpensTheGate : Obligations.StartOpensTheGate := by
  intro s d
  refine ⟨decode_generatorWord (by simp [generatorWords]), ?_⟩
  rw [exec_start]
  obtain ⟨hkind, hmode, hbody⟩ | ⟨hreset, hbody⟩ := startBody_cases s
  · rw [hbody]
    exact ⟨fun _ _ => rfl, fun hne => absurd hne (by simp [hkind, hmode])⟩
  · rw [hbody]
    exact ⟨fun hkind hmode => absurd ⟨hkind, hmode⟩ hreset, fun _ => ⟨_, exec_reset s, rfl⟩⟩

/-- Settles O27: the arm of STOP sets the gate alone, and is one for every kind. -/
theorem stopOnlyClosesTheGate : Obligations.StopOnlyClosesTheGate := by
  intro s d
  exact ⟨decode_generatorWord (by simp [generatorWords]), exec_stop s⟩

/-! ### OSC with the gate closed (R176) -/

theorem exec_osc_of_noteOn_false {s : State} (h : s.noteOn = false) :
    exec .osc s = .next ((s.setOutputs fZero fZero).respond 0#64) := by
  obtain ⟨-, hosc⟩ | ⟨hon, -⟩ := execOsc_cases s
  · exact hosc
  · rw [h] at hon; contradiction

/-- Settles O46: a silent OSC is decided by NOTE_ON alone, before the kind is looked at. -/
theorem silentOscOnlyMutes : Obligations.SilentOscOnlyMutes := by
  intro s d
  exact ⟨decode_generatorWord (by simp [generatorWords]), exec_osc_of_noteOn_false⟩

/-! ### UPDATE (R160 to R164) -/

theorem isHeld_iff (w : Waveform) : isHeld w = true ↔ w.code = 6 ∨ w.code = 7 := by
  cases w <;> decide

theorem updatedRunMode_eq (s : State) :
    updatedRunMode s =
      if s.kind = .lfo ∧ (s.waveform.code = 6 ∨ s.waveform.code = 7) then .free else s.runMode := by
  unfold updatedRunMode
  cases s.kind <;> simp [isHeld_iff]

theorem updatedTableIndex_eq (s : State) (f : F64) :
    updatedTableIndex s f = if s.kind = .wt then BitVec.ofNat 32 (selectTable f) else s.tableIndex := by
  unfold updatedTableIndex
  cases s.kind <;> rfl

/-- UPDATE clears UPD_PENDING and leaves the refusal bits (R355). -/
theorem statusUpdated_eq (st : BitVec 4) : statusUpdated st = st &&& 7#4 := rfl

theorem fNeg_foMax : fNeg Config.foMax = 0xC0D4000000000000#64 := by decide

theorem exec_update (s : State) : exec .update s = .next ((updateCore s).respond 0#64) := rfl

/-- Settles O29: `clampFrequency`, `combinedPulseWidth` and the other parts of `updateCore` are the combiner's steps. -/
theorem updateFollowsTheCombiner : Obligations.UpdateFollowsTheCombiner := by
  intro s d sum m f0 f1 f2 f p0 p1 pw
  have hf : clampFrequency (rawFrequency s) = f := by rw [clampFrequency, fNeg_foMax]; rfl
  have hpw : combinedPulseWidth s = pw := rfl
  refine ⟨decode_generatorWord (by simp [generatorWords]), ?_⟩
  rw [exec_update, updateCore, hf, hpw, updatedRunMode_eq, updatedTableIndex_eq, statusUpdated_eq]
  rfl

end Sys2Proof.Machine
end

section
/-! Order and classes of binary64 values by their bit patterns, and SETSR's check of its operand (spec
40_generator_base.md R170, 60_exceptions.md R352). -/

namespace Sys2Proof.Machine

open Sys2Proof

/-! ### Values without a sign -/

theorem fSign_of_toNat_lt {x : F64} (h : x.toNat < 2 ^ 63) : fSign x = false := by
  rw [fSign_eq, decide_eq_false_iff_not]; omega

theorem fLow_of_fSign {x : F64} (h : fSign x = false) : fLow x = x.toNat := by
  rw [toNat_eq_sign_low x, h]; simp

theorem fInt_of_fSign {x : F64} (h : fSign x = false) : fInt x = fMag x := by simp [fInt, h]

theorem fIsFinite_of_toNat_lt {x : F64} (h : x.toNat < 0x7FF0000000000000) : fIsFinite x = true := by
  rw [fIsFinite_iff_low, fLow_of_fSign (fSign_of_toNat_lt (by omega))]; exact h

/-- Finite values without a sign are ordered as their bit patterns. -/
theorem fInt_le_iff_toNat_le {x y : F64} (hx : x.toNat < 0x7FF0000000000000) (hy : y.toNat < 0x7FF0000000000000) :
    fInt x ≤ fInt y ↔ x.toNat ≤ y.toNat := by
  have hsx : fSign x = false := fSign_of_toNat_lt (by omega)
  have hsy : fSign y = false := fSign_of_toNat_lt (by omega)
  rw [fInt_of_fSign hsx, fInt_of_fSign hsy, Int.ofNat_le, ← fLow_of_fSign hsx, ← fLow_of_fSign hsy]
  exact fMag_le_iff (fIsFinite_of_toNat_lt hx) (fIsFinite_of_toNat_lt hy)

/-- A finite positive value has no sign, and its bit pattern lies below that of +∞. -/
theorem toNat_lt_of_fInt_pos {x : F64} (hfin : fIsFinite x = true) (hpos : 0 < fInt x) :
    x.toNat < 0x7FF0000000000000 := by
  have hsign : fSign x = false := by
    by_contra hs
    rw [Bool.not_eq_false] at hs
    simp only [fInt, hs, if_true] at hpos
    omega
  rw [← fLow_of_fSign hsign]
  exact (fIsFinite_iff_low x).mp hfin

/-! ### SETSR (R170) -/

/-- Check 7 of R352 over the exact values. -/
theorem rateLegal_iff_fInt (v : F64) :
    rateLegal v = true ↔ fIsFinite v = true ∧ fInt Config.srMin ≤ fInt v ∧ fInt v ≤ fInt Config.srMax := by
  cases hfin : fIsFinite v with
  | false => simp [rateLegal, hfin]
  | true =>
    have hmin : fLt v Config.srMin = decide (fInt v < fInt Config.srMin) := fLt_finite hfin (by decide)
    have hmax : fLt Config.srMax v = decide (fInt Config.srMax < fInt v) := fLt_finite (by decide) hfin
    simp [rateLegal, hfin, hmin, hmax]

theorem fInt_srMin_pos : 0 < fInt Config.srMin := by decide +kernel

/-- Check 7 of R352 as a range of bit patterns: an infinity, a NaN and a value with a sign lie above it. -/
theorem rateLegal_iff (v : F64) :
    rateLegal v = true ↔ 0x3FF0000000000000 ≤ v.toNat ∧ v.toNat ≤ 0x4170000000000000 := by
  have horder (hv : v.toNat < 0x7FF0000000000000) :
      (fInt Config.srMin ≤ fInt v ∧ fInt v ≤ fInt Config.srMax) ↔
        0x3FF0000000000000 ≤ v.toNat ∧ v.toNat ≤ 0x4170000000000000 :=
    and_congr (fInt_le_iff_toNat_le (by decide) hv) (fInt_le_iff_toNat_le hv (by decide))
  rw [rateLegal_iff_fInt]
  constructor
  · rintro ⟨hfin, hmin, hmax⟩
    exact (horder (toNat_lt_of_fInt_pos hfin (fInt_srMin_pos.trans_le hmin))).mp ⟨hmin, hmax⟩
  · intro hrange
    have hv : v.toNat < 0x7FF0000000000000 := by omega
    exact ⟨fIsFinite_of_toNat_lt hv, (horder hv).mpr hrange⟩

theorem builtRate_eq (s : State) (v : F64) : builtRate s v = if s.kind = .wt then v else s.bankRate := by
  unfold builtRate
  cases s.kind <;> rfl

theorem exec_setsr_of_rateLegal {v : Word} (h : rateLegal v = true) (s : State) :
    exec (.setsr v) s = .next { s with
      sampleRate := v, bankRate := builtRate s v, status := s.status ||| 8#4, rdata := 0#64 } := if_pos h

/-- A BADVALUE refusal, field by field (R351). -/
theorem refuse_badValue (s : State) :
    refuse .badValue s = .next { s with status := s.status ||| 2#4, rdata := 0#64 } := rfl

theorem exec_setsr_of_not_rateLegal {v : Word} (h : ¬ rateLegal v = true) (s : State) :
    exec (.setsr v) s = refuse .badValue s := if_neg h

/-- Settles O33: check 7 accepts exactly the range of patterns, and each verdict has its one next state. -/
theorem setsrTakesLegalRates : Obligations.SetsrTakesLegalRates := by
  intro s v
  rw [← rateLegal_iff, ← builtRate_eq, ← refuse_badValue]
  exact ⟨decode_generatorWord (by simp [generatorWords]), fun h => exec_setsr_of_rateLegal h s,
    fun h => exec_setsr_of_not_rateLegal h s⟩

end Sys2Proof.Machine
end

section
/-! The floor and `wrap01` of finite binary64 values as exact integers (spec 40_generator_base.md R140). -/

namespace Sys2Proof.Machine

open Sys2Proof

/-! ### Integers -/

/-- 2^53 as a binary64: every smaller natural number is one too. -/
def fTwoPow53 : F64 := 0x4340000000000000#64

theorem fMag_fTwoPow53 : fMag fTwoPow53 = 2 ^ 53 * unitsPerOne := by decide +kernel

theorem fInt_fOne : fInt fOne = unitsPerOne := by decide +kernel

/-- 1.0 as the power of two that the lemmas over every exponent take. -/
theorem unitsPerOne_eq : unitsPerOne = 2 ^ 1074 := by decide +kernel

theorem unitsPerOne_pos : 0 < unitsPerOne := by decide +kernel

theorem intUnitsPerOne_pos : (0 : Int) < unitsPerOne := by exact_mod_cast unitsPerOne_pos

/-- A number of units that is a multiple of the spacing at it rounds to itself. -/
theorem fMag_fRound_of_dvd {neg : Bool} {n : Nat} (hdvd : 2 ^ (n.log2 - 52) ∣ n)
    (hfin : fIsFinite (fRound neg n 1) = true) : fMag (fRound neg n 1) = n := by
  obtain ⟨q, hq⟩ := hdvd
  obtain ⟨-, hmag⟩ | ⟨-, hinf⟩ := fMag_fRound neg n 1 one_pos
  · rw [hmag, Nat.div_one]
    generalize n.log2 - 52 = e at hq
    rw [hq, one_mul, Nat.mul_comm (2 ^ e) q, roundHalfEven_mul q _ (by positivity)]
  · have := fMag_lt_of_finite hfin
    omega

/-- A number with at most b + 1 bits before e zeros is a multiple of the spacing that b + 1 bits leave. -/
theorem two_pow_log2_sub_dvd {k b e : Nat} (hk : k < 2 ^ (b + 1)) : 2 ^ ((k * 2 ^ e).log2 - b) ∣ k * 2 ^ e := by
  rcases Nat.eq_zero_or_pos (k * 2 ^ e) with h0 | hpos
  · simp [h0]
  · have hbits : (k * 2 ^ e).log2 < b + 1 + e := by
      rw [Nat.log2_lt hpos.ne', pow_add]
      exact Nat.mul_lt_mul_of_pos_right hk (by positivity)
    exact Dvd.dvd.mul_left (pow_dvd_pow 2 (by omega)) k

/-- A natural number of at most 53 bits is a binary64: rounding leaves it as it is. -/
theorem fRound_natural (neg : Bool) {k : Nat} (hk : k < 2 ^ 53) :
    fIsFinite (fRound neg (k * unitsPerOne) 1) = true ∧ fMag (fRound neg (k * unitsPerOne) 1) = k * unitsPerOne := by
  obtain ⟨hfin, -⟩ := fMag_fRound_le (x := fTwoPow53) (by decide) neg (k * unitsPerOne) 1 one_pos
    (by rw [fMag_fTwoPow53, mul_one]; exact Nat.mul_le_mul_right _ hk.le)
  have hdvd : 2 ^ ((k * unitsPerOne).log2 - 52) ∣ k * unitsPerOne := by
    rw [unitsPerOne_eq]
    exact two_pow_log2_sub_dvd hk
  exact ⟨hfin, fMag_fRound_of_dvd hdvd hfin⟩

theorem two_pow_dvd_fMag_of_mul_le {x : F64} {s : Nat} (h : 2 ^ 52 * 2 ^ s ≤ fMag x) : 2 ^ s ∣ fMag x :=
  two_pow_dvd_fMag s ((pow_add 2 52 s).trans_le h)

/-- From 2^52 on every finite value is an integer. -/
theorem unitsPerOne_dvd_fInt {x : F64} (h : 2 ^ 52 * unitsPerOne ≤ fMag x) : (unitsPerOne : Int) ∣ fInt x := by
  have hnat : unitsPerOne ∣ fMag x := by
    rw [unitsPerOne_eq] at h ⊢
    exact two_pow_dvd_fMag_of_mul_le h
  have hdvd : (unitsPerOne : Int) ∣ (fMag x : Int) := Int.natCast_dvd_natCast.mpr hnat
  unfold fInt
  split
  · exact dvd_neg.mpr hdvd
  · exact hdvd

theorem natAbs_fInt (x : F64) : (fInt x).natAbs = fMag x := by
  unfold fInt
  split <;> simp

/-! ### The floor -/

/-- The floor of a finite value is finite, and its magnitude is that of the exact floor: the value itself where it is
an integer already, and a natural number of at most 53 bits below. -/
theorem fMag_fFloor {x : F64} (hx : fIsFinite x = true) :
    fIsFinite (fFloor x) = true ∧ fMag (fFloor x) = (fInt x / (unitsPerOne : Int)).natAbs * unitsPerOne := by
  have hfloor : fFloor x = fRound (fSign x) ((fInt x / (unitsPerOne : Int)).natAbs * unitsPerOne) 1 := if_pos hx
  rcases Nat.lt_or_ge (fMag x) (2 ^ 52 * unitsPerOne) with hsmall | hlarge
  · rw [hfloor]
    refine fRound_natural _ ?_
    rw [← natAbs_fInt] at hsmall
    have hlo : -2 ^ 52 ≤ fInt x / (unitsPerOne : Int) := Int.le_ediv_of_mul_le intUnitsPerOne_pos (by omega)
    have hhi : fInt x / (unitsPerOne : Int) < 2 ^ 52 := Int.ediv_lt_of_lt_mul intUnitsPerOne_pos (by omega)
    omega
  · have hint : (fInt x / (unitsPerOne : Int)).natAbs * unitsPerOne = fMag x := by
      rw [← natAbs_fInt, ← Int.natAbs_natCast unitsPerOne, ← Int.natAbs_mul, Int.natAbs_natCast,
        Int.ediv_mul_cancel (unitsPerOne_dvd_fInt hlarge)]
    rw [hfloor, hint, fRound_self hx]
    exact ⟨hx, rfl⟩

theorem fSign_fFloor (x : F64) : fSign (fFloor x) = fSign x := by
  unfold fFloor
  split
  · exact fSign_fRound ..
  · rfl

/-- The floor of a finite value is exact: a value with a sign has a floor that is not positive. -/
theorem fInt_fFloor {x : F64} (hx : fIsFinite x = true) :
    fInt (fFloor x) = fInt x / (unitsPerOne : Int) * (unitsPerOne : Int) := by
  rw [fInt, fSign_fFloor, (fMag_fFloor hx).2]
  push_cast
  cases hs : fSign x with
  | true =>
    have hneg : fInt x / (unitsPerOne : Int) ≤ 0 :=
      Int.ediv_nonpos_of_nonpos_of_neg (by simp [fInt, hs]) intUnitsPerOne_pos
    rw [if_pos rfl, abs_of_nonpos hneg, neg_mul, neg_neg]
  | false =>
    have hpos : 0 ≤ fInt x / (unitsPerOne : Int) := Int.ediv_nonneg (by simp [fInt, hs]) intUnitsPerOne_pos.le
    rw [if_neg (by simp), abs_of_nonneg hpos]

/-! ### `wrap01` (R140) -/

theorem wrap01_eq (x : F64) : wrap01 x = if fLe fOne (fSub x (fFloor x)) then 0#64 else fSub x (fFloor x) := rfl

/-- `wrap01` rounds once: the difference is the exact part of x above its floor, rounded; a difference of 0 is +0.0,
since x and its floor have one sign. -/
theorem fSub_fFloor {x : F64} (hx : fIsFinite x = true) :
    fSub x (fFloor x) = fRound false (fInt x % (unitsPerOne : Int)).natAbs 1 := by
  have hpart : fInt x - fInt (fFloor x) = fInt x % (unitsPerOne : Int) := by
    rw [fInt_fFloor hx, Int.emod_def, mul_comm]
  have hnonneg : ¬ fInt x % (unitsPerOne : Int) < 0 := not_lt.mpr (Int.emod_nonneg _ intUnitsPerOne_pos.ne')
  rw [fSub_finite hx (fMag_fFloor hx).1, fSign_fFloor, hpart, Bool.and_not_self, decide_eq_false hnonneg]
  split
  next h0 => rw [h0]; rfl
  next => rfl

/-- The difference is finite and has no sign, and where it reaches 1.0 it is replaced by +0.0. -/
theorem unitPhase_wrap01 {x : F64} (hx : fIsFinite x = true) : UnitPhase (wrap01 x) := by
  have hlt : fInt x % (unitsPerOne : Int) < unitsPerOne := Int.emod_lt_of_pos _ intUnitsPerOne_pos
  have hnonneg : 0 ≤ fInt x % (unitsPerOne : Int) := Int.emod_nonneg _ intUnitsPerOne_pos.ne'
  rw [wrap01_eq, fSub_fFloor hx]
  obtain ⟨hfin, -⟩ := fMag_fRound_le (x := fOne) (by decide) false (fInt x % (unitsPerOne : Int)).natAbs 1 one_pos
    (by rw [← natAbs_fInt, fInt_fOne]; omega)
  generalize hy : fRound false (fInt x % (unitsPerOne : Int)).natAbs 1 = y at hfin
  have hsign : fSign y = false := by rw [← hy]; exact fSign_fRound ..
  split
  · decide
  next hbelow =>
    rw [fLe_finite (by decide) hfin, decide_eq_true_eq, fInt_le_iff_toNat_le (by decide)] at hbelow
    · exact not_le.mp hbelow
    · rw [← fLow_of_fSign hsign]
      exact (fIsFinite_iff_low y).mp hfin

theorem wrap01_of_unitPhase {x : F64} (hx : UnitPhase x) : wrap01 x = x := by
  have hfin : fIsFinite x = true := fIsFinite_of_toNat_lt (by omega)
  have hsign : fSign x = false := fSign_of_toNat_lt (by omega)
  have hlt : ¬ fInt fOne ≤ fInt x := by
    rw [fInt_le_iff_toNat_le (by decide) (by omega)]
    exact not_le.mpr hx
  have hpart : fInt x % (unitsPerOne : Int) = fInt x :=
    Int.emod_eq_of_lt (by simp [fInt_of_fSign hsign]) (by rw [← fInt_fOne]; omega)
  have hself : fSub x (fFloor x) = x := by
    rw [fSub_fFloor hfin, hpart, natAbs_fInt, ← hsign, fRound_self hfin]
  rw [wrap01_eq, hself, fLe_finite (by decide) hfin, decide_eq_false hlt]
  rfl

/-- Settles O34: the floor is exact, the difference is rounded once, and a difference that reaches 1.0 is replaced. -/
theorem wrap01LandsInTheUnitInterval : Obligations.Wrap01LandsInTheUnitInterval := by
  refine ⟨fun x hx => ⟨fInt_fFloor hx, wrap01_eq x⟩, fun x hx => unitPhase_wrap01 hx,
    fun x hx => wrap01_of_unitPhase hx, ?_⟩
  decide +kernel

end Sys2Proof.Machine
end

section
/-! NOP (spec 41_register_access.md R200): its word is 0, and every other word of opcode 0 is Illegal (30_encoding.md
R105). -/

namespace Sys2Proof.Machine

open Sys2Proof

theorem decode_nopWord (d : Word) : decode { cmd := 0#32, data := d } = .ok .nop := by
  simp [decode, plainCommand, cmdRsv, cmdOp, cmdReg]

theorem exec_nop (s : State) : exec .nop s = .next { s with rdata := 0#64 } := rfl

/-- A word of opcode 0 with another bit set has that bit in RSV or in REG, so check 1 or check 3 of R352 fails. -/
theorem exists_decode_error_of_cmdOp_zero {c : Command} (hop : cmdOp c.cmd = 0#8) (hne : c.cmd ≠ 0#32) :
    ∃ e, decode c = .error e := by
  by_cases hrsv : cmdRsv c.cmd = 0#16
  · have hreg : cmdReg c.cmd ≠ 0#8 := by
      intro hreg
      rw [← cmdWord_cmdOp_cmdReg hrsv, hop, hreg] at hne
      exact hne rfl
    exact ⟨_, decode_of_strayReg hrsv (by rw [hop]; decide) hreg⟩
  · exact ⟨_, decode_of_cmdRsv_ne_zero hrsv⟩

/-- Settles O13: NOP's word decodes whatever DATA is, and a stray bit beside opcode 0 makes the word Illegal. -/
theorem nopOnlyResponds : Obligations.NopOnlyResponds := by
  intro s d
  refine ⟨decode_nopWord d, exec_nop s, fun c rest hlow hne hp => ?_⟩
  have hop : cmdOp c = 0#8 := by rw [BitVec.toNat_eq, toNat_cmdOp, hlow, BitVec.toNat_zero]
  obtain ⟨e, hd⟩ := exists_decode_error_of_cmdOp_zero (c := { cmd := c, data := d }) hop hne
  rw [step_of_decode_error hp hd, refuse_badCmd]
  rfl

end Sys2Proof.Machine
end

section
/-! WREG register by register (spec 41_register_access.md R201 to R208, 30_encoding.md R107): which numbers it can
write, and what each form of a register takes or refuses. -/

namespace Sys2Proof.Machine

open Sys2Proof

/-! ### The verdict of a write -/

theorem exec_wreg_of_ok {r : Reg} {d : Word} {s t : State} (h : writeReg r d s = .ok t) :
    exec (.wreg (.assigned r) d) s = .next { t with rdata := 0#64 } := by
  simp only [exec, execWreg, h]
  rfl

theorem exec_wreg_of_error {r : Reg} {d : Word} {s : State} {c : RefusalCode} (h : writeReg r d s = .error c) :
    exec (.wreg (.assigned r) d) s = refuse c s := by
  simp only [exec, execWreg, h]

/-- A BADWAVE refusal, field by field (R351). -/
theorem refuse_badWave (s : State) :
    refuse .badWave s = .next { s with status := s.status ||| 4#4, rdata := 0#64 } := rfl

theorem writeReg_octave (d : Word) (s : State) : writeReg .octave d s = .ok { s with octave := lowWord d } := rfl

theorem writeReg_semitone (d : Word) (s : State) :
    writeReg .semitone d s = .ok { s with semitone := lowWord d } := rfl

theorem writeReg_cent (d : Word) (s : State) : writeReg .cent d s = .ok { s with cent := lowWord d } := rfl

theorem writeReg_waveform (d : Word) (s : State) : writeReg .waveform d s = takeWaveform s d := rfl

theorem writeReg_seed (d : Word) (s : State) : writeReg .seed d s = takeSeed s d := rfl

theorem writeReg_status (d : Word) (s : State) :
    writeReg .status d s = .ok { s with status := statusCleared d s.status } := rfl

/-! ### The numbers WREG can write (R208) -/

/-- The three ranges of R208. -/
abbrev WritableNumber (n : BitVec 8) : Prop :=
  (0x01 ≤ n.toNat ∧ n.toNat ≤ 0x0A) ∨ (0x10 ≤ n.toNat ∧ n.toNat ≤ 0x15) ∨ n.toNat = 0x2D

/-- Check 4 of R352 on an assigned number: SAMPLE_RATE and the registers the block itself writes. -/
theorem writeReg_of_not_writableNumber {r : Reg} (h : ¬ WritableNumber r.number) (d : Word) (s : State) :
    writeReg r d s = .error .badCmd := by
  cases r
  case sampleRate | phase | increment | effFreq | effPw | noteOn | tableIndex | shCounter | shValue | pnReg
    | noiseState | dpwPrev | dpwToggle | wrapPending | kind | out | aux => rfl
  all_goals exact absurd (by decide) h

/-- Settles O16: a number outside R208's ranges is that of a register WREG cannot write, or of none. -/
theorem wregRefusesNumbersItCannotWrite : Obligations.WregRefusesNumbersItCannotWrite := by
  intro n d s hn
  rw [← refuse_badCmd]
  cases hreg : regOfNumber n with
  | some r =>
    obtain rfl : r.number = n := number_of_regOfNumber hreg
    rw [selOfNumber_number]
    exact exec_wreg_of_error (writeReg_of_not_writableNumber hn d s)
  | none =>
    rw [selOfNumber_of_unassignedNumber (regOfNumber_eq_none_iff.mp hreg), exec_wreg_unassigned]

/-! ### The binary64 registers (R202) -/

theorem fIsFinite_iff_expField (x : F64) : fIsFinite x = true ↔ x.toNat / 2 ^ 52 % 2 ^ 11 ≠ 0x7FF :=
  bne_iff_ne

theorem takeF64_of_finite {d : Word} (h : fIsFinite d = true) (put : F64 → State) :
    takeF64 d put = .ok (put d) := if_pos h

theorem takeF64_of_not_finite {d : Word} (h : ¬ fIsFinite d = true) (put : F64 → State) :
    takeF64 d put = .error .badValue := if_neg h

/-- The registers of the f64 form that WREG can write (R107, R202). -/
def binary64Regs : List Reg :=
  [.targetFreq, .freqRatio, .amplitude, .pwTarget, .modAmp, .modFoExp, .modPitchBend, .modFoLin, .modPhase, .modPw]

/-- The state with a value in one of the registers of `binary64Regs`; it is about no other register. -/
def putBinary64 (s : State) (v : F64) : Reg → State
  | .targetFreq => { s with targetFreq := v }
  | .freqRatio => { s with freqRatio := v }
  | .amplitude => { s with amplitude := v }
  | .pwTarget => { s with pwTarget := v }
  | .modAmp => { s with modAmp := v }
  | .modFoExp => { s with modFoExp := v }
  | .modPitchBend => { s with modPitchBend := v }
  | .modFoLin => { s with modFoLin := v }
  | .modPhase => { s with modPhase := v }
  | .modPw => { s with modPw := v }
  | _ => s

theorem writeReg_of_mem_binary64Regs {r : Reg} (h : r ∈ binary64Regs) (d : Word) (s : State) :
    writeReg r d s = takeF64 d fun v => putBinary64 s v r := by
  simp only [binary64Regs, List.mem_cons, List.not_mem_nil, or_false] at h
  rcases h with rfl | rfl | rfl | rfl | rfl | rfl | rfl | rfl | rfl | rfl <;> rfl

theorem exec_wreg_of_finite {r : Reg} {d : Word} (hr : r ∈ binary64Regs) (hfin : fIsFinite d = true) (s : State) :
    exec (.wreg (.assigned r) d) s = .next { putBinary64 s d r with rdata := 0#64 } :=
  exec_wreg_of_ok ((writeReg_of_mem_binary64Regs hr d s).trans (takeF64_of_finite hfin _))

theorem exec_wreg_of_not_finite {r : Reg} {d : Word} (hr : r ∈ binary64Regs) (hfin : ¬ fIsFinite d = true)
    (s : State) : exec (.wreg (.assigned r) d) s = refuse .badValue s :=
  exec_wreg_of_error ((writeReg_of_mem_binary64Regs hr d s).trans (takeF64_of_not_finite hfin _))

/-- Settles O17: `takeF64` is the form of all ten registers, and its verdict is the exponent field's. -/
theorem wregBinary64Registers : Obligations.WregBinary64Registers := by
  intro s d
  rw [← fIsFinite_iff_expField]
  refine ⟨fun hfin => ?_, fun hexp r hr => ?_⟩
  · refine ⟨?_, ?_, ?_, ?_, ?_, ?_, ?_, ?_, ?_, ?_⟩ <;> exact exec_wreg_of_finite (by decide) hfin s
  · have hnot : ¬ fIsFinite d = true := fun hfin => (fIsFinite_iff_expField d).mp hfin hexp
    rw [← refuse_badValue]
    exact exec_wreg_of_not_finite hr hnot s

/-! ### The 32-bit offsets (R203) -/

theorem lowWord_eq_extractLsb' (d : Word) : lowWord d = d.extractLsb' 0 32 :=
  BitVec.setWidth_eq_extractLsb' (by decide)

/-- Settles O18: the three registers take the low word and have no refusal. -/
theorem wregOffsetRegisters : Obligations.WregOffsetRegisters := by
  intro s d
  rw [← lowWord_eq_extractLsb']
  exact ⟨exec_wreg_of_ok (writeReg_octave d s), exec_wreg_of_ok (writeReg_semitone d s),
    exec_wreg_of_ok (writeReg_cent d s)⟩

/-! ### WAVEFORM (R204) -/

theorem code_of_waveformOfCode {c : Nat} {w : Waveform} (h : waveformOfCode c = some w) : w.code = c := by
  unfold waveformOfCode at h
  split at h <;> cases h <;> rfl

theorem waveformOfCode_code (w : Waveform) : waveformOfCode w.code = some w := by cases w <;> rfl

theorem Waveform.code_le (w : Waveform) : w.code ≤ 8 := by cases w <;> decide

/-- R39's codes have no gap. -/
theorem exists_waveform_code_eq {c : Nat} (h : c ≤ 8) : ∃ w : Waveform, w.code = c := by
  have hsome : (waveformOfCode c).isSome = true := by interval_cases c <;> rfl
  obtain ⟨w, hw⟩ := Option.isSome_iff_exists.mp hsome
  exact ⟨w, code_of_waveformOfCode hw⟩

/-- R204's sets of codes, by kind. -/
abbrev WaveformCodeOk (k : Kind) (c : Nat) : Prop :=
  (k = .wt ∧ c ≤ 5) ∨ (k = .qbl ∧ 1 ≤ c ∧ c ≤ 3) ∨ (k = .lfo ∧ c ≤ 8 ∧ c ≠ 5)

theorem WaveformCodeOk.le {k : Kind} {c : Nat} (h : WaveformCodeOk k c) : c ≤ 8 := by omega

theorem waveformLegal_iff_code (k : Kind) (w : Waveform) : waveformLegal k w = true ↔ WaveformCodeOk k w.code := by
  have hle := Waveform.code_le w
  cases k <;> simp [waveformLegal, WaveformCodeOk, hle]

theorem takeWaveform_of_code_eq {s : State} {d : Word} {w : Waveform} (hcode : w.code = d.toNat)
    (hok : WaveformCodeOk s.kind d.toNat) : takeWaveform s d = .ok { s with waveform := w } := by
  rw [← hcode, ← waveformLegal_iff_code] at hok
  rw [takeWaveform, ← hcode, waveformOfCode_code]
  exact if_pos hok

theorem takeWaveform_of_not_ok {s : State} {d : Word} (hbad : ¬ WaveformCodeOk s.kind d.toNat) :
    takeWaveform s d = .error .badWave := by
  obtain ⟨w, hcode, hlegal, -⟩ | hrefuse := takeWaveform_cases s d
  · rw [waveformLegal_iff_code, code_of_waveformOfCode hcode] at hlegal
    contradiction
  · exact hrefuse

/-- Settles O19: DATA names a waveform that the kind supports exactly when it lies in the kind's set of codes. -/
theorem wregWaveformByKind : Obligations.WregWaveformByKind := by
  intro s d
  refine ⟨fun (hok : WaveformCodeOk s.kind d.toNat) => ?_, fun hbad => ?_⟩
  · obtain ⟨w, hcode⟩ := exists_waveform_code_eq hok.le
    exact ⟨w, hcode, exec_wreg_of_ok ((writeReg_waveform d s).trans (takeWaveform_of_code_eq hcode hok))⟩
  · rw [← refuse_badWave]
    exact exec_wreg_of_error ((writeReg_waveform d s).trans (takeWaveform_of_not_ok hbad))

/-! ### SEED (R206) -/

theorem lowWord_eq_zero_iff (d : Word) : lowWord d = 0#32 ↔ d.toNat % 2 ^ 32 = 0 := by
  rw [BitVec.toNat_eq, lowWord, BitVec.toNat_setWidth, BitVec.toNat_zero]

/-- RESET starts both generators from SEED (R150). -/
theorem exists_exec_reset_seeded (s : State) :
    ∃ u, exec .reset s = .next u ∧ u.noiseState = s.seed ∧ u.pnReg = s.seed := ⟨_, exec_reset s, rfl, rfl⟩

/-- START resets all but a free-running LFO (R155), and so starts both generators from SEED. -/
theorem exists_exec_start_seeded {s : State} (h : s.kind ≠ .lfo ∨ s.runMode ≠ .free) :
    ∃ u, exec .start s = .next u ∧ u.noiseState = s.seed ∧ u.pnReg = s.seed := by
  obtain ⟨hkind, hmode, -⟩ | ⟨-, hbody⟩ := startBody_cases s
  · exact absurd h (by simp [hkind, hmode])
  · refine ⟨_, exec_start s, ?_⟩
    rw [hbody]
    exact ⟨rfl, rfl⟩

/-- Settles O21: the form of SEED takes every nonzero low word, and the RESET and START rules read the SEED it
leaves. -/
theorem wregSeed : Obligations.WregSeed := by
  refine ⟨fun s d => ?_, by decide, by decide⟩
  rw [ne_eq, ← lowWord_eq_zero_iff, ← lowWord_eq_extractLsb', ← refuse_badValue]
  obtain ⟨hne, htake⟩ | ⟨hzero, hrefuse⟩ := takeSeed_cases s d
  · refine ⟨fun _ => ⟨_, exec_wreg_of_ok ((writeReg_seed d s).trans htake), rfl, ?_, ?_⟩, fun hzero => absurd hzero hne⟩
    · exact exists_exec_reset_seeded { s with seed := lowWord d, rdata := 0#64 }
    · exact fun hstart => exists_exec_start_seeded (s := { s with seed := lowWord d, rdata := 0#64 }) hstart
  · exact ⟨fun hne => absurd hzero hne, fun _ => exec_wreg_of_error ((writeReg_seed d s).trans hrefuse)⟩

/-! ### STATUS (R207) -/

theorem getLsbD_statusCleared {b : Nat} (h : b < 3) (d : Word) (st : BitVec 4) :
    (statusCleared d st).getLsbD b = (st.getLsbD b && !d.getLsbD b) := by
  have h4 : b < 4 := by omega
  simp [statusCleared, h, h4]

/-- UPD_PENDING stands above the three bits DATA can clear. -/
theorem getLsbD_statusCleared_three (d : Word) (st : BitVec 4) :
    (statusCleared d st).getLsbD 3 = st.getLsbD 3 := by
  simp [statusCleared]

/-- Settles O22: the new STATUS is `statusCleared`'s. -/
theorem wregStatusWritesOneToClear : Obligations.WregStatusWritesOneToClear := by
  intro s d
  exact ⟨statusCleared d s.status, exec_wreg_of_ok (writeReg_status d s), fun b hb => getLsbD_statusCleared hb d s.status,
    getLsbD_statusCleared_three d s.status⟩

end Sys2Proof.Machine
end

section
/-! The bands of the wavetable bank: their ceilings, their harmonic counts and the selector (spec 42_wavetable.md R231,
R232, R237). -/

namespace Sys2Proof.Machine

open Sys2Proof

/-! ### Band ceilings (R231) -/

/-- Equal quotients round alike. -/
theorem roundMag_congr {n d n' d' : Nat} (hd : 0 < d) (hd' : 0 < d') (h : n * d' = n' * d) :
    roundMag n d = roundMag n' d' :=
  le_antisymm (roundMag_mono n d n' d' hd hd' h.le) (roundMag_mono n' d' n d hd' hd h.ge)

theorem fMag_foMax : fMag Config.foMax = 20480 * unitsPerOne := by decide +kernel

/-- FO_MAX is 80 × 2^8 Hz, so the division by 2^(N - 1) leaves a natural number of Hz. -/
theorem bandCeiling_eq (j : Nat) : bandCeiling j = fRound false (80 * 2 ^ j * unitsPerOne) 1 := by
  rw [bandCeiling, fMag_foMax, fRound, fRound]
  refine congrArg _ (roundMag_congr (by positivity) one_pos ?_)
  rw [show 2 ^ (Config.nTables - 1) = 256 by rfl]
  ring

/-- The band ceilings are exact in binary64, one octave beyond the top table too. -/
theorem fMag_bandCeiling {j : Nat} (hj : j ≤ 9) : fMag (bandCeiling j) = 80 * 2 ^ j * unitsPerOne := by
  have hbits : 80 * 2 ^ j < 2 ^ 53 :=
    calc 80 * 2 ^ j ≤ 80 * 2 ^ 9 := Nat.mul_le_mul_left 80 (Nat.pow_le_pow_right two_pos hj)
      _ < 2 ^ 53 := by norm_num
  rw [bandCeiling_eq, (fRound_natural false hbits).2]

/-- Settles O40: a band ceiling has no sign, and its magnitude is exact. -/
theorem bandCeilingsAreOctaves : Obligations.BandCeilingsAreOctaves := by
  intro j hj
  have hsign : fSign (bandCeiling j) = false := fSign_fRound ..
  rw [fInt_of_fSign hsign, fMag_bandCeiling hj.le]
  push_cast
  rfl

/-! ### Harmonic counts (R232) -/

theorem fMag_bandCeiling_pos {j : Nat} (hj : j ≤ 9) : 0 < fMag (bandCeiling j) := by
  rw [fMag_bandCeiling hj]
  exact Nat.mul_pos (by positivity) unitsPerOne_pos

theorem one_le_harmonics (rate : F64) (j : Nat) : 1 ≤ harmonics rate j := le_max_left ..

/-- A positive count keeps its top harmonic below half the rate when the quotient reaches it. -/
theorem mul_fMag_bandCeiling_lt_iff {j h : Nat} (rate : F64) (hj : j ≤ 9) (hh : 1 ≤ h) :
    2 * h * fMag (bandCeiling j) < fMag rate ↔ h ≤ (fMag rate - 1) / (2 * fMag (bandCeiling j)) := by
  have hpos := fMag_bandCeiling_pos hj
  have hprod : 0 < h * (2 * fMag (bandCeiling j)) := Nat.mul_pos hh (by omega)
  rw [Nat.le_div_iff_mul_le (by omega), mul_comm 2 h, mul_assoc]
  omega

/-- Where the ceiling lies below half the rate the fallback 1 is itself such a count, so the maximum is the quotient. -/
theorem le_harmonics_iff {j h : Nat} (rate : F64) (hj : j ≤ 9) (hh : 1 ≤ h) :
    2 * h * fMag (bandCeiling j) < fMag rate ↔
      h ≤ harmonics rate j ∧ 2 * fMag (bandCeiling j) < fMag rate := by
  have hone := mul_fMag_bandCeiling_lt_iff rate hj (le_refl 1)
  rw [mul_one] at hone
  rw [mul_fMag_bandCeiling_lt_iff rate hj hh, hone, harmonics]
  omega

theorem harmonics_eq_one {rate : F64} {j : Nat} (hj : j ≤ 9) (h : fMag rate ≤ 2 * fMag (bandCeiling j)) :
    harmonics rate j = 1 := by
  have hpos := fMag_bandCeiling_pos hj
  rw [harmonics, Nat.div_eq_of_lt (by omega)]
  rfl

theorem fMag_bandCeiling_mono {i j : Nat} (hij : i ≤ j) (hj : j ≤ 9) :
    fMag (bandCeiling i) ≤ fMag (bandCeiling j) := by
  rw [fMag_bandCeiling (hij.trans hj), fMag_bandCeiling hj]
  gcongr
  norm_num

/-- A higher ceiling divides the rate into no more harmonics. -/
theorem harmonics_succ_le (rate : F64) {j : Nat} (hj : j < 9) : harmonics rate (j + 1) ≤ harmonics rate j := by
  have hle : fMag (bandCeiling j) ≤ fMag (bandCeiling (j + 1)) := fMag_bandCeiling_mono j.le_succ hj
  have hpos := fMag_bandCeiling_pos hj.le
  exact max_le_max le_rfl (Nat.div_le_div_left (by omega) (by omega))

/-- The lowest ceiling is 80 Hz, so no ceiling lies below half of a rate of at most 160 Hz. -/
theorem fMag_rate_le_of_le_160 {rate : F64} {j : Nat} (hrate : fMag rate ≤ 160 * unitsPerOne) (hj : j < 9) :
    fMag rate ≤ 2 * fMag (bandCeiling j) := by
  have hlow := fMag_bandCeiling_mono (Nat.zero_le j) hj.le
  rw [fMag_bandCeiling (Nat.zero_le 9)] at hlow
  omega

/-- Settles O41: the count is a quotient by twice the ceiling, or the fallback. -/
theorem harmonicCountIsTheLargest : Obligations.HarmonicCountIsTheLargest := by
  refine ⟨by decide +kernel, by decide +kernel, by decide +kernel, by decide +kernel,
    fun rate _ hrate j hj => harmonics_eq_one hj.le (fMag_rate_le_of_le_160 hrate hj), fun rate j hj => ?_⟩
  exact ⟨one_le_harmonics rate j, fun h hh => le_harmonics_iff rate hj.le hh, harmonics_eq_one hj.le,
    harmonics_succ_le rate hj⟩

/-! ### The selector (R237) -/

/-- The search over the tables from j to 8 stops at the first whose ceiling holds the frequency, or at 8. -/
theorem selectFrom_spec (a : F64) {fuel j : Nat} (hfuel : fuel + j = 9) :
    selectFrom a fuel j ≤ 8 ∧
    (∀ k, j ≤ k → k < selectFrom a fuel j → fLe a (bandCeiling k) = false) ∧
    (fLe a (bandCeiling (selectFrom a fuel j)) = true ∨
      (selectFrom a fuel j = 8 ∧ ∀ k, j ≤ k → k < 9 → fLe a (bandCeiling k) = false)) := by
  induction fuel generalizing j with
  | zero => exact ⟨le_refl 8, fun k hjk hk => absurd hk (by simp [selectFrom, Config.nTables]; omega),
      .inr ⟨rfl, fun k hjk hk => absurd hk (by omega)⟩⟩
  | succ fuel ih =>
    unfold selectFrom
    cases hholds : fLe a (bandCeiling j) with
    | true =>
      rw [if_pos rfl]
      exact ⟨by omega, fun k hjk hk => absurd hk (by omega), .inl hholds⟩
    | false =>
      obtain ⟨hle, hbelow, hits⟩ := ih (j := j + 1) (by omega)
      have hskip {n : Nat} (h : ∀ k, j + 1 ≤ k → k < n → fLe a (bandCeiling k) = false) (k : Nat) (hjk : j ≤ k)
          (hk : k < n) : fLe a (bandCeiling k) = false := by
        rcases Nat.eq_or_lt_of_le hjk with rfl | hlt
        · exact hholds
        · exact h k hlt hk
      rw [if_neg (by simp)]
      exact ⟨hle, hskip hbelow, hits.imp id fun ⟨hlast, hnone⟩ => ⟨hlast, hskip hnone⟩⟩

theorem selectTable_le (f : F64) : selectTable f ≤ 8 := (selectFrom_spec (fAbs f) rfl).1

/-- UPDATE of a WT selects for the frequency it has just written. -/
theorem updateCore_tableIndex (s : State) :
    (updateCore s).tableIndex =
      if s.kind = .wt then BitVec.ofNat 32 (selectTable (updateCore s).effFreq) else s.tableIndex := by
  simp [updateCore, updatedTableIndex_eq]

theorem lfoOsc_tableIndex (s : State) : (lfoOsc s).tableIndex = s.tableIndex := by
  have hadvance (u : State) : (advancePhase u).tableIndex = u.tableIndex := by
    obtain ⟨p, w, hp⟩ := advancePhase_frame u
    rw [hp, State.setPhase_tableIndex]
  have hhold (u : State) : (holdStep u).tableIndex = u.tableIndex := by
    obtain ⟨-, ⟨-, hu⟩ | ⟨-, hu⟩⟩ | ⟨-, -, hu⟩ := holdStep_cases u <;> rw [hu] <;> simp
  obtain ⟨-, -, hs⟩ | ⟨-, -, hs⟩ | ⟨-, -, hs⟩ := lfoOsc_cases s
  · rw [hs]; rfl
  · rw [hs, State.setOutputs_tableIndex, hadvance, hhold, State.setWrap_tableIndex]
  · rw [hs, State.setOutputs_tableIndex, hadvance, State.setWrap_tableIndex]

theorem oscRender_tableIndex (s : State) : (oscRender s).tableIndex = s.tableIndex := by
  rw [oscRender_spec]
  cases s.kind with
  | wt => obtain ⟨x, p, w, o, hs⟩ := wtOsc_frame s; simp [hs]
  | qbl => obtain ⟨g, r, p, w, o, -, hs⟩ := qblOsc_frame s; simp [hs]
  | lfo => exact lfoOsc_tableIndex s

theorem tableIndex_of_complete {u t : State} (h : complete u = .next t) : t.tableIndex = u.tableIndex := by
  rw [complete_eq_next.mp h, State.respond_tableIndex]

theorem tableIndex_of_refuse {c : RefusalCode} {s t : State} (h : refuse c s = .next t) :
    t.tableIndex = s.tableIndex := by
  rw [refuse_eq_next.mp h, State.respond_tableIndex, State.setStatus_tableIndex]

/-- No instruction but UPDATE writes TABLE_INDEX (R53). -/
theorem exec_keeps_tableIndex {i : Instr} {s t : State} (hi : i ≠ .update) (h : exec i s = .next t) :
    t.tableIndex = s.tableIndex := by
  cases i with
  | update => exact absurd rfl hi
  | nop => exact tableIndex_of_complete h
  | reset => exact (tableIndex_of_complete h).trans (resetCore_tableIndex s)
  | stop => exact (tableIndex_of_complete h).trans (State.setNoteOn_tableIndex s false)
  | start =>
    refine (tableIndex_of_complete h).trans ?_
    obtain ⟨-, -, hbody⟩ | ⟨-, hbody⟩ := startBody_cases s <;> simp [hbody]
  | osc =>
    obtain ⟨-, hosc⟩ | ⟨-, hosc⟩ := execOsc_cases s
    · exact (tableIndex_of_complete (hosc.symm.trans h)).trans (State.setOutputs_tableIndex ..)
    · exact (tableIndex_of_complete (hosc.symm.trans h)).trans (oscRender_tableIndex s)
  | setsr rate =>
    obtain ⟨-, hset⟩ | ⟨-, hset⟩ := execSetsr_cases rate s
    · exact (tableIndex_of_complete (hset.symm.trans h)).trans (by simp)
    · exact tableIndex_of_refuse (hset.symm.trans h)
  | wreg sel d =>
    obtain ⟨c, hw⟩ | ⟨r, u, -, hput, hw⟩ := execWreg_cases sel d s
    · exact tableIndex_of_refuse (hw.symm.trans h)
    · obtain ⟨-, -, -, -, -, -, hindex, -⟩ := writeReg_frame hput
      exact (tableIndex_of_complete (hw.symm.trans h)).trans hindex
  | rreg sel =>
    obtain ⟨n, -, hr⟩ | ⟨r, -, hr⟩ := execRreg_cases sel s
    · exact tableIndex_of_refuse (hr.symm.trans h)
    · cases hr.symm.trans h
      exact State.respond_tableIndex ..

/-- What an UPDATE leaves in TABLE_INDEX. -/
theorem tableIndex_of_exec_update {s t : State} (h : exec .update s = .next t) :
    t.tableIndex = if s.kind = .wt then BitVec.ofNat 32 (selectTable t.effFreq) else s.tableIndex := by
  cases (exec_update s).symm.trans h
  exact updateCore_tableIndex s

/-- Settles O42: `selectFrom_spec` over all nine tables; a number of a table fits the 32 bits of TABLE_INDEX. -/
theorem selectTableIsTheSmallest : Obligations.SelectTableIsTheSmallest := by
  refine ⟨fun f => ?_, fun i s t h => ⟨fun hi hkind => ?_, fun hother => ?_⟩, by decide +kernel, by decide +kernel,
    by decide +kernel, by decide +kernel, by decide +kernel, by decide +kernel, by decide +kernel, by decide +kernel⟩
  · obtain ⟨hle, hbelow, hits⟩ := selectFrom_spec (fAbs f) (fuel := 9) (j := 0) rfl
    exact ⟨hle, fun j => hbelow j j.zero_le, hits.imp id fun ⟨hlast, hnone⟩ => ⟨hlast, fun j => hnone j j.zero_le⟩⟩
  · subst hi
    have hle := selectTable_le t.effFreq
    rw [tableIndex_of_exec_update h, if_pos hkind, BitVec.toNat_ofNat, Nat.mod_eq_of_lt (by omega)]
  · by_cases hi : i = .update
    · subst hi
      rw [tableIndex_of_exec_update h, if_neg (hother.resolve_left (by simp))]
    · exact exec_keeps_tableIndex hi h

end Sys2Proof.Machine
end

section
/-! The rendering OSC of a WT: the read index and its fraction, the scaling, and the sample of each waveform (spec
42_wavetable.md R238, R243 to R249, 40_generator_base.md R146, R149). -/

namespace Sys2Proof.Machine

open Sys2Proof

/-! ### Sums that do not overflow -/

/-- The largest finite binary64. -/
def fMaxFinite : F64 := 0x7FEFFFFFFFFFFFFF#64

theorem fMag_le_fMaxFinite {x : F64} (hx : fIsFinite x = true) : fMag x ≤ fMag fMaxFinite := by
  have hlow := (fIsFinite_iff_low x).mp hx
  have hmax : fLow fMaxFinite = 0x7FEFFFFFFFFFFFFF := by decide
  exact (fMag_le_iff hx (by decide)).mpr (by omega)

theorem fMag_fMaxFinite_add_two_lt : fMag fMaxFinite + 2 * unitsPerOne < 2 ^ 2098 := by decide +kernel

/-- A rounded value below the magnitude of an infinity is finite. -/
theorem fIsFinite_fRound_of_fMag_lt {neg : Bool} {n d : Nat} (h : fMag (fRound neg n d) < 2 ^ 2098) :
    fIsFinite (fRound neg n d) = true := by
  rw [fIsFinite_iff_low]
  refine lt_of_le_of_ne (by rw [fLow_fRound]; exact roundMag_le n d) fun hinf => ?_
  rw [fMag_eq_low, hinf] at h
  exact absurd h (by decide +kernel)

/-- A value of magnitude at most 1 is far below half the spacing at the largest finite value, so no sum with it
overflows. -/
theorem fIsFinite_fAdd_of_fMag_le {x y : F64} (hx : fIsFinite x = true) (hone : fMag x ≤ unitsPerOne)
    (hy : fIsFinite y = true) : fIsFinite (fAdd x y) = true := by
  rw [fAdd_finite hx hy]
  split
  · cases fSign x <;> cases fSign y <;> decide
  · apply fIsFinite_fRound_of_fMag_lt
    have hmax := fMag_le_fMaxFinite hy
    have hlimit := fMag_fMaxFinite_add_two_lt
    have hnear := fMag_fRound_nearest (y := fMaxFinite) (by decide) (decide (fInt x + fInt y < 0))
      (fInt x + fInt y).natAbs 1 one_pos
    rw [← natAbs_fInt] at hone hmax
    generalize fMag fMaxFinite = limit at hmax hlimit hnear
    simp only [mul_one] at hnear
    rw [abs_le, abs_eq_max_neg] at hnear
    generalize fMag (fRound (decide (fInt x + fInt y < 0)) (fInt x + fInt y).natAbs 1) = m at hnear ⊢
    generalize 2 ^ 2098 = b at hlimit ⊢
    omega

/-! ### The read index (R238) -/

theorem fMag_of_unitPhase_lt {x : F64} (hx : UnitPhase x) : fMag x < unitsPerOne := by
  have hsign : fSign x = false := fSign_of_toNat_lt (by omega)
  have hlt : ¬ fInt fOne ≤ fInt x := by
    rw [fInt_le_iff_toNat_le (by decide) (by omega)]
    exact not_le.mpr hx
  rw [fInt_fOne, fInt_of_fSign hsign] at hlt
  omega

theorem log2_le_log2 {m n : Nat} (h : m ≤ n) : m.log2 ≤ n.log2 := by
  rcases Nat.eq_zero_or_pos m with rfl | hm
  · simp
  · exact (Nat.le_log2 (by omega)).mpr ((Nat.log2_self_le hm.ne').trans h)

theorem log2_lt_add {n a b : Nat} (hn : n ≠ 0) (h : n < 2 ^ a * 2 ^ b) : n.log2 < a + b :=
  (Nat.log2_lt hn).mpr (by rwa [pow_add])

/-- A finite magnitude is a multiple of the spacing at it. -/
theorem spacing_dvd_fMag (x : F64) : 2 ^ ((fMag x).log2 - 52) ∣ fMag x := by
  rcases Nat.lt_or_ge (fMag x).log2 52 with hsmall | hlarge
  · rw [Nat.sub_eq_zero_of_le hsmall.le]
    exact one_dvd _
  · refine two_pow_dvd_fMag _ ?_
    have hne : fMag x ≠ 0 := fun h0 => by simp [h0] at hlarge
    rw [Nat.add_sub_of_le hlarge]
    exact Nat.log2_self_le hne

/-- The length of a table as a binary64 (R238). -/
def fTableLen : F64 := 0x4090000000000000#64

theorem f64OfInt_tableLen : f64OfInt Config.tableLen = fTableLen := by decide +kernel

theorem fMag_fTableLen : fMag fTableLen = 1024 * unitsPerOne := by decide +kernel

/-- Times 1024 adds ten to the exponent: the product has the same bits. -/
theorem spacing_dvd_mul_1024 (x : F64) : 2 ^ ((fMag x * 1024).log2 - 52) ∣ fMag x * 1024 := by
  rcases Nat.eq_zero_or_pos (fMag x) with h0 | hpos
  · simp [h0]
  · have hlt : (fMag x * 1024).log2 < (fMag x).log2 + 11 := by
      rw [Nat.log2_lt (by omega), show (fMag x).log2 + 11 = (fMag x).log2 + 1 + 10 by rfl, pow_add]
      exact Nat.mul_lt_mul_of_pos_right Nat.lt_log2_self (by positivity)
    exact (pow_dvd_pow 2 (by omega : _ ≤ (fMag x).log2 - 52 + 10)).trans
      (by rw [pow_add]; exact mul_dvd_mul (spacing_dvd_fMag x) dvd_rfl)

/-- The read index pr × 1024 is exact, below 1024, and has no sign. -/
theorem fMul_fTableLen {x : F64} (hx : UnitPhase x) :
    fIsFinite (fMul x fTableLen) = true ∧ fSign (fMul x fTableLen) = false ∧
      fMag (fMul x fTableLen) = fMag x * 1024 := by
  have hround : fMul x fTableLen = fRound false (fMag x * 1024) 1 := by
    rw [fMul_finite (fIsFinite_of_toNat_lt (by omega)) (by decide), fSign_of_toNat_lt (x := x) (by omega),
      fMag_fTableLen, fRound, fRound]
    exact congrArg _ (roundMag_congr unitsPerOne_pos one_pos (by ring))
  have hlt := fMag_of_unitPhase_lt hx
  obtain ⟨hfin, -⟩ := fMag_fRound_le (x := fTableLen) (by decide) false (fMag x * 1024) 1 one_pos
    (by rw [fMag_fTableLen]; omega)
  rw [hround]
  exact ⟨hfin, fSign_fRound .., fMag_fRound_of_dvd (spacing_dvd_mul_1024 x) hfin⟩

/-- Below 2^52 the part of a value above its floor keeps the spacing of the value, so it is a binary64. -/
theorem fMag_fRound_fraction {x : F64} (hx : fMag x < 2 ^ 52 * unitsPerOne) :
    fIsFinite (fRound false (fMag x % unitsPerOne) 1) = true ∧
      fMag (fRound false (fMag x % unitsPerOne) 1) = fMag x % unitsPerOne := by
  have hlt : fMag x % unitsPerOne < unitsPerOne := Nat.mod_lt _ unitsPerOne_pos
  obtain ⟨hfin, -⟩ := fMag_fRound_le (x := fTableLen) (by decide) false (fMag x % unitsPerOne) 1 one_pos
    (by rw [fMag_fTableLen]; omega)
  have hspacing : 2 ^ ((fMag x).log2 - 52) ∣ unitsPerOne := by
    rw [unitsPerOne_eq]
    refine pow_dvd_pow 2 ?_
    rcases Nat.eq_zero_or_pos (fMag x) with h0 | hpos
    · simp [h0]
    · have hlog := log2_lt_add hpos.ne' (unitsPerOne_eq ▸ hx)
      omega
  have hfraction : 2 ^ ((fMag x % unitsPerOne).log2 - 52) ∣ fMag x % unitsPerOne :=
    (pow_dvd_pow 2 (Nat.sub_le_sub_right (log2_le_log2 (Nat.mod_le ..)) 52)).trans
      ((Nat.dvd_mod_iff hspacing).mpr (spacing_dvd_fMag x))
  exact ⟨hfin, fMag_fRound_of_dvd hfraction hfin⟩

/-- The fraction of a value in [0, 2^52) is exact and in [0, 1). -/
theorem fSub_fFloor_exact {x : F64} (hfin : fIsFinite x = true) (hsign : fSign x = false)
    (hsmall : fMag x < 2 ^ 52 * unitsPerOne) :
    UnitPhase (fSub x (fFloor x)) ∧ fInt (fSub x (fFloor x)) = fInt x % (unitsPerOne : Int) := by
  obtain ⟨hfrac, hmag⟩ := fMag_fRound_fraction hsmall
  have hsub : fSub x (fFloor x) = fRound false (fMag x % unitsPerOne) 1 := by
    rw [fSub_fFloor hfin, fInt_of_fSign hsign]
    rfl
  have hint : fInt (fSub x (fFloor x)) = fInt x % (unitsPerOne : Int) := by
    rw [hsub, fInt_of_fSign (fSign_fRound ..), hmag, fInt_of_fSign hsign, Int.natCast_mod]
  have hbelow : fLe fOne (fSub x (fFloor x)) = false := by
    rw [fLe_finite (by decide) (hsub ▸ hfrac), hint, fInt_fOne]
    exact decide_eq_false (not_le.mpr (Int.emod_lt_of_pos _ intUnitsPerOne_pos))
  have hwrap : wrap01 x = fSub x (fFloor x) := by rw [wrap01_eq, hbelow]; rfl
  exact ⟨hwrap ▸ unitPhase_wrap01 hfin, hint⟩

/-- PHASE + MOD_PHASE is finite, so the read phase is in [0, 1) (R180, R238). -/
theorem unitPhase_readPhase {s : State} (hphase : s.PhaseOk) (hmod : fIsFinite s.modPhase = true) :
    UnitPhase (readPhase s) :=
  unitPhase_wrap01 (fIsFinite_fAdd_of_fMag_le (fIsFinite_of_toNat_lt (by omega)) (fMag_of_unitPhase_lt hphase).le hmod)

/-- The read index and its fraction at any read phase in [0, 1). -/
theorem readIndex_bounds {pr : F64} (hpr : UnitPhase pr) :
    fInt (fMul pr fTableLen) = 1024 * fInt pr ∧
    0 ≤ fInt (fMul pr fTableLen) / (unitsPerOne : Int) ∧ fInt (fMul pr fTableLen) / (unitsPerOne : Int) ≤ 1023 ∧
    UnitPhase (fSub (fMul pr fTableLen) (fFloor (fMul pr fTableLen))) ∧
    fInt (fSub (fMul pr fTableLen) (fFloor (fMul pr fTableLen))) = fInt (fMul pr fTableLen) % (unitsPerOne : Int) := by
  obtain ⟨hfin, hsign, hmag⟩ := fMul_fTableLen hpr
  have hlt := fMag_of_unitPhase_lt hpr
  have hpos := intUnitsPerOne_pos
  have hexact : fInt (fMul pr fTableLen) = 1024 * fInt pr := by
    rw [fInt_of_fSign hsign, hmag, fInt_of_fSign (fSign_of_toNat_lt (by omega))]
    push_cast
    ring
  refine ⟨hexact, Int.ediv_nonneg (by simp [fInt_of_fSign hsign]) hpos.le, ?_,
    fSub_fFloor_exact hfin hsign (by rw [hmag]; omega)⟩
  rw [← Int.lt_add_one_iff]
  refine Int.ediv_lt_of_lt_mul hpos ?_
  rw [fInt_of_fSign hsign, hmag]
  push_cast
  omega

/-! ### The scaling (R146) -/

theorem fIsNaN_iff_low (x : F64) : fIsNaN x = true ↔ 0x7FF0000000000000 < fLow x := by
  have h := fLow_lt x
  simp only [fIsNaN, fExpField_eq_low, fFrac_eq_low, Bool.and_eq_true, beq_iff_eq, bne_iff_ne]
  omega

/-- Bits set in the quiet NaN leave it a NaN. -/
theorem fIsNaN_fNaN_or (b : F64) : fIsNaN (fNaN ||| b) = true := by
  have hlow : fLow (fNaN ||| b) = fLow fNaN ||| fLow b := by
    rw [fLow, BitVec.toNat_or, Nat.or_mod_two_pow]
    rfl
  have hle : fLow fNaN ≤ fLow fNaN ||| fLow b := Nat.left_le_or
  rw [fIsNaN_iff_low, hlow]
  exact lt_of_lt_of_le (by decide) hle

theorem settleNaN_of_number {x : F64} (h : fIsNaN x = false) (v a m : F64) : settleNaN v a m x = x := by
  simp [settleNaN, h]

theorem fIsNaN_settleNaN {x : F64} (h : fIsNaN x = true) (v a m : F64) : fIsNaN (settleNaN v a m x) = true := by
  simp [settleNaN, h, fIsNaN_fNaN_or]

/-! ### The render -/

/-- The phase step as one equation (R149). -/
theorem advancePhase_eq (s : State) :
    advancePhase s = s.setPhase
      (if fLe 0#64 (fAdd s.phase s.increment) && fLt (fAdd s.phase s.increment) fOne then fAdd s.phase s.increment
        else wrap01 (fAdd s.phase s.increment))
      (!(fLe 0#64 (fAdd s.phase s.increment) && fLt (fAdd s.phase s.increment) fOne)) := by
  have hzero : fZero = 0#64 := rfl
  obtain ⟨hlo, hhi, hs⟩ | ⟨hout, hs⟩ := advancePhase_cases s
  · rw [hzero] at hlo
    simp [hs, hlo, hhi]
  · rw [hzero, ← Bool.and_eq_true, Bool.not_eq_true] at hout
    simp [hs, hout]

/-- A table's peak is computed before its entries are read; the read is that of `sawEntry`. -/
theorem sawRead_eq (rate : F64) (k i : Nat) (f : F64) : sawRead rate k i f = tableRead (sawEntry rate k) i f :=
  force_eq ..

theorem triRead_eq (rate : F64) (k i : Nat) (f : F64) : triRead rate k i f = tableRead (triEntry rate k) i f :=
  force_eq ..

theorem readIndex_eq (pr : F64) : readIndex pr = (fInt (fMul pr fTableLen) / (unitsPerOne : Int)).toNat := by
  rw [readIndex, f64OfInt_tableLen, fFloorInt]

theorem readFraction_eq (pr : F64) :
    readFraction pr = fSub (fMul pr fTableLen) (fFloor (fMul pr fTableLen)) := by
  rw [readFraction, f64OfInt_tableLen]

/-- White noise draws and leaves the stepped generator behind (R249). -/
theorem wtOsc_of_whiteNoise {s : State} (h : s.waveform = .whiteNoise) :
    wtOsc s = (advancePhase (s.setNoise (xorshift32 s.noiseState))).setOutputs
      (scaleOut s (noiseValue (xorshift32 s.noiseState))) (scaleOut s (noiseValue (xorshift32 s.noiseState))) := by
  simp [wtOsc, wtSample, h, drawWhite]

/-- Every other waveform reads tables and leaves the generators alone (R244 to R248). -/
theorem wtOsc_of_table {s : State} (h : s.waveform ≠ .whiteNoise) :
    wtOsc s = (advancePhase s).setOutputs (scaleOut s (tableSample s (readPhase s)))
      (scaleOut s (tableSample s (readPhase s))) := by
  unfold wtOsc wtSample
  cases hw : s.waveform with
  | whiteNoise => exact absurd hw h
  | sine | sawUp | sawDown | triangle | square | heldNoise | heldPn | expo => rfl

theorem exec_osc_of_wt {s : State} (hkind : s.kind = .wt) (hon : s.noteOn = true) :
    exec .osc s = .next ((wtOsc s).respond 0#64) := by
  obtain ⟨hoff, -⟩ | ⟨-, hosc⟩ := execOsc_cases s
  · rw [hon] at hoff; contradiction
  · rw [oscRender_spec, hkind] at hosc
    exact hosc

/-- Settles O47: the read index by `readIndex_bounds`, the scaling by `settleNaN`, and the render by the waveform. -/
theorem wtOscRenders : Obligations.WtOscRenders := by
  refine ⟨fun s hphase hmod => ?_, fun s v => ⟨fun hnum => ?_, fun hnan => ?_⟩, fun s hkind hon hlegal => ?_⟩
  · have hbounds := readIndex_bounds (unitPhase_readPhase hphase hmod)
    rw [unitsPerOne_eq] at hbounds
    exact_mod_cast hbounds
  · exact settleNaN_of_number hnum ..
  · exact fIsNaN_settleNaN hnan ..
  · intro pr r i f k read saw v q inside
    rw [exec_osc_of_wt hkind hon]
    by_cases hnoise : s.waveform = .whiteNoise
    · have hv : v = noiseValue (xorshift32 s.noiseState) := by simp only [v, hnoise]
      rw [wtOsc_of_whiteNoise hnoise, advancePhase_eq, hv, if_pos hnoise]
      rfl
    · have hv : tableSample s (readPhase s) = v := by
        simp only [tableSample, sawRead_eq, triRead_eq, squareSample, readIndex_eq, readFraction_eq]
        cases hw : s.waveform with
        | whiteNoise => exact absurd hw hnoise
        | sine | sawUp | sawDown | triangle | square => simp only [v, hw]; rfl
        | heldNoise | heldPn | expo => exact absurd hlegal (by simp [hkind, hw, waveformLegal, Waveform.code])
      rw [wtOsc_of_table hnoise, advancePhase_eq, hv, if_neg hnoise]
      rfl

end Sys2Proof.Machine
end

section
/-! The fixed-point sines of the bank against the real sine (spec 42_wavetable.md R233; notes/assumptions/5.md): every
series is an alternating one, cut off below one unit of 2^-p, and each of its steps truncates by less than a few units. -/

namespace Sys2Proof.Machine

open Sys2Proof

/-! ### Alternating sums -/

/-- The alternating sum of the first n terms of w. -/
def altSum (w : ℕ → ℝ) (n : ℕ) : ℝ := ∑ i ∈ Finset.range n, (-1) ^ i * w i

theorem altSum_zero (w : ℕ → ℝ) : altSum w 0 = 0 := rfl

/-- The series loops run from the first term: what follows it is subtracted. -/
theorem altSum_succ (w : ℕ → ℝ) (n : ℕ) : altSum w (n + 1) = w 0 - altSum (fun i => w (i + 1)) n := by
  simp only [altSum, Finset.sum_range_succ', pow_succ, pow_zero, one_mul, mul_neg, mul_one, neg_mul,
    Finset.sum_neg_distrib]
  ring

/-- Leibniz: the sum of a falling alternating series differs from a finite part of it by at most the next term. -/
theorem abs_altSum_sub_le {w : ℕ → ℝ} {l : ℝ} (hanti : Antitone w) (hpos : ∀ i, 0 ≤ w i)
    (hsum : HasSum (fun i => (-1) ^ i * w i) l) (n : ℕ) : |altSum w n - l| ≤ w n := by
  have habs : (fun i => |(-1) ^ i * w i|) = w := by
    funext i
    rw [abs_mul, abs_neg_one_pow, one_mul, abs_of_nonneg (hpos i)]
  have hw : Summable w := habs ▸ hsum.summable.abs
  rw [abs_sub_comm, ← hsum.tsum_eq]
  exact alternating_series_error_bound w hanti hw n

/-! ### Quotients in fixed point -/

theorem natCast_div_le_of_le {t d : ℕ} {x : ℝ} (hd : 0 < d) (h : (t : ℝ) ≤ x) : ((t / d : ℕ) : ℝ) ≤ x / d :=
  Nat.cast_div_le.trans (by gcongr)

/-- A quotient loses less than 1 to its floor, for any real up to 1 above the numerator. -/
theorem div_le_natCast_div_add_one {t d : ℕ} {x : ℝ} (hd : 0 < d) (h : x ≤ t + 1) : x / d ≤ ((t / d : ℕ) : ℝ) + 1 := by
  have hnat : t + 1 ≤ (t / d + 1) * d := by
    rw [mul_comm]
    exact Nat.lt_mul_div_succ t hd
  rw [div_le_iff₀ (by exact_mod_cast hd)]
  exact h.trans (by exact_mod_cast hnat)

/-! ### The arctangents of Machin's formula -/

/-- The i-th term of the arctangent loop from the divisor k on: x / ((k + 2i)·d2^i). -/
noncomputable def atanTerm (d2 : ℕ) (x : ℝ) (k i : ℕ) : ℝ := x / ((k + 2 * i : ℕ) * (d2 : ℝ) ^ i)

theorem atanTerm_zero (d2 : ℕ) (x : ℝ) (k : ℕ) : atanTerm d2 x k 0 = x / k := by simp [atanTerm]

theorem atanTerm_succ (d2 : ℕ) (x : ℝ) (k i : ℕ) : atanTerm d2 x k (i + 1) = atanTerm d2 (x / d2) (k + 2) i := by
  rw [atanTerm, atanTerm, show k + 2 * (i + 1) = k + 2 + 2 * i by ring, pow_succ, div_div]
  ring_nf

theorem atanTail_succ (d2 n t k : ℕ) : atanTail d2 (n + 1) t k = t / k - atanTail d2 n (t / d2) (k + 2) := by
  simp only [atanTail, force_eq]

theorem atanTail_le (d2 n t k : ℕ) : atanTail d2 n t k ≤ t / k := by
  cases n with
  | zero => exact Nat.zero_le _
  | succ n => rw [atanTail_succ]; exact Nat.sub_le ..

/-- The subtraction of the loop is exact, since the terms fall. -/
theorem atanTail_rest_le (d2 n t : ℕ) {k : ℕ} (hk : 0 < k) : atanTail d2 n (t / d2) (k + 2) ≤ t / k :=
  calc atanTail d2 n (t / d2) (k + 2) ≤ t / d2 / (k + 2) := atanTail_le ..
    _ ≤ t / (k + 2) := Nat.div_le_div_right (Nat.div_le_self ..)
    _ ≤ t / k := Nat.div_le_div_left (by omega) hk

/-- Each step of the loop truncates by at most one unit. -/
theorem abs_atanTail_sub_le {d2 : ℕ} (hd : 0 < d2) (n : ℕ) {t k : ℕ} {x : ℝ} (hk : 0 < k) (hlo : (t : ℝ) ≤ x)
    (hhi : x ≤ t + 1) : |(atanTail d2 n t k : ℝ) - altSum (atanTerm d2 x k) n| ≤ n := by
  induction n generalizing t k x with
  | zero => simp [atanTail, altSum_zero]
  | succ n ih =>
    have hrest := ih (k := k + 2) (by omega) (natCast_div_le_of_le hd hlo) (div_le_natCast_div_add_one hd hhi)
    have hlow := natCast_div_le_of_le hk hlo
    have hhigh := div_le_natCast_div_add_one hk hhi
    rw [atanTail_succ, Nat.cast_sub (atanTail_rest_le d2 n t hk), altSum_succ, atanTerm_zero]
    simp only [atanTerm_succ]
    rw [abs_le] at hrest ⊢
    push_cast
    constructor <;> linarith

theorem atanTerm_nonneg {d2 : ℕ} {x : ℝ} (hx : 0 ≤ x) (k i : ℕ) : 0 ≤ atanTerm d2 x k i := by
  unfold atanTerm
  positivity

theorem atanTerm_antitone {d2 k : ℕ} {x : ℝ} (hd : 0 < d2) (hk : 0 < k) (hx : 0 ≤ x) : Antitone (atanTerm d2 x k) := by
  refine antitone_nat_of_succ_le fun i => ?_
  have hd' : (1 : ℝ) ≤ d2 := by exact_mod_cast hd
  have hden : (0 : ℝ) < (k + 2 * i : ℕ) := by exact_mod_cast (by omega : 0 < k + 2 * i)
  unfold atanTerm
  gcongr
  · omega
  · omega

/-- The arctangent loop sums 2^p·arctan(1/d). -/
theorem hasSum_atanTerm (p : ℕ) {d : ℕ} (hd : 1 < d) :
    HasSum (fun i => (-1) ^ i * atanTerm (d * d) (2 ^ p / d) 1 i) (2 ^ p * Real.arctan (d : ℝ)⁻¹) := by
  have hd' : (1 : ℝ) < d := by exact_mod_cast hd
  have hnorm : ‖(d : ℝ)⁻¹‖ < 1 := by
    rw [norm_inv, RCLike.norm_natCast]
    exact inv_lt_one_of_one_lt₀ hd'
  refine ((Real.hasSum_arctan hnorm).mul_left (2 ^ p)).congr_fun fun i => ?_
  have hd0 : (d : ℝ) ≠ 0 := by positivity
  rw [atanTerm, inv_pow]
  push_cast
  field_simp
  ring

/-- The units by which the series of one arctangent can be wrong. -/
def seriesError (p : ℕ) : ℕ := seriesTerms p + 1

theorem abs_atanInvFix_sub_le (p : ℕ) {d : ℕ} (hd : 1 < d) :
    |(atanInvFix p d : ℝ) - 2 ^ p * Real.arctan (d : ℝ)⁻¹| ≤ seriesError p := by
  have hdd : 0 < d * d := by positivity
  have hx : (0 : ℝ) ≤ 2 ^ p / d := by positivity
  have hloop := abs_atanTail_sub_le hdd (seriesTerms p) one_pos
    (natCast_div_le_of_le (t := 2 ^ p) (by omega) (by push_cast; exact le_rfl))
    (div_le_natCast_div_add_one (d := d) (x := 2 ^ p) (by omega) (by push_cast; linarith))
  have hseries := abs_altSum_sub_le (atanTerm_antitone hdd one_pos hx) (atanTerm_nonneg hx 1)
    (hasSum_atanTerm p hd) (seriesTerms p)
  have hcut : atanTerm (d * d) (2 ^ p / d) 1 (seriesTerms p) ≤ 1 := by
    have hpow : 2 ^ p ≤ d * ((1 + 2 * seriesTerms p) * (d * d) ^ seriesTerms p) :=
      calc 2 ^ p ≤ 2 ^ (2 * seriesTerms p + 1) :=
            Nat.pow_le_pow_right two_pos (by unfold seriesTerms; omega)
        _ ≤ d ^ (2 * seriesTerms p + 1) := Nat.pow_le_pow_left hd _
        _ = d * (1 * (d * d) ^ seriesTerms p) := by rw [← pow_two, ← pow_mul]; ring
        _ ≤ _ := by gcongr; omega
    rw [atanTerm, div_div]
    refine div_le_one_of_le₀ ?_ (by positivity)
    exact_mod_cast hpow
  rw [atanInvFix, force_eq, seriesError]
  rw [abs_le] at hloop hseries ⊢
  push_cast
  constructor <;> linarith

/-- Machin's formula: 16 and 4 arctangents, each wrong by at most `seriesError`. -/
theorem abs_piFix_sub_le {p : ℕ} (hp : 40 * seriesError p ≤ 2 ^ p) :
    |(piFix p : ℝ) - 2 ^ p * Real.pi| ≤ 20 * seriesError p := by
  have h5 := abs_atanInvFix_sub_le p (d := 5) (by norm_num)
  have h239 := abs_atanInvFix_sub_le p (d := 239) (by norm_num)
  have hmachin : 2 ^ p * Real.pi = 16 * (2 ^ p * Real.arctan 5⁻¹) - 4 * (2 ^ p * Real.arctan 239⁻¹) := by
    linear_combination (-4 * 2 ^ p) * Real.four_mul_arctan_inv_5_sub_arctan_inv_239
  have hp' : (40 : ℝ) * seriesError p ≤ 2 ^ p := by exact_mod_cast hp
  have hpi : (2 ^ p : ℝ) ≤ 2 ^ p * Real.pi :=
    le_mul_of_one_le_right (by positivity) (by linarith [Real.pi_gt_three])
  rw [abs_le] at h5 h239
  push_cast at h5 h239
  have hsub : 4 * atanInvFix p 239 ≤ 16 * atanInvFix p 5 := by
    have hreal : (4 : ℝ) * atanInvFix p 239 ≤ 16 * atanInvFix p 5 := by linarith
    exact_mod_cast hreal
  rw [piFix, Nat.cast_sub hsub, hmachin, abs_le]
  push_cast
  constructor <;> linarith

/-! ### The sine and cosine series -/

/-- The i-th term of the sine and cosine loop from the exponent k on: x·y^i·k!/(k + 2i)!. -/
noncomputable def trigTerm (y x : ℝ) (k i : ℕ) : ℝ := x * y ^ i * k.factorial / (k + 2 * i).factorial

theorem trigTerm_zero (y x : ℝ) (k : ℕ) : trigTerm y x k 0 = x := by
  have hfact : (k.factorial : ℝ) ≠ 0 := by positivity
  simp [trigTerm, hfact]

theorem trigTerm_succ (y x : ℝ) (k i : ℕ) :
    trigTerm y x k (i + 1) = trigTerm y (x * y / ((k + 1) * (k + 2) : ℕ)) (k + 2) i := by
  have hfact : ((k + 2).factorial : ℝ) = ((k + 1) * (k + 2) : ℕ) * k.factorial := by
    rw [Nat.factorial_succ, Nat.factorial_succ]
    push_cast
    ring
  have hne : (((k + 1) * (k + 2) : ℕ) : ℝ) ≠ 0 := by positivity
  rw [trigTerm, trigTerm, hfact, show k + 2 * (i + 1) = k + 2 + 2 * i by ring]
  field_simp
  ring

theorem trigTail_succ (p x2 n t k : ℕ) :
    trigTail p x2 (n + 1) t k = t - trigTail p x2 n (t * x2 / 2 ^ p / ((k + 1) * (k + 2))) (k + 2) := by
  cases t with
  | zero => simp [trigTail]
  | succ t => simp only [trigTail, force_eq]

theorem trigTail_le (p x2 n t k : ℕ) : trigTail p x2 n t k ≤ t := by
  cases n with
  | zero => exact Nat.zero_le t
  | succ n => rw [trigTail_succ]; exact Nat.sub_le ..

/-- The terms fall for an angle of at most 1. -/
theorem trigStep_le {p x2 : ℕ} (hx2 : x2 ≤ 2 ^ p) (t k : ℕ) : t * x2 / 2 ^ p / ((k + 1) * (k + 2)) ≤ t :=
  calc t * x2 / 2 ^ p / ((k + 1) * (k + 2)) ≤ t * x2 / 2 ^ p := Nat.div_le_self ..
    _ ≤ t * 2 ^ p / 2 ^ p := Nat.div_le_div_right (Nat.mul_le_mul_left t hx2)
    _ = t := Nat.mul_div_cancel t (by positivity)

/-- A term of the loop that is up to 3 units below the real one stays so: the truncated square adds one unit, the
division by (k + 1)(k + 2) ≥ 2 halves, and the floor adds one again. -/
theorem trigStep_bounds {p x2 t k : ℕ} {x y : ℝ} (ht : t ≤ 2 ^ p) (hy : y ≤ 1) (hlo2 : (x2 : ℝ) ≤ 2 ^ p * y)
    (hhi2 : 2 ^ p * y ≤ x2 + 1) (hlo : (t : ℝ) ≤ x) (hhi : x ≤ t + 3) :
    ((t * x2 / 2 ^ p / ((k + 1) * (k + 2)) : ℕ) : ℝ) ≤ x * y / ((k + 1) * (k + 2) : ℕ) ∧
      x * y / ((k + 1) * (k + 2) : ℕ) ≤ ((t * x2 / 2 ^ p / ((k + 1) * (k + 2)) : ℕ) : ℝ) + 3 := by
  have hp : (0 : ℝ) < 2 ^ p := by positivity
  have hy0 : 0 ≤ y := nonneg_of_mul_nonneg_right ((Nat.cast_nonneg x2).trans hlo2) hp
  have htp : (t : ℝ) ≤ 2 ^ p := by exact_mod_cast ht
  have hc : (2 : ℝ) ≤ ((k + 1) * (k + 2) : ℕ) := by exact_mod_cast (by nlinarith : 2 ≤ (k + 1) * (k + 2))
  have hexact : ((t * x2 : ℕ) : ℝ) / 2 ^ p ≤ t * y := by
    rw [div_le_iff₀ hp]
    push_cast
    nlinarith [(Nat.cast_nonneg t : (0 : ℝ) ≤ t)]
  have hover : t * y ≤ ((t * x2 : ℕ) : ℝ) / 2 ^ p + 1 := by
    rw [← sub_le_iff_le_add, le_div_iff₀ hp]
    push_cast
    nlinarith [(Nat.cast_nonneg t : (0 : ℝ) ≤ t)]
  constructor
  · refine natCast_div_le_of_le (by positivity) ?_
    have hfloor : ((t * x2 / 2 ^ p : ℕ) : ℝ) ≤ ((t * x2 : ℕ) : ℝ) / 2 ^ p := by exact_mod_cast Nat.cast_div_le (α := ℝ)
    exact hfloor.trans (hexact.trans (by gcongr))
  · have hfloor := div_le_natCast_div_add_one (t := t * x2) (d := 2 ^ p * ((k + 1) * (k + 2)))
      (x := ((t * x2 : ℕ) : ℝ)) (by positivity) (by linarith)
    rw [← Nat.div_div_eq_div_mul, Nat.cast_mul (2 ^ p), ← div_div, Nat.cast_pow, Nat.cast_ofNat] at hfloor
    have hslack : x * y ≤ ((t * x2 : ℕ) : ℝ) / 2 ^ p + 4 := by nlinarith
    have hhalf : (4 : ℝ) / ((k + 1) * (k + 2) : ℕ) ≤ 2 := by
      rw [div_le_iff₀ (by linarith)]
      linarith
    calc x * y / ((k + 1) * (k + 2) : ℕ)
        ≤ (((t * x2 : ℕ) : ℝ) / 2 ^ p + 4) / ((k + 1) * (k + 2) : ℕ) := by gcongr
      _ ≤ _ := by rw [add_div]; linarith

/-- Each step of the loop truncates by at most three units. -/
theorem abs_trigTail_sub_le {p x2 : ℕ} {y : ℝ} (hy : y ≤ 1) (hlo2 : (x2 : ℝ) ≤ 2 ^ p * y) (hhi2 : 2 ^ p * y ≤ x2 + 1)
    (n : ℕ) {t k : ℕ} {x : ℝ} (ht : t ≤ 2 ^ p) (hlo : (t : ℝ) ≤ x) (hhi : x ≤ t + 3) :
    |(trigTail p x2 n t k : ℝ) - altSum (trigTerm y x k) n| ≤ 3 * n := by
  have hx2 : x2 ≤ 2 ^ p := by
    have hreal : (x2 : ℝ) ≤ 2 ^ p := hlo2.trans (mul_le_of_le_one_right (by positivity) hy)
    exact_mod_cast hreal
  induction n generalizing t k x with
  | zero => simp [trigTail, altSum_zero]
  | succ n ih =>
    obtain ⟨hlow, hhigh⟩ := trigStep_bounds (k := k) ht hy hlo2 hhi2 hlo hhi
    have hfall := trigStep_le hx2 t k
    have hrest := ih (k := k + 2) (hfall.trans ht) hlow hhigh
    rw [trigTail_succ, Nat.cast_sub ((trigTail_le ..).trans hfall), altSum_succ, trigTerm_zero]
    simp only [trigTerm_succ]
    rw [abs_le] at hrest ⊢
    push_cast at hrest ⊢
    constructor <;> linarith

end Sys2Proof.Machine
end

section
/-! The entries of the sine table: the fixed-point sine of a quarter turn, the turn from it, and its one rounding (spec
42_wavetable.md R233). -/

namespace Sys2Proof.Machine

open Sys2Proof

/-! ### The series of one angle -/

theorem trigTerm_nonneg {y x : ℝ} (hy : 0 ≤ y) (hx : 0 ≤ x) (k i : ℕ) : 0 ≤ trigTerm y x k i := by
  unfold trigTerm
  positivity

theorem trigTerm_antitone {y x : ℝ} (hy : 0 ≤ y) (hy1 : y ≤ 1) (hx : 0 ≤ x) (k : ℕ) : Antitone (trigTerm y x k) := by
  refine antitone_nat_of_succ_le fun i => ?_
  have hpow : y ^ (i + 1) ≤ y ^ i := pow_le_pow_of_le_one hy hy1 i.le_succ
  have hfact : ((k + 2 * i).factorial : ℝ) ≤ (k + 2 * (i + 1)).factorial := by
    exact_mod_cast Nat.factorial_le (by omega : k + 2 * i ≤ k + 2 * (i + 1))
  unfold trigTerm
  gcongr

theorem hasSum_trigTerm_sin (p : ℕ) (x : ℝ) :
    HasSum (fun i => (-1) ^ i * trigTerm (x ^ 2) (2 ^ p * x) 1 i) (2 ^ p * Real.sin x) := by
  refine ((Real.hasSum_sin x).mul_left (2 ^ p)).congr_fun fun i => ?_
  rw [trigTerm, Nat.factorial_one, add_comm 1, ← pow_mul]
  push_cast
  ring

theorem hasSum_trigTerm_cos (p : ℕ) (x : ℝ) :
    HasSum (fun i => (-1) ^ i * trigTerm (x ^ 2) (2 ^ p) 0 i) (2 ^ p * Real.cos x) := by
  refine ((Real.hasSum_cos x).mul_left (2 ^ p)).congr_fun fun i => ?_
  rw [trigTerm, Nat.factorial_zero, zero_add, ← pow_mul]
  push_cast
  ring

/-- A factorial outgrows the powers of two: p/2 terms reach past 2^-p. -/
theorem two_pow_le_four_mul_factorial {p m : ℕ} (h : p ≤ m + 1) : 2 ^ p ≤ 4 * m.factorial := by
  cases m with
  | zero => exact (Nat.pow_le_pow_right two_pos h).trans (by simp)
  | succ j =>
    have hgrow : 2 ^ j ≤ (j + 1).factorial := by
      simpa [add_comm] using Nat.factorial_mul_pow_le_factorial (m := 1) (n := j)
    calc 2 ^ p ≤ 2 ^ (j + 2) := Nat.pow_le_pow_right two_pos h
      _ = 4 * 2 ^ j := by ring
      _ ≤ 4 * (j + 1).factorial := Nat.mul_le_mul_left 4 hgrow

/-- The first term that the loops cut off, from the exponent 0 or 1 on. -/
theorem trigTerm_seriesTerms_le {p k : ℕ} {y x : ℝ} (hk : k ≤ 1) (hy : 0 ≤ y) (hy1 : y ≤ 1) (hx : 0 ≤ x)
    (hxp : x ≤ 2 ^ p) : trigTerm y x k (seriesTerms p) ≤ 4 := by
  have hpow : (2 : ℝ) ^ p ≤ 4 * (k + 2 * seriesTerms p).factorial := by
    exact_mod_cast two_pow_le_four_mul_factorial (by unfold seriesTerms; omega : p ≤ k + 2 * seriesTerms p + 1)
  have hfact : k.factorial = 1 := by interval_cases k <;> rfl
  rw [trigTerm, hfact, Nat.cast_one, mul_one, div_le_iff₀ (by positivity)]
  exact (mul_le_of_le_one_right hx (pow_le_one₀ hy hy1)).trans (hxp.trans hpow)

/-- One loop against the sum of its series, for the angle x/2^p and its truncated square: `k` is 1 for the sine and 0
for the cosine. -/
theorem abs_trigTail_sub_sum_le {p x t k : ℕ} {l : ℝ} (hk : k ≤ 1) (hx : x ≤ 2 ^ p) (ht : t ≤ 2 ^ p)
    (hsum : HasSum (fun i => (-1) ^ i * trigTerm ((x / 2 ^ p : ℝ) ^ 2) t k i) l) :
    |(trigTail p (x * x / 2 ^ p) (seriesTerms p) t k : ℝ) - l| ≤ 3 * seriesTerms p + 4 := by
  have hangle : (x / 2 ^ p : ℝ) ≤ 1 := div_le_one_of_le₀ (by exact_mod_cast hx) (by positivity)
  have hy : (0 : ℝ) ≤ (x / 2 ^ p : ℝ) ^ 2 := by positivity
  have hy1 : (x / 2 ^ p : ℝ) ^ 2 ≤ 1 := pow_le_one₀ (by positivity) hangle
  have hsquare : (2 : ℝ) ^ p * (x / 2 ^ p : ℝ) ^ 2 = ((x * x : ℕ) : ℝ) / (2 ^ p : ℕ) := by
    push_cast
    field_simp
  have ht0 : (0 : ℝ) ≤ t := Nat.cast_nonneg t
  have hloop := abs_trigTail_sub_le (x2 := x * x / 2 ^ p) hy1
    (hsquare ▸ natCast_div_le_of_le (by positivity) le_rfl)
    (hsquare ▸ div_le_natCast_div_add_one (by positivity) (by linarith)) (seriesTerms p) (k := k) ht le_rfl (by linarith)
  have hseries := abs_altSum_sub_le (trigTerm_antitone hy hy1 ht0 k) (trigTerm_nonneg hy ht0 k) hsum (seriesTerms p)
  have hcut := trigTerm_seriesTerms_le hk hy hy1 ht0 (by exact_mod_cast ht)
  rw [abs_le] at hloop hseries ⊢
  constructor <;> linarith

/-! ### A quarter turn -/

/-- The angle 2π·m/len in fixed point. -/
def angleFix (p len m : ℕ) : ℕ := 2 * piFix p * m / len

/-- An angle of at most an eighth of a turn is wrong by a quarter of π's error and a floor, and is at most 1. -/
theorem angleFix_bounds {p len m : ℕ} (hp : 40 * seriesError p ≤ 2 ^ p) (hlen : 0 < len) (hm : 8 * m ≤ len) :
    |(angleFix p len m : ℝ) - 2 ^ p * (2 * Real.pi * m / len)| ≤ 5 * seriesError p + 1 ∧ angleFix p len m ≤ 2 ^ p := by
  have hpi := abs_piFix_sub_le hp
  have hp' : (40 : ℝ) * seriesError p ≤ 2 ^ p := by exact_mod_cast hp
  have hlen' : (0 : ℝ) < len := by exact_mod_cast hlen
  have heighth : (m / len : ℝ) ≤ 1 / 8 := by
    rw [div_le_div_iff₀ hlen' (by norm_num), one_mul, mul_comm]
    exact_mod_cast hm
  have hturn : (0 : ℝ) ≤ m / len := by positivity
  have hlo := natCast_div_le_of_le (t := 2 * piFix p * m) hlen le_rfl
  have hhi := div_le_natCast_div_add_one (t := 2 * piFix p * m) (x := (2 * piFix p * m : ℕ)) hlen (by linarith)
  have hquot : ((2 * piFix p * m : ℕ) : ℝ) / len = 2 * piFix p * (m / len) := by push_cast; ring
  have hangle : (2 : ℝ) ^ p * (2 * Real.pi * m / len) = 2 * (2 ^ p * Real.pi) * (m / len) := by ring
  rw [hquot] at hlo hhi
  have hscaled : |2 * (piFix p : ℝ) * (m / len) - 2 * (2 ^ p * Real.pi) * (m / len)| ≤ 5 * seriesError p :=
    calc |2 * (piFix p : ℝ) * (m / len) - 2 * (2 ^ p * Real.pi) * (m / len)|
        = 2 * |(piFix p : ℝ) - 2 ^ p * Real.pi| * (m / len) := by
          rw [← sub_mul, ← mul_sub, abs_mul, abs_mul, abs_of_nonneg hturn, abs_two]
      _ ≤ 2 * (20 * seriesError p) * (1 / 8) := by gcongr
      _ = 5 * seriesError p := by ring
  have hreal : (angleFix p len m : ℝ) ≤ 2 ^ p := by
    have hpi4 : (2 : ℝ) ^ p * Real.pi ≤ 2 ^ p * 3.15 := by
      gcongr
      exact Real.pi_lt_d2.le
    rw [abs_le] at hpi
    have htop : 2 * (piFix p : ℝ) * (m / len) ≤ 2 * piFix p * (1 / 8) := by gcongr
    exact hlo.trans (htop.trans (by linarith))
  refine ⟨?_, by exact_mod_cast hreal⟩
  rw [hangle, angleFix]
  rw [abs_le] at hscaled ⊢
  constructor <;> linarith

/-- How far a fixed-point sine can be from the real one, in units. -/
def sineError (p : ℕ) : ℕ := 8 * seriesError p + 5

/-- One loop at an angle of the first eighth of a turn, for the sine or the cosine f: the error of the loop, and that
of the angle, which f does not enlarge. -/
theorem abs_trigLoop_sub_le {p len m t k : ℕ} {f : ℝ → ℝ} (hlip : ∀ a b, |f a - f b| ≤ |a - b|)
    (hp : 40 * seriesError p ≤ 2 ^ p) (hlen : 0 < len) (hm : 8 * m ≤ len) (hk : k ≤ 1) (ht : t ≤ 2 ^ p)
    (hsum : HasSum (fun i => (-1) ^ i * trigTerm ((angleFix p len m / 2 ^ p : ℝ) ^ 2) t k i)
      (2 ^ p * f (angleFix p len m / 2 ^ p))) :
    |(trigTail p (angleFix p len m * angleFix p len m / 2 ^ p) (seriesTerms p) t k : ℝ) -
      2 ^ p * f (2 * Real.pi * m / len)| ≤ sineError p := by
  obtain ⟨hnear, hle⟩ := angleFix_bounds hp hlen hm
  have hloop := abs_trigTail_sub_sum_le hk hle ht hsum
  have hangle : |2 ^ p * f (angleFix p len m / 2 ^ p) - 2 ^ p * f (2 * Real.pi * m / len)| ≤ 5 * seriesError p + 1 :=
    calc |2 ^ p * f (angleFix p len m / 2 ^ p) - 2 ^ p * f (2 * Real.pi * m / len)|
        ≤ 2 ^ p * |(angleFix p len m / 2 ^ p : ℝ) - 2 * Real.pi * m / len| := by
          rw [← mul_sub, abs_mul, abs_of_pos (by positivity)]
          exact mul_le_mul_of_nonneg_left (hlip _ _) (by positivity)
      _ = |(angleFix p len m : ℝ) - 2 ^ p * (2 * Real.pi * m / len)| := by
          rw [← abs_of_pos (show (0 : ℝ) < 2 ^ p by positivity), ← abs_mul, mul_sub,
            abs_of_pos (show (0 : ℝ) < 2 ^ p by positivity), mul_div_cancel₀ _ (by positivity)]
      _ ≤ _ := hnear
  rw [sineError]
  rw [seriesError] at hangle ⊢
  rw [abs_le] at hloop hangle ⊢
  push_cast at hangle ⊢
  constructor <;> linarith

theorem quarterSineFix_of_low {p len m : ℕ} (h : 8 * m ≤ len) :
    quarterSineFix p len m =
      trigTail p (angleFix p len m * angleFix p len m / 2 ^ p) (seriesTerms p) (angleFix p len m) 1 := by
  simp only [quarterSineFix, if_pos h, force_eq, angleFix]

theorem quarterSineFix_of_high {p len m : ℕ} (h : ¬ 8 * m ≤ len) :
    quarterSineFix p len m =
      trigTail p (angleFix p len (len / 4 - m) * angleFix p len (len / 4 - m) / 2 ^ p) (seriesTerms p) (fixOne p) 0 := by
  simp only [quarterSineFix, if_neg h, force_eq, angleFix]

/-- The cosine of an angle is the sine of what is left to a quarter turn. -/
theorem cos_turn_eq_sin {q m : ℕ} (hq : 0 < q) (hm : m ≤ q) :
    Real.cos (2 * Real.pi * (q - m : ℕ) / (4 * q : ℕ)) = Real.sin (2 * Real.pi * m / (4 * q : ℕ)) := by
  have hq0 : (q : ℝ) ≠ 0 := by exact_mod_cast hq.ne'
  rw [← Real.cos_pi_div_two_sub]
  congr 1
  push_cast [Nat.cast_sub hm]
  field_simp
  ring

/-- The fixed-point sine of any step of a quarter turn is within `sineError` units of the real one. -/
theorem abs_quarterSineFix_sub_le {p q m : ℕ} (hp : 40 * seriesError p ≤ 2 ^ p) (hq : 0 < q) (hm : m ≤ q) :
    |(quarterSineFix p (4 * q) m : ℝ) - 2 ^ p * Real.sin (2 * Real.pi * m / (4 * q : ℕ))| ≤ sineError p := by
  by_cases hlow : 8 * m ≤ 4 * q
  · rw [quarterSineFix_of_low hlow]
    have hsum := hasSum_trigTerm_sin p (angleFix p (4 * q) m / 2 ^ p)
    rw [mul_div_cancel₀ _ (by positivity)] at hsum
    exact abs_trigLoop_sub_le Real.abs_sin_sub_sin_le hp (by omega) hlow le_rfl
      (angleFix_bounds hp (by omega) hlow).2 hsum
  · rw [quarterSineFix_of_high hlow, Nat.mul_div_cancel_left q (by norm_num), ← cos_turn_eq_sin hq hm]
    have hsum := hasSum_trigTerm_cos p (angleFix p (4 * q) (q - m) / 2 ^ p)
    exact abs_trigLoop_sub_le Real.abs_cos_sub_cos_le hp (by omega) (by omega) zero_le_one le_rfl
      (by simpa [fixOne] using hsum)

/-! ### The whole turn -/

/-- A sign flag applied to a real number. -/
def withSign (neg : Bool) (x : ℝ) : ℝ := if neg then -x else x

theorem withSign_zero (neg : Bool) : withSign neg 0 = 0 := by cases neg <;> simp [withSign]

theorem withSign_mul (neg : Bool) (x c : ℝ) : withSign neg (x * c) = withSign neg x * c := by
  cases neg <;> simp [withSign]

/-- Every step of the turn is a step m of the first quarter with a sign, for the fixed-point sine and for the real one. -/
theorem exists_quarter_of_turn (p : ℕ) {q : ℕ} (hq : 0 < q) (i : ℕ) :
    ∃ m ≤ q, ∃ neg : Bool,
      sineTurn p (4 * q) i = (if neg then -(quarterSineFix p (4 * q) m : Int) else quarterSineFix p (4 * q) m) ∧
      Real.sin (2 * Real.pi * i / (4 * q : ℕ)) = withSign neg (Real.sin (2 * Real.pi * m / (4 * q : ℕ))) := by
  have hq0 : (q : ℝ) ≠ 0 := by exact_mod_cast hq.ne'
  have hr : i % q < q := Nat.mod_lt i hq
  have hlen : 4 * q / 4 = q := Nat.mul_div_cancel_left q (by norm_num)
  set r := i % q with hr_def
  set b := i / q / 4 with hb
  have hangle (c : ℕ) (hc : i / q % 4 = c) :
      2 * Real.pi * i / (4 * q : ℕ) = 2 * Real.pi * r / (4 * q : ℕ) + c * (Real.pi / 2) + b * (2 * Real.pi) := by
    have hi : (i : ℝ) = q * (4 * b + c) + r := by
      have hnat : i = q * (4 * b + c) + r := by
        rw [hb, ← hc, Nat.div_add_mod, hr_def, Nat.div_add_mod]
      exact_mod_cast hnat
    rw [hi]
    push_cast
    field_simp
    ring
  have hcos := cos_turn_eq_sin (m := q - r) hq (Nat.sub_le ..)
  rw [Nat.sub_sub_self hr.le] at hcos
  have hc4 : i / q % 4 < 4 := Nat.mod_lt _ (by norm_num)
  obtain hc | hc | hc | hc : i / q % 4 = 0 ∨ i / q % 4 = 1 ∨ i / q % 4 = 2 ∨ i / q % 4 = 3 := by omega
  · refine ⟨r, hr.le, false, by simp [sineTurn, hlen, hc, hr_def], ?_⟩
    rw [hangle 0 hc, Real.sin_add_nat_mul_two_pi]
    simp [withSign]
  · refine ⟨q - r, Nat.sub_le .., false, by simp [sineTurn, hlen, hc, hr_def], ?_⟩
    rw [hangle 1 hc, Real.sin_add_nat_mul_two_pi, Nat.cast_one, one_mul, Real.sin_add_pi_div_two, hcos]
    simp [withSign]
  · refine ⟨r, hr.le, true, by simp [sineTurn, hlen, hc, hr_def], ?_⟩
    rw [hangle 2 hc, Real.sin_add_nat_mul_two_pi, Nat.cast_ofNat, mul_div_cancel₀ _ two_ne_zero, Real.sin_add_pi]
    simp [withSign]
  · refine ⟨q - r, Nat.sub_le .., true, by simp [sineTurn, hlen, hc, hr_def], ?_⟩
    have hthree : (3 : ℕ) * (Real.pi / 2) = Real.pi / 2 + Real.pi := by push_cast; ring
    rw [hangle 3 hc, Real.sin_add_nat_mul_two_pi, hthree, ← add_assoc, Real.sin_add_pi, Real.sin_add_pi_div_two, hcos]
    simp [withSign]

/-! ### The one rounding -/

/-- A point that is nearest to both ends of an interval is nearest to all of it. -/
theorem abs_sub_le_of_between {a b u v x : ℝ} (hu : |a - u| ≤ |b - u|) (hv : |a - v| ≤ |b - v|) (hux : u ≤ x)
    (hxv : x ≤ v) : |a - x| ≤ |b - x| := by
  rw [← sq_le_sq] at hu hv ⊢
  rcases le_total a b with hab | hab
  · nlinarith [mul_nonneg (sub_nonneg.mpr hab) (sub_nonneg.mpr hxv)]
  · nlinarith [mul_nonneg (sub_nonneg.mpr hab) (sub_nonneg.mpr hux)]

/-- The rounded quotient is nearest to the quotient itself, over the reals. -/
theorem abs_fRound_sub_le {n d : ℕ} (hd : 0 < d) (neg : Bool) {y : F64} (hy : fIsFinite y = true) :
    |(fInt (fRound neg n d) : ℝ) * d - withSign neg n| ≤ |(fInt y : ℝ) * d - withSign neg n| := by
  have hsign : withSign neg n = ((if neg then -(n : Int) else n : Int) : ℝ) := by
    cases neg <;> simp [withSign]
  rw [hsign]
  exact_mod_cast fInt_fRound_nearest hy neg n d hd

/-- Where both ends of an interval round to one value, it is nearest to every real between them. -/
theorem abs_fRound_sub_le_of_between {n n₁ n₂ d : ℕ} (hd : 0 < d) (halike : roundMag n₁ d = roundMag n₂ d)
    (hn₁ : n₁ ≤ n) (hn₂ : n ≤ n₂) {x : ℝ} (hx₁ : (n₁ : ℝ) ≤ x) (hx₂ : x ≤ n₂) (neg : Bool) {y : F64}
    (hy : fIsFinite y = true) :
    |(fInt (fRound neg n d) : ℝ) * d - withSign neg x| ≤ |(fInt y : ℝ) * d - withSign neg x| := by
  have hlow : roundMag n₁ d = roundMag n d :=
    le_antisymm (roundMag_mono _ _ _ _ hd hd (Nat.mul_le_mul_right d hn₁))
      (halike ▸ roundMag_mono _ _ _ _ hd hd (Nat.mul_le_mul_right d hn₂))
  have h₁ := abs_fRound_sub_le (n := n₁) hd neg hy
  have h₂ := abs_fRound_sub_le (n := n₂) hd neg hy
  rw [fRound, hlow, ← fRound] at h₁
  rw [fRound, ← halike, hlow, ← fRound] at h₂
  cases neg with
  | false => exact abs_sub_le_of_between h₁ h₂ hx₁ hx₂
  | true => exact abs_sub_le_of_between h₂ h₁ (neg_le_neg hx₂) (neg_le_neg hx₁)

/-! ### The table (R233) -/

theorem sineError_precision : sineError Config.precision = 1037 := by decide +kernel

theorem precision_suffices : 40 * seriesError Config.precision ≤ 2 ^ Config.precision := by decide +kernel

/-- All reals within `sineError` of the fixed-point value round alike, and none of them is 0. -/
def roundsAlike (v : ℕ) : Bool :=
  1037 < v &&
    roundMag ((v - 1037) * unitsPerOne) (fixOne Config.precision) ==
      roundMag ((v + 1037) * unitsPerOne) (fixOne Config.precision)

theorem pos_of_roundsAlike {v : ℕ} (h : roundsAlike v = true) : 0 < v := by
  rw [roundsAlike, Bool.and_eq_true, decide_eq_true_eq] at h
  omega

/-- No sine of the first quarter turn lies within `sineError` of the middle between two binary64 values: 256 bits are
enough for this table (notes/assumptions/5.md). -/
theorem roundsAlike_quarter :
    ∀ m < 256, roundsAlike (quarterSineFix Config.precision Config.tableLen (m + 1)) = true := by
  decide +kernel

theorem sineEntry_zero_of_sineTurn {i : ℕ} (h : sineTurn Config.precision Config.tableLen i = 0) :
    sineEntry i = 0#64 := by
  rw [sineEntry, h]
  rfl

/-- An entry is the one rounding of its fixed-point sine, with the sign of the quadrant. -/
theorem sineEntry_of_sineTurn {i v : ℕ} {neg : Bool} (hpos : 0 < v)
    (h : sineTurn Config.precision Config.tableLen i = if neg then -(v : Int) else v) :
    sineEntry i = fRound neg (v * unitsPerOne) (fixOne Config.precision) := by
  have hne : sineTurn Config.precision Config.tableLen i ≠ 0 := by
    rw [h]; cases neg <;> simp <;> omega
  have hsign : decide (sineTurn Config.precision Config.tableLen i < 0) = neg := by
    rw [h]; cases neg <;> simp; omega
  have habs : (sineTurn Config.precision Config.tableLen i).natAbs = v := by
    rw [h]; cases neg <;> simp
  rw [sineEntry, normalized, if_neg hne, round64, hsign, habs]

theorem quarterSineFix_zero : quarterSineFix Config.precision Config.tableLen 0 = 0 := by decide +kernel

/-- A fixed-point sine that rounds as its neighbours do rounds to a binary64 nearest to the real sine, in units. -/
theorem abs_fRound_sine_sub_le {v : ℕ} {x : ℝ} (hnear : |(v : ℝ) - 2 ^ Config.precision * x| ≤ 1037)
    (halike : roundsAlike v = true) (neg : Bool) {y : F64} (hy : fIsFinite y = true) :
    |(fInt (fRound neg (v * unitsPerOne) (fixOne Config.precision)) : ℝ) - withSign neg (x * unitsPerOne)| ≤
      |(fInt y : ℝ) - withSign neg (x * unitsPerOne)| := by
  rw [roundsAlike, Bool.and_eq_true, decide_eq_true_eq, beq_iff_eq] at halike
  obtain ⟨hlarge, halike⟩ := halike
  have hone : (fixOne Config.precision : ℝ) = 2 ^ Config.precision := by rw [fixOne]; push_cast; rfl
  have hd : 0 < fixOne Config.precision := Nat.pow_pos two_pos
  have hd' : (0 : ℝ) < fixOne Config.precision := by exact_mod_cast hd
  rw [← hone, abs_le] at hnear
  have hnearest := abs_fRound_sub_le_of_between (n := v * unitsPerOne) (x := fixOne Config.precision * x * unitsPerOne) hd
    halike (Nat.mul_le_mul_right _ (Nat.sub_le ..)) (Nat.mul_le_mul_right _ (Nat.le_add_right ..))
    (by
      rw [Nat.cast_mul, Nat.cast_sub hlarge.le]
      exact mul_le_mul_of_nonneg_right (by push_cast; linarith) (Nat.cast_nonneg _))
    (by
      rw [Nat.cast_mul, Nat.cast_add]
      exact mul_le_mul_of_nonneg_right (by push_cast; linarith) (Nat.cast_nonneg _))
    neg hy
  rw [mul_assoc, mul_comm (fixOne Config.precision : ℝ) (x * _), withSign_mul, ← sub_mul, ← sub_mul, abs_mul, abs_mul]
    at hnearest
  exact le_of_mul_le_mul_right hnearest (abs_pos.mpr hd'.ne')

/-- No finite value is nearer to the real sine, in units, than the entry. -/
theorem abs_sineEntry_sub_le (i : ℕ) {y : F64} (hy : fIsFinite y = true) :
    |(fInt (sineEntry i) : ℝ) - Real.sin (2 * Real.pi * i / 1024) * unitsPerOne| ≤
      |(fInt y : ℝ) - Real.sin (2 * Real.pi * i / 1024) * unitsPerOne| := by
  have hlen : Config.tableLen = 4 * 256 := rfl
  have hturnLen : ((4 * 256 : ℕ) : ℝ) = 1024 := by norm_num
  obtain ⟨m, hm, neg, hturn, hsin⟩ := exists_quarter_of_turn Config.precision (q := 256) (by norm_num) i
  have hnear := abs_quarterSineFix_sub_le precision_suffices (q := 256) (by norm_num) hm
  rw [sineError_precision] at hnear
  rw [hturnLen] at hsin hnear
  rw [← hlen] at hturn hnear
  rw [hsin, ← withSign_mul]
  rcases Nat.eq_zero_or_pos m with rfl | hmpos
  · have hentry : sineEntry i = 0#64 := sineEntry_zero_of_sineTurn (by rw [hturn, quarterSineFix_zero]; simp)
    have hint : fInt (0#64) = 0 := by decide
    rw [hentry, hint, Nat.cast_zero, mul_zero, zero_div, Real.sin_zero, zero_mul, withSign_zero, Int.cast_zero, sub_zero,
      abs_zero]
    exact abs_nonneg _
  · obtain ⟨m, rfl⟩ := Nat.exists_eq_add_of_le' hmpos
    have halike := roundsAlike_quarter m (by omega)
    rw [sineEntry_of_sineTurn (pos_of_roundsAlike halike) hturn]
    exact abs_fRound_sine_sub_le hnear halike neg hy

theorem unitsPerOne_cast : (unitsPerOne : ℝ) = 2 ^ 1074 := by
  rw [unitsPerOne_eq, Nat.cast_pow, Nat.cast_ofNat]

/-- Settles O44: nearness in units is nearness of the values; the named entries are evaluated. -/
theorem sineTableIsNearest : Obligations.SineTableIsNearest := by
  refine ⟨fun i _ y hy => ?_, by decide +kernel, by decide +kernel, by decide +kernel, by decide +kernel,
    by decide +kernel, by decide +kernel, by decide +kernel⟩
  have hpos : (0 : ℝ) < unitsPerOne := by exact_mod_cast unitsPerOne_pos
  have hunits := abs_sineEntry_sub_le i hy
  rw [← unitsPerOne_cast]
  generalize Real.sin (2 * Real.pi * i / 1024) = x at hunits ⊢
  have hscale (z : ℝ) : |z / unitsPerOne - x| = |z - x * unitsPerOne| / unitsPerOne := by
    rw [div_sub' hpos.ne', abs_div, abs_of_pos hpos, mul_comm x]
  rw [hscale, hscale]
  exact div_le_div_of_nonneg_right hunits hpos.le

end Sys2Proof.Machine
end

section
/-! The rendering OSC of a QBL: the segment of its waveform and what becomes of the difference (spec 43_qbl.md R273 to
R278, 40_generator_base.md R149). -/

namespace Sys2Proof.Machine

open Sys2Proof

/-! ### The segment (R274, R275) -/

/-- A QBL plays a saw or the triangle (R39). -/
theorem waveformLegal_qbl_iff (w : Waveform) :
    waveformLegal .qbl w = true ↔ (w = .sawUp ∨ w = .sawDown) ∨ w = .triangle := by
  cases w <;> decide

/-- Both saws take the saw's parabola and leave DPW_TOGGLE as it stands. -/
theorem qblSegment_of_saw {s : State} (h : s.waveform = .sawUp ∨ s.waveform = .sawDown) (pr : F64) :
    qblSegment s pr = (sawRaw pr, s.increment, s.setDpwToggle s.dpwToggle) := by
  obtain h | h := h <;> rw [qblSegment, h] <;> rfl

/-- The triangle takes the parabola of its half cycle, whose sign it leaves in DPW_TOGGLE. -/
theorem qblSegment_of_triangle {s : State} (h : s.waveform = .triangle) (pr : F64) :
    qblSegment s pr = (triRaw pr, fMul fTwo s.increment, s.setDpwToggle (triSign pr)) := by
  rw [qblSegment, h]

/-! ### The render (R273) -/

/-- The phase step neither reads nor writes the differentiator's registers. -/
theorem advancePhase_setDpwToggle_setDpwPrev (s : State) (toggle raw : F64) :
    advancePhase ((s.setDpwToggle toggle).setDpwPrev raw) =
      ((advancePhase s).setDpwToggle toggle).setDpwPrev raw := rfl

/-- What a render writes, by what its segment yields. -/
theorem qblOsc_of_qblSegment {s : State} {raw delta toggle : F64}
    (h : qblSegment s (readPhase s) = (raw, delta, s.setDpwToggle toggle)) :
    qblOsc s = (((advancePhase s).setDpwToggle toggle).setDpwPrev raw).setOutputs
      (scaleOut s (qblShape s.waveform (dpwDifference s.dpwPrev raw delta)))
      (scaleOut s (qblShape s.waveform (dpwDifference s.dpwPrev raw delta))) := by
  rw [qblOsc, h, advancePhase_setDpwToggle_setDpwPrev]

/-- The writes of a render and its response, register by register. -/
theorem respond_qblWrites (s : State) (phase toggle raw o : F64) (wrapped : Bool) :
    ((((s.setPhase phase wrapped).setDpwToggle toggle).setDpwPrev raw).setOutputs o o).respond 0#64 =
      { s with
        dpwToggle := toggle
        dpwPrev := raw
        phase := phase
        wrapPending := wrapped
        out := o
        aux := o
        rdata := 0#64 } := rfl

theorem exec_osc_of_qbl {s : State} (hkind : s.kind = .qbl) (hon : s.noteOn = true) :
    exec .osc s = .next ((qblOsc s).respond 0#64) := by
  obtain ⟨hoff, -⟩ | ⟨-, hosc⟩ := execOsc_cases s
  · rw [hon] at hoff; contradiction
  · rw [oscRender_spec, hkind] at hosc
    exact hosc

/-- Settles O48: the waveform fixes the segment, with the toggle it leaves behind, and what becomes of the
difference; the rest of the render is that of every waveform. -/
theorem qblOscRenders : Obligations.QblOscRenders := by
  intro s hkind hon hlegal pr tri half sign b u c raw delta y v q inside
  rw [State.WaveformOk, hkind, waveformLegal_qbl_iff] at hlegal
  have hseg : qblSegment s (readPhase s) = (raw, delta, s.setDpwToggle (if tri then sign else s.dpwToggle)) := by
    obtain hsaw | htri := hlegal
    · have hfalse : tri = false := by obtain hw | hw := hsaw <;> simp [tri, hw]
      simp only [raw, delta, hfalse]
      exact qblSegment_of_saw hsaw _
    · have htrue : tri = true := by simp [tri, htri]
      simp only [raw, delta, htrue]
      exact qblSegment_of_triangle htri _
  have hv : qblShape s.waveform (dpwDifference s.dpwPrev raw delta) = v := by
    obtain (hw | hw) | hw := hlegal
    all_goals simp only [v, tri, hw]; rfl
  rw [exec_osc_of_qbl hkind hon, qblOsc_of_qblSegment hseg, advancePhase_eq, hv, respond_qblWrites]

end Sys2Proof.Machine
end

section
/-! Decoding and encoding as inverses of each other, the operand word, and the words written out in the opcode map
(spec 30_encoding.md R100 to R105). -/

namespace Sys2Proof.Machine

open Sys2Proof Sys2Proof.Laws

/-! ### Selectors in canonical form -/

theorem selOfNumber_selNumber {sel : RegSel} (h : sel.wellFormed = true) : selOfNumber (selNumber sel) = sel := by
  cases sel with
  | assigned r => exact selOfNumber_number r
  | unassigned n => exact selOfNumber_of_unassignedNumber h

theorem wellFormed_selOfNumber (n : BitVec 8) : (selOfNumber n).wellFormed = true := by
  unfold selOfNumber
  split
  next => rfl
  next hnone => exact regOfNumber_eq_none_iff.mp hnone

/-! ### The round trip -/

theorem decode_cmdWord_seven (n : BitVec 8) (d : Word) :
    decode { cmd := cmdWord 0x07#8 n, data := d } = .ok (.wreg (selOfNumber n) d) := by
  have hrsv : cmdRsv (cmdWord 0x07#8 n) = 0#16 := cmdRsv_cmdWord _ _
  have hop : cmdOp (cmdWord 0x07#8 n) = 0x07#8 := cmdOp_cmdWord _ _
  rw [decode_of_cmdOp_eq_seven (c := { cmd := cmdWord 0x07#8 n, data := d }) hrsv hop, cmdReg_cmdWord]

/-- Settles O2: the fields of an encoding are those it was put together from, and a selector in canonical form is
the one its number stands for. -/
theorem decodeEncodeRoundTrip : Obligations.DecodeEncodeRoundTrip := by
  intro i hwf
  cases i with
  | nop | reset | update | start | stop | osc | setsr =>
    simp [encode, decode, plainCommand, cmdRsv_cmdWord, cmdOp_cmdWord, cmdReg_cmdWord]
  | wreg sel d => rw [encode, decode_cmdWord_seven, selOfNumber_selNumber hwf]
  | rreg sel => rw [encode, decode_rregWord, selOfNumber_selNumber hwf]

/-! ### The verdict, read backwards -/

/-- A command that decodes has passed checks 1 to 3. -/
theorem checks_of_decode_eq_ok {c : Command} {i : Instr} (h : decode c = .ok i) :
    cmdRsv c.cmd = 0#16 ∧ (cmdOp c.cmd).toNat ≤ 8 ∧ (7 ≤ (cmdOp c.cmd).toNat ∨ cmdReg c.cmd = 0#8) := by
  have hrsv : cmdRsv c.cmd = 0#16 := by
    by_contra hne
    rw [decode_of_cmdRsv_ne_zero hne] at h
    cases h
  refine ⟨hrsv, ?_, ?_⟩
  · by_contra hop
    rw [decode_of_eight_lt_cmdOp hrsv (by omega)] at h
    cases h
  · by_contra hreg
    rw [not_or] at hreg
    rw [decode_of_strayReg hrsv (by omega) hreg.2] at h
    cases h

theorem plainCommand_eq_ok {reg : BitVec 8} {i j : Instr} : plainCommand reg i = .ok j ↔ reg = 0#8 ∧ i = j := by
  unfold plainCommand
  split <;> simp [*]

/-- What decodes has its selector in canonical form, and SETSR and WREG alone hand the operand word on. -/
theorem decode_eq_ok_operand {c : Command} {i : Instr} (h : decode c = .ok i) :
    i.wellFormed = true ∧
      (i = .setsr c.data ∨ (∃ sel, i = .wreg sel c.data) ∨
        (cmdOp c.cmd).toNat ≠ 6 ∧ (cmdOp c.cmd).toNat ≠ 7) := by
  obtain ⟨hrsv, -, -⟩ := checks_of_decode_eq_ok h
  rw [decode, if_neg (not_not.mpr hrsv)] at h
  split at h
  -- `h_7`, `h_8`, `h_9` and `h_10` are the branches of SETSR, WREG, RREG and every opcode above the table's nine.
  case h_10 => cases h
  case h_7 hop => obtain ⟨-, rfl⟩ := plainCommand_eq_ok.mp h; exact ⟨rfl, .inl rfl⟩
  case h_8 hop => cases h; exact ⟨wellFormed_selOfNumber _, .inr (.inl ⟨_, rfl⟩)⟩
  case h_9 hop => cases h; exact ⟨wellFormed_selOfNumber _, .inr (.inr (by simp [hop]))⟩
  all_goals next hop =>
    obtain ⟨-, rfl⟩ := plainCommand_eq_ok.mp h
    exact ⟨rfl, .inr (.inr (by simp [hop]))⟩

/-- Settles O3: a command that decodes has passed the three checks, so `exists_decode_eq_ok` gives its encoding; the
operand word is kept where the opcode hands it on. -/
theorem decodedCommandReencodes : Obligations.DecodedCommandReencodes := by
  intro c i h
  obtain ⟨hrsv, hop, hreg⟩ := checks_of_decode_eq_ok h
  obtain ⟨j, hj, henc⟩ := exists_decode_eq_ok hrsv hop hreg
  obtain rfl : i = j := by rw [h] at hj; cases hj; rfl
  obtain ⟨hwf, hcases⟩ := decode_eq_ok_operand h
  refine ⟨hwf, henc, fun hdata => ?_⟩
  rw [← toNat_cmdOp] at hdata
  obtain rfl | ⟨sel, rfl⟩ | ⟨h6, h7⟩ := hcases
  · rfl
  · rfl
  · omega

/-- Outside SETSR and WREG the verdict rests on CMD alone. -/
theorem decode_data_irrel {cmd : BitVec 32} {d : Word} (h6 : (cmdOp cmd).toNat ≠ 6) (h7 : (cmdOp cmd).toNat ≠ 7)
    (d' : Word) : decode { cmd := cmd, data := d } = decode { cmd := cmd, data := d' } := by
  unfold decode
  dsimp only
  generalize (cmdOp cmd).toNat = op at h6 h7 ⊢
  split
  · rfl
  · split
    -- `h_7` and `h_8` are the branches of SETSR and WREG.
    case h_7 => exact absurd rfl h6
    case h_8 => exact absurd rfl h7
    all_goals rfl

/-- Settles O4: DATA stands in the branches of opcodes 6 and 7 only, and WREG's selector keeps the number of its REG
field. -/
theorem operandWordIsIgnoredOrTaken : Obligations.OperandWordIsIgnoredOrTaken := by
  intro cmd d d'
  refine ⟨fun h6 h7 => ?_, fun h => ?_, fun hrsv hop => ?_⟩
  · rw [← toNat_cmdOp] at h6 h7
    exact decode_data_irrel h6 h7 d'
  · obtain rfl : cmd = 6#32 := BitVec.eq_of_toNat_eq h
    exact decode_generatorWord (by simp [generatorWords])
  · refine ⟨selOfNumber (cmdReg cmd), ?_, ?_⟩
    · refine decode_of_cmdOp_eq_seven (c := { cmd := cmd, data := d }) (cmdRsv_eq_zero_iff.mpr hrsv) ?_
      rw [BitVec.toNat_eq, toNat_cmdOp, hop]
      rfl
    · rw [selNumber_selOfNumber, toNat_cmdReg]
      omega

/-- Settles O5: each word is evaluated. -/
theorem sampleWordsDecode : Obligations.SampleWordsDecode := by
  unfold Obligations.SampleWordsDecode
  decide

end Sys2Proof.Machine
end

section
/-! The byte-wide link (spec 20_memory.md R82), the words of the opcode table on it, and the step that takes a command
(00_scope.md R13, 20_memory.md R88). -/

namespace Sys2Proof.Machine

open Sys2Proof

/-! ### Bytes (R82) -/

/-- Byte j of a word is its bits 8j+7:8j. -/
theorem getElem?_bytesOfNat {w j k : Nat} (x : BitVec w) (h : j < k) :
    (bytesOfNat k x.toNat)[j]? = some (x.extractLsb' (8 * j) 8) := by
  have hbyte (n : Nat) : (bytesOfNat k n)[j]? = some (BitVec.ofNat 8 (n / 256 ^ j)) := by
    induction j generalizing k n with
    | zero =>
      obtain ⟨k, rfl⟩ := Nat.exists_eq_add_of_lt h
      simp [bytesOfNat]
    | succ j ih =>
      obtain ⟨k, rfl⟩ : ∃ m, k = m + 1 := ⟨k - 1, by omega⟩
      rw [bytesOfNat, List.getElem?_cons_succ, ih (by omega), Nat.div_div_eq_div_mul, pow_succ']
  rw [hbyte, BitVec.extractLsb', Nat.shiftRight_eq_div_pow, pow_mul]
  rfl

theorem length_commandBytes (c : Command) : (commandBytes c).length = 12 := by simp [commandBytes]

theorem length_responseBytes (r : Response) : (responseBytes r).length = 24 := by simp [responseBytes]

theorem commandOfBytes_commandBytes (c : Command) : commandOfBytes (commandBytes c) = some c := by
  have hcmd : (commandBytes c).take 4 = bytesOfNat 4 c.cmd.toNat := List.take_left' (length_bytesOfNat 4 _)
  have hdata : (commandBytes c).drop 4 = wordBytes c.data := List.drop_left' (length_bytesOfNat 4 _)
  rw [commandOfBytes, if_pos (length_commandBytes c), hcmd, hdata, wordOfBytes_wordBytes, natOfBytes_bytesOfNat,
    show 256 ^ 4 = 2 ^ 32 by rfl, Nat.mod_eq_of_lt c.cmd.isLt, BitVec.ofNat_toNat, BitVec.setWidth_eq]

theorem responseOfBytes_responseBytes (r : Response) : responseOfBytes (responseBytes r) = some r := by
  have hassoc : responseBytes r = wordBytes r.rdata ++ (wordBytes r.out ++ wordBytes r.aux) := List.append_assoc ..
  have hrdata : (responseBytes r).take 8 = wordBytes r.rdata := by
    rw [hassoc]; exact List.take_left' (length_wordBytes _)
  have hout : ((responseBytes r).drop 8).take 8 = wordBytes r.out := by
    rw [hassoc, List.drop_left' (length_wordBytes _)]; exact List.take_left' (length_wordBytes _)
  have haux : (responseBytes r).drop 16 = wordBytes r.aux := List.drop_left' (by simp)
  rw [responseOfBytes, if_pos (length_responseBytes r), hrdata, hout, haux]
  simp

/-- Settles O6: the bytes of the words stand one after the other, and each word's bytes are its octets from bit 0 up. -/
theorem byteLinkCarriesCommands : Obligations.ByteLinkCarriesCommands := by
  refine ⟨fun c => ⟨commandOfBytes_commandBytes c, length_commandBytes c, ?_, ?_⟩,
    fun s => ⟨responseOfBytes_responseBytes _, length_responseBytes _, ?_, ?_, ?_⟩,
    fun w k hk => getElem?_bytesOfNat w hk⟩
  · rw [commandBytes, List.getElem?_append_left (by simp)]
    exact getElem?_bytesOfNat c.cmd (by norm_num)
  · rw [commandBytes, List.getElem?_append_right (by simp), length_bytesOfNat]
    exact getElem?_bytesOfNat c.data (by norm_num)
  · rw [responseBytes, List.getElem?_append_left (by simp), List.getElem?_append_left (by simp)]
    exact getElem?_bytesOfNat s.rdata (by norm_num)
  · rw [responseBytes, List.getElem?_append_left (by simp), List.getElem?_append_right (by simp), length_wordBytes]
    exact getElem?_bytesOfNat s.out (by norm_num)
  · rw [responseBytes, List.getElem?_append_right (by simp), List.length_append, length_wordBytes, length_wordBytes]
    exact getElem?_bytesOfNat s.aux (by norm_num)

/-! ### The step -/

theorem step_of_decode_ok {s : State} {c : Command} {rest : List Command} {i : Instr} (hp : s.port = c :: rest)
    (hd : decode c = .ok i) : step s = exec i (s.setPort rest) := by
  rw [step_of_port_cons hp, hd, carryOut]

/-- Settles O9: the step of a command that decodes is its instruction, on the state without the command. -/
theorem stepRunsDecodedCommand : Obligations.StepRunsDecodedCommand :=
  fun _ _ _ _ hp hd => step_of_decode_ok hp hd

/-- Settles O10: the branch of the empty port. -/
theorem stepWaitsForACommand : Obligations.StepWaitsForACommand := by
  intro s hp
  simp [step, hp]

theorem step_presentFirst_of_decode_ok {c : Command} {i : Instr} (hd : decode c = .ok i) (s : State) :
    step (presentFirst c s) = exec i s :=
  step_of_decode_ok (rest := s.port) rfl hd

/-! ### The words of the opcode table (R104) -/

theorem tableCommand_toNat (cmd : BitVec 32) : tableCommand 32 cmd.toNat = { cmd := cmd, data := 0#64 } := by
  rw [tableCommand, Nat.mod_eq_of_lt cmd.isLt, Nat.div_eq_of_lt cmd.isLt, BitVec.ofNat_toNat, BitVec.setWidth_eq]

/-- The link hands the decoder the command it was given. -/
theorem decodeTableWord_eq (nbits w : Nat) :
    decodeTableWord nbits w = (decode (tableCommand nbits w)).toOption := by
  rw [decodeTableWord, commandOfBytes_commandBytes]
  dsimp only
  cases decode (tableCommand nbits w) <;> rfl

/-- Settles O7: a 32-bit table word is the command with DATA 0, and the link carries commands whole. -/
theorem tableWordsReachTheDecoder : Obligations.TableWordsReachTheDecoder := by
  intro cmd
  rw [decodeTableWord_eq, tableCommand_toNat]
  refine ⟨fun i hd => ⟨by rw [hd]; rfl, fun s => ?_⟩, fun e hd => by rw [hd]; rfl⟩
  rw [State.withFetchWord, tableCommand_toNat]
  exact step_presentFirst_of_decode_ok hd s

end Sys2Proof.Machine
end

section
/-! What each instruction can do to the state, said once: which registers a rendering OSC writes, what an accepted WREG
leaves, and the effect of every instruction (spec 41_register_access.md, 40_generator_base.md, 60_exceptions.md R351). -/

namespace Sys2Proof.Machine

open Sys2Proof

/-! ### The registers a render writes -/

/-- Values for the registers an OSC can write, the response aside. -/
structure OscWrites where
  phase : F64
  noteOn : Bool
  shCounter : Word32
  shValue : F64
  pnReg : Word32
  noiseState : Word32
  dpwPrev : F64
  dpwToggle : F64
  wrapPending : Bool
  out : F64
  aux : F64

/-- The values a state has in those registers. -/
def State.oscWrites (s : State) : OscWrites where
  phase := s.phase
  noteOn := s.noteOn
  shCounter := s.shCounter
  shValue := s.shValue
  pnReg := s.pnReg
  noiseState := s.noiseState
  dpwPrev := s.dpwPrev
  dpwToggle := s.dpwToggle
  wrapPending := s.wrapPending
  out := s.out
  aux := s.aux

/-- The state with new values in those registers. -/
def State.putOsc (s : State) (w : OscWrites) : State :=
  { s with
    phase := w.phase, noteOn := w.noteOn, shCounter := w.shCounter, shValue := w.shValue, pnReg := w.pnReg
    noiseState := w.noiseState, dpwPrev := w.dpwPrev, dpwToggle := w.dpwToggle, wrapPending := w.wrapPending
    out := w.out, aux := w.aux }

/-- A sample and hold writes registers of an OSC only. -/
theorem exists_holdStep_eq_putOsc (s : State) : ∃ w, holdStep s = s.putOsc w := by
  obtain ⟨-, ⟨-, hs⟩ | ⟨-, hs⟩⟩ | ⟨-, -, hs⟩ := holdStep_cases s
  · generalize noiseValue (xorshift32 s.noiseState) = v at hs
    exact ⟨{ s.oscWrites with noiseState := xorshift32 s.noiseState, shCounter := 1#32, shValue := v }, hs⟩
  · generalize noiseValue (lfsrNext s.pnReg) = v at hs
    exact ⟨{ s.oscWrites with pnReg := lfsrNext s.pnReg, shCounter := 1#32, shValue := v }, hs⟩
  · exact ⟨{ s.oscWrites with shCounter := s.shCounter + 1#32 }, hs⟩

theorem exists_lfoOsc_eq_putOsc (s : State) : ∃ w, lfoOsc s = s.putOsc w := by
  have hadvance (u : State) (w : OscWrites) (o a : F64) (hu : u = s.putOsc w) :
      ∃ w, (advancePhase u).setOutputs o a = s.putOsc w := by
    obtain ⟨p, b, hp⟩ := advancePhase_frame u
    exact ⟨{ w with phase := p, wrapPending := b, out := o, aux := a }, by rw [hp, hu]; rfl⟩
  obtain ⟨-, -, hs⟩ | ⟨-, -, hs⟩ | ⟨-, -, hs⟩ := lfoOsc_cases s
  · exact ⟨{ s.oscWrites with wrapPending := _, noteOn := _, out := _, aux := _ }, hs⟩
  · obtain ⟨w, hw⟩ := exists_holdStep_eq_putOsc (s.setWrap false)
    rw [hs]
    exact hadvance _ w _ _ hw
  · rw [hs]
    exact hadvance _ { s.oscWrites with wrapPending := false } _ _ rfl

/-- A render of any kind writes registers of an OSC only. -/
theorem exists_oscRender_eq_putOsc (s : State) : ∃ w, oscRender s = s.putOsc w := by
  rw [oscRender_spec]
  cases s.kind with
  | wt =>
    obtain ⟨x, p, b, o, hs⟩ := wtOsc_frame s
    exact ⟨{ s.oscWrites with noiseState := x, phase := p, wrapPending := b, out := o, aux := o }, hs⟩
  | qbl =>
    obtain ⟨g, r, p, b, o, -, hs⟩ := qblOsc_frame s
    refine ⟨{ s.oscWrites with dpwToggle := g, dpwPrev := r, phase := p, wrapPending := b, out := o, aux := o }, ?_⟩
    rw [hs]
    cases s
    rfl
  | lfo => exact exists_lfoOsc_eq_putOsc s

/-! ### What an accepted WREG leaves (R201 to R207) -/

/-- `Written s r d t`: a WREG of `d` to `r` in state `s` is accepted and leaves `t`. -/
inductive Written (s : State) : Reg → Word → State → Prop
  | binary64 {r : Reg} {d : Word} (hr : r ∈ binary64Regs) (hd : fIsFinite d = true) :
      Written s r d (putBinary64 s d r)
  | octave (d : Word) : Written s .octave d { s with octave := lowWord d }
  | semitone (d : Word) : Written s .semitone d { s with semitone := lowWord d }
  | cent (d : Word) : Written s .cent d { s with cent := lowWord d }
  | waveform (d : Word) (w : Waveform) (hw : waveformLegal s.kind w = true) :
      Written s .waveform d { s with waveform := w }
  | runMode (d : Word) (m : RunMode) : Written s .runMode d { s with runMode := m }
  | seed (d : Word) (hd : lowWord d ≠ 0#32) : Written s .seed d { s with seed := lowWord d }
  | status (d : Word) : Written s .status d { s with status := statusCleared d s.status }

theorem writeReg_runMode (d : Word) (s : State) : writeReg .runMode d s = takeRunMode s d := rfl

theorem written_of_writeReg {r : Reg} {d : Word} {s t : State} (h : writeReg r d s = .ok t) : Written s r d t := by
  by_cases hr : r ∈ binary64Regs
  · rw [writeReg_of_mem_binary64Regs hr] at h
    obtain ⟨hd, htake⟩ | ⟨-, hrefuse⟩ := takeF64_cases d fun v => putBinary64 s v r
    · cases htake.symm.trans h
      exact .binary64 hr hd
    · cases hrefuse.symm.trans h
  by_cases hw : WritableNumber r.number
  · cases r
    case octave => cases h; exact .octave d
    case semitone => cases h; exact .semitone d
    case cent => cases h; exact .cent d
    case status => cases h; exact .status d
    case waveform =>
      rw [writeReg_waveform] at h
      obtain ⟨w, -, hw, htake⟩ | hrefuse := takeWaveform_cases s d
      · cases htake.symm.trans h
        exact .waveform d w hw
      · cases hrefuse.symm.trans h
    case runMode =>
      rw [writeReg_runMode] at h
      obtain ⟨m, -, htake⟩ | hrefuse := takeRunMode_cases s d
      · cases htake.symm.trans h
        exact .runMode d m
      · cases hrefuse.symm.trans h
    case seed =>
      rw [writeReg_seed] at h
      obtain ⟨hd, htake⟩ | ⟨-, hrefuse⟩ := takeSeed_cases s d
      · cases htake.symm.trans h
        exact .seed d hd
      · cases hrefuse.symm.trans h
    case targetFreq | freqRatio | amplitude | pwTarget | modAmp | modFoExp | modPitchBend | modFoLin | modPhase | modPw =>
      exact absurd (by decide) hr
    all_goals exact absurd hw (by decide)
  · rw [writeReg_of_not_writableNumber hw] at h
    cases h

/-! ### The effect of every instruction -/

/-- `Effect s i t`: instruction `i` takes the state `s` to `t`. -/
inductive Effect (s : State) : Instr → State → Prop
  | refused (i : Instr) (c : RefusalCode) : Effect s i ((s.setStatus (s.status ||| c.mask)).respond 0#64)
  | answered (i : Instr) (v : Word) : Effect s i (s.respond v)
  | reset : Effect s .reset ((resetCore s).respond 0#64)
  | start {u : State} (hu : u = s ∨ u = resetCore s) : Effect s .start ((u.setNoteOn true).respond 0#64)
  | stop : Effect s .stop ((s.setNoteOn false).respond 0#64)
  | update : Effect s .update ((updateCore s).respond 0#64)
  | muted : Effect s .osc ((s.setOutputs fZero fZero).respond 0#64)
  | rendered (hon : s.noteOn = true) : Effect s .osc ((oscRender s).respond 0#64)
  | rated {v : Word} (hv : rateLegal v = true) :
      Effect s (.setsr v) (((s.setRate v (builtRate s v)).setStatus (statusPending s.status)).respond 0#64)
  | written {r : Reg} {d : Word} {u : State} (hput : writeReg r d s = .ok u) :
      Effect s (.wreg (.assigned r) d) (u.respond 0#64)

/-- Every instruction completes with one of the effects: nothing traps (R350). -/
theorem exists_exec_effect (i : Instr) (s : State) : ∃ t, exec i s = .next t ∧ Effect s i t := by
  cases i with
  | nop => exact ⟨_, rfl, .answered _ _⟩
  | reset => exact ⟨_, rfl, .reset⟩
  | update => exact ⟨_, rfl, .update⟩
  | stop => exact ⟨_, rfl, .stop⟩
  | start =>
    refine ⟨_, exec_start s, .start ?_⟩
    obtain ⟨-, -, hbody⟩ | ⟨-, hbody⟩ := startBody_cases s
    · exact .inl hbody
    · exact .inr hbody
  | osc =>
    obtain ⟨-, hosc⟩ | ⟨hon, hosc⟩ := execOsc_cases s
    · exact ⟨_, hosc, .muted⟩
    · exact ⟨_, hosc, .rendered hon⟩
  | setsr v =>
    obtain ⟨hv, hset⟩ | ⟨-, hset⟩ := execSetsr_cases v s
    · exact ⟨_, hset, .rated hv⟩
    · exact ⟨_, hset, .refused _ _⟩
  | wreg sel d =>
    obtain ⟨c, hw⟩ | ⟨r, u, rfl, hput, hw⟩ := execWreg_cases sel d s
    · exact ⟨_, hw, .refused _ _⟩
    · exact ⟨_, hw, .written hput⟩
  | rreg sel =>
    obtain ⟨n, -, hr⟩ | ⟨r, -, hr⟩ := execRreg_cases sel s
    · exact ⟨_, hr, .refused _ _⟩
    · exact ⟨_, hr, .answered _ _⟩

theorem effect_of_exec {i : Instr} {s t : State} (h : exec i s = .next t) : Effect s i t := by
  obtain ⟨u, hu, heffect⟩ := exists_exec_effect i s
  cases hu.symm.trans h
  exact heffect

/-- A property that taking a command from the port and every effect keep is kept by every step. -/
theorem step_keeps {P : State → Prop} (hport : ∀ s cs, P s → P (s.setPort cs))
    (heffect : ∀ s i t, P s → Effect s i t → P t) {s t : State} (hs : P s) (h : step s = .next t) : P t := by
  obtain ⟨-, hstep⟩ | ⟨c, rest, e, -, -, hstep⟩ | ⟨c, rest, i, -, -, hstep⟩ := step_cases s
  · cases hstep.symm.trans h
    exact hs
  · cases hstep.symm.trans h
    exact heffect _ .nop _ (hport s rest hs) (.refused _ .badCmd)
  · exact heffect _ i t (hport s rest hs) (effect_of_exec (hstep.symm.trans h))

/-! ### What effects keep -/

/-- KIND is fixed and no instruction takes or adds a command (R62, R88). -/
theorem Effect.kind_port {s t : State} {i : Instr} (h : Effect s i t) : t.kind = s.kind ∧ t.port = s.port := by
  cases h with
  | refused | answered | reset | stop | update | muted | rated => exact ⟨rfl, rfl⟩
  | start hu => obtain rfl | rfl := hu <;> exact ⟨rfl, rfl⟩
  | rendered =>
    obtain ⟨w, hw⟩ := exists_oscRender_eq_putOsc s
    rw [hw]
    exact ⟨rfl, rfl⟩
  | written hput =>
    obtain ⟨-, -, -, -, -, -, -, -, -, -, -, -, -, -, hkind, -, -, -, -, hport, -⟩ := writeReg_frame hput
    exact ⟨hkind, hport⟩

/-- Settles O11: every instruction has an effect, and no effect touches the kind or the port. -/
theorem everyInstructionCompletes : Obligations.EveryInstructionCompletes := by
  intro i s
  obtain ⟨t, ht, heffect⟩ := exists_exec_effect i s
  exact ⟨t, ht, heffect.kind_port⟩

/-- UPDATE alone writes the combined registers (R165). -/
theorem Effect.combined {s t : State} {i : Instr} (h : Effect s i t) (hi : i ≠ .update) :
    t.effFreq = s.effFreq ∧ t.increment = s.increment ∧ t.effPw = s.effPw ∧ t.tableIndex = s.tableIndex := by
  cases h with
  | update => contradiction
  | refused | answered | reset | stop | muted | rated => exact ⟨rfl, rfl, rfl, rfl⟩
  | start hu => obtain rfl | rfl := hu <;> exact ⟨rfl, rfl, rfl, rfl⟩
  | rendered =>
    obtain ⟨w, hw⟩ := exists_oscRender_eq_putOsc s
    rw [hw]
    exact ⟨rfl, rfl, rfl, rfl⟩
  | written hput =>
    obtain ⟨-, -, hinc, hfreq, hpw, -, hindex, -⟩ := writeReg_frame hput
    exact ⟨hfreq, hinc, hpw, hindex⟩

/-- SETSR alone writes the rate and the bank (R31, R81). -/
theorem Effect.rate {s t : State} {i : Instr} (h : Effect s i t) (hi : ∀ v, i ≠ .setsr v) :
    t.sampleRate = s.sampleRate ∧ t.bankRate = s.bankRate := by
  cases h with
  | @rated v => exact absurd rfl (hi v)
  | refused | answered | reset | stop | update | muted => exact ⟨rfl, rfl⟩
  | start hu => obtain rfl | rfl := hu <;> exact ⟨rfl, rfl⟩
  | rendered =>
    obtain ⟨w, hw⟩ := exists_oscRender_eq_putOsc s
    rw [hw]
    exact ⟨rfl, rfl⟩
  | written hput =>
    obtain ⟨hrate, -, -, -, -, -, -, -, -, -, -, -, -, -, -, -, -, hbank, -⟩ := writeReg_frame hput
    exact ⟨hrate, hbank⟩

/-- Settles O32: `Effect.combined` and `Effect.rate`. -/
theorem onlyUpdateAndSetsrWriteTheirRegisters : Obligations.OnlyUpdateAndSetsrWriteTheirRegisters :=
  fun _ _ _ h => ⟨(effect_of_exec h).combined, (effect_of_exec h).rate⟩

/-- Settles O31: UPDATE divides by the rate it does not write; every other instruction but SETSR leaves all three
registers. -/
theorem incrementIsTheQuotient : Obligations.IncrementIsTheQuotient := by
  intro i s t h
  have hupdate : i = .update → t.increment = fDiv t.effFreq t.sampleRate := by
    rintro rfl
    cases (exec_update s).symm.trans h
    rfl
  refine ⟨hupdate, fun hi hquot => ?_⟩
  by_cases hu : i = .update
  · exact hupdate hu
  · obtain ⟨hfreq, hinc, -, -⟩ := (effect_of_exec h).combined hu
    obtain ⟨hrate, -⟩ := (effect_of_exec h).rate hi
    rw [hfreq, hinc, hrate, hquot]

/-! ### STATUS (R351, R355) -/

/-- What an effect does to STATUS: a refusal sets an error bit and nothing else, UPDATE and SETSR move UPD_PENDING, a
WREG to STATUS clears, and everything else leaves it. -/
theorem Effect.status_cases {s t : State} {i : Instr} (h : Effect s i t) :
    (∃ c : RefusalCode, t = (s.setStatus (s.status ||| c.mask)).respond 0#64) ∨ t.status = s.status ∨
    (i = .update ∧ t.status = statusUpdated s.status) ∨
    ((∃ v, i = .setsr v) ∧ t.status = statusPending s.status) ∨
    (∃ d, i = .wreg (.assigned .status) d ∧ t.status = statusCleared d s.status) := by
  cases h with
  | refused i c => exact .inl ⟨c, rfl⟩
  | answered | reset | stop | muted => exact .inr (.inl rfl)
  | start hu => obtain rfl | rfl := hu <;> exact .inr (.inl rfl)
  | rendered =>
    obtain ⟨w, hw⟩ := exists_oscRender_eq_putOsc s
    rw [hw]
    exact .inr (.inl rfl)
  | update => exact .inr (.inr (.inl ⟨rfl, rfl⟩))
  | rated => exact .inr (.inr (.inr (.inl ⟨⟨_, rfl⟩, rfl⟩)))
  | @written r d u hput =>
    by_cases hr : r = .status
    · subst hr
      cases hput
      exact .inr (.inr (.inr (.inr ⟨d, rfl, rfl⟩)))
    · obtain ⟨-, -, -, -, -, -, -, -, -, -, -, -, -, -, -, -, -, -, -, -, hstatus⟩ := writeReg_frame hput
      exact .inr (.inl (hstatus hr))

theorem getLsbD_statusUpdated (b : Nat) (st : BitVec 4) :
    (statusUpdated st).getLsbD b = (st.getLsbD b && decide (b < 3)) := by
  obtain hb | hb | hb : b < 3 ∨ b = 3 ∨ 4 ≤ b := by omega
  · interval_cases b <;> simp [statusUpdated, updPendingMask]
  · simp [statusUpdated, updPendingMask, hb]
  · simp [BitVec.getLsbD_of_ge, hb]

theorem getLsbD_statusPending (b : Nat) (st : BitVec 4) :
    (statusPending st).getLsbD b = (st.getLsbD b || decide (b = 3)) := by
  obtain hb | hb | hb : b < 3 ∨ b = 3 ∨ 4 ≤ b := by omega
  · interval_cases b <;> simp [statusPending, updPendingMask]
  · simp [statusPending, updPendingMask, hb]
  · rw [BitVec.getLsbD_of_ge _ _ hb, BitVec.getLsbD_of_ge _ _ hb]
    simp
    omega

/-- A refusal sets no bit above the error bits. -/
theorem RefusalCode.mask_getLsbD_three (c : RefusalCode) : c.mask.getLsbD 3 = false := by
  cases c <;> rfl

/-- Settles O23: of the things that happen to STATUS only a refusal sets an error bit. -/
theorem errorBitsComeFromRefusals : Obligations.ErrorBitsComeFromRefusals := by
  intro i s t h
  obtain ⟨c, rfl⟩ | hst | ⟨-, hst⟩ | ⟨-, hst⟩ | ⟨d, -, hst⟩ := (effect_of_exec h).status_cases
  · exact .inr ⟨c.mask, by cases c <;> simp [RefusalCode.mask], rfl⟩
  · exact .inl fun b _ hb => hst ▸ hb
  · refine .inl fun b _ hb => ?_
    rw [hst, getLsbD_statusUpdated, Bool.and_eq_true] at hb
    exact hb.1
  · refine .inl fun b hlt hb => ?_
    have hne : b ≠ 3 := by omega
    simpa [hst, getLsbD_statusPending, hne] using hb
  · refine .inl fun b hlt hb => ?_
    rw [hst, getLsbD_statusCleared hlt, Bool.and_eq_true] at hb
    exact hb.1

/-- Settles O24: the same five things, bit by bit. -/
theorem statusBitsAreSticky : Obligations.StatusBitsAreSticky := by
  intro i s t h
  obtain ⟨c, rfl⟩ | hst | ⟨hi, hst⟩ | ⟨⟨v, hi⟩, hst⟩ | ⟨d, hi, hst⟩ := (effect_of_exec h).status_cases
  · refine ⟨fun _ b _ hb => ?_, fun _ hb => ?_, fun _ hb => ?_⟩
    · simp [hb]
    · simp [hb]
    · rw [State.respond_status, State.setStatus_status, BitVec.getLsbD_or, RefusalCode.mask_getLsbD_three,
        Bool.or_false] at hb
      exact hb
  · exact ⟨fun _ b _ hb => hst ▸ hb, fun _ hb => hst ▸ hb, fun _ hb => hst ▸ hb⟩
  · refine ⟨fun _ b hlt hb => ?_, fun hne => absurd hi hne, fun _ hb => ?_⟩
    · simp [hst, getLsbD_statusUpdated, hb, hlt]
    · rw [hst, getLsbD_statusUpdated, Bool.and_eq_true] at hb
      exact hb.1
  · refine ⟨fun _ b _ hb => ?_, fun _ hb => ?_, fun hne => absurd hi (hne v)⟩
    · simp [hst, getLsbD_statusPending, hb]
    · simp [hst, getLsbD_statusPending]
  · refine ⟨fun hne => absurd hi (hne d), fun _ hb => ?_, fun _ hb => ?_⟩
    · rw [hst, getLsbD_statusCleared_three, hb]
    · rwa [hst, getLsbD_statusCleared_three] at hb

end Sys2Proof.Machine
end

section
/-! Several instances side by side (spec 60_exceptions.md R362, 30_encoding.md R126). -/

namespace Sys2Proof.Machine

open Sys2Proof

/-- Every step completes (R350). -/
theorem exists_step_eq_next (s : State) : ∃ t, step s = .next t := by
  obtain ⟨-, hs⟩ | ⟨c, rest, e, -, -, hs⟩ | ⟨c, rest, i, -, -, hs⟩ := step_cases s
  · exact ⟨s, hs⟩
  · exact ⟨_, hs⟩
  · obtain ⟨t, ht, -⟩ := exists_exec_effect i (s.setPort rest)
    exact ⟨t, hs.trans ht⟩

theorem issue_cons_of_ne {name n : List Char} (h : n ≠ name) (c : Command) (s : State) (rest : Instances) :
    issue name c ((n, s) :: rest) = (n, s) :: issue name c rest := if_neg h

/-- The instance that takes the command is left in the state of its own step. -/
theorem issue_cons_self {name : List Char} {c : Command} {s t : State} (h : step (presentFirst c s) = .next t)
    (rest : Instances) : issue name c ((name, s) :: rest) = (name, t) :: rest := by
  simp [issue, h]

theorem instanceState_cons_of_ne {name n : List Char} (h : n ≠ name) (s : State) (rest : Instances) :
    instanceState name ((n, s) :: rest) = instanceState name rest := if_neg h

theorem instanceState_cons_self (name : List Char) (s : State) (rest : Instances) :
    instanceState name ((name, s) :: rest) = some s := if_pos rfl

/-- A command on one port leaves every instance of another name as it was. -/
theorem instanceState_issue_of_ne {name other : List Char} (h : other ≠ name) (c : Command) (sys : Instances) :
    instanceState other (issue name c sys) = instanceState other sys := by
  induction sys with
  | nil => rfl
  | cons entry rest ih =>
    obtain ⟨n, s⟩ := entry
    by_cases hn : n = name
    · subst hn
      obtain ⟨t, ht⟩ := exists_step_eq_next (presentFirst c s)
      rw [issue_cons_self ht, instanceState_cons_of_ne h.symm, instanceState_cons_of_ne h.symm]
    · rw [issue_cons_of_ne hn]
      by_cases ho : n = other
      · subst ho
        rw [instanceState_cons_self, instanceState_cons_self]
      · rw [instanceState_cons_of_ne ho, instanceState_cons_of_ne ho, ih]

/-- The named instance takes its own step. -/
theorem instanceState_issue_self {name : List Char} {c : Command} {sys : Instances} {s t : State}
    (hs : instanceState name sys = some s) (ht : step (presentFirst c s) = .next t) :
    instanceState name (issue name c sys) = some t := by
  induction sys with
  | nil => cases hs
  | cons entry rest ih =>
    obtain ⟨n, u⟩ := entry
    by_cases hn : n = name
    · subst hn
      rw [instanceState_cons_self, Option.some.injEq] at hs
      subst hs
      rw [issue_cons_self ht, instanceState_cons_self]
    · rw [instanceState_cons_of_ne hn] at hs
      rw [issue_cons_of_ne hn, instanceState_cons_of_ne hn, ih hs]

/-- Settles O12: `issue` walks to the first instance of the name and steps that one alone; delivering a line is issuing
its command on the instance it goes to. -/
theorem otherInstancesUntouched : Obligations.OtherInstancesUntouched := by
  intro name c sys
  refine ⟨fun other h => instanceState_issue_of_ne h c sys, fun s hs => ?_, rfl, fun s => ?_⟩
  · obtain ⟨t, ht⟩ := exists_step_eq_next (presentFirst c s)
    exact ⟨t, ht, instanceState_issue_self hs ht⟩
  · obtain ⟨t, ht⟩ := exists_step_eq_next (presentFirst c s)
    exact ⟨t, ht, issue_cons_self ht []⟩

end Sys2Proof.Machine
end

section
/-! RUN_MODE (spec 41_register_access.md R205), a STOP and START pair of a free-running LFO (44_lfo.md R317), and the
power-on state (70_reset_and_hazards.md R380, R383). -/

namespace Sys2Proof.Machine

open Sys2Proof

/-! ### RUN_MODE (R205) -/

theorem code_of_runModeOfCode {c : Nat} {m : RunMode} (h : runModeOfCode c = some m) : m.code = c := by
  unfold runModeOfCode at h
  split at h <;> cases h <;> rfl

theorem RunMode.code_le (m : RunMode) : m.code ≤ 2 := by cases m <;> decide

theorem runModeOfCode_code (m : RunMode) : runModeOfCode m.code = some m := by cases m <;> rfl

theorem exists_runMode_code_eq {c : Nat} (h : c ≤ 2) : ∃ m : RunMode, m.code = c := by
  have hsome : (runModeOfCode c).isSome = true := by interval_cases c <;> rfl
  obtain ⟨m, hm⟩ := Option.isSome_iff_exists.mp hsome
  exact ⟨m, code_of_runModeOfCode hm⟩

/-- Settles O20: DATA names a run mode exactly when it is at most 2. -/
theorem wregRunMode : Obligations.WregRunMode := by
  intro s d
  refine ⟨fun hle => ?_, fun hgt => ?_⟩
  · obtain ⟨m, hm⟩ := exists_runMode_code_eq hle
    have htake : takeRunMode s d = .ok { s with runMode := m } := by rw [takeRunMode, ← hm, runModeOfCode_code]
    exact ⟨m, hm, exec_wreg_of_ok ((writeReg_runMode d s).trans htake)⟩
  · rw [← refuse_badValue]
    refine exec_wreg_of_error ((writeReg_runMode d s).trans ?_)
    obtain ⟨m, hm, -⟩ | hrefuse := takeRunMode_cases s d
    · have hle := RunMode.code_le m
      rw [code_of_runModeOfCode hm] at hle
      omega
    · exact hrefuse

/-! ### Free run (R317) -/

/-- Settles O28: STOP moves the gate alone, and START of a free-running LFO moves it back. -/
theorem freeRunIsContinuous : Obligations.FreeRunIsContinuous := by
  intro s t u hkind hmode hstop hstart
  rw [exec_stop, Host.Outcome.next.injEq] at hstop
  rw [exec_start, Host.Outcome.next.injEq] at hstart
  subst hstop hstart
  obtain ⟨-, -, hbody⟩ | ⟨hreset, -⟩ := startBody_cases ((s.setNoteOn false).respond 0#64)
  · simp [hbody]
  · exact absurd ⟨by simpa using hkind, by simpa using hmode⟩ hreset

/-! ### Power-on (R380, R383) -/

/-- Settles O57: the power-on state of each kind is evaluated. -/
theorem powerOnMeetsTheInvariants : Obligations.PowerOnMeetsTheInvariants := by
  intro k
  cases k <;> decide +kernel

/-- R380's defaults after `resetCore`: what UPDATE computes is still at 0, the pulse width aside. -/
def State.uncombined (k : Kind) : State :=
  { State.powerOn k with increment := 0#64, effFreq := 0#64, tableIndex := 0#32 }

theorem updateCore_uncombined (k : Kind) :
    { updateCore (State.uncombined k) with status := 0#4 } = State.powerOn k := by
  cases k <;> decide +kernel

/-- Settles O56: `resetCore` overwrites the registers that were arbitrary, and UPDATE then computes from closed values. -/
theorem powerOnRunsResetAndUpdate : Obligations.PowerOnRunsResetAndUpdate := by
  refine ⟨?_, fun k => by cases k <;> exact ⟨rfl, rfl, rfl⟩, rfl, rfl, rfl, rfl, rfl, rfl⟩
  intro k p q r a b c w defaults
  have hreset : resetCore defaults = State.uncombined k := by cases k <;> rfl
  rw [hreset]
  exact updateCore_uncombined k

end Sys2Proof.Machine
end

section
/-! The noise generators as maps on bits (spec 40_generator_base.md R147, R148). -/

namespace Sys2Proof.Machine

open Sys2Proof

/-- A word that is its own shift to the left is 0: each bit is the one k places below it. -/
theorem eq_zero_of_xor_shiftLeft {w k : Nat} {x : BitVec w} (hk : 0 < k) (h : x ^^^ (x <<< k) = 0#w) : x = 0#w := by
  have hself : x = x <<< k := BitVec.xor_eq_zero_iff.mp h
  have hbit (i : Nat) : x.getLsbD i = false := by
    induction i using Nat.strong_induction_on with
    | _ i ih =>
      rw [hself, BitVec.getLsbD_shiftLeft]
      by_cases hi : i < k
      · simp [hi]
      · simp [ih (i - k) (by omega)]
  exact BitVec.eq_of_getLsbD_eq fun i _ => by rw [hbit, BitVec.getLsbD_zero]

/-- A word that is its own shift to the right is 0: each bit is the one k places above it. -/
theorem eq_zero_of_xor_ushiftRight {w k : Nat} {x : BitVec w} (hk : 0 < k) (h : x ^^^ (x >>> k) = 0#w) : x = 0#w := by
  have hself : x = x >>> k := BitVec.xor_eq_zero_iff.mp h
  have hbit (d i : Nat) (hd : w ≤ i + d) : x.getLsbD i = false := by
    induction d using Nat.strong_induction_on generalizing i with
    | _ d ih =>
      by_cases hi : w ≤ i
      · exact BitVec.getLsbD_of_ge _ _ hi
      · rw [hself, BitVec.getLsbD_ushiftRight]
        exact ih (d - k) (by omega) (k + i) (by omega)
  exact BitVec.eq_of_getLsbD_eq fun i _ => by rw [hbit w i (by omega), BitVec.getLsbD_zero]

theorem xorshift32_ne_zero {x : Word32} (h : x ≠ 0#32) : xorshift32 x ≠ 0#32 := by
  intro h0
  exact h (eq_zero_of_xor_shiftLeft (by norm_num)
    (eq_zero_of_xor_ushiftRight (by norm_num) (eq_zero_of_xor_shiftLeft (by norm_num) h0)))

theorem getLsbD_lfsrNext_last (r : Word32) :
    (lfsrNext r).getLsbD 31 = (((r.getLsbD 0).xor (r.getLsbD 1)).xor ((r.getLsbD 27).xor (r.getLsbD 28))) := by
  simp [lfsrNext]

theorem getLsbD_lfsrNext {k : Nat} (hk : k < 31) (r : Word32) : (lfsrNext r).getLsbD k = r.getLsbD (k + 1) := by
  simp [lfsrNext, hk, Nat.add_comm 1 k]

theorem lfsrNext_ne_zero {x : Word32} (h : x ≠ 0#32) : lfsrNext x ≠ 0#32 := by
  intro h0
  have hhigh (k : Nat) (hk : k < 31) : x.getLsbD (k + 1) = false := by
    rw [← getLsbD_lfsrNext hk, h0, BitVec.getLsbD_zero]
  have hlow : x.getLsbD 0 = false := by
    have hlast := getLsbD_lfsrNext_last x
    rw [h0, BitVec.getLsbD_zero, hhigh 0 (by norm_num), hhigh 26 (by norm_num), hhigh 27 (by norm_num)] at hlast
    simpa using hlast.symm
  refine h (BitVec.eq_of_getLsbD_eq fun i hi => ?_)
  rw [BitVec.getLsbD_zero]
  cases i with
  | zero => exact hlow
  | succ k => exact hhigh k (by omega)

/-- Settles O38: each stage of the one generator, and the shift of the other, loses no bit. -/
theorem noiseStepsKeepStatesNonzero : Obligations.NoiseStepsKeepStatesNonzero :=
  ⟨fun _ => rfl, fun r => ⟨getLsbD_lfsrNext_last r, fun _ hk => getLsbD_lfsrNext hk r⟩,
    fun _ hx => ⟨xorshift32_ne_zero hx, lfsrNext_ne_zero hx⟩, by decide, by decide⟩

end Sys2Proof.Machine
end

section
/-! The invariants without arithmetic on binary64 values are kept by every step (spec 10_state.md R39, R41, R53, R54,
R56, R57, R59, R66). -/

namespace Sys2Proof.Machine

open Sys2Proof

/-! ### The sample and hold -/

theorem holdCount_le (rate freq : F64) : holdCount rate freq ≤ 2147483647 := by
  unfold holdCount
  dsimp only
  split
  · exact min_le_left ..
  · exact le_rfl

/-- Counting on below the hold count stays in the range of the counter. -/
theorem toInt_add_one {c : Word32} (hlo : 0 ≤ c.toInt) (hhi : c.toInt < 2147483647) :
    (c + 1#32).toInt = c.toInt + 1 := by
  rw [BitVec.toInt_add]
  have hone : (1#32 : Word32).toInt = 1 := by decide
  rw [hone, Int.bmod_eq_of_le] <;> omega

/-- The sample and hold keeps the generators nonzero and leaves a positive counter. -/
theorem holdStep_selectors {s : State} (hnoise : s.NoiseOk) :
    (holdStep s).NoiseOk ∧ (holdStep s).HoldOk ∧ (holdStep s).dpwToggle = s.dpwToggle := by
  obtain ⟨hseed, hwhite, hpn⟩ := hnoise
  obtain ⟨-, ⟨-, hs⟩ | ⟨-, hs⟩⟩ | ⟨hlo, hhi, hs⟩ := holdStep_cases s
  · rw [hs]
    exact ⟨⟨hseed, xorshift32_ne_zero hwhite, hpn⟩, .inr (by simp), rfl⟩
  · rw [hs]
    exact ⟨⟨hseed, hwhite, lfsrNext_ne_zero hpn⟩, .inr (by simp), rfl⟩
  · rw [hs]
    have hcount := holdCount_le s.sampleRate s.effFreq
    refine ⟨⟨hseed, hwhite, hpn⟩, .inr ?_, rfl⟩
    rw [State.setHold_shCounter, toInt_add_one hlo (by omega)]
    omega

/-! ### The renders -/

/-- The selectors that a render can write. -/
abbrev State.RenderSelectorsOk (s : State) : Prop := s.NoiseOk ∧ s.HoldOk ∧ s.ToggleOk

/-- The phase step and the outputs are no selectors. -/
theorem renderSelectorsOk_advancePhase {s : State} (h : s.RenderSelectorsOk) (o a : F64) :
    ((advancePhase s).setOutputs o a).RenderSelectorsOk := by
  obtain ⟨p, w, hp⟩ := advancePhase_frame s
  simpa [State.RenderSelectorsOk, State.NoiseOk, State.HoldOk, State.ToggleOk, hp] using h

theorem renderSelectorsOk_setNoise {s : State} (h : s.RenderSelectorsOk) {x : Word32} (hx : x ≠ 0#32) :
    (s.setNoise x).RenderSelectorsOk := by
  obtain ⟨⟨hseed, -, hpn⟩, hrest⟩ := h
  exact ⟨⟨hseed, hx, hpn⟩, hrest⟩

theorem wtOsc_selectors {s : State} (h : s.RenderSelectorsOk) : (wtOsc s).RenderSelectorsOk := by
  by_cases hw : s.waveform = .whiteNoise
  · have ⟨⟨_, hwhite, _⟩, _⟩ := h
    rw [wtOsc_of_whiteNoise hw]
    exact renderSelectorsOk_advancePhase (renderSelectorsOk_setNoise h (xorshift32_ne_zero hwhite)) _ _
  · rw [wtOsc_of_table hw]
    exact renderSelectorsOk_advancePhase h _ _

theorem qblOsc_selectors {s : State} (h : s.RenderSelectorsOk) : (qblOsc s).RenderSelectorsOk := by
  obtain ⟨hnoise, hhold, htoggle⟩ := h
  obtain ⟨g, r, p, w, o, hg, hs⟩ := qblOsc_frame s
  have hsign : g = fOne ∨ g = fMinusOne := by
    obtain hsame | hg := hg
    · rw [hsame]
      exact htoggle
    · exact hg
  simpa [State.RenderSelectorsOk, State.NoiseOk, State.HoldOk, State.ToggleOk, hs] using ⟨hnoise, hhold, hsign⟩

theorem lfoOsc_selectors {s : State} (h : s.RenderSelectorsOk) : (lfoOsc s).RenderSelectorsOk := by
  obtain ⟨-, -, hs⟩ | ⟨-, -, hs⟩ | ⟨-, -, hs⟩ := lfoOsc_cases s
  · simpa [State.RenderSelectorsOk, State.NoiseOk, State.HoldOk, State.ToggleOk, hs, completeShot] using h
  · obtain ⟨hnoise, -, htoggle⟩ := h
    obtain ⟨hnoise', hhold', hsame⟩ := holdStep_selectors (s := s.setWrap false) hnoise
    have htoggle' : (holdStep (s.setWrap false)).ToggleOk := by
      rw [State.ToggleOk, hsame]
      exact htoggle
    rw [hs]
    exact renderSelectorsOk_advancePhase ⟨hnoise', hhold', htoggle'⟩ _ _
  · rw [hs]
    exact renderSelectorsOk_advancePhase (s := s.setWrap false) h _ _

theorem oscRender_selectors {s : State} (h : s.RenderSelectorsOk) : (oscRender s).RenderSelectorsOk := by
  rw [oscRender_spec]
  cases s.kind with
  | wt => exact wtOsc_selectors h
  | qbl => exact qblOsc_selectors h
  | lfo => exact lfoOsc_selectors h

/-! ### Every instruction -/

/-- RESET reseeds from a nonzero SEED and sets the sentinel and +1.0. -/
theorem resetCore_selectors {s : State} (h : s.SelectorsOk) : (resetCore s).SelectorsOk := by
  obtain ⟨hwave, ⟨hseed, -, -⟩, -, -, hbank, htable⟩ := h
  exact ⟨hwave, ⟨hseed, hseed, hseed⟩, .inl (by simp), .inl rfl, hbank, htable⟩

theorem written_selectors {s t : State} {r : Reg} {d : Word} (h : s.SelectorsOk) (ht : Written s r d t) :
    t.SelectorsOk := by
  obtain ⟨hwave, ⟨hseed, hnoise, hpn⟩, hrest⟩ := h
  cases ht with
  | binary64 => cases r <;> exact ⟨hwave, ⟨hseed, hnoise, hpn⟩, hrest⟩
  | octave | semitone | cent | runMode | status => exact ⟨hwave, ⟨hseed, hnoise, hpn⟩, hrest⟩
  | waveform d w hw => exact ⟨hw, ⟨hseed, hnoise, hpn⟩, hrest⟩
  | seed d hd => exact ⟨hwave, ⟨hd, hnoise, hpn⟩, hrest⟩

/-- UPDATE writes what `setCombined` does, and STATUS (R160). -/
theorem updateCore_frame (s : State) :
    ∃ m f inc pw k st, updateCore s = (s.setCombined m f inc pw k).setStatus st := ⟨_, _, _, _, _, _, rfl⟩

theorem builtRate_of_wt {s : State} (h : s.kind = .wt) (v : F64) : builtRate s v = v := by
  rw [builtRate_eq, if_pos h]

theorem Effect.selectors {s t : State} {i : Instr} (h : Effect s i t) (hs : s.SelectorsOk) : t.SelectorsOk := by
  have hreset := resetCore_selectors hs
  cases h with
  | refused | answered | stop | muted => exact hs
  | reset => exact hreset
  | start hu =>
    obtain rfl | rfl := hu
    · exact hs
    · exact hreset
  | update =>
    obtain ⟨hwave, hnoise, hhold, htoggle, hbank, htable⟩ := hs
    have hindex (hkind : s.kind ≠ .wt) : (updateCore s).tableIndex = 0#32 := by
      rw [updateCore_tableIndex, if_neg hkind]
      exact htable hkind
    obtain ⟨m, f, inc, pw, k, st, hu⟩ := updateCore_frame s
    rw [hu] at hindex ⊢
    exact ⟨hwave, hnoise, hhold, htoggle, hbank, hindex⟩
  | rendered =>
    obtain ⟨hwave, hnoise, hhold, htoggle, hbank, htable⟩ := hs
    obtain ⟨hnoise, hhold, htoggle⟩ := oscRender_selectors ⟨hnoise, hhold, htoggle⟩
    obtain ⟨w, hw⟩ := exists_oscRender_eq_putOsc s
    rw [hw] at hnoise hhold htoggle ⊢
    exact ⟨hwave, hnoise, hhold, htoggle, hbank, htable⟩
  | rated hv =>
    obtain ⟨hwave, hnoise, hhold, htoggle, -, htable⟩ := hs
    exact ⟨hwave, hnoise, hhold, htoggle, fun (hkind : s.kind = .wt) => builtRate_of_wt hkind _, htable⟩
  | written hput =>
    have hwritten := written_selectors hs (written_of_writeReg hput)
    exact hwritten

/-- Settles O60: every effect keeps the selectors, so every step does. -/
theorem selectorsInvariantIsKept : Obligations.SelectorsInvariantIsKept :=
  fun _ _ hs h => step_keeps (fun _ _ hs => hs) (fun _ _ _ hs heffect => heffect.selectors hs) hs h

end Sys2Proof.Machine
end

section
/-! Ranges of binary64 results: rounding keeps every interval whose ends are binary64 values (spec 00_scope.md R9). -/

namespace Sys2Proof.Machine

open Sys2Proof

/-! ### Constants -/

/-- The magnitude of a normal value from its fields. -/
theorem fMag_of_expField {x : F64} {e : Nat} (he : fExpField x = e + 1) : fMag x = (2 ^ 52 + fFrac x) * 2 ^ e := by
  rw [fMag, he, if_neg (Nat.succ_ne_zero e), Nat.add_sub_cancel]

/-- The magnitude of k/2^j in units, for a constant whose significand is k·2^c. -/
theorem two_pow_mul_fMag {x : F64} {e c j k : Nat} (he : fExpField x = e + 1) (hk : 2 ^ 52 + fFrac x = k * 2 ^ c)
    (hsum : c + e + j = 1074) : 2 ^ j * fMag x = k * unitsPerOne := by
  rw [fMag_of_expField he, hk, unitsPerOne_eq, ← hsum, pow_add, pow_add]
  ring

theorem fMag_of_natural {x : F64} {e c k : Nat} (he : fExpField x = e + 1) (hk : 2 ^ 52 + fFrac x = k * 2 ^ c)
    (hsum : c + e = 1074) : fMag x = k * unitsPerOne := by
  have h := two_pow_mul_fMag (j := 0) he hk hsum
  rwa [pow_zero, one_mul] at h

theorem fMag_fTwo : fMag fTwo = 2 * unitsPerOne :=
  fMag_of_natural (e := 1023) (c := 51) (by decide) (by decide) rfl

theorem fMag_fFour : fMag fFour = 4 * unitsPerOne :=
  fMag_of_natural (e := 1024) (c := 50) (by decide) (by decide) rfl

theorem two_mul_fMag_fHalf : 2 ^ 1 * fMag fHalf = 1 * unitsPerOne :=
  two_pow_mul_fMag (e := 1021) (c := 52) (by decide) (by decide) rfl

/-! ### Intervals -/

/-- A finite value from `lo` to `hi`. -/
def Between (lo hi x : F64) : Prop := fIsFinite x = true ∧ fInt lo ≤ fInt x ∧ fInt x ≤ fInt hi

theorem fInt_fZero : fInt fZero = 0 := by decide
theorem fInt_fTwo : fInt fTwo = 2 * (unitsPerOne : Int) := by
  rw [fInt_of_fSign (by decide), fMag_fTwo, Nat.cast_mul, Nat.cast_ofNat]
theorem fInt_fMinusOne : fInt fMinusOne = -(unitsPerOne : Int) := by
  rw [show fMinusOne = fNeg fOne by decide, fInt_fNeg, fInt_fOne]
theorem two_mul_fInt_fHalf : 2 * fInt fHalf = (unitsPerOne : Int) := by
  have h := two_mul_fMag_fHalf
  rw [fInt_of_fSign (by decide)]
  omega

/-- The exact value ±n/d, times d. -/
def signedNat (neg : Bool) (n : Nat) : Int := if neg then -(n : Int) else n

theorem signedNat_natAbs (v : Int) : signedNat (decide (v < 0)) v.natAbs = v := by
  unfold signedNat
  split
  next h => rw [decide_eq_true_eq] at h; omega
  next h => rw [decide_eq_true_eq] at h; omega

theorem fInt_eq_signedNat (x : F64) : fInt x = signedNat (fSign x) (fMag x) := rfl

theorem fInt_fRound (neg : Bool) (n d : Nat) :
    fInt (fRound neg n d) = signedNat neg (fMag (fRound neg n d)) := by
  rw [fInt_eq_signedNat, fSign_fRound]

/-- An exact value between two finite values rounds to one between them. -/
theorem between_fRound {lo hi : F64} (hlo : fIsFinite lo = true) (hhi : fIsFinite hi = true) {neg : Bool} {n d : Nat}
    (hd : 0 < d) (h₁ : fInt lo * d ≤ signedNat neg n) (h₂ : signedNat neg n ≤ fInt hi * d) :
    Between lo hi (fRound neg n d) := by
  have hd' : (0 : Int) < d := by exact_mod_cast hd
  have hle (x : F64) (hx : (n : Int) ≤ |fInt x| * d) : n ≤ fMag x * d := by
    rw [Int.abs_eq_natAbs, natAbs_fInt] at hx
    exact_mod_cast hx
  have hge (x : F64) (hx : |fInt x| * d ≤ (n : Int)) : fMag x * d ≤ n := by
    rw [Int.abs_eq_natAbs, natAbs_fInt] at hx
    exact_mod_cast hx
  have hmag (x : F64) : |fInt x| = (fMag x : Int) := by rw [Int.abs_eq_natAbs, natAbs_fInt]
  rw [Between, fInt_fRound]
  cases neg with
  | false =>
    have hpos : 0 ≤ fInt hi := nonneg_of_mul_nonneg_left (h₂.trans' (Int.natCast_nonneg n)) hd'
    have habs : |fInt hi| = fInt hi := abs_of_nonneg hpos
    obtain ⟨hfin, hupper⟩ := fMag_fRound_le hhi false n d hd (hle hi (by rw [habs]; exact h₂))
    refine ⟨hfin, ?_, ?_⟩
    · rcases le_total (fInt lo) 0 with hneg | hpos
      · exact hneg.trans (Int.natCast_nonneg _)
      · have hlower := fMag_le_fRound hlo false n d hd (hge lo (by rw [abs_of_nonneg hpos]; exact h₁)) hfin
        rw [← abs_of_nonneg hpos, hmag]
        exact Int.ofNat_le.mpr hlower
    · rw [← habs, hmag]
      exact Int.ofNat_le.mpr hupper
  | true =>
    have hneg : fInt lo ≤ 0 := by
      by_contra hpos
      have hprod : 0 < fInt lo * d := Int.mul_pos (not_le.mp hpos) hd'
      have hn : signedNat true n ≤ 0 := by simp [signedNat]
      omega
    have habs : |fInt lo| = -fInt lo := abs_of_nonpos hneg
    have h₁' : (n : Int) ≤ -fInt lo * d := by rw [signedNat, if_pos rfl] at h₁; linarith
    obtain ⟨hfin, hupper⟩ := fMag_fRound_le hlo true n d hd (hle lo (by rw [habs]; exact h₁'))
    have hupper' : (fMag (fRound true n d) : Int) ≤ -fInt lo := by
      rw [← habs, hmag]
      exact_mod_cast hupper
    refine ⟨hfin, by rw [signedNat, if_pos rfl]; linarith, ?_⟩
    rw [signedNat, if_pos rfl] at h₂ ⊢
    rcases le_total 0 (fInt hi) with hpos | hneg
    · have hnat := Int.natCast_nonneg (fMag (fRound true n d))
      linarith
    · have hlower := fMag_le_fRound hhi true n d hd (hge hi (by rw [abs_of_nonpos hneg]; linarith)) hfin
      have hlower' : -fInt hi ≤ (fMag (fRound true n d) : Int) := by
        rw [← abs_of_nonpos hneg, hmag]
        exact_mod_cast hlower
      linarith

theorem fInt_fPack_zero (neg : Bool) : fIsFinite (fPack neg 0) = true ∧ fInt (fPack neg 0) = 0 := by
  cases neg <;> decide

/-- A sum or difference stays in every interval with binary64 ends that its exact value lies in. -/
theorem between_fAdd {lo hi x y : F64} (hlo : fIsFinite lo = true) (hhi : fIsFinite hi = true)
    (hx : fIsFinite x = true) (hy : fIsFinite y = true) (h₁ : fInt lo ≤ fInt x + fInt y)
    (h₂ : fInt x + fInt y ≤ fInt hi) : Between lo hi (fAdd x y) := by
  rw [fAdd_finite hx hy]
  split
  next h0 =>
    obtain ⟨hfin, hint⟩ := fInt_fPack_zero (fSign x && fSign y)
    exact ⟨hfin, by rw [hint, ← h0]; exact h₁, by rw [hint, ← h0]; exact h₂⟩
  next =>
    refine between_fRound hlo hhi one_pos ?_ ?_ <;> rw [signedNat_natAbs, Nat.cast_one, mul_one]
    · exact h₁
    · exact h₂

theorem between_fSub {lo hi x y : F64} (hlo : fIsFinite lo = true) (hhi : fIsFinite hi = true)
    (hx : fIsFinite x = true) (hy : fIsFinite y = true) (h₁ : fInt lo ≤ fInt x - fInt y)
    (h₂ : fInt x - fInt y ≤ fInt hi) : Between lo hi (fSub x y) := by
  have hneg := fInt_fNeg y
  exact between_fAdd hlo hhi hx (by rw [fIsFinite_fNeg]; exact hy) (by omega) (by omega)

theorem signedNat_mul (x y : F64) : signedNat (fSign x != fSign y) (fMag x * fMag y) = fInt x * fInt y := by
  simp only [fInt, signedNat]
  cases fSign x <;> cases fSign y <;> simp

/-- A product stays in every interval with binary64 ends that its exact value lies in. -/
theorem between_fMul {lo hi x y : F64} (hlo : fIsFinite lo = true) (hhi : fIsFinite hi = true)
    (hx : fIsFinite x = true) (hy : fIsFinite y = true) (h₁ : fInt lo * unitsPerOne ≤ fInt x * fInt y)
    (h₂ : fInt x * fInt y ≤ fInt hi * unitsPerOne) : Between lo hi (fMul x y) := by
  rw [fMul_finite hx hy]
  refine between_fRound hlo hhi unitsPerOne_pos ?_ ?_ <;> rw [signedNat_mul]
  · exact h₁
  · exact h₂

theorem withinMagnitude_of_between {x : F64} (h : Between fMinusOne fOne x) : WithinMagnitude fOne x := by
  obtain ⟨hfin, hlo, hhi⟩ := h
  rw [fInt_fMinusOne] at hlo
  rw [fInt_fOne] at hhi
  refine ⟨hfin, ?_⟩
  rw [← natAbs_fInt, ← natAbs_fInt, fInt_fOne]
  omega

/-- A phase is a finite value from 0 to below 1. -/
theorem fInt_of_unitPhase {x : F64} (hx : UnitPhase x) :
    fIsFinite x = true ∧ fSign x = false ∧ 0 ≤ fInt x ∧ fInt x < unitsPerOne := by
  have hsign : fSign x = false := fSign_of_toNat_lt (by omega)
  have hlt := fMag_of_unitPhase_lt hx
  refine ⟨fIsFinite_of_toNat_lt (by omega), hsign, ?_, ?_⟩ <;> rw [fInt_of_fSign hsign] <;> omega

theorem unitPhase_of_fInt {x : F64} (hfin : fIsFinite x = true) (hsign : fSign x = false)
    (hlt : fInt x < unitsPerOne) : UnitPhase x := by
  have hx : x.toNat < 0x7FF0000000000000 := by
    rw [← fLow_of_fSign hsign]
    exact (fIsFinite_iff_low x).mp hfin
  rw [← fInt_fOne, ← not_le, fInt_le_iff_toNat_le (by decide) hx] at hlt
  exact not_le.mp hlt

/-! ### The bipolar map (R141) and the LFO triangle (R308) -/

theorem between_fMul_fTwo {x : F64} (hfin : fIsFinite x = true) (hlo : 0 ≤ fInt x) (hhi : fInt x ≤ unitsPerOne) :
    Between fZero fTwo (fMul fTwo x) := by
  have hU := intUnitsPerOne_pos
  refine between_fMul (by decide) (by decide) (by decide) hfin ?_ ?_ <;> rw [fInt_fTwo]
  · rw [fInt_fZero, zero_mul]
    exact mul_nonneg (by omega) hlo
  · exact mul_le_mul_of_nonneg_left hhi (by omega)

theorem between_toBipolar {x : F64} (hfin : fIsFinite x = true) (hlo : 0 ≤ fInt x) (hhi : fInt x ≤ unitsPerOne) :
    Between fMinusOne fOne (toBipolar x) := by
  obtain ⟨hdouble, hlo', hhi'⟩ := between_fMul_fTwo hfin hlo hhi
  rw [fInt_fZero] at hlo'
  rw [fInt_fTwo] at hhi'
  refine between_fSub (by decide) (by decide) hdouble (by decide) ?_ ?_
  · rw [fInt_fMinusOne, fInt_fOne]
    omega
  · rw [fInt_fOne]
    omega

theorem between_bipolarTriangle {x : F64} (hx : UnitPhase x) : Between fMinusOne fOne (bipolarTriangle x) := by
  obtain ⟨hfin, -, hlo, hhi⟩ := fInt_of_unitPhase hx
  obtain ⟨hbip, hmag⟩ := withinMagnitude_of_between (between_toBipolar hfin hlo hhi.le)
  have habs : fInt (fAbs (toBipolar x)) = fMag (toBipolar x) := fInt_fAbs _
  rw [← natAbs_fInt fOne, fInt_fOne] at hmag
  exact between_toBipolar (x := fAbs (toBipolar x)) (by rw [fIsFinite_fAbs]; exact hbip) (by omega) (by omega)

/-- `toUnipolar` maps [-1, 1] to [0, 1]. -/
theorem between_toUnipolar {b : F64} (hb : Between fMinusOne fOne b) : Between fZero fOne (toUnipolar b) := by
  obtain ⟨hfin, hlo, hhi⟩ := hb
  rw [fInt_fMinusOne] at hlo
  rw [fInt_fOne] at hhi
  have hhalf := two_mul_fInt_fHalf
  have hU := intUnitsPerOne_pos
  have hneg : fInt (fNeg fHalf) = -fInt fHalf := fInt_fNeg _
  have hprod : Between (fNeg fHalf) fHalf (fMul fHalf b) := by
    refine between_fMul (by decide) (by decide) (by decide) hfin ?_ ?_
    · rw [hneg, neg_mul, ← mul_neg]
      exact mul_le_mul_of_nonneg_left hlo (by omega)
    · exact mul_le_mul_of_nonneg_left hhi (by omega)
  obtain ⟨hfin', hlo', hhi'⟩ := hprod
  refine between_fAdd (by decide) (by decide) hfin' (by decide) ?_ ?_
  · rw [fInt_fZero]
    omega
  · rw [fInt_fOne]
    omega

/-- Settles O54: rounding keeps the triangle's steps in their intervals. -/
theorem lfoTriangleIsBounded : Obligations.LfoTriangleIsBounded := by
  intro x hx
  have hbip := between_bipolarTriangle hx
  obtain ⟨hfin, hlo, hhi⟩ := between_toUnipolar hbip
  have hwithin : WithinMagnitude fOne (triangleShape .shot x) := by
    refine withinMagnitude_of_between ⟨hfin, ?_, hhi⟩
    rw [fInt_fZero] at hlo
    rw [fInt_fMinusOne]
    exact (neg_nonpos.mpr intUnitsPerOne_pos.le).trans hlo
  refine ⟨withinMagnitude_of_between hbip, withinMagnitude_of_between hbip, hwithin, ?_⟩
  exact (fLe_finite (x := fZero) (by decide) hfin).trans (decide_eq_true hlo)

/-! ### Values that are no NaN -/

theorem fIsNaN_fAdd_of_finite {x y : F64} (hx : fIsFinite x = true) (hy : fIsNaN y = false) :
    fIsNaN (fAdd x y) = false := by
  simp only [fAdd, fIsNaN_of_finite hx, hy, fIsInf_of_finite hx, Bool.or_self, Bool.false_eq_true, if_false]
  split
  · exact hy
  · split
    · exact fIsNaN_of_finite (fInt_fPack_zero _).1
    · exact fIsNaN_fRound ..

theorem fIsNaN_fMul_of_finite {x y : F64} (hx : fIsFinite x = true) (hy : fIsFinite y = true) :
    fIsNaN (fMul x y) = false := by
  rw [fMul_finite hx hy]
  exact fIsNaN_fRound ..

/-- A number strictly inside finite bounds is finite: an infinity lies outside all of them. -/
theorem fIsFinite_of_natAbs_lt {x : F64} (hnan : fIsNaN x = false) (h : (fInt x).natAbs < 2 ^ 2098) :
    fIsFinite x = true := by
  rw [natAbs_fInt] at h
  have hle : fLow x ≤ 0x7FF0000000000000 := by
    rw [← not_lt, ← fIsNaN_iff_low, hnan]
    simp
  rw [fIsFinite_iff_low]
  refine lt_of_le_of_ne hle fun hinf => ?_
  rw [fMag_eq_low, hinf, if_neg (by norm_num), show 0x7FF0000000000000 % 2 ^ 52 = 0 by norm_num,
    show 0x7FF0000000000000 / 2 ^ 52 - 1 = 2046 by norm_num, Nat.add_zero, ← pow_add] at h
  exact lt_irrefl _ h

theorem between_of_not_fIsNaN {lo hi x : F64} (hlo : fIsFinite lo = true) (hhi : fIsFinite hi = true)
    (hnan : fIsNaN x = false) (h₁ : fInt lo ≤ fInt x) (h₂ : fInt x ≤ fInt hi) : Between lo hi x := by
  have hmlo := fMag_lt_of_finite hlo
  have hmhi := fMag_lt_of_finite hhi
  rw [← natAbs_fInt] at hmlo hmhi
  exact ⟨fIsFinite_of_natAbs_lt hnan (by generalize 2 ^ 2098 = b at *; omega), h₁, h₂⟩

theorem fLt_of_not_fIsNaN {x y : F64} (hx : fIsNaN x = false) (hy : fIsNaN y = false) :
    fLt x y = decide (fInt x < fInt y) := by
  simp [fLt, hx, hy]

/-- A clamp of a number lands between its bounds (R160). -/
theorem between_fClamp {lo hi x : F64} (hlo : fIsFinite lo = true) (hhi : fIsFinite hi = true)
    (hle : fInt lo ≤ fInt hi) (hnan : fIsNaN x = false) : Between lo hi (fClamp lo hi x) := by
  have hlonan := fIsNaN_of_finite hlo
  have hhinan := fIsNaN_of_finite hhi
  have hupper : fIsNaN (if fLt hi x then hi else x) = false ∧ fInt (if fLt hi x then hi else x) ≤ fInt hi := by
    split
    next => exact ⟨hhinan, le_rfl⟩
    next h =>
      rw [fLt_of_not_fIsNaN hhinan hnan, decide_eq_true_eq] at h
      exact ⟨hnan, not_lt.mp h⟩
  unfold fClamp
  dsimp only
  generalize (if fLt hi x then hi else x) = y at hupper
  obtain ⟨hynan, hy⟩ := hupper
  split
  next => exact ⟨hlo, le_rfl, hle⟩
  next h =>
    rw [fLt_of_not_fIsNaN hynan hlonan, decide_eq_true_eq] at h
    exact between_of_not_fIsNaN hlo hhi hynan (not_lt.mp h) hy

/-- `min(max(y, -1), 1)` is the clamp of y to [-1, 1] (R278). -/
theorem between_fMin_fMax {lo hi x : F64} (hlo : fIsFinite lo = true) (hhi : fIsFinite hi = true)
    (hle : fInt lo ≤ fInt hi) (hnan : fIsNaN x = false) : Between lo hi (fMin (fMax x lo) hi) := by
  have hlonan := fIsNaN_of_finite hlo
  have hhinan := fIsNaN_of_finite hhi
  have hlower : fIsNaN (fMax x lo) = false ∧ fInt lo ≤ fInt (fMax x lo) := by
    unfold fMax
    split
    next => exact ⟨hlonan, le_rfl⟩
    next h =>
      rw [fLt_of_not_fIsNaN hnan hlonan, decide_eq_true_eq] at h
      exact ⟨hnan, not_lt.mp h⟩
  obtain ⟨hynan, hy⟩ := hlower
  unfold fMin
  split
  next => exact ⟨hhi, hle, le_rfl⟩
  next h =>
    rw [fLt_of_not_fIsNaN hhinan hynan, decide_eq_true_eq] at h
    exact between_of_not_fIsNaN hlo hhi hynan hy (not_lt.mp h)

end Sys2Proof.Machine
end

section
/-! What UPDATE computes and what a render keeps, as ranges (spec 40_generator_base.md R149, R160 to R163, R180, R182,
43_qbl.md R274 to R278). -/

namespace Sys2Proof.Machine

open Sys2Proof

/-! ### Magnitudes bounded by a natural number -/

/-- A finite value of magnitude at most k. -/
def WithinNat (k : Nat) (x : F64) : Prop := fIsFinite x = true ∧ fMag x ≤ k * unitsPerOne

theorem withinNat_fRound {k n d : Nat} (neg : Bool) (hk : k < 2 ^ 53) (hd : 0 < d) (h : n ≤ k * unitsPerOne * d) :
    WithinNat k (fRound neg n d) := by
  obtain ⟨hfin, hmag⟩ := fRound_natural false hk
  obtain ⟨hfin', hle⟩ := fMag_fRound_le hfin neg n d hd (by rw [hmag]; exact h)
  exact ⟨hfin', hmag ▸ hle⟩

theorem withinNat_fMul {a b k : Nat} {x y : F64} (hx : WithinNat a x) (hy : WithinNat b y) (hab : a * b ≤ k)
    (hk : k < 2 ^ 53) : WithinNat k (fMul x y) := by
  rw [fMul_finite hx.1 hy.1]
  refine withinNat_fRound _ hk unitsPerOne_pos ?_
  calc fMag x * fMag y ≤ a * unitsPerOne * (b * unitsPerOne) := Nat.mul_le_mul hx.2 hy.2
    _ = a * b * unitsPerOne * unitsPerOne := by ring
    _ ≤ k * unitsPerOne * unitsPerOne := by gcongr

theorem withinNat_fAdd {a b k : Nat} {x y : F64} (hx : WithinNat a x) (hy : WithinNat b y) (hab : a + b ≤ k)
    (hk : k < 2 ^ 53) : WithinNat k (fAdd x y) := by
  rw [fAdd_finite hx.1 hy.1]
  split
  · obtain ⟨hfin, hint⟩ := fInt_fPack_zero (fSign x && fSign y)
    exact ⟨hfin, by rw [← natAbs_fInt, hint]; exact Nat.zero_le _⟩
  · refine withinNat_fRound _ hk one_pos ?_
    have hxm := hx.2
    have hym := hy.2
    have hsum : (a + b) * unitsPerOne ≤ k * unitsPerOne := Nat.mul_le_mul_right _ hab
    rw [← natAbs_fInt] at hxm hym
    rw [add_mul] at hsum
    rw [mul_one]
    omega

theorem withinNat_fNeg {a : Nat} {x : F64} (hx : WithinNat a x) : WithinNat a (fNeg x) :=
  ⟨by rw [fIsFinite_fNeg]; exact hx.1, by rw [fMag_fNeg]; exact hx.2⟩

theorem withinNat_fAbs {a : Nat} {x : F64} (hx : WithinNat a x) : WithinNat a (fAbs x) :=
  ⟨by rw [fIsFinite_fAbs]; exact hx.1, by rw [fMag_fAbs]; exact hx.2⟩

theorem withinNat_fSub {a b k : Nat} {x y : F64} (hx : WithinNat a x) (hy : WithinNat b y) (hab : a + b ≤ k)
    (hk : k < 2 ^ 53) : WithinNat k (fSub x y) :=
  withinNat_fAdd hx (withinNat_fNeg hy) hab hk

theorem fMag_fOne : fMag fOne = unitsPerOne := by
  rw [← natAbs_fInt, fInt_fOne, Int.natAbs_natCast]

theorem fInt_fMinusOne_le_fOne : fInt fMinusOne ≤ fInt fOne := by
  rw [fInt_fMinusOne, fInt_fOne]
  omega

theorem withinNat_fOne : WithinNat 1 fOne := ⟨by decide, by rw [fMag_fOne, one_mul]⟩
theorem withinNat_fTwo : WithinNat 2 fTwo := ⟨by decide, fMag_fTwo.le⟩
theorem withinNat_fFour : WithinNat 4 fFour := ⟨by decide, fMag_fFour.le⟩

theorem withinNat_of_between {x : F64} (h : Between fMinusOne fOne x) : WithinNat 1 x := by
  obtain ⟨hfin, hmag⟩ := withinMagnitude_of_between h
  exact ⟨hfin, hmag.trans (by rw [fMag_fOne, one_mul])⟩

theorem withinMagnitude_fOne_of_withinNat {x : F64} (h : WithinNat 1 x) : WithinMagnitude fOne x :=
  ⟨h.1, h.2.trans (by rw [fMag_fOne, one_mul])⟩

theorem fMag_le_of_withinNat_one {x : F64} (h : WithinNat 1 x) : fMag x ≤ unitsPerOne :=
  (withinMagnitude_fOne_of_withinNat h).2.trans fMag_fOne.le

theorem withinNat_of_foMax {x : F64} (h : WithinMagnitude Config.foMax x) : WithinNat 20480 x :=
  ⟨h.1, fMag_foMax ▸ h.2⟩

/-! ### UPDATE (R160 to R163) -/

theorem fInt_foMax_bounds : fInt (fNeg Config.foMax) ≤ fInt Config.foMax := by
  rw [fInt_fNeg, fInt_of_fSign (by decide)]
  omega

theorem withinMagnitude_clampFrequency (f : F64) : WithinMagnitude Config.foMax (clampFrequency f) := by
  have hnan : fIsNaN (if fIsNaN f then fZero else f) = false := by
    split
    next => decide
    next h => simpa using h
  obtain ⟨hfin, hlo, hhi⟩ := between_fClamp (lo := fNeg Config.foMax) (hi := Config.foMax) (by decide) (by decide)
    fInt_foMax_bounds hnan
  rw [fInt_fNeg] at hlo
  refine ⟨hfin, ?_⟩
  rw [← natAbs_fInt, ← natAbs_fInt]
  rw [clampFrequency]
  omega

/-- A legal rate is at least 1 Hz, so dividing by it does not enlarge. -/
theorem withinMagnitude_fDiv_rate {b f rate : F64} (hrate : 0x3FF0000000000000 ≤ rate.toNat)
    (hrate' : rate.toNat ≤ 0x4170000000000000) (hb : fIsFinite b = true) (hf : WithinMagnitude b f) :
    WithinMagnitude b (fDiv f rate) := by
  have hfin : fIsFinite rate = true := fIsFinite_of_toNat_lt (by omega)
  have hone : unitsPerOne ≤ fMag rate := by
    have hle : fInt fOne ≤ fInt rate := (fInt_le_iff_toNat_le (by decide) (by omega)).mpr hrate
    rw [fInt_fOne, fInt_of_fSign (fSign_of_toNat_lt (by omega))] at hle
    exact_mod_cast hle
  have hpos := unitsPerOne_pos
  rw [fDiv_finite hf.1 hfin (by omega)]
  exact fMag_fRound_le hb _ _ _ (by omega) (Nat.mul_le_mul hf.2 hone)

theorem between_clampPulseWidth {x : F64} (hnan : fIsNaN x = false) :
    Between Config.pwMin Config.pwMax (clampPulseWidth x) :=
  between_fClamp (by decide) (by decide) ((fInt_le_iff_toNat_le (by decide) (by decide)).mpr (by decide)) hnan

theorem between_combinedPulseWidth {s : State} (htarget : fIsFinite s.pwTarget = true)
    (hmod : fIsFinite s.modPw = true) : Between Config.pwMin Config.pwMax (combinedPulseWidth s) :=
  between_clampPulseWidth (fIsNaN_fAdd_of_finite htarget (fIsNaN_fMul_of_finite hmod (by decide)))

/-- The ranges of R182 after UPDATE; TABLE_INDEX is a table's number on a WT and untouched on the others. -/
theorem updateCore_ranges {s : State} (hrate : s.RateOk) (htarget : fIsFinite s.pwTarget = true)
    (hmod : fIsFinite s.modPw = true) :
    WithinMagnitude Config.foMax (updateCore s).effFreq ∧ WithinMagnitude Config.foMax (updateCore s).increment ∧
    fLe Config.pwMin (updateCore s).effPw = true ∧ fLe (updateCore s).effPw Config.pwMax = true ∧
    (if s.kind = .wt then (updateCore s).tableIndex.toNat < 9 else (updateCore s).tableIndex = s.tableIndex) := by
  have hfreq := withinMagnitude_clampFrequency (rawFrequency s)
  obtain ⟨hfin, hlo, hhi⟩ := between_combinedPulseWidth htarget hmod
  refine ⟨hfreq, withinMagnitude_fDiv_rate hrate.1 hrate.2 (by decide) hfreq, ?_, ?_, ?_⟩
  · exact (fLe_finite (by decide) hfin).trans (decide_eq_true hlo)
  · exact (fLe_finite hfin (by decide)).trans (decide_eq_true hhi)
  · rw [updateCore_tableIndex]
    split
    · have hle := selectTable_le (updateCore s).effFreq
      rw [BitVec.toNat_ofNat]
      omega
    · rfl

/-- Settles O30: both clamps and the division by a rate of at least 1 Hz. -/
theorem updateResultsAreInRange : Obligations.UpdateResultsAreInRange := by
  intro s t hrate htarget hmod h
  rw [exec_update, Host.Outcome.next.injEq] at h
  subst h
  obtain ⟨hfreq, hinc, hlo, hhi, hindex⟩ := updateCore_ranges hrate htarget hmod
  refine ⟨hfreq, hinc, hlo, hhi, fun (hkind : s.kind = .wt) => ?_⟩
  rw [if_pos hkind] at hindex
  exact hindex

/-! ### The segments of the QBL (R274, R275) -/

theorem withinNat_toBipolar {x : F64} (hfin : fIsFinite x = true) (hlo : 0 ≤ fInt x) (hhi : fInt x ≤ unitsPerOne) :
    WithinNat 1 (toBipolar x) :=
  withinNat_of_between (between_toBipolar hfin hlo hhi)

theorem withinNat_sawRaw {pr : F64} (hpr : UnitPhase pr) : WithinNat 1 (sawRaw pr) := by
  obtain ⟨hfin, -, hlo, hhi⟩ := fInt_of_unitPhase hpr
  have hb := withinNat_toBipolar hfin hlo hhi.le
  exact withinNat_fMul hb hb (by norm_num) (by norm_num)

/-- The phase within the half cycle, doubled, is again from 0 to 1. -/
theorem between_halfCycle {pr : F64} (hpr : UnitPhase pr) :
    Between fZero fOne (fSub (fMul fTwo pr) (if fLt pr fHalf then fZero else fOne)) := by
  obtain ⟨hfin, -, hlo, hhi⟩ := fInt_of_unitPhase hpr
  have hhalf := two_mul_fInt_fHalf
  have hU := intUnitsPerOne_pos
  have hdouble (l h : F64) (hl : fIsFinite l = true) (hh : fIsFinite h = true) (h₁ : fInt l ≤ 2 * fInt pr)
      (h₂ : 2 * fInt pr ≤ fInt h) : Between l h (fMul fTwo pr) := by
    refine between_fMul hl hh (by decide) hfin ?_ ?_ <;> rw [fInt_fTwo, mul_right_comm]
    · exact mul_le_mul_of_nonneg_right h₁ hU.le
    · exact mul_le_mul_of_nonneg_right h₂ hU.le
  rw [fLt_finite hfin (by decide)]
  by_cases hlt : fInt pr < fInt fHalf
  · obtain ⟨hf, h₁, h₂⟩ := hdouble fZero fOne (by decide) (by decide) (by rw [fInt_fZero]; omega)
      (by rw [fInt_fOne]; omega)
    rw [decide_eq_true hlt, if_pos rfl]
    exact between_fSub (by decide) (by decide) hf (by decide) (by rw [fInt_fZero] at *; omega)
      (by rw [fInt_fZero]; omega)
  · obtain ⟨hf, h₁, h₂⟩ := hdouble fOne fTwo (by decide) (by decide) (by rw [fInt_fOne]; omega)
      (by rw [fInt_fTwo]; omega)
    rw [fInt_fOne] at h₁
    rw [fInt_fTwo] at h₂
    rw [decide_eq_false hlt, if_neg (by simp)]
    exact between_fSub (by decide) (by decide) hf (by decide) (by rw [fInt_fZero, fInt_fOne]; omega)
      (by rw [fInt_fOne]; omega)

theorem withinNat_triRaw {pr : F64} (hpr : UnitPhase pr) : WithinNat 1 (triRaw pr) := by
  obtain ⟨hfin, hlo, hhi⟩ := between_halfCycle hpr
  rw [fInt_fZero] at hlo
  rw [fInt_fOne] at hhi
  have hb := withinNat_toBipolar hfin hlo hhi
  have hU := intUnitsPerOne_pos
  generalize hbdef : toBipolar (fSub (fMul fTwo pr) (if fLt pr fHalf then fZero else fOne)) = b at hb
  have hsquare : Between fZero fOne (fMul b b) := by
    have hle := fMag_le_of_withinNat_one hb
    rw [← natAbs_fInt] at hle
    refine between_fMul (by decide) (by decide) hb.1 hb.1 ?_ ?_
    · rw [fInt_fZero, zero_mul]
      exact mul_self_nonneg _
    · rw [fInt_fOne, ← abs_mul_abs_self, Int.abs_eq_natAbs]
      exact_mod_cast Nat.mul_le_mul hle hle
  obtain ⟨hfin', hlo', hhi'⟩ := hsquare
  have hrest : WithinNat 1 (fSub fOne (fMul b b)) := by
    refine withinNat_of_between (between_fSub (by decide) (by decide) (by decide) hfin' ?_ ?_)
    · rw [fInt_fMinusOne]
      omega
    · rw [fInt_fZero] at hlo'
      omega
  have hsign : WithinNat 1 (triSign pr) := by
    unfold triSign
    split
    · exact withinNat_fOne
    · exact withinNat_fNeg (x := fOne) withinNat_fOne
  unfold triRaw
  dsimp only
  rw [hbdef]
  exact withinNat_fMul hsign hrest (by norm_num) (by norm_num)

/-- The raw sample of a segment at a read phase in [0, 1) is in [-1, 1]. -/
theorem withinNat_qblSegment (s : State) {pr : F64} (hpr : UnitPhase pr) : WithinNat 1 (qblSegment s pr).1 := by
  unfold qblSegment
  cases s.waveform
  case sawUp | sawDown => exact withinNat_sawRaw hpr
  all_goals exact withinNat_triRaw hpr

/-! ### The differentiator (R276) -/

/-- 2^-48, a bound below the denominator of the differentiator where it divides. -/
def fTwoPowNeg48 : F64 := 0x3CF0000000000000#64

theorem fMag_dpwIncMin_mul : fMag fTwoPowNeg48 * unitsPerOne ≤ fMag Config.dpwIncMin * fMag Config.dpwIncMin := by
  have hbound : 2 ^ 48 * fMag fTwoPowNeg48 = 1 * unitsPerOne :=
    two_pow_mul_fMag (e := 974) (c := 52) (by decide) (by decide) rfl
  have hmin : 2 ^ 24 * fMag Config.dpwIncMin = 1 * unitsPerOne :=
    two_pow_mul_fMag (e := 998) (c := 52) (by decide) (by decide) rfl
  refine Nat.le_of_mul_le_mul_left (Eq.le ?_) (show 0 < 2 ^ 48 by positivity)
  calc 2 ^ 48 * (fMag fTwoPowNeg48 * unitsPerOne) = 2 ^ 48 * fMag fTwoPowNeg48 * unitsPerOne := (mul_assoc ..).symm
    _ = 2 ^ 24 * fMag Config.dpwIncMin * (2 ^ 24 * fMag Config.dpwIncMin) := by rw [hbound, hmin, one_mul]
    _ = 2 ^ 48 * (fMag Config.dpwIncMin * fMag Config.dpwIncMin) := by ring

theorem fMag_le_fMul {b x y : F64} (hb : fIsFinite b = true) (hx : fIsFinite x = true) (hy : fIsFinite y = true)
    (h : fMag b * unitsPerOne ≤ fMag x * fMag y) (hfin : fIsFinite (fMul x y) = true) : fMag b ≤ fMag (fMul x y) := by
  rw [fMul_finite hx hy] at hfin ⊢
  exact fMag_le_fRound hb _ _ _ unitsPerOne_pos h hfin

theorem not_fLt_fAbs {b x : F64} (hb : fIsFinite b = true) (hsign : fSign b = false) (hx : fIsFinite x = true)
    (h : fLt (fAbs x) b = false) : fMag b ≤ fMag x := by
  rw [fLt_finite (by rw [fIsFinite_fAbs]; exact hx) hb, decide_eq_false_iff_not, fInt_fAbs, fInt_of_fSign hsign] at h
  omega

/-- The guard keeps the denominator away from 0, so a difference of finite samples is a number. -/
theorem fIsNaN_dpwDifference {prev raw delta : F64} (hprev : fIsFinite prev = true) (hraw : WithinNat 1 raw)
    (hdelta : WithinNat 40960 delta) : fIsNaN (dpwDifference prev raw delta) = false := by
  unfold dpwDifference
  dsimp only
  split
  next => decide
  next hguard =>
    rw [Bool.not_eq_true, Bool.or_eq_false_iff] at hguard
    have hdiff : fIsFinite (fSub raw prev) = true :=
      fIsFinite_fAdd_of_fMag_le hraw.1 (fMag_le_of_withinNat_one hraw) (by rw [fIsFinite_fNeg]; exact hprev)
    have hfour : WithinNat 163840 (fMul fFour delta) :=
      withinNat_fMul withinNat_fFour hdelta (by norm_num) (by norm_num)
    have hone : WithinNat 40961 (fSub fOne delta) :=
      withinNat_fSub withinNat_fOne hdelta (by norm_num) (by norm_num)
    have hden := withinNat_fMul hfour hone le_rfl (by norm_num)
    have hmin : fMag Config.dpwIncMin ≤ fMag delta := not_fLt_fAbs (by decide) (by decide) hdelta.1 hguard.1
    have hmin' : fMag Config.dpwIncMin ≤ fMag (fSub fOne delta) :=
      not_fLt_fAbs (by decide) (by decide) hone.1 hguard.2
    have hfour' : fMag Config.dpwIncMin ≤ fMag (fMul fFour delta) := by
      refine fMag_le_fMul (by decide) (by decide) hdelta.1 ?_ hfour.1
      have hquad : unitsPerOne ≤ fMag fFour := by rw [fMag_fFour]; omega
      rw [mul_comm]
      exact Nat.mul_le_mul hquad hmin
    have hpos : fMag fTwoPowNeg48 ≤ fMag (fMul (fMul fFour delta) (fSub fOne delta)) :=
      fMag_le_fMul (by decide) hfour.1 hone.1 (fMag_dpwIncMin_mul.trans (Nat.mul_le_mul hfour' hmin')) hden.1
    have hpos' : 0 < fMag fTwoPowNeg48 := by
      rw [fMag_of_expField (e := 974) (by decide)]
      positivity
    rw [fDiv_finite hdiff hden.1 (by omega)]
    exact fIsNaN_fRound ..

/-- Settles O55: the differentiated triangle is a number, and the clamp does the rest. -/
theorem qblTriangleIsBounded : Obligations.QblTriangleIsBounded := by
  intro s hphase hinc hmod hprev hwave
  have hpr := unitPhase_readPhase hphase hmod
  have hraw := withinNat_qblSegment s hpr
  have hdelta : WithinNat 40960 (fMul fTwo s.increment) :=
    withinNat_fMul withinNat_fTwo (withinNat_of_foMax hinc) (by norm_num) (by norm_num)
  rw [qblSegment_of_triangle hwave] at hraw ⊢
  exact withinMagnitude_of_between (between_fMin_fMax (by decide) (by decide) fInt_fMinusOne_le_fOne
    (fIsNaN_dpwDifference hprev hraw hdelta))

end Sys2Proof.Machine
end

section
/-! The value of a noise draw (spec 40_generator_base.md R147, R148), and the invariants over binary64 registers that
every step keeps (10_state.md, 40_generator_base.md R180). -/

namespace Sys2Proof.Machine

open Sys2Proof

/-! ### The value of a draw -/

/-- A value of at most 53 bits before e zeros is a binary64, up to 2. -/
theorem fRound_exact (neg : Bool) {k e : Nat} (hk : k < 2 ^ 53) (hle : k * 2 ^ e ≤ 2 * unitsPerOne) :
    fIsFinite (fRound neg (k * 2 ^ e) 1) = true ∧ fMag (fRound neg (k * 2 ^ e) 1) = k * 2 ^ e := by
  obtain ⟨hfin, -⟩ := withinNat_fRound (k := 2) (n := k * 2 ^ e) (d := 1) neg (by norm_num) one_pos
    (by rw [mul_one]; exact hle)
  exact ⟨hfin, fMag_fRound_of_dvd (two_pow_log2_sub_dvd hk) hfin⟩

/-- 2^-31 in units. -/
def drawUnit : Nat := 2 ^ 1043

theorem fMag_fTwoPowNeg31 : fMag fTwoPowNeg31 = drawUnit := by
  rw [fMag_of_expField (e := 991) (by decide), show fFrac fTwoPowNeg31 = 0 by decide, drawUnit, Nat.add_zero, ← pow_add]

theorem unitsPerOne_eq_drawUnit : unitsPerOne = 2 ^ 31 * drawUnit := by
  rw [unitsPerOne_eq, drawUnit, ← pow_add]

theorem drawUnit_pos : 0 < drawUnit := Nat.pow_pos two_pos

theorem fRound_drawUnits (neg : Bool) {k : Nat} (hk : k ≤ 2 ^ 32) :
    fIsFinite (fRound neg (k * drawUnit) 1) = true ∧ fMag (fRound neg (k * drawUnit) 1) = k * drawUnit := by
  refine fRound_exact neg (lt_of_le_of_lt hk (by norm_num)) ?_
  rw [← drawUnit, unitsPerOne_eq_drawUnit, ← mul_assoc]
  exact Nat.mul_le_mul_right _ hk

/-- The scaled draw x × 2^-31 is exact. -/
theorem fMul_draw (x : Word32) :
    fIsFinite (fMul (f64OfInt x.toNat) fTwoPowNeg31) = true ∧
      fInt (fMul (f64OfInt x.toNat) fTwoPowNeg31) = x.toNat * drawUnit := by
  have hx : x.toNat < 2 ^ 32 := x.isLt
  have hint : f64OfInt x.toNat = fRound false (x.toNat * unitsPerOne) 1 := by
    rw [f64OfInt, round64, Int.natAbs_natCast, decide_eq_false (by omega)]
  obtain ⟨hfin, hmag⟩ := fRound_natural false (k := x.toNat) (by omega)
  have hround : fMul (f64OfInt x.toNat) fTwoPowNeg31 = fRound false (x.toNat * drawUnit) 1 := by
    rw [hint, fMul_finite hfin (by decide), hmag, fSign_fRound, fMag_fTwoPowNeg31, fRound, fRound]
    exact congrArg _ (roundMag_congr unitsPerOne_pos one_pos (by ring))
  obtain ⟨hfin', hmag'⟩ := fRound_drawUnits false hx.le
  rw [hround]
  exact ⟨hfin', by rw [fInt_of_fSign (fSign_fRound ..), hmag', Nat.cast_mul]⟩

/-- A draw is exactly (x - 2^31) × 2^-31. -/
theorem fInt_noiseValue (x : Word32) :
    fIsFinite (noiseValue x) = true ∧ fInt (noiseValue x) = ((x.toNat : Int) - 2 ^ 31) * drawUnit := by
  obtain ⟨hfin, hint⟩ := fMul_draw x
  have hx : x.toNat < 2 ^ 32 := x.isLt
  have hdiff : fInt (fMul (f64OfInt x.toNat) fTwoPowNeg31) - fInt fOne = ((x.toNat : Int) - 2 ^ 31) * drawUnit := by
    rw [hint, fInt_fOne, unitsPerOne_eq_drawUnit]
    push_cast
    ring
  rw [noiseValue, fSub_finite hfin (by decide), hdiff]
  split
  next h0 =>
    obtain ⟨hfin', hzero⟩ := fInt_fPack_zero
      (fSign (fMul (f64OfInt x.toNat) fTwoPowNeg31) && !fSign fOne)
    exact ⟨hfin', by rw [hzero, h0]⟩
  next =>
    have habs : (((x.toNat : Int) - 2 ^ 31) * drawUnit).natAbs = ((x.toNat : Int) - 2 ^ 31).natAbs * drawUnit := by
      rw [Int.natAbs_mul, Int.natAbs_natCast]
    obtain ⟨hfin', hmag⟩ := fRound_drawUnits (decide (((x.toNat : Int) - 2 ^ 31) * drawUnit < 0))
      (k := ((x.toNat : Int) - 2 ^ 31).natAbs) (by omega)
    rw [← habs] at hfin' hmag
    exact ⟨hfin', by rw [fInt_fRound, hmag, signedNat_natAbs]⟩

/-- Settles O39: the scaled draw and the difference are both exact. -/
theorem noiseValueIsExact : Obligations.NoiseValueIsExact := by
  intro x
  have hunit : (drawUnit : Int) = 2 ^ 1043 := by rw [drawUnit, Nat.cast_pow, Nat.cast_ofNat]
  obtain ⟨hfin, hint⟩ := fInt_noiseValue x
  have hx : x.toNat < 2 ^ 32 := x.isLt
  rw [← hunit, hint]
  refine ⟨hfin, rfl, fun hne => ?_⟩
  have hpos : 0 < x.toNat := by
    rw [ne_eq, BitVec.toNat_eq, BitVec.toNat_zero] at hne
    omega
  constructor <;> exact mul_le_mul_of_nonneg_right (by omega) (Int.natCast_nonneg _)

/-- Every draw is in [-1.0, 1.0) (R55). -/
theorem heldOk_noiseValue (x : Word32) :
    fLe fMinusOne (noiseValue x) = true ∧ fLt (noiseValue x) fOne = true := by
  obtain ⟨hfin, hint⟩ := fInt_noiseValue x
  have hx : x.toNat < 2 ^ 32 := x.isLt
  have hpos : (0 : Int) < drawUnit := by exact_mod_cast drawUnit_pos
  have hone : (unitsPerOne : Int) = 2 ^ 31 * drawUnit := by rw [unitsPerOne_eq_drawUnit]; push_cast; ring
  rw [fLe_finite (by decide) hfin, fLt_finite hfin (by decide), fInt_fMinusOne, fInt_fOne, hone, hint,
    decide_eq_true_eq, decide_eq_true_eq, ← neg_mul]
  exact ⟨mul_le_mul_of_nonneg_right (by omega) hpos.le, mul_lt_mul_of_pos_right (by omega) hpos⟩

/-! ### The phase (R149, R180) -/

/-- A sum that is not negative, of values not both negative, has no sign. -/
theorem fSign_fAdd {x y : F64} (hx : fIsFinite x = true) (hy : fIsFinite y = true) (hsign : fSign x = false)
    (hfin : fIsFinite (fAdd x y) = true) (hnonneg : 0 ≤ fInt (fAdd x y)) : fSign (fAdd x y) = false := by
  rw [fAdd_finite hx hy] at hfin hnonneg ⊢
  by_cases h0 : fInt x + fInt y = 0
  · rw [if_pos h0, hsign, fSign_fPack _ (by norm_num), Bool.false_and]
  · rw [if_neg h0] at hfin hnonneg ⊢
    rw [fSign_fRound]
    by_contra hneg
    rw [Bool.not_eq_false, decide_eq_true_eq] at hneg
    have hmin : fMag 1#64 = 1 := by decide
    have hmag := fMag_le_fRound (x := 1#64) (by decide) (decide (fInt x + fInt y < 0)) (fInt x + fInt y).natAbs 1
      one_pos (by omega) hfin
    rw [fInt_fRound, signedNat, if_pos (decide_eq_true hneg)] at hnonneg
    omega

/-- The phase step lands in [0, 1): inside as the sum, outside as its wrap. -/
theorem advancePhase_unitPhase {s : State} (hphase : s.PhaseOk) (hinc : fIsFinite s.increment = true) :
    (advancePhase s).PhaseOk := by
  obtain ⟨hfin, hsign, -, -⟩ := fInt_of_unitPhase hphase
  have hsum : fIsFinite (fAdd s.phase s.increment) = true :=
    fIsFinite_fAdd_of_fMag_le hfin (fMag_of_unitPhase_lt hphase).le hinc
  obtain ⟨hlo, hhi, hs⟩ | ⟨-, hs⟩ := advancePhase_cases s
  · rw [fLe_finite (by decide) hsum, decide_eq_true_eq, fInt_fZero] at hlo
    rw [fLt_finite hsum (by decide), decide_eq_true_eq, fInt_fOne] at hhi
    rw [hs]
    exact unitPhase_of_fInt hsum (fSign_fAdd hfin hinc hsign hsum hlo) hhi
  · rw [hs]
    exact unitPhase_wrap01 hsum

/-- The phase step reads PHASE and INCREMENT only. -/
theorem advancePhase_phase_congr {s t : State} (hphase : s.phase = t.phase) (hinc : s.increment = t.increment) :
    (advancePhase s).phase = (advancePhase t).phase := by
  simp only [advancePhase, hphase, hinc, State.setPhase_phase]

theorem holdStep_phase (s : State) : (holdStep s).phase = s.phase ∧ (holdStep s).increment = s.increment := by
  obtain ⟨-, ⟨-, hs⟩ | ⟨-, hs⟩⟩ | ⟨-, -, hs⟩ := holdStep_cases s <;> rw [hs] <;> exact ⟨rfl, rfl⟩

/-- A render advances the phase, or completes a one-shot and leaves it. -/
theorem oscRender_phase (s : State) :
    (oscRender s).phase = s.phase ∨ (oscRender s).phase = (advancePhase s).phase := by
  rw [oscRender_spec]
  cases s.kind with
  | wt =>
    by_cases hw : s.waveform = .whiteNoise
    · rw [wtOsc_of_whiteNoise hw]
      exact .inr rfl
    · rw [wtOsc_of_table hw]
      exact .inr rfl
  | qbl =>
    refine .inr (advancePhase_phase_congr ?_ ?_) <;> unfold qblSegment <;> cases s.waveform <;> rfl
  | lfo =>
    obtain ⟨-, -, hs⟩ | ⟨-, -, hs⟩ | ⟨-, -, hs⟩ := lfoOsc_cases s
    · exact .inl (by rw [hs]; rfl)
    · obtain ⟨hphase, hinc⟩ := holdStep_phase (s.setWrap false)
      exact .inr (by rw [hs]; exact advancePhase_phase_congr hphase hinc)
    · exact .inr (by rw [hs]; rfl)

theorem startPhase_unitPhase (k : Kind) (w : Waveform) : UnitPhase (startPhase k w) := by
  rw [startPhase_eq]
  split <;> decide

theorem Effect.phaseOk {s t : State} {i : Instr} (h : Effect s i t) (hphase : s.PhaseOk)
    (hinc : fIsFinite s.increment = true) : t.PhaseOk := by
  have hreset : (resetCore s).PhaseOk := startPhase_unitPhase s.kind s.waveform
  cases h with
  | refused | answered | stop | muted | update | rated => exact hphase
  | reset => exact hreset
  | start hu =>
    obtain rfl | rfl := hu
    · exact hphase
    · exact hreset
  | rendered =>
    have hadvance := advancePhase_unitPhase hphase hinc
    rw [State.PhaseOk, State.respond_phase]
    obtain hp | hp := oscRender_phase s <;> rw [hp]
    · exact hphase
    · exact hadvance
  | written hput =>
    obtain ⟨-, hp, -⟩ := writeReg_frame hput
    rw [State.PhaseOk, State.respond_phase, hp]
    exact hphase

/-- Settles O58: the phase step lands in [0, 1), and START and RESET install a start phase. INCREMENT is finite when the
command runs, as taking the command from the port leaves it. -/
theorem phaseStaysInUnitInterval : Obligations.PhaseStaysInUnitInterval := by
  intro s t hphase hinc h
  obtain ⟨-, hstep⟩ | ⟨c, rest, e, -, -, hstep⟩ | ⟨c, rest, i, -, -, hstep⟩ := step_cases s
  · cases hstep.symm.trans h
    exact hphase
  · cases hstep.symm.trans h
    exact hphase
  · exact (effect_of_exec (hstep.symm.trans h)).phaseOk hphase hinc

/-! ### What a render keeps (R55, R58) -/

theorem holdStep_shValue (s : State) :
    (holdStep s).shValue = s.shValue ∨ ∃ x, (holdStep s).shValue = noiseValue x := by
  obtain ⟨-, ⟨-, hs⟩ | ⟨-, hs⟩⟩ | ⟨-, -, hs⟩ := holdStep_cases s
  · exact .inr ⟨_, by rw [hs, State.setHold_shValue]⟩
  · exact .inr ⟨_, by rw [hs, State.setHold_shValue]⟩
  · exact .inl (by rw [hs, State.setHold_shValue])

/-- A render holds SH_VALUE or draws it. -/
theorem oscRender_shValue (s : State) :
    (oscRender s).shValue = s.shValue ∨ ∃ x, (oscRender s).shValue = noiseValue x := by
  rw [oscRender_spec]
  cases s.kind with
  | wt => obtain ⟨x, p, w, o, hs⟩ := wtOsc_frame s; exact .inl (by simp [hs])
  | qbl => obtain ⟨g, r, p, w, o, -, hs⟩ := qblOsc_frame s; exact .inl (by simp [hs])
  | lfo =>
    obtain ⟨-, -, hs⟩ | ⟨-, -, hs⟩ | ⟨-, -, hs⟩ := lfoOsc_cases s
    · exact .inl (by rw [hs]; rfl)
    · obtain ⟨p, w, hp⟩ := advancePhase_frame (holdStep (s.setWrap false))
      have hheld := holdStep_shValue (s.setWrap false)
      rw [State.setWrap_shValue] at hheld
      rw [hs, hp, State.setOutputs_shValue, State.setPhase_shValue]
      exact hheld
    · exact .inl (by rw [hs]; rfl)

theorem holdStep_dpwPrev (s : State) : (holdStep s).dpwPrev = s.dpwPrev := by
  obtain ⟨-, ⟨-, hs⟩ | ⟨-, hs⟩⟩ | ⟨-, -, hs⟩ := holdStep_cases s <;> rw [hs] <;> rfl

/-- Only a QBL writes DPW_PREV, with the raw sample of its segment. -/
theorem oscRender_dpwPrev (s : State) :
    (oscRender s).dpwPrev = s.dpwPrev ∨ (oscRender s).dpwPrev = (qblSegment s (readPhase s)).1 := by
  rw [oscRender_spec]
  cases s.kind with
  | wt => obtain ⟨x, p, w, o, hs⟩ := wtOsc_frame s; exact .inl (by simp [hs])
  | qbl => exact .inr rfl
  | lfo =>
    obtain ⟨-, -, hs⟩ | ⟨-, -, hs⟩ | ⟨-, -, hs⟩ := lfoOsc_cases s
    · exact .inl (by rw [hs]; rfl)
    · obtain ⟨p, w, hp⟩ := advancePhase_frame (holdStep (s.setWrap false))
      have hheld := holdStep_dpwPrev (s.setWrap false)
      rw [State.setWrap_dpwPrev] at hheld
      rw [hs, hp, State.setOutputs_dpwPrev, State.setPhase_dpwPrev]
      exact .inl hheld
    · exact .inl (by rw [hs]; rfl)

/-! ### The ranges (R31 to R58, R182) -/

theorem resetCore_ranges {s : State} (h : s.RangesOk) : (resetCore s).RangesOk := by
  obtain ⟨hrate, ⟨htarget, hratio, hamp, hpw, -⟩, hcombined, -, hheld, -⟩ := h
  have hone : fIsFinite fOne = true := by decide
  have hzero : fIsFinite fZero = true := by decide
  have hdpw : WithinMagnitude fOne fZero := 
    ⟨by decide, by rw [show fMag fZero = 0 by decide]; exact Nat.zero_le _⟩
  exact ⟨hrate, ⟨htarget, hratio, hamp, hpw, hone, hzero, hzero, hzero, hzero, hzero⟩, hcombined,
    startPhase_unitPhase s.kind s.waveform, hheld, hdpw⟩

theorem written_controlsFinite {s t : State} {r : Reg} {d : Word} (h : s.ControlsFinite) (ht : Written s r d t) :
    t.ControlsFinite := by
  cases ht with
  | binary64 hr hd =>
    obtain ⟨h₁, h₂, h₃, h₄, h₅, h₆, h₇, h₈, h₉, h₁₀⟩ := h
    cases r <;> simp [State.ControlsFinite, putBinary64, *]
  | octave | semitone | cent | waveform | runMode | seed | status => exact h

theorem Effect.ranges {s t : State} {i : Instr} (h : Effect s i t) (hs : s.RangesOk) : t.RangesOk := by
  have hreset := resetCore_ranges hs
  obtain ⟨hrate, hcontrols, hcombined, hphase₀, hheld, hdpw⟩ := hs
  have hphase : t.PhaseOk := by
    obtain ⟨-, ⟨hinc, -⟩, -⟩ := hcombined
    exact h.phaseOk hphase₀ hinc
  cases h with
  | refused | answered | stop | muted => exact ⟨hrate, hcontrols, hcombined, hphase₀, hheld, hdpw⟩
  | reset => exact hreset
  | start hu =>
    obtain rfl | rfl := hu
    · exact ⟨hrate, hcontrols, hcombined, hphase₀, hheld, hdpw⟩
    · exact hreset
  | update =>
    have ⟨_, _, _, htarget, _, _, _, _, _, hmod⟩ := hcontrols
    obtain ⟨hfreq, hinc, hlo, hhi, hindex⟩ := updateCore_ranges hrate htarget hmod
    have hindex' : (updateCore s).tableIndex.toNat < Config.nTables := by
      obtain ⟨-, -, -, -, hold⟩ := hcombined
      split at hindex
      · exact hindex
      · rw [hindex]
        exact hold
    exact ⟨hrate, hcontrols, ⟨hfreq, hinc, hlo, hhi, hindex'⟩, hphase₀, hheld, hdpw⟩
  | rendered =>
    have ⟨_, _, _, _, _, _, _, _, hmodPhase, _⟩ := hcontrols
    have hheld' : (oscRender s).HeldOk := by
      rw [State.HeldOk]
      obtain hv | ⟨x, hv⟩ := oscRender_shValue s <;> rw [hv]
      · exact hheld
      · exact heldOk_noiseValue x
    have hdpw' : (oscRender s).DpwOk := by
      rw [State.DpwOk]
      obtain hv | hv := oscRender_dpwPrev s <;> rw [hv]
      · exact hdpw
      · exact withinMagnitude_fOne_of_withinNat (withinNat_qblSegment s (unitPhase_readPhase hphase₀ hmodPhase))
    obtain ⟨w, hw⟩ := exists_oscRender_eq_putOsc s
    rw [hw] at hheld' hdpw' hphase ⊢
    exact ⟨hrate, hcontrols, hcombined, hphase, hheld', hdpw'⟩
  | rated hv => exact ⟨(rateLegal_iff _).mp hv, hcontrols, hcombined, hphase₀, hheld, hdpw⟩
  | written hput =>
    have hcontrols' := written_controlsFinite hcontrols (written_of_writeReg hput)
    obtain ⟨hr, hp, hinc, hfreq, hpw, -, hindex, -, hv, -, -, hprev, -⟩ := writeReg_frame hput
    refine ⟨?_, hcontrols', ?_, hphase, ?_, ?_⟩
    · rw [State.RateOk, State.respond_sampleRate, hr]
      exact hrate
    · rw [State.CombinedOk, State.respond_effFreq, State.respond_increment, State.respond_effPw,
        State.respond_tableIndex, hfreq, hinc, hpw, hindex]
      exact hcombined
    · rw [State.HeldOk, State.respond_shValue, hv]
      exact hheld
    · rw [State.DpwOk, State.respond_dpwPrev, hprev]
      exact hdpw

/-- Settles O59: every effect keeps the ranges, so every step does. -/
theorem rangesInvariantIsKept : Obligations.RangesInvariantIsKept :=
  fun _ _ hs h => step_keeps (fun _ _ hs => hs) (fun _ _ _ hs heffect => heffect.ranges hs) hs h

end Sys2Proof.Machine
end

section
/-! The assembler on the text of the disassembly (spec 30_encoding.md R120, R125, R127; notes/assumptions/10.md): a line
is its words with separators between them, and each word reads back as what it was printed from. -/

namespace Sys2Proof.Machine

open Sys2Proof

/-! ### Hexadecimal digits -/

theorem hexDigit_hexChar : ∀ d < 16, hexDigit (hexChar d) = some d := by decide

theorem length_hexChars (k n : Nat) : (hexChars k n).length = k := by
  induction k generalizing n with
  | zero => rfl
  | succ k ih => simp [hexChars, ih]

theorem readHex_append_singleton {ds : Chars} {acc v d : Nat} {c : Char} (hv : readHex ds acc = some v)
    (hd : hexDigit c = some d) : readHex (ds ++ [c]) acc = some (16 * v + d) := by
  induction ds generalizing acc with
  | nil => cases hv; simp [readHex, hd]
  | cons x xs ih =>
    rw [List.cons_append, readHex]
    rw [readHex] at hv
    cases hx : hexDigit x with
    | none => simp [hx] at hv
    | some y =>
      simp only [hx] at hv ⊢
      exact ih hv

/-- The digits of a number, read back, are its low 4·k bits. -/
theorem readHex_hexChars (k n : Nat) : readHex (hexChars k n) 0 = some (n % 16 ^ k) := by
  induction k generalizing n with
  | zero => simp [hexChars, readHex, Nat.mod_one]
  | succ k ih =>
    have hlast := hexDigit_hexChar (n % 16) (Nat.mod_lt n (by norm_num))
    rw [hexChars, readHex_append_singleton (ih (n / 16)) hlast, pow_succ', Nat.mod_mul, Nat.add_comm]

theorem hexText_eq (k n : Nat) : hexText k n = '0' :: 'x' :: hexChars k n := rfl

theorem hexLiteral_hexText {k n : Nat} (h : n < 16 ^ k) : hexLiteral k (hexText k n) = some n := by
  rw [hexText_eq, hexLiteral, if_pos (length_hexChars k n), readHex_hexChars, Nat.mod_eq_of_lt h]

/-! ### Words -/

/-- A character of a word that is no instance prefix: no separator, no comment mark, no colon. -/
def plainChar (c : Char) : Bool := c != ';' && c != ' ' && c != '\t' && c != ',' && c != ':'

/-- A word that stands by itself on a line. -/
def PlainWord (w : Chars) : Prop := w ≠ [] ∧ ∀ c ∈ w, plainChar c = true

theorem plainChar_iff (c : Char) :
    plainChar c = true ↔ c ≠ ';' ∧ c ≠ ' ' ∧ c ≠ '\t' ∧ c ≠ ',' ∧ c ≠ ':' := by
  simp [plainChar, and_assoc]

/-- The check of a word of literals. -/
theorem plainWord_of_all {w : Chars} (h : (!w.isEmpty && w.all plainChar) = true) : PlainWord w := by
  simpa [PlainWord, List.all_eq_true] using h

theorem plainChar_hexChar : ∀ d < 16, plainChar (hexChar d) = true := by decide

theorem plainWord_hexText (k n : Nat) : PlainWord (hexText k n) := by
  have hdigits (k n : Nat) : ∀ c ∈ hexChars k n, plainChar c = true := by
    induction k generalizing n with
    | zero => simp [hexChars]
    | succ k ih =>
      intro c hc
      rw [hexChars, List.mem_append, List.mem_singleton] at hc
      obtain hc | rfl := hc
      · exact ih _ c hc
      · exact plainChar_hexChar _ (Nat.mod_lt n (by norm_num))
  refine ⟨by simp [hexText_eq], fun c hc => ?_⟩
  rw [hexText_eq, List.mem_cons, List.mem_cons] at hc
  obtain rfl | rfl | hc := hc
  · decide
  · decide
  · exact hdigits k n c hc

theorem mem_allRegs (r : Reg) : r ∈ allRegs := by cases r <;> decide

theorem plainWord_regName (r : Reg) : PlainWord (regName r) := by
  have hall : ∀ r ∈ allRegs, (!(regName r).isEmpty && (regName r).all plainChar) = true := by decide
  exact plainWord_of_all (hall r (mem_allRegs r))

theorem plainWord_selText (sel : RegSel) : PlainWord (selText sel) := by
  cases sel with
  | assigned r => exact plainWord_regName r
  | unassigned n => exact plainWord_hexText 2 n.toNat

/-- A line without a comment mark is its own text. -/
theorem cutComment_of_no_mark {l : Chars} (h : ∀ c ∈ l, c ≠ ';') : cutComment l = l := by
  induction l with
  | nil => rfl
  | cons c cs ih =>
    rw [cutComment, if_neg (h c List.mem_cons_self), ih fun d hd => h d (List.mem_cons_of_mem c hd)]

theorem PlainWord.no_mark {w : Chars} (h : PlainWord w) : ∀ c ∈ w, c ≠ ';' :=
  fun c hc => ((plainChar_iff c).mp (h.2 c hc)).1

/-- A word is read whole, up to what follows it. -/
theorem wordsFrom_append {w : Chars} (h : ∀ c ∈ w, plainChar c = true) (rest cur : Chars) :
    wordsFrom (w ++ rest) cur = wordsFrom rest (cur ++ w) := by
  induction w generalizing cur with
  | nil => simp
  | cons c cs ih =>
    obtain ⟨-, hspace, htab, hcomma, -⟩ := (plainChar_iff c).mp (h c List.mem_cons_self)
    rw [List.cons_append, wordsFrom, if_neg (by simp [hspace, htab]), if_neg hcomma,
      ih fun d hd => h d (List.mem_cons_of_mem c hd), List.append_assoc, List.singleton_append]

theorem flushWord_of_ne_nil {w : Chars} (h : w ≠ []) (rest : List Chars) : flushWord w rest = w :: rest := by
  cases w with
  | nil => contradiction
  | cons => rfl

theorem wordsFrom_last {w : Chars} (h : PlainWord w) : wordsFrom w [] = [w] := by
  have hread := wordsFrom_append h.2 [] []
  rw [List.append_nil, List.nil_append] at hread
  rw [hread, wordsFrom, flushWord_of_ne_nil h.1]

theorem wordsFrom_space {w : Chars} (h : PlainWord w) (rest : Chars) :
    wordsFrom (w ++ ' ' :: rest) [] = w :: wordsFrom rest [] := by
  rw [wordsFrom_append h.2, List.nil_append, wordsFrom, if_pos (by simp), flushWord_of_ne_nil h.1]

theorem wordsFrom_comma {w : Chars} (h : PlainWord w) (rest : Chars) :
    wordsFrom (w ++ ',' :: ' ' :: rest) [] = w :: [','] :: wordsFrom rest [] := by
  rw [wordsFrom_append h.2, List.nil_append, wordsFrom, if_neg (by decide), if_pos rfl, flushWord_of_ne_nil h.1,
    wordsFrom, if_pos (by simp), flushWord]

/-- A word without a colon is no instance prefix. -/
theorem prefixName_of_plainWord {w : Chars} (h : PlainWord w) : prefixName w = none := by
  unfold prefixName
  split
  next rest hrev =>
    have hcolon : ':' ∈ w := by
      rw [← List.mem_reverse, hrev]
      exact List.mem_cons_self
    obtain ⟨-, -, -, -, hne⟩ := (plainChar_iff ':').mp (h.2 ':' hcolon)
    exact absurd rfl hne
  next => rfl

/-- A line whose words are plain has no prefix: its words are the command's. -/
theorem assembleLine_of_words {line w : Chars} {ws : List Chars} {c : Command} (hmark : ∀ c ∈ line, c ≠ ';')
    (hwords : wordsFrom line [] = w :: ws) (hw : PlainWord w) (hc : assembleWords (w :: ws) = some c) :
    assembleLine line = some { target := none, command := c } := by
  simp [assembleLine, cutComment_of_no_mark hmark, hwords, prefixName_of_plainWord hw, hc]

/-! ### Selectors and operands -/

theorem regOfName_regName (r : Reg) : regOfName (regName r) = some r := by
  have hall : ∀ r ∈ allRegs, regOfName (regName r) = some r := by decide
  exact hall r (mem_allRegs r)

/-- No register's name begins with a digit. -/
theorem regOfName_hexText (k n : Nat) : regOfName (hexText k n) = none := by
  have hhead : ∀ r ∈ allRegs, (regName r).head? ≠ some '0' := by decide
  rw [regOfName, List.find?_eq_none]
  intro r hr heq
  rw [beq_iff_eq] at heq
  exact hhead r hr (by rw [heq]; rfl)

theorem selOfWord_selText {sel : RegSel} (h : sel.wellFormed = true) : selOfWord (selText sel) = some sel := by
  cases sel with
  | assigned r => simp [selOfWord, selText, regOfName_regName]
  | unassigned n =>
    have hlit : hexLiteral 2 (hexText 2 n.toNat) = some n.toNat := hexLiteral_hexText n.isLt
    simp [selOfWord, selText, regOfName_hexText, hlit, selOfNumber_of_unassignedNumber h]

theorem hexLiteral_word (d : Word) : hexLiteral 16 (hexText 16 d.toNat) = some d.toNat := hexLiteral_hexText d.isLt

/-- Any target takes the raw form that the disassembly prints. -/
theorem wregOperand_hexText (sel : RegSel) (d : Word) : wregOperand sel (hexText 16 d.toNat) = some d := by
  cases sel <;> simp [wregOperand, operandOf, hexLiteral_word]

/-! ### The lines -/

theorem plainWord_setsr : PlainWord "setsr".toList := plainWord_of_all (by decide)
theorem plainWord_wreg : PlainWord "wreg".toList := plainWord_of_all (by decide)
theorem plainWord_rreg : PlainWord "rreg".toList := plainWord_of_all (by decide)

theorem instrText_setsr (rate : Word) :
    instrText (.setsr rate) = "setsr".toList ++ ' ' :: hexText 16 rate.toNat := rfl

theorem instrText_rreg (sel : RegSel) : instrText (.rreg sel) = "rreg".toList ++ ' ' :: selText sel := rfl

theorem instrText_wreg (sel : RegSel) (d : Word) :
    instrText (.wreg sel d) = "wreg".toList ++ ' ' :: (selText sel ++ ',' :: ' ' :: hexText 16 d.toNat) := by
  have hassoc (a b c : Chars) : a ++ [' '] ++ b ++ [',', ' '] ++ c = a ++ ' ' :: (b ++ ',' :: ' ' :: c) := by simp
  have hwreg : "wreg ".toList = "wreg".toList ++ [' '] := rfl
  have hcomma : ", ".toList = [',', ' '] := rfl
  rw [← hassoc, ← hwreg, ← hcomma]
  rfl

theorem assembleWords_setsr (rate : Word) :
    assembleWords ["setsr".toList, hexText 16 rate.toNat] = some (encode (.setsr rate)) := by
  have hword : "setsr".toList ≠ ".word".toList := by decide
  have hrreg : "setsr".toList ≠ "rreg".toList := by decide
  simp only [assembleWords, if_neg hword, oneOperand, if_neg hrreg, decide_true, Bool.true_or, if_true, rateOperand,
    operandOf, hexLiteral_word]
  simp

theorem assembleWords_rreg {sel : RegSel} (h : sel.wellFormed = true) :
    assembleWords ["rreg".toList, selText sel] = some (encode (.rreg sel)) := by
  have hword : "rreg".toList ≠ ".word".toList := by decide
  simp only [assembleWords, if_neg hword, oneOperand, if_true, selOfWord_selText h, Option.map_some]

theorem assembleWords_wreg {sel : RegSel} (h : sel.wellFormed = true) (d : Word) :
    assembleWords ["wreg".toList, selText sel, [','], hexText 16 d.toNat] = some (encode (.wreg sel d)) := by
  have hword : "wreg".toList ≠ ".word".toList := by decide
  simp only [assembleWords, ne_eq, not_true_eq_false, if_false, if_neg hword, if_true, wregLine, selOfWord_selText h,
    wregOperand_hexText, Option.map_some]

/-- Settles O8: `decodeEncodeRoundTrip` makes the text that of the instruction, and each word of it reads back. -/
theorem assemblerReadsDisassembly : Obligations.AssemblerReadsDisassembly := by
  intro i hwf
  have htext : disassemble (encode i) = instrText i := by rw [disassemble, decodeEncodeRoundTrip i hwf]
  rw [htext]
  cases i with
  | nop | reset | update | start | stop | osc => decide
  | setsr rate =>
    have hrate := plainWord_hexText 16 rate.toNat
    refine assembleLine_of_words ?_ ?_ plainWord_setsr (assembleWords_setsr rate) <;> rw [instrText_setsr]
    · have hmark := hrate.no_mark
      have hmark' := plainWord_setsr.no_mark
      simp only [List.forall_mem_append, List.forall_mem_cons]
      exact ⟨hmark', by decide, hmark⟩
    · rw [wordsFrom_space plainWord_setsr, wordsFrom_last hrate]
  | wreg sel d =>
    have hsel := plainWord_selText sel
    have hdata := plainWord_hexText 16 d.toNat
    refine assembleLine_of_words ?_ ?_ plainWord_wreg (assembleWords_wreg hwf d) <;> rw [instrText_wreg]
    · simp only [List.forall_mem_append, List.forall_mem_cons]
      exact ⟨plainWord_wreg.no_mark, by decide, hsel.no_mark, by decide, by decide, hdata.no_mark⟩
    · rw [wordsFrom_space plainWord_wreg, wordsFrom_comma hsel, wordsFrom_last hdata]
  | rreg sel =>
    have hsel := plainWord_selText sel
    refine assembleLine_of_words ?_ ?_ plainWord_rreg (assembleWords_rreg hwf) <;> rw [instrText_rreg]
    · simp only [List.forall_mem_append, List.forall_mem_cons]
      exact ⟨plainWord_rreg.no_mark, by decide, hsel.no_mark⟩
    · rw [wordsFrom_space plainWord_rreg, wordsFrom_last hsel]

end Sys2Proof.Machine
end

section
/-! The selector over rising frequencies (spec 42_wavetable.md R239), the oddness of parSine (40_generator_base.md R143)
and the hold count over the reals (44_lfo.md R311). -/

namespace Sys2Proof.Machine

open Sys2Proof

/-! ### The selector (R239) -/

theorem fLe_trans {x y z : F64} (hxy : fLe x y = true) (hyz : fLe y z = true) : fLe x z = true := by
  simp only [fLe, Bool.and_eq_true, Bool.not_eq_true', decide_eq_true_eq] at hxy hyz ⊢
  obtain ⟨⟨hx, -⟩, hle⟩ := hxy
  obtain ⟨⟨-, hz⟩, hle'⟩ := hyz
  exact ⟨⟨hx, hz⟩, hle.trans hle'⟩

/-- A ceiling that holds the frequency bounds the search. -/
theorem selectTable_le_of_fLe {f : F64} {j : Nat} (h : fLe (fAbs f) (bandCeiling j) = true) : selectTable f ≤ j := by
  by_contra hlt
  obtain ⟨-, hbelow, -⟩ := selectFrom_spec (fAbs f) (fuel := 9) (j := 0) rfl
  rw [hbelow j (Nat.zero_le j) (not_le.mp hlt)] at h
  contradiction

theorem selectTable_mono {f g : F64} (h : fLe (fAbs f) (fAbs g) = true) : selectTable f ≤ selectTable g := by
  obtain ⟨-, -, hholds | ⟨hlast, -⟩⟩ := selectFrom_spec (fAbs g) (fuel := 9) (j := 0) rfl
  · exact selectTable_le_of_fLe (fLe_trans h hholds)
  · exact (selectTable_le f).trans hlast.ge

theorem fMag_le_of_fLe_fAbs {x y : F64} (h : fLe (fAbs x) y = true) : fMag x ≤ fMag y := by
  simp only [fLe, Bool.and_eq_true, decide_eq_true_eq, fInt_fAbs] at h
  have hy : fInt y ≤ (fMag y : Int) := by rw [← natAbs_fInt]; exact Int.le_natAbs
  exact_mod_cast h.2.trans hy

/-- No frequency UPDATE can produce lies above the ceiling of the table selected for it. -/
theorem fMag_le_bandCeiling_selectTable {f : F64} (h : fLe (fAbs f) Config.foMax = true) :
    fMag f ≤ fMag (bandCeiling (selectTable f)) := by
  obtain ⟨-, -, hholds | ⟨hlast, -⟩⟩ := selectFrom_spec (fAbs f) (fuel := 9) (j := 0) rfl
  · exact fMag_le_of_fLe_fAbs hholds
  · have htop : selectTable f = 8 := hlast
    have hmag := fMag_le_of_fLe_fAbs h
    rwa [fMag_foMax, show 20480 = 80 * 2 ^ 8 by norm_num, ← fMag_bandCeiling (j := 8) (by norm_num), ← htop] at hmag

theorem fMag_bandCeiling_le_foMax {j : Nat} (hj : j ≤ 8) : fMag (bandCeiling j) ≤ fMag Config.foMax := by
  have hle := fMag_bandCeiling_mono hj (by norm_num)
  rwa [fMag_bandCeiling (j := 8) (by norm_num), show 80 * 2 ^ 8 = 20480 by norm_num, ← fMag_foMax] at hle

/-- Settles O43: the first ceiling to hold the larger frequency holds the smaller too, and the top harmonic of the
selected ceiling, which the frequency does not exceed, lies below half the rate. -/
theorem selectionIsMonotoneAndSafe : Obligations.SelectionIsMonotoneAndSafe := by
  refine ⟨fun f g h => selectTable_mono h, fun f rate h hrate => ?_⟩
  have hj := selectTable_le f
  have hceiling := fMag_bandCeiling_le_foMax hj
  have htop := (le_harmonics_iff rate (by omega) (one_le_harmonics rate (selectTable f))).mpr ⟨le_rfl, by omega⟩
  calc 2 * (harmonics rate (selectTable f) * fMag f)
      = 2 * harmonics rate (selectTable f) * fMag f := (mul_assoc ..).symm
    _ ≤ 2 * harmonics rate (selectTable f) * fMag (bandCeiling (selectTable f)) :=
        Nat.mul_le_mul_left _ (fMag_le_bandCeiling_selectTable h)
    _ < fMag rate := htop

/-! ### parSine (R143) -/

/-- The number that the exact value v/d rounds to. -/
def roundedInt (v : Int) (d : Nat) : Int := fInt (fRound (decide (v < 0)) v.natAbs d)

theorem fInt_fRound_zero (neg : Bool) (d : Nat) : fInt (fRound neg 0 d) = 0 := by
  have hzero : roundMag 0 d = 0 := by simp [roundMag, roundHalfEven]
  rw [fRound, hzero, (fInt_fPack_zero neg).2]

theorem fInt_fRound_eq_roundedInt (neg : Bool) (n d : Nat) : fInt (fRound neg n d) = roundedInt (signedNat neg n) d := by
  rcases Nat.eq_zero_or_pos n with rfl | hn
  · rw [roundedInt, fInt_fRound_zero, show (signedNat neg 0).natAbs = 0 by cases neg <;> rfl, fInt_fRound_zero]
  · cases neg with
    | false =>
      have hnonneg : ¬ (n : Int) < 0 := by omega
      simp [roundedInt, signedNat, hnonneg]
    | true => simp [roundedInt, signedNat, hn]

/-- Rounding is to nearest, ties to even, so it does not know the sign. -/
theorem roundedInt_neg (v : Int) (d : Nat) : roundedInt (-v) d = -roundedInt v d := by
  rw [← signedNat_natAbs v]
  generalize decide (v < 0) = neg
  generalize v.natAbs = n
  have hneg : -signedNat neg n = signedNat (!neg) n := by cases neg <;> simp [signedNat]
  rw [hneg, ← fInt_fRound_eq_roundedInt, ← fInt_fRound_eq_roundedInt, fInt_fRound, fInt_fRound, fMag_eq_low, fMag_eq_low,
    fLow_fRound, fLow_fRound]
  cases neg <;> simp [signedNat]

theorem fInt_fAdd {x y : F64} (hx : fIsFinite x = true) (hy : fIsFinite y = true) :
    fInt (fAdd x y) = roundedInt (fInt x + fInt y) 1 := by
  rw [fAdd_finite hx hy]
  split
  next h0 => rw [h0, (fInt_fPack_zero _).2, roundedInt, Int.natAbs_zero, fInt_fRound_zero]
  next => rfl

theorem fInt_fMul {x y : F64} (hx : fIsFinite x = true) (hy : fIsFinite y = true) :
    fInt (fMul x y) = roundedInt (fInt x * fInt y) unitsPerOne := by
  rw [fMul_finite hx hy, fInt_fRound_eq_roundedInt, signedNat_mul]

/-- Two values of magnitude at most k that are negatives of each other, zeros of any sign included. -/
def Opposite (k : Nat) (x y : F64) : Prop := WithinNat k x ∧ WithinNat k y ∧ fInt y = -fInt x

theorem opposite_fNeg {k : Nat} {x : F64} (hx : WithinNat k x) : Opposite k x (fNeg x) :=
  ⟨hx, withinNat_fNeg hx, fInt_fNeg x⟩

theorem opposite_fAdd {a b k : Nat} {x x' y y' : F64} (hx : Opposite a x x') (hy : Opposite b y y') (hab : a + b ≤ k)
    (hk : k < 2 ^ 53) : Opposite k (fAdd x y) (fAdd x' y') := by
  obtain ⟨hx, hx', hxx'⟩ := hx
  obtain ⟨hy, hy', hyy'⟩ := hy
  refine ⟨withinNat_fAdd hx hy hab hk, withinNat_fAdd hx' hy' hab hk, ?_⟩
  rw [fInt_fAdd hx.1 hy.1, fInt_fAdd hx'.1 hy'.1, hxx', hyy', ← neg_add, roundedInt_neg]

theorem opposite_fSub {a b k : Nat} {x x' y y' : F64} (hx : Opposite a x x') (hy : Opposite b y y') (hab : a + b ≤ k)
    (hk : k < 2 ^ 53) : Opposite k (fSub x y) (fSub x' y') := by
  obtain ⟨hy, hy', hyy'⟩ := hy
  exact opposite_fAdd hx ⟨withinNat_fNeg hy, withinNat_fNeg hy', by rw [fInt_fNeg, fInt_fNeg, hyy']⟩ hab hk

theorem opposite_fMul {a b k : Nat} {x y y' : F64} (hx : WithinNat a x) (hy : Opposite b y y') (hab : a * b ≤ k)
    (hk : k < 2 ^ 53) : Opposite k (fMul x y) (fMul x y') := by
  obtain ⟨hy, hy', hyy'⟩ := hy
  refine ⟨withinNat_fMul hx hy hab hk, withinNat_fMul hx hy' hab hk, ?_⟩
  rw [fInt_fMul hx.1 hy.1, fInt_fMul hx.1 hy'.1, hyy', mul_neg, roundedInt_neg]

/-- abs(·) does not tell a value from its negative, so its product with the value is again an odd function. -/
theorem opposite_fMul_fAbs {a b k : Nat} {x x' y y' : F64} (hx : Opposite a x x') (hy : Opposite b y y')
    (hab : a * b ≤ k) (hk : k < 2 ^ 53) : Opposite k (fMul x (fAbs y)) (fMul x' (fAbs y')) := by
  obtain ⟨hx, hx', hxx'⟩ := hx
  obtain ⟨hy, hy', hyy'⟩ := hy
  have hmag : fMag y' = fMag y := by rw [← natAbs_fInt, ← natAbs_fInt, hyy', Int.natAbs_neg]
  have hy := withinNat_fAbs hy
  have hy' := withinNat_fAbs hy'
  refine ⟨withinNat_fMul hx hy hab hk, withinNat_fMul hx' hy' hab hk, ?_⟩
  rw [fInt_fMul hx.1 hy.1, fInt_fMul hx'.1 hy'.1, fInt_fAbs, fInt_fAbs, hxx', hmag, neg_mul, roundedInt_neg]

theorem withinNat_one_of_unitPhase {x : F64} (hx : UnitPhase x) : WithinNat 1 x :=
  ⟨(fInt_of_unitPhase hx).1, by rw [one_mul]; exact Nat.le_of_lt (fMag_of_unitPhase_lt hx)⟩

theorem withinNat_sineP : WithinNat 1 Config.sineP := withinNat_one_of_unitPhase (by decide)

theorem opposite_parSine {t t' : F64} (h : Opposite 1 t t') : Opposite 80 (parSine t) (parSine t') := by
  have ht4 := opposite_fMul (k := 4) withinNat_fFour h (by norm_num) (by norm_num)
  have hy := opposite_fSub (k := 8) ht4 (opposite_fMul_fAbs (k := 4) ht4 h (by norm_num) (by norm_num)) (by norm_num)
    (by norm_num)
  have hyy := opposite_fMul_fAbs (k := 64) hy hy (by norm_num) (by norm_num)
  have hcorrection := opposite_fMul (k := 72) withinNat_sineP
    (opposite_fSub (k := 72) hyy hy (by norm_num) (by norm_num)) (by norm_num) (by norm_num)
  have hsum := opposite_fAdd (k := 80) hcorrection hy (by norm_num) (by norm_num)
  unfold parSine
  exact hsum

/-- Both stages vanish at the zeros of the sine. -/
theorem parSine_of_zero_of_sine {t : F64}
    (h : t ∈ [0#64, 0x8000000000000000#64, 0x3FF0000000000000#64, 0xBFF0000000000000#64]) : parSine t = 0#64 := by
  simp only [List.mem_cons, List.not_mem_nil, or_false] at h
  obtain rfl | rfl | rfl | rfl := h
  all_goals decide +kernel

/-- Settles O37: every operation of the two stages takes opposite values to opposite values. -/
theorem parSineIsOdd : Obligations.ParSineIsOdd := by
  refine ⟨fun t => rfl, fun t ht => ?_, fun t ht => ?_, by decide +kernel, by decide +kernel, by decide +kernel⟩
  · have hwithin : WithinNat 1 t := ⟨ht.1, ht.2.trans withinNat_fOne.2⟩
    obtain ⟨-, -, hneg⟩ := opposite_parSine (opposite_fNeg hwithin)
    exact hneg
  · rw [parSine_of_zero_of_sine ht]
    decide

/-! ### The hold count (R311, R144) -/

theorem holdCount_of_finite {rate freq : F64} (h : fIsFinite (fDiv rate (fAbs freq)) = true) :
    holdCount rate freq = min Config.holdMax (max 1 (roundHalfAway (fDiv rate (fAbs freq)))) := by
  simp only [holdCount, h, if_true]

theorem holdCount_of_not_finite {rate freq : F64} (h : fIsFinite (fDiv rate (fAbs freq)) = false) :
    holdCount rate freq = Config.holdMax := by
  simp only [holdCount, h, Bool.false_eq_true, if_false]

theorem one_le_holdCount (rate freq : F64) : 1 ≤ holdCount rate freq := by
  cases h : fIsFinite (fDiv rate (fAbs freq)) with
  | true => rw [holdCount_of_finite h]; exact le_min (by decide) (le_max_left ..)
  | false => rw [holdCount_of_not_finite h]; decide

theorem holdCount_fNeg (rate freq : F64) : holdCount rate (fNeg freq) = holdCount rate freq := by
  simp only [holdCount, fAbs_fNeg]

/-- Half is added before the floor is taken, and both are exact. -/
theorem floor_div_add_half {m u : Nat} (hu : 0 < u) : ⌊(m : ℝ) / u + 1 / 2⌋ = ((2 * m + u) / (2 * u) : ℕ) := by
  have hu' : (0 : ℝ) < u := by exact_mod_cast hu
  have hsum : (m : ℝ) / u + 1 / 2 = ((2 * m + u : ℕ) : ℝ) / (2 * u : ℕ) := by
    push_cast
    field_simp
  rw [hsum, ← Int.natCast_floor_eq_floor (by positivity), Nat.floor_div_eq_div]

theorem roundHalfAway_eq_floor {x : F64} (hx : 0 ≤ fInt x) :
    (roundHalfAway x : Int) = ⌊(fInt x : ℝ) / 2 ^ 1074 + 1 / 2⌋ := by
  have hmag : fInt x = (fMag x : Int) := by rw [← natAbs_fInt, Int.natAbs_of_nonneg hx]
  rw [hmag, ← unitsPerOne_cast, Int.cast_natCast, floor_div_add_half unitsPerOne_pos, roundHalfAway]

/-- Settles O53: the rounding is the exact floor, and the clamp holds the count in range. -/
theorem holdCountIsInRange : Obligations.HoldCountIsInRange := by
  refine ⟨fun rate freq => ⟨one_le_holdCount .., holdCount_le .., holdCount_fNeg ..⟩, fun rate freq => ⟨?_, ?_⟩,
    by decide +kernel, by decide +kernel, by decide +kernel, by decide +kernel, by decide +kernel, by decide +kernel,
    by decide +kernel⟩
  · intro hfin hnonneg
    rw [holdCount_of_finite hfin, ← roundHalfAway_eq_floor hnonneg, Nat.cast_min, Nat.cast_max, Nat.cast_one]
    rfl
  · intro hinf
    exact holdCount_of_not_finite (by rw [hinf]; decide)

end Sys2Proof.Machine
end

section
/-! The render of an LFO: sample and hold, one-shot completion and the quadrature output (spec 44_lfo.md R303, R304, R312
to R314). -/

namespace Sys2Proof.Machine

open Sys2Proof

theorem exec_osc_of_lfo {s : State} (hkind : s.kind = .lfo) (hon : s.noteOn = true) :
    exec .osc s = .next ((lfoOsc s).respond 0#64) := by
  obtain ⟨hoff, -⟩ | ⟨-, hosc⟩ := execOsc_cases s
  · rw [hon] at hoff; contradiction
  · rw [oscRender_spec, hkind] at hosc
    exact hosc

/-- The held-noise pair, by name. -/
theorem isHeld_iff_eq (w : Waveform) : isHeld w = true ↔ w = .heldNoise ∨ w = .heldPn := by
  cases w <;> decide

theorem not_completing {s : State} (h : s.runMode ≠ .shot ∨ s.wrapPending = false) :
    ¬ (s.runMode = .shot ∧ s.wrapPending = true) := by
  rintro ⟨hshot, hwrap⟩
  obtain hmode | hpending := h
  · exact hmode hshot
  · rw [hwrap] at hpending
    contradiction

/-- A render of a shape, with no one-shot completion due. -/
theorem lfoOsc_of_shape {s : State} (hrun : ¬ (s.runMode = .shot ∧ s.wrapPending = true))
    (hshape : ¬ (s.waveform = .heldNoise ∨ s.waveform = .heldPn)) :
    lfoOsc s = (advancePhase (s.setWrap false)).setOutputs (scaleOut s (lfoShape s s.phase))
      (scaleOut s (lfoShape s (quadPhase s.phase))) := by
  obtain ⟨hshot, hwrap, -⟩ | ⟨-, hheld, -⟩ | ⟨-, -, hs⟩ := lfoOsc_cases s
  · exact absurd ⟨hshot, hwrap⟩ hrun
  · exact absurd ((isHeld_iff_eq _).mp hheld) hshape
  · exact hs

/-- A render of held noise, with no one-shot completion due. -/
theorem lfoOsc_of_held {s : State} (hrun : ¬ (s.runMode = .shot ∧ s.wrapPending = true))
    (hheld : s.waveform = .heldNoise ∨ s.waveform = .heldPn) :
    lfoOsc s = (advancePhase (holdStep (s.setWrap false))).setOutputs
      (scaleOut s (holdStep (s.setWrap false)).shValue) (scaleOut s (holdStep (s.setWrap false)).shValue) := by
  obtain ⟨hshot, hwrap, -⟩ | ⟨-, -, hs⟩ | ⟨-, hshape, -⟩ := lfoOsc_cases s
  · exact absurd ⟨hshot, hwrap⟩ hrun
  · exact hs
  · rw [(isHeld_iff_eq _).mpr hheld] at hshape
    contradiction

/-! ### Sample and hold (R312, R313) -/

/-- The state with new values in the registers of the sample and hold. -/
def State.putHeld (s : State) (counter : Word32) (value : F64) (noise pn : Word32) : State :=
  { s with shCounter := counter, shValue := value, noiseState := noise, pnReg := pn }

theorem holdExpired_eq (s : State) :
    holdExpired s =
      decide (s.shCounter.toInt < 0 ∨ (holdCount s.sampleRate s.effFreq : Int) ≤ s.shCounter.toInt) := by
  rw [holdExpired, Bool.decide_or]

theorem setNoise_setHold (s : State) (c x : Word32) (v : F64) :
    (s.setNoise x).setHold c v = s.putHeld c v x s.pnReg := rfl

theorem setPn_setHold (s : State) (c x : Word32) (v : F64) :
    (s.setPn x).setHold c v = s.putHeld c v s.noiseState x := rfl

theorem setHold_eq_putHeld (s : State) (c : Word32) (v : F64) :
    s.setHold c v = s.putHeld c v s.noiseState s.pnReg := rfl

/-- The sample and hold as one equation: a held-noise waveform draws from its own generator (R312). -/
theorem holdStep_eq {s : State} {draw white : Bool} {x : Word32} (hdraw : holdExpired s = draw)
    (hwhite : (white = true ∧ s.waveform = .heldNoise ∧ x = xorshift32 s.noiseState) ∨
      (white = false ∧ s.waveform = .heldPn ∧ x = lfsrNext s.pnReg)) :
    holdStep s = s.putHeld (if draw then 1#32 else s.shCounter + 1#32) (if draw then noiseValue x else s.shValue)
      (if draw && white then x else s.noiseState) (if draw && !white then x else s.pnReg) := by
  unfold holdStep heldDraw
  rw [hdraw]
  cases draw with
  | false => exact setHold_eq_putHeld ..
  | true =>
    obtain ⟨rfl, hw, rfl⟩ | ⟨rfl, hw, rfl⟩ := hwhite
    · simp only [hw, drawWhite_spec, setNoise_setHold, if_true, Bool.and_true, Bool.not_true, Bool.and_false,
        Bool.false_eq_true, if_false]
    · simp only [hw, drawPN_spec, setPn_setHold, if_true, Bool.and_true, Bool.not_false, Bool.and_false,
        Bool.false_eq_true, if_false]

/-- The writes of a held-noise render and its response, register by register. -/
theorem respond_heldWrites (s : State) (counter noise pn : Word32) (wrapped : Bool) (v phase o : F64) :
    ((((s.setWrap false).putHeld counter v noise pn).setPhase phase wrapped).setOutputs o o).respond 0#64 =
      { s with
        shCounter := counter
        shValue := v
        noiseState := noise
        pnReg := pn
        phase := phase
        wrapPending := wrapped
        out := o
        aux := o
        rdata := 0#64 } := by
  cases s
  rfl

theorem advancePhase_putHeld (s : State) (counter noise pn : Word32) (v : F64) :
    advancePhase ((s.setWrap false).putHeld counter v noise pn) =
      ((s.setWrap false).putHeld counter v noise pn).setPhase
        (if fLe 0#64 (fAdd s.phase s.increment) && fLt (fAdd s.phase s.increment) fOne then
          fAdd s.phase s.increment else wrap01 (fAdd s.phase s.increment))
        (!(fLe 0#64 (fAdd s.phase s.increment) && fLt (fAdd s.phase s.increment) fOne)) :=
  advancePhase_eq _

/-- Settles O50: the sample and hold as one equation, then the phase step. -/
theorem lfoOscHoldsNoise : Obligations.LfoOscHoldsNoise := by
  intro s hkind hon hheld hrun draw white x v q inside
  have hwhite : (white = true ∧ s.waveform = .heldNoise ∧ x = xorshift32 s.noiseState) ∨
      (white = false ∧ s.waveform = .heldPn ∧ x = lfsrNext s.pnReg) := by
    obtain hw | hw := hheld
    · exact .inl (by simp [x, white, hw])
    · exact .inr (by simp [x, white, hw])
  have hhold := holdStep_eq (s := s.setWrap false) (holdExpired_eq s) hwhite
  have hvalue : (holdStep (s.setWrap false)).shValue = v := by rw [hhold]; rfl
  rw [exec_osc_of_lfo hkind hon, lfoOsc_of_held (not_completing hrun) hheld, hvalue, hhold, advancePhase_putHeld,
    respond_heldWrites]
  rfl

/-! ### One-shot completion (R314) -/

theorem exec_osc_of_silent {s : State} (hoff : s.noteOn = false) :
    exec .osc s = .next ((s.setOutputs fZero fZero).respond 0#64) := by
  obtain ⟨-, hosc⟩ | ⟨hon, -⟩ := execOsc_cases s
  · exact hosc
  · rw [hoff] at hon; contradiction

theorem lfoOsc_of_completing {s : State} (hshot : s.runMode = .shot) (hwrap : s.wrapPending = true) :
    lfoOsc s = completeShot (s.setWrap false) := by
  obtain ⟨-, -, hs⟩ | ⟨hrun, -⟩ | ⟨hrun, -⟩ := lfoOsc_cases s
  · exact hs
  · exact absurd ⟨hshot, hwrap⟩ hrun
  · exact absurd ⟨hshot, hwrap⟩ hrun

/-- The writes of a completion and its response, register by register. -/
theorem respond_completeShot (s : State) :
    (completeShot (s.setWrap false)).respond 0#64 =
      { s with wrapPending := false, noteOn := false, out := 0#64, aux := 0#64, rdata := 0#64 } := by
  cases s
  rfl

/-- A silent OSC writes what a completion has written already. -/
theorem respond_setOutputs_completed (s : State) :
    ((State.setOutputs { s with wrapPending := false, noteOn := false, out := 0#64, aux := 0#64, rdata := 0#64 }
      fZero fZero).respond 0#64) =
      { s with wrapPending := false, noteOn := false, out := 0#64, aux := 0#64, rdata := 0#64 } := by
  cases s
  rfl

/-- Settles O51: the completing OSC leaves a silent state whose outputs are what a silent OSC writes. -/
theorem oneShotCompletes : Obligations.OneShotCompletes := by
  intro s hkind hon hshot hwrap
  refine ⟨_, exec_osc_of_lfo hkind hon, ?_, ?_⟩
  · rw [lfoOsc_of_completing hshot hwrap, respond_completeShot]
  · rw [lfoOsc_of_completing hshot hwrap, respond_completeShot, exec_osc_of_silent (by simp only),
      respond_setOutputs_completed]

/-! ### The quadrature output (R304, R317) -/

/-- Settles O52: a shape does not read PHASE but through its argument, and held noise gives one sample for both. -/
theorem quadratureLeadsByAQuarter : Obligations.QuadratureLeadsByAQuarter := by
  intro s t t' hkind hon _ hwrap ht ht'
  have hrun : ¬ (s.runMode = .shot ∧ s.wrapPending = true) := not_completing (.inr hwrap)
  rw [exec_osc_of_lfo hkind hon, Host.Outcome.next.injEq] at ht
  rw [exec_osc_of_lfo (by exact hkind) (by exact hon), Host.Outcome.next.injEq] at ht'
  subst ht ht'
  refine ⟨fun hnoise hpn => ?_, fun hheld => ?_⟩
  · have hshape : ¬ (s.waveform = .heldNoise ∨ s.waveform = .heldPn) := by
      rintro (h | h)
      · exact hnoise h
      · exact hpn h
    rw [lfoOsc_of_shape hrun hshape, lfoOsc_of_shape (by exact hrun) (by exact hshape)]
    exact scaleOut_congr rfl rfl _
  · rw [lfoOsc_of_held hrun hheld]
    rfl

end Sys2Proof.Machine
end

section
/-! The fixed-point logarithms and powers against the real ones (spec 40_generator_base.md R142, R145;
notes/assumptions/5.md): every step of a series truncates by less than a few units of 2^-p, always downwards. -/

namespace Sys2Proof.Machine

open Sys2Proof

/-! ### The series of atanh -/

/-- The i-th term of the loop from the divisor k on. -/
noncomputable def atanhTerm (y x : ℝ) (k i : ℕ) : ℝ := x * y ^ i / (k + 2 * i : ℕ)

theorem atanhTerm_zero (y x : ℝ) (k : ℕ) : atanhTerm y x k 0 = x / k := by simp [atanhTerm]

theorem atanhTerm_succ (y x : ℝ) (k i : ℕ) : atanhTerm y x k (i + 1) = atanhTerm y (x * y) (k + 2) i := by
  rw [atanhTerm, atanhTerm, show k + 2 * (i + 1) = k + 2 + 2 * i by ring, pow_succ]
  ring

theorem sum_atanhTerm_succ (y x : ℝ) (k n : ℕ) :
    ∑ i ∈ Finset.range (n + 1), atanhTerm y x k i =
      x / k + ∑ i ∈ Finset.range n, atanhTerm y (x * y) (k + 2) i := by
  simp only [Finset.sum_range_succ', atanhTerm_succ, atanhTerm_zero]
  ring

theorem atanhTail_succ (p w2 n t k : ℕ) :
    atanhTail p w2 (n + 1) t k = t / k + atanhTail p w2 n (t * w2 / 2 ^ p) (k + 2) := by
  rw [atanhTail, force_eq, force_eq]

/-- The next power of w² loses at most 2 units for good: a ninth of the loss so far, and what the step truncates. -/
theorem atanhStep_bounds {p w2 t : ℕ} {x y : ℝ} (hy0 : 0 ≤ y) (hy : 9 * y ≤ 1) (hlo2 : 2 ^ p * y - 2 ≤ w2)
    (hhi2 : w2 ≤ 2 ^ p * y) (hx : 3 * x ≤ 2 ^ p) (hlo : x - 2 ≤ t) (hhi : t ≤ x) :
    x * y - 2 ≤ ((t * w2 / 2 ^ p : ℕ) : ℝ) ∧ ((t * w2 / 2 ^ p : ℕ) : ℝ) ≤ x * y := by
  have hp : (0 : ℝ) < 2 ^ p := by positivity
  have hcast : ((2 ^ p : ℕ) : ℝ) = 2 ^ p := by push_cast; rfl
  have ht : (0 : ℝ) ≤ t := Nat.cast_nonneg t
  have hupper : ((t * w2 : ℕ) : ℝ) ≤ x * y * 2 ^ p := by
    push_cast
    calc (t : ℝ) * w2 ≤ x * (2 ^ p * y) := mul_le_mul hhi hhi2 (Nat.cast_nonneg _) (ht.trans hhi)
      _ = x * y * 2 ^ p := by ring
  have hlower : (x * y - 8 / 9) * 2 ^ p ≤ ((t * w2 : ℕ) : ℝ) := by
    push_cast
    have hty : (x - 2) * (2 ^ p * y) ≤ t * (2 ^ p * y) := mul_le_mul_of_nonneg_right hlo (by positivity)
    have hyp : 9 * (2 ^ p * y) ≤ 2 ^ p := by nlinarith
    have htw : (t : ℝ) * (2 ^ p * y - 2) ≤ t * w2 := mul_le_mul_of_nonneg_left hlo2 ht
    nlinarith
  have hdown := natCast_div_le_of_le (d := 2 ^ p) (by positivity) hupper
  have hup := div_le_natCast_div_add_one (t := t * w2) (d := 2 ^ p) (x := ((t * w2 : ℕ) : ℝ)) (by positivity)
    (le_add_of_nonneg_right zero_le_one)
  rw [hcast] at hdown hup
  rw [mul_div_assoc, div_self hp.ne', mul_one] at hdown
  have hquotient : x * y - 8 / 9 ≤ ((t * w2 : ℕ) : ℝ) / 2 ^ p := (le_div_iff₀ hp).mpr hlower
  exact ⟨by linarith, hdown⟩

/-- The loop stays below the sum of its terms, and within 3 units a term of it. -/
theorem atanhTail_bounds {p w2 : ℕ} {y : ℝ} (hy0 : 0 ≤ y) (hy : 9 * y ≤ 1) (hlo2 : 2 ^ p * y - 2 ≤ w2)
    (hhi2 : w2 ≤ 2 ^ p * y) (n : ℕ) {t k : ℕ} {x : ℝ} (hk : 0 < k) (hx0 : 0 ≤ x) (hx : 3 * x ≤ 2 ^ p)
    (hlo : x - 2 ≤ t) (hhi : t ≤ x) :
    ∑ i ∈ Finset.range n, atanhTerm y x k i - 3 * n ≤ (atanhTail p w2 n t k : ℝ) ∧
      (atanhTail p w2 n t k : ℝ) ≤ ∑ i ∈ Finset.range n, atanhTerm y x k i := by
  induction n generalizing t k x with
  | zero => simp [atanhTail]
  | succ n ih =>
    have hk' : (1 : ℝ) ≤ k := by exact_mod_cast hk
    obtain ⟨hlo', hhi'⟩ := atanhStep_bounds hy0 hy hlo2 hhi2 hx hlo hhi
    have hxy : x * y ≤ x := mul_le_of_le_one_right hx0 (by linarith)
    obtain ⟨ihlo, ihhi⟩ := ih (k := k + 2) (by omega) (mul_nonneg hx0 hy0) (by linarith) hlo' hhi'
    have hdown := natCast_div_le_of_le hk hhi
    have hup := div_le_natCast_div_add_one (t := t) hk (x := t) (by linarith)
    have hloss : x / k - 2 ≤ (t : ℝ) / k := by
      rw [le_div_iff₀ (by linarith), sub_mul, div_mul_cancel₀ x (by linarith)]
      linarith
    rw [atanhTail_succ, sum_atanhTerm_succ]
    push_cast
    constructor <;> linarith

theorem hasSum_atanhTerm (p : ℕ) {w : ℝ} (hw0 : 0 ≤ w) (hw : 3 * w ≤ 1) :
    HasSum (fun i => atanhTerm (w ^ 2) (2 ^ p * w) 1 i) (2 ^ p * ((Real.log (1 + w) - Real.log (1 - w)) / 2)) := by
  have habs : |w| < 1 := by rw [abs_of_nonneg hw0]; linarith
  refine (((Real.hasSum_log_sub_log_of_abs_lt_one habs).div_const 2).mul_left (2 ^ p)).congr_fun fun i => ?_
  rw [atanhTerm, ← pow_mul]
  push_cast
  ring

/-- What the series has left after n terms, against a geometric one. -/
theorem atanhTerm_rest_le {y x l : ℝ} (hy0 : 0 ≤ y) (hy : 9 * y ≤ 1) (hx0 : 0 ≤ x)
    (hsum : HasSum (fun i => atanhTerm y x 1 i) l) (n : ℕ) :
    ∑ i ∈ Finset.range n, atanhTerm y x 1 i ≤ l ∧ l - ∑ i ∈ Finset.range n, atanhTerm y x 1 i ≤ x * y ^ n * (9 / 8) := by
  have hnonneg (i : ℕ) : 0 ≤ atanhTerm y x 1 i := by unfold atanhTerm; positivity
  have hrest := (hasSum_nat_add_iff' n).mpr hsum
  have hgeometric : HasSum (fun i => x * y ^ n * y ^ i) (x * y ^ n * (1 - y)⁻¹) :=
    (hasSum_geometric_of_lt_one hy0 (by linarith)).mul_left _
  refine ⟨sum_le_hasSum _ (fun i _ => hnonneg i) hsum, (hasSum_le (fun i => ?_) hrest hgeometric).trans ?_⟩
  · rw [atanhTerm, pow_add]
    calc x * (y ^ i * y ^ n) / (1 + 2 * (i + n) : ℕ) ≤ x * (y ^ i * y ^ n) :=
          div_le_self (by positivity) (by push_cast; linarith [(Nat.cast_nonneg i : (0 : ℝ) ≤ i), (Nat.cast_nonneg n : (0 : ℝ) ≤ n)])
      _ = x * y ^ n * y ^ i := by ring
  · refine mul_le_mul_of_nonneg_left ?_ (by positivity)
    rw [inv_le_comm₀ (by linarith) (by norm_num)]
    linarith

/-- The terms that a loop of p/2 steps cuts off sum to less than 1 unit. -/
theorem atanhRest_le_one (p : ℕ) {w : ℝ} (hw0 : 0 ≤ w) (hw : 3 * w ≤ 1) :
    2 ^ p * w * (w ^ 2) ^ seriesTerms p * (9 / 8) ≤ 1 := by
  have hsmall : (w ^ 2) ^ seriesTerms p * 4 ^ seriesTerms p ≤ 1 := by
    rw [← mul_pow]
    exact pow_le_one₀ (by positivity) (by nlinarith)
  have hpow : (2 : ℝ) ^ p ≤ 2 * 4 ^ seriesTerms p := by
    rw [show (4 : ℝ) = 2 ^ 2 by norm_num, ← pow_mul, ← pow_succ']
    exact pow_le_pow_right₀ one_le_two (by unfold seriesTerms; omega)
  have hq : 0 ≤ (w ^ 2) ^ seriesTerms p := by positivity
  calc 2 ^ p * w * (w ^ 2) ^ seriesTerms p * (9 / 8)
      ≤ 2 * 4 ^ seriesTerms p * w * (w ^ 2) ^ seriesTerms p * (9 / 8) := by gcongr
    _ = (w ^ 2) ^ seriesTerms p * 4 ^ seriesTerms p * (w * (9 / 4)) := by ring
    _ ≤ 1 * (w * (9 / 4)) := by gcongr
    _ ≤ 1 := by linarith

/-- The truncated square of a truncated fraction. -/
theorem squareFix_bounds {p a : ℕ} {w : ℝ} (hw0 : 0 ≤ w) (hw : 3 * w ≤ 1) (hlo : 2 ^ p * w - 1 ≤ a)
    (hhi : (a : ℝ) ≤ 2 ^ p * w) :
    2 ^ p * w ^ 2 - 2 ≤ ((a * a / 2 ^ p : ℕ) : ℝ) ∧ ((a * a / 2 ^ p : ℕ) : ℝ) ≤ 2 ^ p * w ^ 2 := by
  have hp : (0 : ℝ) < 2 ^ p := by positivity
  have hcast : ((2 ^ p : ℕ) : ℝ) = 2 ^ p := by push_cast; rfl
  have ha : (0 : ℝ) ≤ a := Nat.cast_nonneg a
  have hupper : ((a * a : ℕ) : ℝ) ≤ 2 ^ p * w ^ 2 * 2 ^ p := by
    push_cast
    nlinarith
  have hlower : (2 ^ p * w ^ 2 - 2 * w) * 2 ^ p ≤ ((a * a : ℕ) : ℝ) := by
    push_cast
    rcases le_total (2 ^ p * w) 1 with hsmall | hlarge
    · have hnonneg : 0 ≤ 2 ^ p * w := mul_nonneg hp.le hw0
      nlinarith
    · nlinarith
  have hdown := natCast_div_le_of_le (d := 2 ^ p) (by positivity) hupper
  have hup := div_le_natCast_div_add_one (t := a * a) (d := 2 ^ p) (x := ((a * a : ℕ) : ℝ)) (by positivity)
    (le_add_of_nonneg_right zero_le_one)
  rw [hcast] at hdown hup
  rw [mul_div_assoc, div_self hp.ne', mul_one] at hdown
  have hquotient := (le_div_iff₀ hp).mpr hlower
  exact ⟨by linarith, hdown⟩

/-- The error of one logarithm 2·atanh at p fractional bits, in units. -/
def logError (p : ℕ) : ℕ := 6 * seriesTerms p + 2

/-- A fixed-point logarithm of (1 + w)/(1 - w), for w = num/den ≤ 1/3. -/
theorem two_mul_atanhFix_bounds (p : ℕ) {num den : ℕ} (hden : 0 < den) (h : 3 * num ≤ den) :
    2 ^ p * Real.log ((den + num : ℝ) / (den - num)) - logError p ≤ ((2 * atanhFix p num den : ℕ) : ℝ) ∧
      ((2 * atanhFix p num den : ℕ) : ℝ) ≤ 2 ^ p * Real.log ((den + num : ℝ) / (den - num)) := by
  have hden' : (0 : ℝ) < den := by exact_mod_cast hden
  have h' : (3 : ℝ) * num ≤ den := by exact_mod_cast h
  obtain ⟨w, hwdef⟩ : ∃ w : ℝ, w = num / den := ⟨_, rfl⟩
  have hw0 : 0 ≤ w := by rw [hwdef]; positivity
  have hw : 3 * w ≤ 1 := by rw [hwdef, ← mul_div_assoc]; exact div_le_one_of_le₀ h' hden'.le
  have hlog : Real.log ((den + num : ℝ) / (den - num)) = Real.log (1 + w) - Real.log (1 - w) := by
    rw [← Real.log_div (by linarith) (by linarith), hwdef]
    congr 1
    field_simp
  have hnum : ((num * 2 ^ p : ℕ) : ℝ) = 2 ^ p * w * den := by
    rw [hwdef]
    push_cast
    field_simp
  have hhi := natCast_div_le_of_le hden hnum.le
  have hlo := div_le_natCast_div_add_one hden (t := num * 2 ^ p) (x := 2 ^ p * w * den) (by linarith)
  rw [mul_div_cancel_right₀ _ hden'.ne'] at hhi hlo
  obtain ⟨hlo2, hhi2⟩ := squareFix_bounds hw0 hw (by linarith) hhi
  have hy : 9 * w ^ 2 ≤ 1 := by nlinarith
  have hp : (0 : ℝ) < 2 ^ p := by positivity
  obtain ⟨htail, htail'⟩ := atanhTail_bounds (by positivity) hy hlo2 hhi2 (seriesTerms p) (t := num * 2 ^ p / den)
    one_pos (by positivity : 0 ≤ 2 ^ p * w) (by nlinarith) (by linarith) hhi
  obtain ⟨hpartial, hrest⟩ := atanhTerm_rest_le (by positivity) hy (by positivity) (hasSum_atanhTerm p hw0 hw)
    (seriesTerms p)
  have hone := atanhRest_le_one p hw0 hw
  rw [atanhFix, force_eq, force_eq, hlog, logError]
  push_cast
  constructor <;> linarith

/-! ### The two constants -/

theorem ln2Fix_bounds (p : ℕ) :
    2 ^ p * Real.log 2 - logError p ≤ (ln2Fix p : ℝ) ∧ (ln2Fix p : ℝ) ≤ 2 ^ p * Real.log 2 := by
  have h := two_mul_atanhFix_bounds p (num := 1) (den := 3) (by norm_num) (by norm_num)
  rwa [show ((3 : ℕ) + (1 : ℕ) : ℝ) / ((3 : ℕ) - (1 : ℕ)) = 2 by norm_num] at h

theorem ln10Fix_bounds (p : ℕ) :
    2 ^ p * Real.log 10 - 4 * logError p ≤ (ln10Fix p : ℝ) ∧ (ln10Fix p : ℝ) ≤ 2 ^ p * Real.log 10 := by
  obtain ⟨hlo, hhi⟩ := ln2Fix_bounds p
  obtain ⟨hlo', hhi'⟩ := two_mul_atanhFix_bounds p (num := 1) (den := 9) (by norm_num) (by norm_num)
  have hlog : Real.log 10 = 3 * Real.log 2 + Real.log (((9 : ℕ) + (1 : ℕ) : ℝ) / ((9 : ℕ) - (1 : ℕ))) := by
    rw [← Real.log_rpow two_pos, ← Real.log_mul (by positivity) (by norm_num)]
    norm_num
  rw [ln10Fix, hlog]
  push_cast at *
  constructor <;> linarith

end Sys2Proof.Machine
end

section
/-! EXP2 and LOG10 against the real functions: the 256-bit series, then the one rounding (spec 40_generator_base.md R142,
R145; notes/assumptions/5.md). -/

namespace Sys2Proof.Machine

open Sys2Proof

/-! ### The exponential series -/

theorem expTail_succ (p y n t k : ℕ) :
    expTail p y (n + 1) t k = t + expTail p y n (t * y / 2 ^ p / k) (k + 1) := by
  rw [expTail, force_eq, force_eq]

/-- The i-th term of the loop from the divisor k + 1 on. -/
noncomputable def expTerm (y x : ℝ) (k i : ℕ) : ℝ := x * y ^ i * k.factorial / (k + i).factorial

theorem expTerm_zero (y x : ℝ) (k : ℕ) : expTerm y x k 0 = x := by
  have hfact : (k.factorial : ℝ) ≠ 0 := by positivity
  simp [expTerm, hfact]

theorem expTerm_succ (y x : ℝ) (k i : ℕ) : expTerm y x k (i + 1) = expTerm y (x * y / (k + 1 : ℕ)) (k + 1) i := by
  have hfact : ((k + 1).factorial : ℝ) = (k + 1 : ℕ) * k.factorial := by
    rw [Nat.factorial_succ]
    push_cast
    ring
  have hne : ((k + 1 : ℕ) : ℝ) ≠ 0 := by positivity
  rw [expTerm, expTerm, hfact, show k + (i + 1) = k + 1 + i by ring]
  field_simp
  ring

theorem sum_expTerm_succ (y x : ℝ) (k n : ℕ) :
    ∑ i ∈ Finset.range (n + 1), expTerm y x k i =
      x + ∑ i ∈ Finset.range n, expTerm y (x * y / (k + 1 : ℕ)) (k + 1) i := by
  simp only [Finset.sum_range_succ', expTerm_succ, expTerm_zero]
  ring

/-- The next term loses at most 4 units for good: three quarters of the loss so far, and what the step truncates. -/
theorem expStep_bounds {p y t k : ℕ} {x z : ℝ} (hz : z = y / 2 ^ p) (hz1 : 4 * z ≤ 3) (hlo : x - 4 ≤ t)
    (hhi : (t : ℝ) ≤ x) :
    x * z / (k + 1 : ℕ) - 4 ≤ ((t * y / 2 ^ p / (k + 1) : ℕ) : ℝ) ∧
      ((t * y / 2 ^ p / (k + 1) : ℕ) : ℝ) ≤ x * z / (k + 1 : ℕ) := by
  have hp : (0 : ℝ) < 2 ^ p := by positivity
  have hz0 : 0 ≤ z := by rw [hz]; positivity
  have hk : (1 : ℝ) ≤ (k + 1 : ℕ) := by push_cast; linarith [(Nat.cast_nonneg k : (0 : ℝ) ≤ k)]
  have hquotient : ((t * y : ℕ) : ℝ) / (2 ^ p * (k + 1) : ℕ) = t * z / (k + 1 : ℕ) := by
    rw [hz]
    push_cast
    field_simp
  rw [Nat.div_div_eq_div_mul]
  have hdown := natCast_div_le_of_le (t := t * y) (d := 2 ^ p * (k + 1)) (by positivity) le_rfl
  have hup := div_le_natCast_div_add_one (t := t * y) (d := 2 ^ p * (k + 1)) (x := ((t * y : ℕ) : ℝ)) (by positivity)
    (le_add_of_nonneg_right zero_le_one)
  rw [hquotient] at hdown hup
  have hloss : x * z / (k + 1 : ℕ) - 3 ≤ t * z / (k + 1 : ℕ) := by
    have hdiff : (x - t) * z ≤ 3 := by nlinarith
    have hdiv : (x - t) * z / (k + 1 : ℕ) ≤ 3 := (div_le_iff₀ (by linarith)).mpr (by nlinarith)
    have hsplit : x * z / (k + 1 : ℕ) = t * z / (k + 1 : ℕ) + (x - t) * z / (k + 1 : ℕ) := by ring
    linarith
  have hmono : t * z / (k + 1 : ℕ) ≤ x * z / (k + 1 : ℕ) := by gcongr
  constructor <;> linarith

/-- The loop stays below the sum of its terms, and within 4 units a term of it. -/
theorem expTail_bounds {p y : ℕ} {z : ℝ} (hz : z = y / 2 ^ p) (hz1 : 4 * z ≤ 3) (n : ℕ) {t k : ℕ} {x : ℝ}
    (hlo : x - 4 ≤ t) (hhi : (t : ℝ) ≤ x) :
    ∑ i ∈ Finset.range n, expTerm z x k i - 4 * n ≤ (expTail p y n t (k + 1) : ℝ) ∧
      (expTail p y n t (k + 1) : ℝ) ≤ ∑ i ∈ Finset.range n, expTerm z x k i := by
  induction n generalizing t k x with
  | zero => simp [expTail]
  | succ n ih =>
    obtain ⟨hlo', hhi'⟩ := expStep_bounds (k := k) hz hz1 hlo hhi
    obtain ⟨ihlo, ihhi⟩ := ih (k := k + 1) hlo' hhi'
    rw [expTail_succ, sum_expTerm_succ]
    push_cast
    push_cast at ihlo ihhi
    constructor <;> linarith

/-- What p/2 terms of the exponential series cut off. -/
theorem exp_rest_le_one {p : ℕ} (hp : 2 ^ (p + 1) ≤ (seriesTerms p).factorial) {z : ℝ} (hz0 : 0 ≤ z) (hz1 : z ≤ 1) :
    2 ^ p * ∑ i ∈ Finset.range (seriesTerms p), z ^ i / i.factorial ≤ 2 ^ p * Real.exp z ∧
      2 ^ p * Real.exp z ≤ 2 ^ p * ∑ i ∈ Finset.range (seriesTerms p), z ^ i / i.factorial + 1 := by
  have hpow : (0 : ℝ) < 2 ^ p := by positivity
  refine ⟨mul_le_mul_of_nonneg_left (Real.sum_le_exp_of_nonneg hz0 _) hpow.le, ?_⟩
  have hpos : 0 < seriesTerms p := by
    by_contra h0
    rw [Nat.eq_zero_of_not_pos h0, Nat.factorial_zero, pow_succ] at hp
    have := Nat.one_le_two_pow (n := p)
    omega
  generalize seriesTerms p = n at hp hpos ⊢
  have hn : (1 : ℝ) ≤ n := by exact_mod_cast hpos
  have hfact : (2 : ℝ) ^ (p + 1) ≤ n.factorial := by exact_mod_cast hp
  have hrest : 2 ^ p * (z ^ n * (n + 1) / (n.factorial * n)) ≤ 1 := by
    rw [← mul_div_assoc, div_le_one (by positivity)]
    calc 2 ^ p * (z ^ n * (n + 1)) ≤ 2 ^ p * (1 * (2 * n)) := by
          gcongr
          · exact pow_le_one₀ hz0 hz1
          · linarith
      _ = 2 ^ (p + 1) * n := by ring
      _ ≤ n.factorial * n := by gcongr
  have hexp := mul_le_mul_of_nonneg_left (Real.exp_bound' hz0 hz1 hpos) hpow.le
  rw [mul_add] at hexp
  linarith

/-- The loop from its start against e^z. -/
theorem expTail_sub_exp {p y : ℕ} (hp : 2 ^ (p + 1) ≤ (seriesTerms p).factorial) {z : ℝ} (hz : z = y / 2 ^ p)
    (hz1 : 4 * z ≤ 3) :
    2 ^ p * Real.exp z - (4 * seriesTerms p + 1) ≤ (expTail p y (seriesTerms p) (2 ^ p) 1 : ℝ) ∧
      (expTail p y (seriesTerms p) (2 ^ p) 1 : ℝ) ≤ 2 ^ p * Real.exp z := by
  have hz0 : 0 ≤ z := by rw [hz]; positivity
  obtain ⟨hlo, hhi⟩ := expTail_bounds hz hz1 (seriesTerms p) (t := 2 ^ p) (k := 0) (x := 2 ^ p)
    (by push_cast; linarith) (by push_cast; exact le_rfl)
  obtain ⟨hpartial, hrest⟩ := exp_rest_le_one hp hz0 (by linarith)
  have hsum : ∑ i ∈ Finset.range (seriesTerms p), expTerm z (2 ^ p) 0 i =
      2 ^ p * ∑ i ∈ Finset.range (seriesTerms p), z ^ i / i.factorial := by
    rw [Finset.mul_sum]
    refine Finset.sum_congr rfl fun i _ => ?_
    rw [expTerm, Nat.factorial_zero, zero_add, Nat.cast_one]
    ring
  rw [zero_add, hsum] at hlo hhi
  constructor <;> linarith

/-! ### 2^r for a fraction r -/

theorem natCast_div_le_one {r d : ℕ} (hr : r < d) : (r : ℝ) / d ≤ 1 :=
  div_le_one_of_le₀ (by exact_mod_cast hr.le) (Nat.cast_nonneg d)

/-- r·ln 2 in fixed point, for r/d in [0, 1): what it loses to its two truncations and to ln 2. -/
theorem exponentFix_bounds {p r d : ℕ} (hd : 0 < d) (hr : r < d) :
    2 ^ p * (r / d * Real.log 2) - (logError p + 2) ≤ ((r * 2 ^ p / d * ln2Fix p / 2 ^ p : ℕ) : ℝ) ∧
      ((r * 2 ^ p / d * ln2Fix p / 2 ^ p : ℕ) : ℝ) ≤ 2 ^ p * (r / d * Real.log 2) := by
  have hp : (0 : ℝ) < 2 ^ p := by positivity
  have hcast : ((2 ^ p : ℕ) : ℝ) = 2 ^ p := by push_cast; rfl
  have hd' : (0 : ℝ) < d := by exact_mod_cast hd
  have hfrac : (r : ℝ) / d ≤ 1 := natCast_div_le_one hr
  have hfrac0 : (0 : ℝ) ≤ r / d := by positivity
  have hlog0 : 0 ≤ Real.log 2 := Real.log_nonneg one_le_two
  have hlog1 : Real.log 2 ≤ 1 := by linarith [Real.log_two_lt_d9]
  obtain ⟨hlo2, hhi2⟩ := ln2Fix_bounds p
  have hnum : ((r * 2 ^ p : ℕ) : ℝ) / d = 2 ^ p * (r / d) := by push_cast; ring
  have hdown := natCast_div_le_of_le (t := r * 2 ^ p) hd le_rfl
  have hup := div_le_natCast_div_add_one (t := r * 2 ^ p) hd (x := ((r * 2 ^ p : ℕ) : ℝ))
    (le_add_of_nonneg_right zero_le_one)
  rw [hnum] at hdown hup
  generalize hadef : r * 2 ^ p / d = a at hdown hup ⊢
  generalize hfdef : (r : ℝ) / d = f at hfrac hfrac0 hdown hup ⊢
  have ha0 : (0 : ℝ) ≤ a := Nat.cast_nonneg a
  have hupper : ((a * ln2Fix p : ℕ) : ℝ) ≤ 2 ^ p * (f * Real.log 2) * 2 ^ p := by
    push_cast
    calc (a : ℝ) * ln2Fix p ≤ 2 ^ p * f * (2 ^ p * Real.log 2) :=
          mul_le_mul hdown hhi2 (Nat.cast_nonneg _) (by positivity)
      _ = _ := by ring
  have hlower : (2 ^ p * (f * Real.log 2) - (logError p + 1)) * 2 ^ p ≤ ((a * ln2Fix p : ℕ) : ℝ) := by
    push_cast
    have herror : (0 : ℝ) ≤ logError p := Nat.cast_nonneg _
    have haP : (a : ℝ) ≤ 2 ^ p := hdown.trans (mul_le_of_le_one_right hp.le hfrac)
    have h1 : (a : ℝ) * (2 ^ p * Real.log 2 - logError p) ≤ a * ln2Fix p := mul_le_mul_of_nonneg_left hlo2 ha0
    have h2 : (a : ℝ) * logError p ≤ 2 ^ p * logError p := mul_le_mul_of_nonneg_right haP herror
    have h3 : (2 ^ p * f - 1) * (2 ^ p * Real.log 2) ≤ a * (2 ^ p * Real.log 2) :=
      mul_le_mul_of_nonneg_right (by linarith) (by positivity)
    have h4 : 2 ^ p * Real.log 2 ≤ 2 ^ p := mul_le_of_le_one_right hp.le hlog1
    linarith
  have hdown' := natCast_div_le_of_le (d := 2 ^ p) (by positivity) hupper
  have hup' := div_le_natCast_div_add_one (t := a * ln2Fix p) (d := 2 ^ p) (x := ((a * ln2Fix p : ℕ) : ℝ)) (by positivity)
    (le_add_of_nonneg_right zero_le_one)
  rw [hcast] at hdown' hup'
  rw [mul_div_assoc, div_self hp.ne', mul_one] at hdown'
  have hquotient := (le_div_iff₀ hp).mpr hlower
  exact ⟨by linarith, hdown'⟩

/-- The error of 2^r at p fractional bits, in units. -/
def expError (p : ℕ) : ℕ := 4 * seriesTerms p + 1 + 3 * (logError p + 2)

/-- A step back from an exponent z ≤ 1 takes at most 3 times its length off e^z. -/
theorem exp_sub_le {z z' : ℝ} (hz : z ≤ 1) (hle : z' ≤ z) : Real.exp z - 3 * (z - z') ≤ Real.exp z' := by
  have htangent : Real.exp z * (1 + (z' - z)) ≤ Real.exp z' := by
    have hexp := Real.add_one_le_exp (z' - z)
    calc Real.exp z * (1 + (z' - z)) ≤ Real.exp z * Real.exp (z' - z) := by
          gcongr
          linarith
      _ = Real.exp z' := by rw [← Real.exp_add]; ring_nf
  have hthree : Real.exp z ≤ 3 := (Real.exp_le_exp.mpr hz).trans (by linarith [Real.exp_one_lt_d9])
  nlinarith

theorem exp2FracFix_bounds {p r : ℕ} (hp : 2 ^ (p + 1) ≤ (seriesTerms p).factorial) (hr : r < unitsPerOne) :
    2 ^ p * (2 : ℝ) ^ ((r : ℝ) / unitsPerOne) - expError p ≤ (exp2FracFix p r : ℝ) ∧
      (exp2FracFix p r : ℝ) ≤ 2 ^ p * (2 : ℝ) ^ ((r : ℝ) / unitsPerOne) := by
  have hpow : (0 : ℝ) < 2 ^ p := by positivity
  obtain ⟨hylo, hyhi⟩ := exponentFix_bounds (p := p) unitsPerOne_pos hr
  rw [exp2FracFix, force_eq, force_eq, fixOne]
  have hfrac := natCast_div_le_one hr
  clear hr
  generalize r * 2 ^ p / unitsPerOne * ln2Fix p / 2 ^ p = y at hylo hyhi ⊢
  generalize (r : ℝ) / unitsPerOne = f at hylo hyhi hfrac ⊢
  have hlog := Real.log_two_lt_d9
  have hlog0 : 0 ≤ Real.log 2 := Real.log_nonneg one_le_two
  have htwo : (2 : ℝ) ^ f = Real.exp (f * Real.log 2) := by rw [Real.rpow_def_of_pos two_pos, mul_comm]
  have hz : f * Real.log 2 ≤ 0.7 := by nlinarith
  have hz' : (y : ℝ) / 2 ^ p ≤ f * Real.log 2 := by rw [div_le_iff₀ hpow]; linarith
  obtain ⟨hlo, hhi⟩ := expTail_sub_exp hp (y := y) rfl (by linarith)
  have hexp := exp_sub_le (by linarith : f * Real.log 2 ≤ 1) hz'
  have hmono := mul_le_mul_of_nonneg_left (Real.exp_le_exp.mpr hz') hpow.le
  have hscaled := mul_le_mul_of_nonneg_left hexp hpow.le
  have hcancel : (2 : ℝ) ^ p * (y / 2 ^ p) = y := by field_simp
  have herror : (2 : ℝ) ^ p * (3 * (f * Real.log 2 - y / 2 ^ p)) ≤ 3 * (logError p + 2) := by
    calc (2 : ℝ) ^ p * (3 * (f * Real.log 2 - y / 2 ^ p))
        = 3 * (2 ^ p * (f * Real.log 2) - 2 ^ p * (y / 2 ^ p)) := by ring
      _ ≤ 3 * (logError p + 2) := by rw [hcancel]; linarith
  rw [mul_sub] at hscaled
  rw [htwo, expError]
  push_cast
  constructor <;> linarith

end Sys2Proof.Machine
end

section
/-! EXP2 and LOG10 as the model rounds them (spec 40_generator_base.md R142, R145; notes/assumptions/5.md). -/

namespace Sys2Proof.Machine

open Sys2Proof

/-! ### The one rounding, of a quotient that is a little off -/

theorem abs_withSign_sub (neg : Bool) (a b : ℝ) : |withSign neg a - withSign neg b| = |a - b| := by
  cases neg with
  | false => rfl
  | true => rw [withSign, withSign, if_pos rfl, if_pos rfl, neg_sub_neg, abs_sub_comm]

/-- Where a quotient is within ε of a real, its rounding is nearest to the real up to 2ε; all in some unit U. -/
theorem abs_fRound_div_sub_le {n d : ℕ} (hd : 0 < d) (neg : Bool) {y : F64} (hy : fIsFinite y = true) {U X ε : ℝ}
    (hU : 0 < U) (hX : |(n : ℝ) / (d * U) - X| ≤ ε) :
    |(fInt (fRound neg n d) : ℝ) / U - withSign neg X| ≤ |(fInt y : ℝ) / U - withSign neg X| + 2 * ε := by
  have hd' : (0 : ℝ) < d := by exact_mod_cast hd
  have hscale : withSign neg n = withSign neg ((n : ℝ) / (d * U)) * (d * U) := by
    rw [← withSign_mul, div_mul_cancel₀ _ (by positivity)]
  have hunits (a : ℝ) : |a * d - withSign neg n| = |a / U - withSign neg ((n : ℝ) / (d * U))| * (d * U) := by
    rw [hscale, show a * d = a / U * (d * U) by field_simp, ← sub_mul, abs_mul, abs_of_pos (mul_pos hd' hU)]
  have hnear := abs_fRound_sub_le (n := n) hd neg hy
  rw [hunits, hunits] at hnear
  have hnear := le_of_mul_le_mul_right hnear (mul_pos hd' hU)
  have hoff := abs_withSign_sub neg ((n : ℝ) / (d * U)) X
  rw [← hoff] at hX
  generalize withSign neg ((n : ℝ) / (d * U)) = w at hnear hX
  generalize withSign neg X = x at hX ⊢
  rw [abs_le] at hX
  have h₁ := abs_sub_le ((fInt (fRound neg n d) : ℝ) / U) w x
  have h₂ := abs_sub_le ((fInt y : ℝ) / U) x w
  have h₃ : |w - x| ≤ ε := abs_le.mpr hX
  rw [abs_sub_comm x w] at h₂
  linarith

/-! ### EXP2 by the range of its argument (R142) -/

theorem fIsInf_or_fIsFinite {x : F64} (h : fIsNaN x = false) : fIsInf x = true ∨ fIsFinite x = true := by
  unfold fIsNaN at h
  unfold fIsInf fIsFinite
  by_cases hexp : fExpField x = 0x7FF
  · simp_all
  · simp [hexp]

theorem fIsNaN_of_fIsInf {x : F64} (h : fIsInf x = true) : fIsNaN x = false := by
  unfold fIsInf at h
  unfold fIsNaN
  simp_all

theorem fExp2_of_fIsInf {x : F64} (h : fIsInf x = true) : fExp2 x = if fSign x then fZero else fInf := by
  simp only [fExp2, fIsNaN_of_fIsInf h, h, Bool.false_eq_true, if_false, if_true]

theorem fExp2_of_finite {x : F64} (hx : fIsFinite x = true) :
    fExp2 x =
      if fFloorInt x ≥ 1024 then fInf
      else if fFloorInt x < -1075 then fZero
      else if (fInt x % (unitsPerOne : Int)).toNat = 0 then fRound false (2 ^ (fFloorInt x + 1075).toNat) 2
      else fRound false
        (exp2FracFix Config.precision (fInt x % (unitsPerOne : Int)).toNat * 2 ^ (fFloorInt x + 1075).toNat)
        (2 * fixOne Config.precision) := by
  simp only [fExp2, fIsNaN_of_finite hx, fIsInf_of_finite hx, Bool.false_eq_true, if_false]

theorem exp2FracFix_zero : exp2FracFix Config.precision 0 = fixOne Config.precision := by decide +kernel

/-- Between the ends the result is the one rounding of the series, at an integer too. -/
theorem fExp2_of_exponent {x : F64} (hx : fIsFinite x = true) (hlo : -1075 ≤ fFloorInt x) (hhi : fFloorInt x < 1024) :
    fExp2 x = fRound false
      (exp2FracFix Config.precision (fInt x % (unitsPerOne : Int)).toNat * 2 ^ (fFloorInt x + 1075).toNat)
      (2 * fixOne Config.precision) := by
  rw [fExp2_of_finite hx, if_neg (by omega), if_neg (by omega)]
  split
  next h0 =>
    have hone : 0 < fixOne Config.precision := Nat.pow_pos two_pos
    rw [h0, exp2FracFix_zero, fRound, fRound]
    refine congrArg _ (roundMag_congr two_pos (by omega) ?_)
    ring
  next => rfl

theorem fExp2_of_large {x : F64} (hx : fIsFinite x = true) (h : 1024 ≤ fFloorInt x) : fExp2 x = fInf := by
  rw [fExp2_of_finite hx, if_pos h]

theorem fExp2_of_small {x : F64} (hx : fIsFinite x = true) (h : fFloorInt x < -1075) : fExp2 x = fZero := by
  rw [fExp2_of_finite hx, if_neg (by omega), if_pos h]

/-- A finite value is its floor and a fraction, in units. -/
theorem fInt_eq_floor_add (x : F64) :
    fInt x = fFloorInt x * unitsPerOne + ((fInt x % (unitsPerOne : Int)).toNat : Int) ∧
      (fInt x % (unitsPerOne : Int)).toNat < unitsPerOne := by
  have hpos := intUnitsPerOne_pos
  have hlt := Int.emod_lt_of_pos (fInt x) hpos
  have hnonneg := Int.emod_nonneg (fInt x) hpos.ne'
  have hsplit := Int.mul_ediv_add_emod (fInt x) unitsPerOne
  have hcast := Int.toNat_of_nonneg hnonneg
  unfold fFloorInt
  generalize hr : fInt x % (unitsPerOne : Int) = r at *
  refine ⟨by rw [hcast, mul_comm]; exact hsplit.symm, ?_⟩
  have hlt' : (r.toNat : Int) < unitsPerOne := hcast.trans_lt hlt
  exact Int.ofNat_lt.mp hlt'

theorem fFloorInt_lt_iff (x : F64) (n : Int) : fFloorInt x < n ↔ fInt x < n * unitsPerOne :=
  Int.ediv_lt_iff_lt_mul intUnitsPerOne_pos

theorem le_fFloorInt_iff (x : F64) (n : Int) : n ≤ fFloorInt x ↔ n * unitsPerOne ≤ fInt x :=
  Int.le_ediv_iff_mul_le intUnitsPerOne_pos

/-! ### EXP2 at integers and at the ends -/

theorem two_pow_le_significand {e k f : Nat} (h : e ≤ 52 + k) : 2 ^ e ≤ (2 ^ 52 + f) * 2 ^ k :=
  calc 2 ^ e ≤ 2 ^ (52 + k) := Nat.pow_le_pow_right two_pos h
    _ = 2 ^ 52 * 2 ^ k := pow_add 2 52 k
    _ ≤ (2 ^ 52 + f) * 2 ^ k := Nat.mul_le_mul_right _ (Nat.le_add_right ..)

theorem two_pow_le_fMaxFinite {e : Nat} (he : e ≤ 2097) : 2 ^ e ≤ fMag fMaxFinite := by
  rw [fMag_of_expField (e := 2045) (by decide)]
  exact two_pow_le_significand he

/-- The powers of two from 2^-1074 to 2^1023 are binary64 values. -/
theorem fRound_two_pow {e : Nat} (he : e ≤ 2097) :
    fIsFinite (fRound false (2 ^ e) 1) = true ∧ fMag (fRound false (2 ^ e) 1) = 2 ^ e := by
  obtain ⟨hfin, -⟩ := fMag_fRound_le (x := fMaxFinite) (by decide) false (2 ^ e) 1 one_pos
    (by rw [mul_one]; exact two_pow_le_fMaxFinite he)
  refine ⟨hfin, fMag_fRound_of_dvd ?_ hfin⟩
  have hdvd := two_pow_log2_sub_dvd (k := 1) (b := 52) (e := e) (by norm_num)
  rwa [one_mul] at hdvd

theorem f64OfInt_spec {k : Int} (hk : k.natAbs < 2 ^ 53) :
    fIsFinite (f64OfInt k) = true ∧ fInt (f64OfInt k) = k * unitsPerOne := by
  obtain ⟨hfin, hmag⟩ := fRound_natural (decide (k < 0)) hk
  refine ⟨hfin, ?_⟩
  have hint : fInt (f64OfInt k) = signedNat (decide (k < 0)) (k.natAbs * unitsPerOne) := by
    rw [← hmag]
    exact fInt_fRound ..
  have hsplit : signedNat (decide (k < 0)) (k.natAbs * unitsPerOne) =
      signedNat (decide (k < 0)) k.natAbs * (unitsPerOne : Int) := by
    unfold signedNat
    split
    · rw [Nat.cast_mul, neg_mul]
    · rw [Nat.cast_mul]
  rw [hint, hsplit, signedNat_natAbs]

theorem fInt_fExp2_of_integer {x : F64} {k : Int} (hx : fIsFinite x = true) (hk : fInt x = k * unitsPerOne)
    (hlo : -1074 ≤ k) (hhi : k ≤ 1023) : fInt (fExp2 x) = 2 ^ (k + 1074).toNat := by
  have hfloor : fFloorInt x = k := by
    rw [fFloorInt, hk, Int.mul_ediv_cancel _ intUnitsPerOne_pos.ne']
  have hrest : (fInt x % (unitsPerOne : Int)).toNat = 0 := by rw [hk, Int.mul_emod_left, Int.toNat_zero]
  have hexp : (k + 1075).toNat = (k + 1074).toNat + 1 := by omega
  have hhalf : fExp2 x = fRound false (2 ^ (k + 1074).toNat) 1 := by
    have hone : 0 < fixOne Config.precision := Nat.pow_pos two_pos
    rw [fExp2_of_exponent hx (by omega) (by omega), hrest, exp2FracFix_zero, hfloor, hexp, fRound, fRound]
    refine congrArg _ (roundMag_congr (by omega) one_pos ?_)
    ring
  obtain ⟨-, hmag⟩ := fRound_two_pow (e := (k + 1074).toNat) (by omega)
  rw [hhalf, fInt_fRound, hmag]
  exact Nat.cast_pow 2 _

theorem fSign_of_fInt_pos {x : F64} (h : 0 < fInt x) : fSign x = false := by
  by_contra hsign
  rw [fInt, if_pos (by simpa using hsign)] at h
  omega

theorem fSign_of_fInt_neg {x : F64} (h : fInt x < 0) : fSign x = true := by
  by_contra hsign
  rw [fInt, if_neg (by simpa using hsign)] at h
  omega

theorem fExp2_overflow {x : F64} (hnan : fIsNaN x = false) (h : 1024 * (unitsPerOne : Int) ≤ fInt x) :
    fExp2 x = fInf := by
  have hunits := intUnitsPerOne_pos
  obtain hinf | hfin := fIsInf_or_fIsFinite hnan
  · rw [fExp2_of_fIsInf hinf, fSign_of_fInt_pos (by omega)]
    rfl
  · exact fExp2_of_large hfin ((le_fFloorInt_iff x 1024).mpr h)

/-- At -1075 itself the result is half the least binary64, and the tie goes to the even neighbour +0.0. -/
theorem fExp2_underflow {x : F64} (hnan : fIsNaN x = false) (h : fInt x ≤ -1075 * (unitsPerOne : Int)) :
    fExp2 x = fZero := by
  have hunits := intUnitsPerOne_pos
  obtain hinf | hfin := fIsInf_or_fIsFinite hnan
  · rw [fExp2_of_fIsInf hinf, fSign_of_fInt_neg (by omega)]
    rfl
  · rcases lt_or_eq_of_le h with hlt | heq
    · exact fExp2_of_small hfin ((fFloorInt_lt_iff x (-1075)).mpr hlt)
    · have hfloor : fFloorInt x = -1075 := by
        rw [fFloorInt, heq, Int.mul_ediv_cancel _ hunits.ne']
      have hrest : (fInt x % (unitsPerOne : Int)).toNat = 0 := by rw [heq, Int.mul_emod_left, Int.toNat_zero]
      rw [fExp2_of_finite hfin, hfloor, if_neg (by norm_num), if_neg (by norm_num), if_pos hrest]
      decide

theorem toNat_fRound_le (n d : Nat) : (fRound false n d).toNat ≤ 0x7FF0000000000000 := by
  rw [fRound, toNat_fPack false (roundMag_lt n d), if_neg Bool.false_ne_true, Nat.zero_add]
  exact roundMag_le n d

theorem toNat_fExp2_le {x : F64} (hnan : fIsNaN x = false) : (fExp2 x).toNat ≤ 0x7FF0000000000000 := by
  obtain hinf | hfin := fIsInf_or_fIsFinite hnan
  · rw [fExp2_of_fIsInf hinf]
    cases fSign x <;> decide
  · rcases lt_or_ge (fFloorInt x) (-1075) with hsmall | hlo
    · rw [fExp2_of_small hfin hsmall]
      decide
    · rcases lt_or_ge (fFloorInt x) 1024 with hhi | hlarge
      · rw [fExp2_of_exponent hfin hlo hhi]
        exact toNat_fRound_le ..
      · rw [fExp2_of_large hfin hlarge]
        decide

/-- Settles O35: at an integer the series is 1, and the ends are the branches of the definition. -/
theorem exp2AtIntegersAndEnds : Obligations.Exp2AtIntegersAndEnds := by
  refine ⟨fun k hlo hhi => ?_, fun x hnan h => fExp2_overflow hnan h, fun x hnan h => fExp2_underflow hnan h,
    fun x hnan => toNat_fExp2_le hnan⟩
  obtain ⟨hfin, hint⟩ := f64OfInt_spec (k := k) (by omega)
  exact fInt_fExp2_of_integer hfin hint hlo hhi

end Sys2Proof.Machine
end

section
/-! EXP2 and LOG10 are nearest values up to the bounds of the 256-bit series (spec 40_generator_base.md R142, R145;
notes/assumptions/5.md). -/

namespace Sys2Proof.Machine

open Sys2Proof

/-! ### EXP2 -/

theorem factorial_suffices : 2 ^ (Config.precision + 1) ≤ (seriesTerms Config.precision).factorial :=
  calc 2 ^ (Config.precision + 1) ≤ 2 ^ (4 * 113) := Nat.pow_le_pow_right two_pos (by decide)
    _ = 16 ^ 113 := pow_mul 2 4 113
    _ ≤ Nat.factorial 15 * (15 + 1) ^ 113 := Nat.le_mul_of_pos_left _ (Nat.factorial_pos 15)
    _ ≤ (seriesTerms Config.precision).factorial := Nat.factorial_mul_pow_le_factorial

theorem expError_precision : expError Config.precision = 2829 := by decide

theorem logError_precision : logError Config.precision = 770 := by decide

/-- The 256-bit series against the real power. -/
theorem abs_exp2FracFix_sub_le {r : ℕ} (hr : r < unitsPerOne) :
    |(exp2FracFix Config.precision r : ℝ) / 2 ^ Config.precision - (2 : ℝ) ^ ((r : ℝ) / unitsPerOne)| ≤
      1 / 2 ^ 200 := by
  obtain ⟨hlo, hhi⟩ := exp2FracFix_bounds factorial_suffices hr
  rw [expError_precision] at hlo
  generalize (2 : ℝ) ^ ((r : ℝ) / unitsPerOne) = f at hlo hhi ⊢
  generalize (exp2FracFix Config.precision r : ℝ) = e at hlo hhi ⊢
  have hp : (2 : ℝ) ^ Config.precision = 2 ^ 56 * 2 ^ 200 := by rw [← pow_add]; rfl
  rw [hp] at hlo hhi ⊢
  rw [abs_le]
  constructor
  · rw [le_sub_iff_add_le, le_div_iff₀ (by positivity)]
    push_cast at hlo
    linarith
  · rw [sub_le_iff_le_add, div_le_iff₀ (by positivity)]
    linarith

/-- 2^x is 2^n times the power of the fraction, n the floor; in halves, so that every exponent is natural. -/
theorem two_rpow_eq {v n : Int} {r e : ℕ} {u : ℕ} (hu : 0 < u) (hv : v = n * u + r) (he : (e : Int) = n + 1075) :
    (2 : ℝ) ^ ((v : ℝ) / u) = (2 : ℝ) ^ ((r : ℝ) / u) * 2 ^ e / (2 * 2 ^ 1074) := by
  have hu' : (u : ℝ) ≠ 0 := by positivity
  have hn : (n : ℝ) = (e : ℕ) - (1075 : ℕ) := by
    have : (n : Int) = (e : Int) - (1075 : ℕ) := by omega
    exact_mod_cast this
  have hsum : (v : ℝ) / u = (r : ℝ) / u + ((e : ℕ) : ℝ) - ((1075 : ℕ) : ℝ) := by
    rw [hv]
    push_cast
    rw [hn]
    field_simp
    push_cast
    ring
  rw [hsum, Real.rpow_sub two_pos, Real.rpow_add two_pos, Real.rpow_natCast, Real.rpow_natCast, ← pow_succ']

/-- Every finite value at least as near to a positive real below half the least value as 0 is. -/
theorem abs_zero_sub_le {y : F64} {u power : ℝ} (hu : 0 < u) (hpower : 0 < power) (hsmall : 2 * power ≤ 1 / u) :
    |(0 : ℝ) / u - power| ≤ |(fInt y : ℝ) / u - power| := by
  rw [zero_div, zero_sub, abs_neg, abs_of_pos hpower]
  rcases le_or_gt (fInt y) 0 with hneg | hpos
  · have hle : (fInt y : ℝ) / u ≤ 0 := div_nonpos_of_nonpos_of_nonneg (by exact_mod_cast hneg) hu.le
    rw [abs_of_neg (by linarith)]
    linarith
  · have hone : (1 : ℝ) ≤ fInt y := by exact_mod_cast hpos
    have hge : 1 / u ≤ (fInt y : ℝ) / u := by gcongr
    rw [abs_of_nonneg (by linarith)]
    linarith

theorem two_rpow_lt_half_unit {v : Int} {u : ℕ} (hu : 0 < u) (hv : v < -1075 * (u : Int)) :
    2 * (2 : ℝ) ^ ((v : ℝ) / u) ≤ 1 / 2 ^ 1074 := by
  have hu' : (0 : ℝ) < u := by exact_mod_cast hu
  have hle : (v : ℝ) / u ≤ -((1075 : ℕ) : ℝ) := by
    rw [div_le_iff₀ hu']
    exact_mod_cast hv.le
  calc 2 * (2 : ℝ) ^ ((v : ℝ) / u) ≤ 2 * (2 : ℝ) ^ (-((1075 : ℕ) : ℝ)) := by gcongr; norm_num
    _ = 1 / 2 ^ 1074 := by
        rw [Real.rpow_neg zero_le_two, Real.rpow_natCast, pow_succ]
        field_simp

theorem two_mul_div_le {x : ℝ} (hx : 0 ≤ x) : 2 * (x / 2 ^ 200) ≤ x / 2 ^ 190 := by
  rw [← mul_div_assoc, div_le_div_iff₀ (by positivity) (by positivity)]
  linarith

/-- The quotient that EXP2 rounds, against a power with the same exponent. -/
theorem abs_exp2Quotient_sub_le {s e u : ℕ} {f : ℝ} (hu : 0 < u) (hf : 1 ≤ f)
    (hs : |(s : ℝ) / 2 ^ Config.precision - f| ≤ 1 / 2 ^ 200) :
    |((s * 2 ^ e : ℕ) : ℝ) / ((2 * fixOne Config.precision : ℕ) * u) - f * 2 ^ e / (2 * u)| ≤
      f * 2 ^ e / (2 * u) / 2 ^ 200 := by
  have hu' : (0 : ℝ) < u := by exact_mod_cast hu
  have hdiff : ((s * 2 ^ e : ℕ) : ℝ) / ((2 * fixOne Config.precision : ℕ) * u) - f * 2 ^ e / (2 * u) =
      ((s : ℝ) / 2 ^ Config.precision - f) * (2 ^ e / (2 * u)) := by
    rw [fixOne]
    push_cast
    field_simp
  rw [hdiff, abs_mul, abs_of_pos (show (0 : ℝ) < 2 ^ e / (2 * u) by positivity)]
  calc |(s : ℝ) / 2 ^ Config.precision - f| * (2 ^ e / (2 * u)) ≤ 1 / 2 ^ 200 * (2 ^ e / (2 * u)) := by gcongr
    _ ≤ f / 2 ^ 200 * (2 ^ e / (2 * u)) := by gcongr
    _ = f * 2 ^ e / (2 * u) / 2 ^ 200 := by ring

/-- No finite value is nearer to 2^x than EXP2(x), up to the error of the series. -/
theorem abs_fExp2_sub_le {x y : F64} (hx : fIsFinite x = true) (hlt : fInt x < 1024 * (unitsPerOne : Int))
    (hy : fIsFinite y = true) :
    |(fInt (fExp2 x) : ℝ) / unitsPerOne - (2 : ℝ) ^ ((fInt x : ℝ) / unitsPerOne)| ≤
      |(fInt y : ℝ) / unitsPerOne - (2 : ℝ) ^ ((fInt x : ℝ) / unitsPerOne)|
        + (2 : ℝ) ^ ((fInt x : ℝ) / unitsPerOne) / 2 ^ 190 := by
  have hu : (0 : ℝ) < unitsPerOne := by exact_mod_cast unitsPerOne_pos
  have hpower : 0 < (2 : ℝ) ^ ((fInt x : ℝ) / unitsPerOne) := Real.rpow_pos_of_pos two_pos _
  rcases lt_or_ge (fFloorInt x) (-1075) with hsmall | hlo
  · have hhalf := two_rpow_lt_half_unit unitsPerOne_pos ((fFloorInt_lt_iff x (-1075)).mp hsmall)
    rw [← unitsPerOne_cast] at hhalf
    have hzero := abs_zero_sub_le (y := y) hu hpower hhalf
    rw [fExp2_of_small hx hsmall, fInt_fZero, Int.cast_zero]
    exact hzero.trans (le_add_of_nonneg_right (by positivity))
  · have hhi : fFloorInt x < 1024 := (fFloorInt_lt_iff x 1024).mpr hlt
    obtain ⟨hsplit, hr⟩ := fInt_eq_floor_add x
    have hseries := abs_exp2FracFix_sub_le hr
    have hfrac : 1 ≤ (2 : ℝ) ^ (((fInt x % (unitsPerOne : Int)).toNat : ℝ) / unitsPerOne) :=
      Real.one_le_rpow one_le_two (div_nonneg (Nat.cast_nonneg _) hu.le)
    have hexp := two_rpow_eq (e := (fFloorInt x + 1075).toNat) unitsPerOne_pos hsplit (by omega)
    rw [← unitsPerOne_cast] at hexp
    have hquotient := abs_exp2Quotient_sub_le (e := (fFloorInt x + 1075).toNat) unitsPerOne_pos hfrac hseries
    rw [← hexp] at hquotient
    have hdenominator : 0 < 2 * fixOne Config.precision := Nat.mul_pos two_pos (Nat.pow_pos two_pos)
    have hnear := abs_fRound_div_sub_le hdenominator false hy hu hquotient
    rw [← fExp2_of_exponent hx hlo hhi] at hnear
    exact hnear.trans (add_le_add_right (two_mul_div_le hpower.le) _)

/-! ### LOG10 -/

theorem sum_div_difference (a b : ℝ) : (a + b + (a - b)) / (a + b - (a - b)) = a / b := by
  rw [show a + b + (a - b) = 2 * a by ring, show a + b - (a - b) = 2 * b by ring, mul_div_mul_left _ _ two_ne_zero]

/-- Below a power of two: -ln z for z = m/2^q, 2^e ≤ m < 2^(e+1) and q = e + 1 + k. -/
theorem lnBelow_bounds (p : ℕ) {m e k q : ℕ} (hlo : 2 ^ e ≤ m) (hhi : m < 2 ^ (e + 1)) (hq : q = e + 1 + k) :
    2 ^ p * -Real.log ((m : ℝ) / 2 ^ q) - logError p * (k + 1) ≤ ((lnBelowFix p m e + k * ln2Fix p : ℕ) : ℝ) ∧
      ((lnBelowFix p m e + k * ln2Fix p : ℕ) : ℝ) ≤ 2 ^ p * -Real.log ((m : ℝ) / 2 ^ q) := by
  have hm : 0 < m := (Nat.pow_pos two_pos).trans_le hlo
  have hm' : (0 : ℝ) < m := by exact_mod_cast hm
  have hdouble : 2 ^ (e + 1) = 2 * 2 ^ e := by rw [pow_succ, mul_comm]
  obtain ⟨hlo1, hhi1⟩ := two_mul_atanhFix_bounds p (num := 2 ^ (e + 1) - m) (den := 2 ^ (e + 1) + m) (by positivity)
    (by omega)
  obtain ⟨hlo2, hhi2⟩ := ln2Fix_bounds p
  have hratio : ((2 ^ (e + 1) + m : ℕ) + (2 ^ (e + 1) - m : ℕ) : ℝ) / ((2 ^ (e + 1) + m : ℕ) - (2 ^ (e + 1) - m : ℕ)) =
      2 ^ (e + 1) / m := by
    rw [Nat.cast_sub hhi.le, Nat.cast_add, sum_div_difference]
    push_cast
    rfl
  have hlog : -Real.log ((m : ℝ) / 2 ^ q) = Real.log (2 ^ (e + 1) / m) + k * Real.log 2 := by
    rw [← Real.log_inv, inv_div, ← Real.log_pow, ← Real.log_mul (by positivity) (by positivity), hq, pow_add]
    congr 1
    ring
  rw [hratio] at hlo1 hhi1
  rw [hlog, lnBelowFix]
  have hk₁ := mul_le_mul_of_nonneg_left hlo2 (Nat.cast_nonneg (α := ℝ) k)
  have hk₂ := mul_le_mul_of_nonneg_left hhi2 (Nat.cast_nonneg (α := ℝ) k)
  push_cast at hlo1 hhi1 ⊢
  constructor <;> linarith

/-- Above a power of two: ln z for z = m/2^q, 2^e ≤ m < 2^(e+1) and e = q + k. -/
theorem lnAbove_bounds (p : ℕ) {m e k q : ℕ} (hlo : 2 ^ e ≤ m) (hhi : m < 2 ^ (e + 1)) (he : e = q + k) :
    2 ^ p * Real.log ((m : ℝ) / 2 ^ q) - logError p * (k + 1) ≤ ((lnAboveFix p m e + k * ln2Fix p : ℕ) : ℝ) ∧
      ((lnAboveFix p m e + k * ln2Fix p : ℕ) : ℝ) ≤ 2 ^ p * Real.log ((m : ℝ) / 2 ^ q) := by
  have hm : 0 < m := (Nat.pow_pos two_pos).trans_le hlo
  have hm' : (0 : ℝ) < m := by exact_mod_cast hm
  have hdouble : 2 ^ (e + 1) = 2 * 2 ^ e := by rw [pow_succ, mul_comm]
  obtain ⟨hlo1, hhi1⟩ := two_mul_atanhFix_bounds p (num := m - 2 ^ e) (den := m + 2 ^ e) (by positivity) (by omega)
  obtain ⟨hlo2, hhi2⟩ := ln2Fix_bounds p
  have hratio : ((m + 2 ^ e : ℕ) + (m - 2 ^ e : ℕ) : ℝ) / ((m + 2 ^ e : ℕ) - (m - 2 ^ e : ℕ)) = m / 2 ^ e := by
    rw [Nat.cast_sub hlo, Nat.cast_add, sum_div_difference]
    push_cast
    rfl
  have hlog : Real.log ((m : ℝ) / 2 ^ q) = Real.log (m / 2 ^ e) + k * Real.log 2 := by
    rw [← Real.log_pow, ← Real.log_mul (by positivity) (by positivity), he, pow_add]
    congr 1
    field_simp
  rw [hratio] at hlo1 hhi1
  rw [hlog, lnAboveFix]
  have hk₁ := mul_le_mul_of_nonneg_left hlo2 (Nat.cast_nonneg (α := ℝ) k)
  have hk₂ := mul_le_mul_of_nonneg_left hhi2 (Nat.cast_nonneg (α := ℝ) k)
  push_cast at hlo1 hhi1 ⊢
  constructor <;> linarith

/-- A quotient of two numbers that are each a little low, in units of 1/P. -/
theorem abs_lowQuotient_sub_le {P a T L D e₁ e₂ c : ℝ} (hP : 0 < P) (hT : 0 < T) (ha : 0 ≤ a) (hac : a ≤ c * T)
    (hD : P ≤ D) (he₁ : 0 ≤ e₁) (he₂ : 0 ≤ e₂) (hLlo : P * a - e₁ ≤ L) (hLhi : L ≤ P * a) (hDlo : P * T - e₂ ≤ D)
    (hDhi : D ≤ P * T) : |L / D - a / T| ≤ (e₁ + c * e₂) / P := by
  have hD0 : 0 < D := hP.trans_le hD
  have hc : 0 ≤ c := nonneg_of_mul_nonneg_left (ha.trans hac) hT
  have hdiff : L / D - a / T = (L * T - a * D) / (D * T) := by field_simp
  have hupper : L * T - a * D ≤ c * e₂ * T := by nlinarith
  have hlower : -(e₁ * T) ≤ L * T - a * D := by nlinarith
  have hnum : |L * T - a * D| ≤ (e₁ + c * e₂) * T := by
    rw [abs_le]
    constructor <;> nlinarith [mul_nonneg he₁ hT.le, mul_nonneg (mul_nonneg hc he₂) hT.le]
  rw [hdiff, abs_div, abs_of_pos (mul_pos hD0 hT)]
  calc |L * T - a * D| / (D * T) ≤ (e₁ + c * e₂) * T / (D * T) := by gcongr
    _ = (e₁ + c * e₂) / D := by field_simp
    _ ≤ (e₁ + c * e₂) / P := by gcongr

/-- The error of LOG10: of the logarithm, for up to 1074 doublings, and of ln 10. -/
theorem abs_log10Quotient_sub_le {L k : ℕ} {a : ℝ} (ha : 0 ≤ a) (hac : a ≤ 1074 * Real.log 10) (hk : k ≤ 1074)
    (hlo : 2 ^ Config.precision * a - logError Config.precision * (k + 1) ≤ L)
    (hhi : (L : ℝ) ≤ 2 ^ Config.precision * a) :
    |(L : ℝ) / ln10Fix Config.precision - a / Real.log 10| ≤ 1 / 2 ^ 201 := by
  have hten : Real.log 8 ≤ Real.log 10 := Real.log_le_log (by norm_num) (by norm_num)
  have height : Real.log 8 = 3 * Real.log 2 := by
    rw [show (8 : ℝ) = 2 ^ 3 by norm_num, Real.log_pow]
    norm_num
  have htwo := Real.log_two_gt_d9
  have hk' : (k : ℝ) ≤ 1074 := by exact_mod_cast hk
  obtain ⟨hDlo, hDhi⟩ := ln10Fix_bounds Config.precision
  rw [logError_precision] at hlo hDlo
  have hprecision : (2 : ℝ) ^ Config.precision = 2 ^ 256 := rfl
  rw [hprecision, Nat.cast_ofNat] at hlo hDlo
  rw [hprecision] at hhi hDhi
  have hlarge : (2 : ℝ) ^ 256 * 2 ≤ 2 ^ 256 * Real.log 10 :=
    mul_le_mul_of_nonneg_left (by linarith) (by positivity)
  have hD : (2 : ℝ) ^ 256 ≤ ln10Fix Config.precision := by linarith
  have he₁ : (0 : ℝ) ≤ 770 * (k + 1) := mul_nonneg (by norm_num) (Nat.cast_add_one_pos k).le
  have hT : 0 < Real.log 10 := by linarith
  have hP : (0 : ℝ) < 2 ^ 256 := by positivity
  refine (abs_lowQuotient_sub_le (c := 1074) hP hT ha hac hD he₁ (by norm_num) hlo hhi hDlo
    hDhi).trans ?_
  rw [div_le_div_iff₀ (by positivity) (by positivity)]
  linarith

theorem log_div_two_pow {m : ℕ} (hm : 0 < m) (q : ℕ) :
    Real.log ((m : ℝ) / 2 ^ q) = Real.log m - q * Real.log 2 := by
  have hm' : (m : ℝ) ≠ 0 := by exact_mod_cast hm.ne'
  rw [Real.log_div hm' (by positivity), Real.log_pow]

theorem neg_log_div_le {m : ℕ} (hm : 0 < m) (q : ℕ) : -Real.log ((m : ℝ) / 2 ^ q) ≤ q * Real.log 10 := by
  have hlog := Real.log_natCast_nonneg m
  have hten : q * Real.log 2 ≤ q * Real.log 10 :=
    mul_le_mul_of_nonneg_left (Real.log_le_log two_pos (by norm_num)) (Nat.cast_nonneg q)
  rw [log_div_two_pow hm]
  linarith

theorem log_div_le {m q k : ℕ} (hm : 0 < m) (hhi : m ≤ 2 ^ (q + k)) :
    Real.log ((m : ℝ) / 2 ^ q) ≤ k * Real.log 10 := by
  have hm' : (0 : ℝ) < m := by exact_mod_cast hm
  have hlog : Real.log m ≤ (q + k : ℕ) * Real.log 2 := by
    rw [← Real.log_pow]
    exact Real.log_le_log hm' (by exact_mod_cast hhi)
  have hten : k * Real.log 2 ≤ k * Real.log 10 :=
    mul_le_mul_of_nonneg_left (Real.log_le_log two_pos (by norm_num)) (Nat.cast_nonneg k)
  rw [log_div_two_pow hm]
  push_cast at hlog
  linarith

/-- What LOG10 rounds at z: the fixed-point quotient `L`/ln 10, near the magnitude `a` of the logarithm, with its sign. -/
structure Log10Quotient (z : F64) (neg : Bool) (L : ℕ) (a : ℝ) : Prop where
  nonneg : 0 ≤ a
  le : a ≤ 1074
  near : |(L : ℝ) / ln10Fix Config.precision - a| ≤ 1 / 2 ^ 201
  log : Real.logb 10 ((fInt z : ℝ) / 2 ^ 1074) = withSign neg a
  sign : neg = decide (fMag z < unitsPerOne)
  rounds : fLog10 z = fRound neg (L * unitsPerOne) (ln10Fix Config.precision)

theorem fLog10_of_pos {z : F64} (hz : fIsFinite z = true) (hpos : 0 < fInt z) :
    fLog10 z =
      if (fMag z).log2 < 1074 then
        fRound true ((lnBelowFix Config.precision (fMag z) (fMag z).log2
          + (1073 - (fMag z).log2) * ln2Fix Config.precision) * unitsPerOne) (ln10Fix Config.precision)
      else
        fRound false ((lnAboveFix Config.precision (fMag z) (fMag z).log2
          + ((fMag z).log2 - 1074) * ln2Fix Config.precision) * unitsPerOne) (ln10Fix Config.precision) := by
  have hm : fMag z ≠ 0 := by
    rw [← natAbs_fInt]
    omega
  simp only [fLog10, fIsNaN_of_finite hz, fIsInf_of_finite hz, fSign_of_fInt_pos hpos, hm, Bool.or_false, decide_false,
    Bool.false_eq_true, if_false]

theorem fInt_eq_fMag_of_pos {z : F64} (hpos : 0 < fInt z) : fInt z = (fMag z : Int) := by
  rw [fInt, if_neg (by rw [fSign_of_fInt_pos hpos]; exact Bool.false_ne_true)]

theorem log10Quotient_of_log {z : F64} {neg : Bool} {L k : ℕ} {a : ℝ} (ha : 0 ≤ a) (hac : a ≤ 1074 * Real.log 10)
    (hk : k ≤ 1074) (hlo : 2 ^ Config.precision * a - logError Config.precision * (k + 1) ≤ L)
    (hhi : (L : ℝ) ≤ 2 ^ Config.precision * a) (hlog : Real.log ((fInt z : ℝ) / 2 ^ 1074) = withSign neg a)
    (hsign : neg = decide (fMag z < unitsPerOne))
    (hrounds : fLog10 z = fRound neg (L * unitsPerOne) (ln10Fix Config.precision)) :
    Log10Quotient z neg L (a / Real.log 10) where
  nonneg := div_nonneg ha (Real.log_nonneg (by norm_num))
  le := div_le_of_le_mul₀ (Real.log_nonneg (by norm_num)) (by norm_num) hac
  near := abs_log10Quotient_sub_le ha hac hk hlo hhi
  log := by rw [Real.logb, hlog, div_eq_mul_inv, div_eq_mul_inv, withSign_mul]
  sign := hsign
  rounds := hrounds

/-- Both parts of the fixed-point logarithm have one sign, below 1 and from 1 on. -/
theorem exists_log10Quotient {z : F64} (hz : fIsFinite z = true) (hpos : 0 < fInt z) :
    ∃ neg L a, Log10Quotient z neg L a := by
  have hrounds := fLog10_of_pos hz hpos
  have hint := fInt_eq_fMag_of_pos hpos
  have hmag : 0 < fMag z := by omega
  have hcast : (fInt z : ℝ) = (fMag z : ℝ) := by rw [hint, Int.cast_natCast]
  have hlo := Nat.log2_self_le hmag.ne'
  have hhi : fMag z < 2 ^ ((fMag z).log2 + 1) := Nat.lt_log2_self
  have hsign : (fMag z).log2 < 1074 ↔ fMag z < unitsPerOne := by rw [Nat.log2_lt hmag.ne', unitsPerOne_eq]
  have hpow : (0 : ℝ) < 2 ^ 1074 := pow_pos two_pos 1074
  by_cases hbelow : (fMag z).log2 < 1074
  · rw [if_pos hbelow] at hrounds
    obtain ⟨hLlo, hLhi⟩ := lnBelow_bounds Config.precision (q := 1074) hlo hhi
      (k := 1073 - (fMag z).log2) (by omega)
    have hle : (fMag z : ℝ) / 2 ^ 1074 ≤ 1 := by
      rw [← unitsPerOne_cast]
      exact natCast_div_le_one (hsign.mp hbelow)
    have hnonpos := Real.log_nonpos (div_nonneg (Nat.cast_nonneg _) hpow.le) hle
    refine ⟨true, _, _, log10Quotient_of_log (neg_nonneg.mpr hnonpos) ?_ (by omega) hLlo hLhi ?_ ?_ hrounds⟩
    · exact neg_log_div_le hmag 1074
    · rw [hcast, withSign, if_pos rfl, neg_neg]
    · exact (decide_eq_true (hsign.mp hbelow)).symm
  · rw [if_neg hbelow] at hrounds
    have htop : (fMag z).log2 < 2098 := (Nat.log2_lt hmag.ne').mpr (fMag_lt_of_finite hz)
    obtain ⟨hLlo, hLhi⟩ := lnAbove_bounds Config.precision (q := 1074) hlo hhi
      (k := (fMag z).log2 - 1074) (by omega)
    have hge : 1 ≤ (fMag z : ℝ) / 2 ^ 1074 := by
      rw [← unitsPerOne_cast, one_le_div (by exact_mod_cast unitsPerOne_pos)]
      exact Nat.cast_le.mpr (not_lt.mp (hsign.not.mp hbelow))
    have hmagLe : fMag z ≤ 2 ^ (1074 + 1074) :=
      (fMag_lt_of_finite hz).le.trans (Nat.pow_le_pow_right two_pos (by norm_num))
    refine ⟨false, _, _, log10Quotient_of_log (Real.log_nonneg hge) ?_ (by omega) hLlo hLhi ?_ ?_ hrounds⟩
    · exact log_div_le hmag hmagLe
    · rw [hcast, withSign, if_neg Bool.false_ne_true]
    · exact (decide_eq_false (hsign.not.mp hbelow)).symm

theorem ln10Fix_precision_pos : 0 < ln10Fix Config.precision := by decide +kernel

/-- No finite value is nearer to log10 z than LOG10(z), up to the error of the logarithms. -/
theorem abs_fLog10_sub_le {z y : F64} (hz : fIsFinite z = true) (hpos : 0 < fInt z) (hy : fIsFinite y = true) :
    |(fInt (fLog10 z) : ℝ) / 2 ^ 1074 - Real.logb 10 ((fInt z : ℝ) / 2 ^ 1074)| ≤
      |(fInt y : ℝ) / 2 ^ 1074 - Real.logb 10 ((fInt z : ℝ) / 2 ^ 1074)| + 1 / 2 ^ 200 := by
  obtain ⟨neg, L, a, h⟩ := exists_log10Quotient hz hpos
  have hu : (0 : ℝ) < unitsPerOne := by exact_mod_cast unitsPerOne_pos
  have hquotient : ((L * unitsPerOne : ℕ) : ℝ) / (ln10Fix Config.precision * unitsPerOne) =
      L / ln10Fix Config.precision := by
    rw [Nat.cast_mul, mul_div_mul_right _ _ hu.ne']
  have hnear := abs_fRound_div_sub_le (n := L * unitsPerOne) ln10Fix_precision_pos neg hy hu (hquotient.symm ▸ h.near)
  rw [h.log, h.rounds, ← unitsPerOne_cast]
  refine hnear.trans (add_le_add_right ?_ _)
  norm_num

/-- Settles O36: the errors of the series, and one rounding that is to nearest. -/
theorem exp2SeriesApproximatesThePower : Obligations.Exp2SeriesApproximatesThePower := by
  refine ⟨fun r hr => ?_, fun x y hx hlt hy => ?_, fun z y hz hpos hy => abs_fLog10_sub_le hz hpos hy⟩
  · rw [← unitsPerOne_eq] at hr
    rw [← unitsPerOne_cast]
    exact abs_exp2FracFix_sub_le hr
  · have hunits : (2 : Int) ^ 1074 = (unitsPerOne : Int) := by rw [unitsPerOne_eq, Nat.cast_pow, Nat.cast_ofNat]
    rw [hunits] at hlt
    rw [← unitsPerOne_cast]
    exact abs_fExp2_sub_le hx hlt hy

end Sys2Proof.Machine
end

section
/-! The LFO's shapes: the concave transform and the render (spec 44_lfo.md R303 to R310; 40_generator_base.md R145). -/

namespace Sys2Proof.Machine

open Sys2Proof

/-! ### LOG10 on (0, 1] -/

theorem Log10Quotient.withinNat {z : F64} {neg : Bool} {L : ℕ} {a : ℝ} (h : Log10Quotient z neg L a) :
    WithinNat 1075 (fLog10 z) := by
  have hD : (0 : ℝ) < ln10Fix Config.precision := by exact_mod_cast ln10Fix_precision_pos
  obtain ⟨-, hupper⟩ := abs_le.mp h.near
  have hle : (L : ℝ) / ln10Fix Config.precision ≤ 1075 := by
    have hsmall : (1 : ℝ) / 2 ^ 201 ≤ 1 := by norm_num
    have ha := h.le
    linarith
  rw [div_le_iff₀ hD] at hle
  have hnat : L ≤ 1075 * ln10Fix Config.precision := by exact_mod_cast hle
  rw [h.rounds]
  refine withinNat_fRound neg (by norm_num) ln10Fix_precision_pos ?_
  calc L * unitsPerOne ≤ 1075 * ln10Fix Config.precision * unitsPerOne := Nat.mul_le_mul_right _ hnat
    _ = 1075 * unitsPerOne * ln10Fix Config.precision := by ring

/-- 1 - x is positive and at most 1. -/
theorem between_fOne_sub {x : F64} (hx : UnitPhase x) : Between 1#64 fOne (fSub fOne x) := by
  obtain ⟨hfin, -, hlo, hhi⟩ := fInt_of_unitPhase hx
  have hone : fInt (1#64) = 1 := by decide
  have hfOne := fInt_fOne
  exact between_fSub (by decide) (by decide) (by decide) hfin (by omega) (by omega)

theorem eq_fOne_of_fInt {y : F64} (hy : fIsFinite y = true) (h : fInt y = unitsPerOne) : y = fOne := by
  have hpos : 0 < fInt y := h ▸ intUnitsPerOne_pos
  have hmag : fMag y = fMag fOne := by
    have hint := fInt_eq_fMag_of_pos hpos
    rw [fMag_fOne]
    omega
  rw [← fRound_self hy, fSign_of_fInt_pos hpos, hmag]
  exact fRound_self (x := fOne) (by decide)

theorem fLog10_fOne : fLog10 fOne = fZero := by decide +kernel

/-! ### The concave transform (R145) -/

theorem withinNat_concaveK : WithinNat 1 Config.concaveK := withinNat_one_of_unitPhase (by decide)

/-- The scaled logarithm of a value in (0, 1] is a number that is not positive. -/
theorem concaveProduct_nonpos {y : F64} (hy : Between 1#64 fOne y) :
    fIsFinite (fMul Config.concaveK (fLog10 y)) = true ∧ fInt (fMul Config.concaveK (fLog10 y)) ≤ 0 := by
  obtain ⟨hfin, hlo, hhi⟩ := hy
  rw [fInt_fOne] at hhi
  have hone : fInt (1#64) = 1 := by decide
  have hpos : 0 < fInt y := by omega
  rcases lt_or_eq_of_le hhi with hlt | heq
  · obtain ⟨neg, L, a, h⟩ := exists_log10Quotient hfin hpos
    have hneg : neg = true := by
      rw [h.sign, decide_eq_true_eq]
      have hint := fInt_eq_fMag_of_pos hpos
      omega
    obtain ⟨hvfin, -⟩ := withinNat_fMul (k := 1075) withinNat_concaveK h.withinNat (by norm_num) (by norm_num)
    refine ⟨hvfin, ?_⟩
    have hsign : fSign Config.concaveK = false := by decide
    rw [fMul_finite withinNat_concaveK.1 h.withinNat.1, fInt_fRound, h.rounds, fSign_fRound, hneg, hsign, signedNat,
      if_pos (by decide)]
    omega
  · have hzero : WithinNat 1 fZero := withinNat_one_of_unitPhase (by decide)
    rw [eq_fOne_of_fInt hfin heq, fLog10_fOne]
    refine ⟨(withinNat_fMul (k := 1) withinNat_concaveK hzero le_rfl (by norm_num)).1, ?_⟩
    rw [fInt_fMul withinNat_concaveK.1 hzero.1, fInt_fZero, mul_zero, roundedInt, Int.natAbs_zero, fInt_fRound_zero]

theorem concave_mem_unit {x : F64} (hx : UnitPhase x) : Between fZero fOne (concave x) := by
  obtain ⟨hfin, hnonpos⟩ := concaveProduct_nonpos (between_fOne_sub hx)
  unfold concave
  dsimp only
  generalize fMul Config.concaveK (fLog10 (fSub fOne x)) = v at hfin hnonpos ⊢
  have hunits := intUnitsPerOne_pos
  split
  next => exact ⟨by decide, by rw [fInt_fZero, fInt_fOne]; omega, le_rfl⟩
  next hgt =>
    rw [fLe_finite hfin (by decide), decide_eq_true_eq, not_le, fInt_fMinusOne] at hgt
    have hzero := fInt_fZero
    have hone := fInt_fOne
    exact between_fSub (by decide) (by decide) (by decide) hfin (by omega) (by omega)

/-- The binary64 just below 2.4. -/
def fTwoPointFour : F64 := 0x4003333333333333#64

theorem fMag_fTwoPointFour : 2 ^ 51 * fMag fTwoPointFour = 5404319552844595 * unitsPerOne :=
  two_pow_mul_fMag (e := 1023) (c := 0) (by decide) (by decide) rfl

theorem fMag_concaveK : 2 ^ 54 * fMag Config.concaveK = 7505999378950827 * unitsPerOne :=
  two_pow_mul_fMag (e := 1020) (c := 0) (by decide) (by decide) rfl

/-- K × 2.4, both rounded, is still at least 1. -/
theorem one_le_concaveK_mul : fMag fOne * unitsPerOne ≤ fMag Config.concaveK * fMag fTwoPointFour := by
  refine Nat.le_of_mul_le_mul_left ?_ (show 0 < 2 ^ 54 * 2 ^ 51 by positivity)
  calc 2 ^ 54 * 2 ^ 51 * (fMag fOne * unitsPerOne) = 2 ^ 54 * 2 ^ 51 * (unitsPerOne * unitsPerOne) := by rw [fMag_fOne]
    _ ≤ 7505999378950827 * 5404319552844595 * (unitsPerOne * unitsPerOne) := Nat.mul_le_mul_right _ (by norm_num)
    _ = 7505999378950827 * unitsPerOne * (5404319552844595 * unitsPerOne) := by ring
    _ = 2 ^ 54 * 2 ^ 51 * (fMag Config.concaveK * fMag fTwoPointFour) := by
        rw [← fMag_concaveK, ← fMag_fTwoPointFour]
        ring

/-- A real of which the fifth power is at most 10^-12 has a logarithm of at most -2.4. -/
theorem logb_le_of_pow_le {z : ℝ} (hz : 0 < z) (h : z ^ 5 * 10 ^ 12 ≤ 1) : Real.logb 10 z ≤ -(12 / 5) := by
  have hten : 0 < Real.log 10 := Real.log_pos (by norm_num)
  have hlog := Real.log_nonpos (by positivity) h
  rw [Real.log_mul (by positivity) (by positivity), Real.log_pow, Real.log_pow] at hlog
  push_cast at hlog
  rw [Real.logb, div_le_iff₀ hten]
  linarith

theorem pow_div_le_one {v : Int} {u : ℕ} (hu : 0 < u) (h : v ^ 5 * 10 ^ 12 ≤ (u : Int) ^ 5) :
    ((v : ℝ) / u) ^ 5 * 10 ^ 12 ≤ 1 := by
  have hu' : (0 : ℝ) < u := by exact_mod_cast hu
  rw [div_pow, div_mul_eq_mul_div, div_le_one (by positivity)]
  exact_mod_cast h

/-- There LOG10 is at least 2.4 in magnitude, up to what its rounding and the last bit of 2.4 take off. -/
theorem Log10Quotient.le_fMag {z : F64} {neg : Bool} {L : ℕ} {a : ℝ} (h : Log10Quotient z neg L a) (ha : 12 / 5 ≤ a) :
    fMag fTwoPointFour ≤ fMag (fLog10 z) := by
  have hD : (0 : ℝ) < ln10Fix Config.precision := by exact_mod_cast ln10Fix_precision_pos
  obtain ⟨hlower, -⟩ := abs_le.mp h.near
  have hge : (5404319552844595 : ℝ) / 2 ^ 51 ≤ L / ln10Fix Config.precision := by
    have hgap : (5404319552844595 : ℝ) / 2 ^ 51 ≤ 12 / 5 - 1 / 2 ^ 201 := by norm_num
    linarith
  rw [div_le_div_iff₀ (by positivity) hD] at hge
  have hnat : 5404319552844595 * ln10Fix Config.precision ≤ L * 2 ^ 51 := by exact_mod_cast hge
  have hquotient : fMag fTwoPointFour * ln10Fix Config.precision ≤ L * unitsPerOne := by
    refine Nat.le_of_mul_le_mul_left ?_ (show 0 < 2 ^ 51 by positivity)
    calc 2 ^ 51 * (fMag fTwoPointFour * ln10Fix Config.precision)
        = 5404319552844595 * ln10Fix Config.precision * unitsPerOne := by
          rw [← mul_assoc, fMag_fTwoPointFour]
          ring
      _ ≤ L * 2 ^ 51 * unitsPerOne := Nat.mul_le_mul_right _ hnat
      _ = 2 ^ 51 * (L * unitsPerOne) := by ring
  have hfin := h.withinNat.1
  rw [h.rounds] at hfin ⊢
  exact fMag_le_fRound (by decide) neg _ _ ln10Fix_precision_pos hquotient hfin

theorem concave_eq_fOne {x : F64} (hx : UnitPhase x)
    (h : fInt (fSub fOne x) ^ 5 * 10 ^ 12 ≤ (unitsPerOne : Int) ^ 5) : concave x = fOne := by
  have hbetween := between_fOne_sub hx
  have ⟨hfin, hlo, _⟩ := hbetween
  have hone : fInt (1#64) = 1 := by decide
  have hpos : 0 < fInt (fSub fOne x) := by omega
  obtain ⟨hvfin, hnonpos⟩ := concaveProduct_nonpos hbetween
  obtain ⟨neg, L, a, hlog⟩ := exists_log10Quotient hfin hpos
  have ha : 12 / 5 ≤ a := by
    have hu : (0 : ℝ) < unitsPerOne := by exact_mod_cast unitsPerOne_pos
    have hpow : ((fInt (fSub fOne x) : ℝ) / 2 ^ 1074) ^ 5 * 10 ^ 12 ≤ 1 := by
      rw [← unitsPerOne_cast]
      exact pow_div_le_one unitsPerOne_pos h
    have hle := logb_le_of_pow_le (div_pos (by exact_mod_cast hpos) (unitsPerOne_cast ▸ hu)) hpow
    rw [hlog.log] at hle
    have hnonneg := hlog.nonneg
    cases neg with
    | false => rw [withSign, if_neg Bool.false_ne_true] at hle; linarith
    | true => rw [withSign, if_pos rfl] at hle; linarith
  have hmag : fMag fOne ≤ fMag (fMul Config.concaveK (fLog10 (fSub fOne x))) := by
    have hproduct := one_le_concaveK_mul.trans (Nat.mul_le_mul_left _ (hlog.le_fMag ha))
    rw [fMul_finite withinNat_concaveK.1 hlog.withinNat.1] at hvfin ⊢
    exact fMag_le_fRound (by decide) _ _ _ unitsPerOne_pos hproduct hvfin
  have hle : fLe (fMul Config.concaveK (fLog10 (fSub fOne x))) fMinusOne = true := by
    rw [fLe_finite hvfin (by decide), decide_eq_true_eq, fInt_fMinusOne]
    rw [fMag_fOne, ← natAbs_fInt] at hmag
    omega
  unfold concave
  dsimp only
  rw [if_pos hle]

/-! ### The render (R303) -/

/-- The writes of a shape render and its response, register by register. -/
theorem respond_shapeWrites (s : State) (wrapped : Bool) (phase o a : F64) :
    ((((s.setWrap false).setPhase phase wrapped).setOutputs o a).respond 0#64) =
      { s with phase := phase, wrapPending := wrapped, out := o, aux := a, rdata := 0#64 } := by
  cases s
  rfl

theorem advancePhase_setWrap (s : State) :
    advancePhase (s.setWrap false) = (s.setWrap false).setPhase
      (if fLe 0#64 (fAdd s.phase s.increment) && fLt (fAdd s.phase s.increment) fOne then
        fAdd s.phase s.increment else wrap01 (fAdd s.phase s.increment))
      (!(fLe 0#64 (fAdd s.phase s.increment) && fLt (fAdd s.phase s.increment) fOne)) :=
  advancePhase_eq _

theorem ne_whiteNoise_of_waveformLegal_lfo (w : Waveform) : waveformLegal .lfo w = true → w ≠ .whiteNoise := by
  cases w <;> decide

/-- Settles O49: the transform from the error of LOG10, the render by the waveform and the run mode. -/
theorem lfoOscRendersShapes : Obligations.LfoOscRendersShapes := by
  refine ⟨fun x => rfl, fun x hx => ?_, fun x hx h => ?_, by decide +kernel, by decide +kernel, by decide +kernel,
    by decide +kernel, ?_⟩
  · have hbetween := concave_mem_unit hx
    obtain ⟨hfin, hlo, hhi⟩ := hbetween
    refine ⟨withinMagnitude_of_between ⟨hfin, ?_, hhi⟩, ?_⟩
    · exact le_trans (by decide +kernel) hlo
    · rw [fLe_finite (by decide) hfin]
      exact decide_eq_true hlo
  · have hunits : (2 : Int) ^ 1074 = (unitsPerOne : Int) := by rw [unitsPerOne_eq, Nat.cast_pow, Nat.cast_ofNat]
    rw [hunits] at h
    exact concave_eq_fOne hx h
  · intro s hkind hon hlegal hnoise hpn hrun shot shape q inside
    rw [State.WaveformOk, hkind] at hlegal
    have hshape (x : F64) : lfoShape s x = shape x := by
      have hwhite := ne_whiteNoise_of_waveformLegal_lfo _ hlegal
      have hmode : shot = decide (s.runMode = .shot) := rfl
      cases hw : s.waveform with
      | sine => simp only [shape, lfoShape, hw]; rfl
      | sawUp => cases hm : s.runMode <;> simp [shape, lfoShape, hw, hm, hmode, sawUpShape, toBipolar]
      | sawDown => cases hm : s.runMode <;> simp [shape, lfoShape, hw, hm, hmode, sawDownShape]
      | triangle =>
        cases hm : s.runMode <;>
          simp [shape, lfoShape, hw, hm, hmode, triangleShape, bipolarTriangle, toBipolar, toUnipolar]
      | square => simp only [shape, lfoShape, hw]; rfl
      | expo => simp only [shape, lfoShape, hw]
      | whiteNoise => exact absurd hw hwhite
      | heldNoise => exact absurd hw hnoise
      | heldPn => exact absurd hw hpn
    have hheld : ¬ (s.waveform = .heldNoise ∨ s.waveform = .heldPn) := not_or.mpr ⟨hnoise, hpn⟩
    rw [exec_osc_of_lfo hkind hon, lfoOsc_of_shape (not_completing hrun) hheld, advancePhase_setWrap,
      respond_shapeWrites, hshape, hshape]
    rfl

end Sys2Proof.Machine
end

section
/-! The fixed-point sums of the bank against the real Fourier sums (spec 42_wavetable.md R234; notes/assumptions/5.md): the
recurrence x(n+2) = 2c·x(n+1) - x(n) turns the error of each step without making it longer, so that the errors of n steps
add up to a multiple of n². -/

namespace Sys2Proof.Machine

open Sys2Proof

/-! ### Residuals of the recurrence -/

/-- The residual of the recurrence at one step. -/
def residual (c : ℝ) (e : ℕ → ℝ) (j : ℕ) : ℝ := e (j + 2) - 2 * c * e (j + 1) + e j

/-- With z on the unit circle and c its real part, e(n+1) - z·e(n) is turned by the conjugate of z from step to step. -/
theorem norm_sub_mul_le {e : ℕ → ℝ} {z : ℂ} (hz : ‖z‖ = 1) {F : ℝ} {n : ℕ} (h : ∀ j < n, |residual z.re e j| ≤ F) :
    ‖(e (n + 1) : ℂ) - z * e n‖ ≤ |e 1| + |e 0| + n * F := by
  induction n with
  | zero =>
    calc ‖(e 1 : ℂ) - z * e 0‖ ≤ ‖(e 1 : ℂ)‖ + ‖z * e 0‖ := norm_sub_le ..
      _ = |e 1| + |e 0| + (0 : ℕ) * F := by simp [hz]
  | succ n ih =>
    have hunit : (starRingEnd ℂ) z * z = 1 := by
      rw [← Complex.normSq_eq_conj_mul_self, Complex.normSq_eq_norm_sq, hz]
      norm_num
    have htwo : (2 * z.re : ℂ) = z + (starRingEnd ℂ) z := by rw [Complex.add_conj]; push_cast; rfl
    have hstep : (e (n + 2) : ℂ) - z * e (n + 1) =
        (starRingEnd ℂ) z * ((e (n + 1) : ℂ) - z * e n) + (residual z.re e n : ℂ) := by
      rw [residual]
      push_cast
      rw [htwo]
      linear_combination (e n : ℂ) * hunit
    calc ‖(e (n + 2) : ℂ) - z * e (n + 1)‖
        ≤ ‖(starRingEnd ℂ) z * ((e (n + 1) : ℂ) - z * e n)‖ + ‖(residual z.re e n : ℂ)‖ := by
          rw [hstep]; exact norm_add_le ..
      _ = ‖(e (n + 1) : ℂ) - z * e n‖ + |residual z.re e n| := by
          rw [norm_mul, RCLike.norm_conj, hz, one_mul, Complex.norm_real, Real.norm_eq_abs]
      _ ≤ (|e 1| + |e 0| + n * F) + F := add_le_add (ih fun j hj => h j (by omega)) (h n (by omega))
      _ = |e 1| + |e 0| + (n + 1 : ℕ) * F := by push_cast; ring

/-- What n residuals of at most F can add up to. -/
theorem abs_le_of_residual_le {e : ℕ → ℝ} {z : ℂ} (hz : ‖z‖ = 1) {F : ℝ} (hF : 0 ≤ F) {n : ℕ}
    (h : ∀ j < n, |residual z.re e j| ≤ F) {k : ℕ} (hk : k ≤ n + 1) :
    |e k| ≤ |e 0| + k * (|e 1| + |e 0| + n * F) := by
  induction k with
  | zero => simp
  | succ k ih =>
    have hturn := norm_sub_mul_le hz (n := k) fun j hj => h j (by omega)
    have hkn : (k : ℝ) * F ≤ n * F := mul_le_mul_of_nonneg_right (by exact_mod_cast (by omega : k ≤ n)) hF
    have hsplit : |e (k + 1)| ≤ ‖(e (k + 1) : ℂ) - z * e k‖ + |e k| := by
      calc |e (k + 1)| = ‖((e (k + 1) : ℂ) - z * e k) + z * e k‖ := by
            rw [sub_add_cancel, Complex.norm_real, Real.norm_eq_abs]
        _ ≤ ‖(e (k + 1) : ℂ) - z * e k‖ + ‖z * (e k : ℂ)‖ := norm_add_le ..
        _ = ‖(e (k + 1) : ℂ) - z * e k‖ + |e k| := by rw [norm_mul, hz, one_mul, Complex.norm_real, Real.norm_eq_abs]
    have ih := ih (by omega)
    push_cast
    linarith

/-! ### The recurrence in fixed point -/

/-- What one step of `turnNext` is off the recurrence for c, for a κ within E units of 2 - 2c: the error of κ on a value
of at most 2, and what the product truncates. -/
theorem abs_turnNext_sub_le {p κ u u1 : ℕ} {c E : ℝ} (hE : 2 * E + 1 ≤ 2 ^ p / 4)
    (hκ : |(κ : ℝ) - 2 ^ p * (2 - 2 * c)| ≤ E) (hu : |(u : ℝ) - 2 * 2 ^ p| ≤ 2 * 2 ^ p)
    (hnext : -(3 / 2 * 2 ^ p) ≤ 2 * c * (u - 2 * 2 ^ p) - ((u1 : ℝ) - 2 * 2 ^ p)) :
    |((turnNext p κ u u1 : ℕ) : ℝ) - 2 * 2 ^ p - 2 * c * (u - 2 * 2 ^ p) + ((u1 : ℝ) - 2 * 2 ^ p)| ≤ 2 * E + 1 := by
  have hP : (0 : ℝ) < 2 ^ p := by positivity
  have hcast : ((2 ^ p : ℕ) : ℝ) = 2 ^ p := by push_cast; rfl
  have hdown := natCast_div_le_of_le (t := κ * u) (d := 2 ^ p) (by positivity) le_rfl
  have hup := div_le_natCast_div_add_one (t := κ * u) (d := 2 ^ p) (x := ((κ * u : ℕ) : ℝ)) (by positivity)
    (le_add_of_nonneg_right zero_le_one)
  rw [hcast] at hdown hup
  generalize hq : κ * u / 2 ^ p = q at hdown hup
  obtain ⟨y, hy⟩ : ∃ y : ℝ, y = ((u : ℝ) - 2 * 2 ^ p) / 2 ^ p := ⟨_, rfl⟩
  have hyu : (u : ℝ) = 2 * 2 ^ p + 2 ^ p * y := by rw [hy]; field_simp; ring
  have hy2 : |y| ≤ 2 := by
    rw [hy, abs_div, abs_of_pos hP, div_le_iff₀ hP]
    exact hu
  have hproduct : ((κ * u : ℕ) : ℝ) / 2 ^ p = 2 * κ + κ * y := by
    push_cast
    rw [hyu]
    field_simp
  have hκy : |(κ : ℝ) * y - 2 ^ p * (2 - 2 * c) * y| ≤ 2 * E := by
    rw [← sub_mul, abs_mul]
    calc |(κ : ℝ) - 2 ^ p * (2 - 2 * c)| * |y| ≤ E * 2 :=
          mul_le_mul hκ hy2 (abs_nonneg _) ((abs_nonneg _).trans hκ)
      _ = 2 * E := by ring
  rw [hproduct] at hdown hup
  rw [hyu] at hnext ⊢
  rw [abs_le] at hκy
  have hfits : u1 + q ≤ 2 * u + 2 * κ := by
    have hreal : (u1 : ℝ) + q ≤ 2 * u + 2 * κ := by
      rw [hyu]
      linarith
    exact_mod_cast hreal
  rw [turnNext, hq, Nat.cast_sub hfits]
  push_cast
  rw [hyu, abs_le]
  constructor <;> linarith

/-- The values of the recurrence, from two on. -/
def turnSeq (p κ a b : ℕ) : ℕ → ℕ
  | 0 => a
  | 1 => b
  | n + 2 => turnNext p κ (turnSeq p κ a b (n + 1)) (turnSeq p κ a b n)

/-- With κ = 0 and one value twice, it stays. -/
theorem turnSeq_const (p a n : ℕ) : turnSeq p 0 a a n = a ∧ turnSeq p 0 a a (n + 1) = a := by
  induction n with
  | zero => exact ⟨rfl, rfl⟩
  | succ n ih =>
    obtain ⟨hn, hn1⟩ := ih
    refine ⟨hn1, ?_⟩
    rw [turnSeq, hn, hn1, turnNext, Nat.zero_mul, Nat.zero_div]
    omega

/-- The error allowed after n steps, in units. -/
def turnError (n : ℕ) : ℝ := 1037 + n * (2074 + n * 4149)

theorem turnError_le_mul_sq {n : ℕ} (hn : 1 ≤ n) : turnError n ≤ 7260 * n ^ 2 := by
  have hn' : (1 : ℝ) ≤ n := by exact_mod_cast hn
  unfold turnError
  nlinarith

/-- A sequence of the exact recurrence, at most 1 in magnitude. -/
structure Turning (c : ℝ) (x : ℕ → ℝ) : Prop where
  abs_le : ∀ n, |x n| ≤ 1
  next : ∀ n, x (n + 2) = 2 * c * x (n + 1) - x n

/-- The fixed-point recurrence follows the exact one: c is the cosine of the step, and κ and the first two values are
within the errors of the fixed-point sines. -/
theorem abs_turnSeq_sub_le {p κ a b : ℕ} {z : ℂ} {x : ℕ → ℝ} (hp : 2 ^ 60 ≤ (2 : ℝ) ^ p) (hz : ‖z‖ = 1)
    (hx : Turning z.re x) (hκ : |(κ : ℝ) - 2 ^ p * (2 - 2 * z.re)| ≤ 2074)
    (h0 : |(a : ℝ) - 2 * 2 ^ p - 2 ^ p * x 0| ≤ 1037) (h1 : |(b : ℝ) - 2 * 2 ^ p - 2 ^ p * x 1| ≤ 1037) {n : ℕ}
    (hn : n ≤ 2 ^ 18) : |(turnSeq p κ a b n : ℝ) - 2 * 2 ^ p - 2 ^ p * x n| ≤ turnError n := by
  obtain ⟨e, he⟩ : ∃ e : ℕ → ℝ, ∀ k, e k = (turnSeq p κ a b k : ℝ) - 2 * 2 ^ p - 2 ^ p * x k := ⟨_, fun _ => rfl⟩
  have he0 : |e 0| ≤ 1037 := by rw [he]; exact h0
  have he1 : |e 1| ≤ 1037 := by rw [he]; exact h1
  have hbound {m k : ℕ} (h : ∀ j < m, |residual z.re e j| ≤ 4149) (hk : k ≤ m + 1) :
      |e k| ≤ 1037 + k * (2074 + m * 4149) := by
    have hle := abs_le_of_residual_le hz (by norm_num) h hk
    have hfirst : (k : ℝ) * (|e 1| + |e 0| + m * 4149) ≤ k * (2074 + m * 4149) :=
      mul_le_mul_of_nonneg_left (by linarith) (Nat.cast_nonneg k)
    linarith
  have hsmall {m k : ℕ} (h : ∀ j < m, |residual z.re e j| ≤ 4149) (hk : k ≤ m + 1) (hm : m ≤ 2 ^ 18) :
      |e k| ≤ 2 ^ 55 := by
    have hm' : (m : ℝ) ≤ 2 ^ 18 := by exact_mod_cast hm
    have hk' : (k : ℝ) ≤ 2 ^ 18 + 1 := by exact_mod_cast (by omega : k ≤ 2 ^ 18 + 1)
    have hk0 : (0 : ℝ) ≤ k := Nat.cast_nonneg k
    have hle := hbound h hk
    nlinarith
  have hc : |z.re| ≤ 1 := hz ▸ Complex.abs_re_le_norm z
  have hresidual (m : ℕ) (hm : m ≤ 2 ^ 18) : ∀ j < m, |residual z.re e j| ≤ 4149 := by
    induction m with
    | zero => exact fun j hj => absurd hj (by omega)
    | succ m ih =>
      have ih := ih (by omega)
      intro j hj
      rcases Nat.lt_succ_iff_lt_or_eq.mp hj with hlt | rfl
      · exact ih j hlt
      · have hej := hsmall ih (k := j) (by omega) (by omega)
        have hej1 := hsmall ih (k := j + 1) (by omega) (by omega)
        have hxj1 := hx.abs_le (j + 1)
        have hxj2 := hx.abs_le (j + 2)
        have hnext := hx.next j
        have hcross : |2 * z.re * e (j + 1)| ≤ 2 * 2 ^ 55 := by
          rw [abs_mul, abs_mul, abs_two]
          nlinarith [abs_nonneg z.re, abs_nonneg (e (j + 1))]
        have hu : |(turnSeq p κ a b (j + 1) : ℝ) - 2 * 2 ^ p| ≤ 2 * 2 ^ p := by
          rw [show (turnSeq p κ a b (j + 1) : ℝ) - 2 * 2 ^ p = e (j + 1) + 2 ^ p * x (j + 1) by rw [he]; ring]
          refine (abs_add_le _ _).trans ?_
          rw [abs_mul, abs_of_pos (show (0 : ℝ) < 2 ^ p by positivity)]
          nlinarith
        have hprediction : 2 * z.re * ((turnSeq p κ a b (j + 1) : ℝ) - 2 * 2 ^ p) -
            ((turnSeq p κ a b j : ℝ) - 2 * 2 ^ p) = 2 ^ p * x (j + 2) + 2 * z.re * e (j + 1) - e j := by
          rw [he, he, hnext]
          ring
        have hlower : -(3 / 2 * 2 ^ p) ≤ 2 * z.re * ((turnSeq p κ a b (j + 1) : ℝ) - 2 * 2 ^ p) -
            ((turnSeq p κ a b j : ℝ) - 2 * 2 ^ p) := by
          rw [hprediction]
          rw [abs_le] at hej hcross hxj2
          nlinarith
        have hstep := abs_turnNext_sub_le (E := 2074) (by linarith) hκ hu hlower
        have hsame : residual z.re e j =
            ((turnNext p κ (turnSeq p κ a b (j + 1)) (turnSeq p κ a b j) : ℕ) : ℝ) - 2 * 2 ^ p -
              2 * z.re * (turnSeq p κ a b (j + 1) - 2 * 2 ^ p) + ((turnSeq p κ a b j : ℝ) - 2 * 2 ^ p) := by
          rw [residual, he, he, he, hnext, turnSeq]
          ring
        rw [hsame]
        exact hstep.trans (by norm_num)
  rw [← he, turnError]
  exact hbound (hresidual n hn) (by omega)

/-! ### The two loops as sums -/

theorem sawTail_eq_sum (p κ a b n m h acc : ℕ) :
    sawTail p κ n h (turnSeq p κ a b (m + 1)) (turnSeq p κ a b m) acc =
      acc + ∑ i ∈ Finset.range n, turnSeq p κ a b (m + 1 + i) / (h + i) := by
  induction n generalizing m h acc with
  | zero => rfl
  | succ n ih =>
    rw [sawTail, force_eq, force_eq, force_eq]
    have hnext : turnNext p κ (turnSeq p κ a b (m + 1)) (turnSeq p κ a b m) = turnSeq p κ a b (m + 1 + 1) := rfl
    rw [hnext, ih (m + 1) (h + 1), Finset.sum_range_succ']
    have hshift (i : ℕ) : turnSeq p κ a b (m + 1 + 1 + i) / (h + 1 + i) =
        turnSeq p κ a b (m + 1 + (i + 1)) / (h + (i + 1)) := by
      rw [show m + 1 + 1 + i = m + 1 + (i + 1) by omega, show h + 1 + i = h + (i + 1) by omega]
    simp only [hshift, Nat.add_zero]
    omega

theorem triTail_eq_sum (p κ a b n m k acc : ℕ) :
    triTail p κ n k (turnSeq p κ a b (m + 1)) (turnSeq p κ a b m) acc =
      acc + ∑ i ∈ Finset.range n, turnSeq p κ a b (m + 1 + i) / ((k + 2 * i) * (k + 2 * i)) := by
  induction n generalizing m k acc with
  | zero => rfl
  | succ n ih =>
    rw [triTail, force_eq, force_eq, force_eq]
    have hnext : turnNext p κ (turnSeq p κ a b (m + 1)) (turnSeq p κ a b m) = turnSeq p κ a b (m + 1 + 1) := rfl
    rw [hnext, ih (m + 1) (k + 2), Finset.sum_range_succ']
    have hshift (i : ℕ) : turnSeq p κ a b (m + 1 + 1 + i) / ((k + 2 + 2 * i) * (k + 2 + 2 * i)) =
        turnSeq p κ a b (m + 1 + (i + 1)) / ((k + 2 * (i + 1)) * (k + 2 * (i + 1))) := by
      rw [show m + 1 + 1 + i = m + 1 + (i + 1) by omega, show k + 2 + 2 * i = k + 2 * (i + 1) by omega]
    simp only [hshift, Nat.mul_zero, Nat.add_zero]
    omega

/-- One term: the two quotients truncate by less than 1 each, in opposite directions. -/
theorem abs_term_sub_le {P : ℝ} {u o d : ℕ} {x e : ℝ} (hd : 0 < d) (ho : (o : ℝ) = 2 * P)
    (hu : |(u : ℝ) - 2 * P - P * x| ≤ e) (he : e ≤ 2 ^ 30 * d) :
    |((u / d : ℕ) : ℝ) - ((o / d : ℕ) : ℝ) - P * (x / d)| ≤ 2 ^ 31 := by
  have hd' : (0 : ℝ) < d := by exact_mod_cast hd
  have hudown := natCast_div_le_of_le (t := u) hd le_rfl
  have huup := div_le_natCast_div_add_one (t := u) hd (x := u) (by linarith)
  have hodown := natCast_div_le_of_le (t := o) hd le_rfl
  have houp := div_le_natCast_div_add_one (t := o) hd (x := o) (by linarith)
  have hdiff : |(u : ℝ) / d - (o : ℝ) / d - P * (x / d)| ≤ 2 ^ 30 := by
    rw [show (u : ℝ) / d - (o : ℝ) / d - P * (x / d) = (u - o - P * x) / d by ring, ho, abs_div, abs_of_pos hd',
      div_le_iff₀ hd']
    exact hu.trans he
  rw [abs_le] at hdiff ⊢
  constructor <;> linarith

/-- The sum of up to 2^17 terms. -/
theorem abs_sum_sub_le {P : ℝ} {N : ℕ} {u o d : ℕ → ℕ} {x : ℕ → ℝ} (hN : N ≤ 2 ^ 17)
    (h : ∀ i < N, |((u i / d i : ℕ) : ℝ) - ((o i / d i : ℕ) : ℝ) - P * (x i / d i)| ≤ 2 ^ 31) :
    |((∑ i ∈ Finset.range N, u i / d i : ℕ) : ℝ) - ((∑ i ∈ Finset.range N, o i / d i : ℕ) : ℝ) -
        P * ∑ i ∈ Finset.range N, x i / d i| ≤ 2 ^ 48 := by
  rw [Nat.cast_sum, Nat.cast_sum, Finset.mul_sum, ← Finset.sum_sub_distrib, ← Finset.sum_sub_distrib]
  have hN' : (N : ℝ) ≤ 2 ^ 17 := by exact_mod_cast hN
  refine (Finset.abs_sum_le_sum_abs _ _).trans ?_
  refine (Finset.sum_le_card_nsmul _ _ _ fun i hi => h i (Finset.mem_range.mp hi)).trans ?_
  rw [Finset.card_range, nsmul_eq_mul]
  linarith

end Sys2Proof.Machine
end

section
/-! The sums of the bank, saw and triangle, are within 2^-200 of the real Fourier sums (spec 42_wavetable.md R234). -/

namespace Sys2Proof.Machine

open Sys2Proof

/-! ### The starting values -/

theorem mul_withSign (neg : Bool) (c x : ℝ) : c * withSign neg x = withSign neg (c * x) := by
  rw [mul_comm, ← withSign_mul, mul_comm]

theorem abs_sineTurn_sub_le (i : ℕ) :
    |(sineTurn Config.precision Config.tableLen i : ℝ) - 2 ^ Config.precision * Real.sin (2 * Real.pi * i / 1024)| ≤
      1037 := by
  have hlen : Config.tableLen = 4 * 256 := rfl
  have hturnLen : ((4 * 256 : ℕ) : ℝ) = 1024 := by norm_num
  obtain ⟨m, hm, neg, hturn, hsin⟩ := exists_quarter_of_turn Config.precision (q := 256) (by norm_num) i
  have hnear := abs_quarterSineFix_sub_le precision_suffices (q := 256) (by norm_num) hm
  rw [sineError_precision, Nat.cast_ofNat] at hnear
  rw [hturnLen] at hsin hnear
  have hcast : (sineTurn Config.precision Config.tableLen i : ℝ) =
      withSign neg (quarterSineFix Config.precision (4 * 256) m) := by
    rw [hlen, hturn]
    cases neg <;> simp [withSign]
  rw [hcast, hsin, mul_withSign, abs_withSign_sub]
  exact hnear

theorem abs_cosineTurn_sub_le (i : ℕ) :
    |(cosineTurn Config.precision Config.tableLen i : ℝ) - 2 ^ Config.precision * Real.cos (2 * Real.pi * i / 1024)| ≤
      1037 := by
  have hsine := abs_sineTurn_sub_le (i + Config.tableLen / 4)
  have hangle : 2 * Real.pi * ((i + Config.tableLen / 4 : ℕ) : ℝ) / 1024 = 2 * Real.pi * i / 1024 + Real.pi / 2 := by
    rw [show Config.tableLen / 4 = 256 by rfl]
    push_cast
    ring
  rwa [hangle, Real.sin_add_pi_div_two] at hsine

theorem abs_toNat_sub_le {v : Int} {r : ℝ} (hr : 0 ≤ r) : |((v.toNat : ℕ) : ℝ) - r| ≤ |(v : ℝ) - r| := by
  rcases le_total 0 v with hpos | hneg
  · have hcast : ((v.toNat : ℕ) : ℝ) = v := by exact_mod_cast Int.toNat_of_nonneg hpos
    rw [hcast]
  · have hv : (v : ℝ) ≤ 0 := by exact_mod_cast hneg
    rw [Int.toNat_of_nonpos hneg, Nat.cast_zero, zero_sub, abs_neg, abs_of_nonneg hr, abs_of_nonpos (by linarith)]
    linarith

theorem abs_kappaOf_sub_le (i : ℕ) :
    |(kappaOf Config.precision Config.tableLen i : ℝ) -
        2 ^ Config.precision * (2 - 2 * Real.cos (2 * Real.pi * i / 1024))| ≤ 2074 := by
  have hcos := abs_cosineTurn_sub_le i
  have hle := Real.cos_le_one (2 * Real.pi * i / 1024)
  refine (abs_toNat_sub_le (mul_nonneg (by positivity) (by linarith))).trans ?_
  rw [fixOne]
  push_cast
  rw [abs_le] at hcos ⊢
  constructor <;> linarith

theorem cast_offset {x : Int} (hx : -(2 ^ Config.precision : ℝ) * 2 ≤ x) :
    ((offset Config.precision x : ℕ) : ℝ) = 2 * 2 ^ Config.precision + x := by
  have hnonneg : 0 ≤ x + 2 * (fixOne Config.precision : Int) := by
    have hreal : (0 : ℝ) ≤ x + 2 * 2 ^ Config.precision := by linarith
    rw [fixOne]
    exact_mod_cast hreal
  have hcast : ((offset Config.precision x : ℕ) : Int) = x + 2 * (fixOne Config.precision : Int) :=
    Int.toNat_of_nonneg hnonneg
  have hreal : ((offset Config.precision x : ℕ) : ℝ) = x + 2 * (fixOne Config.precision : ℝ) := by exact_mod_cast hcast
  rw [hreal, fixOne]
  push_cast
  ring

theorem precision_large : (2 : ℝ) ^ 60 ≤ 2 ^ Config.precision := pow_le_pow_right₀ one_le_two (by decide)

/-- A value within the error of the fixed-point sines of a real in [-1, 1], in offset form. -/
theorem abs_offset_sub_le {x : Int} {r : ℝ} (hr : |r| ≤ 1) (hx : |(x : ℝ) - 2 ^ Config.precision * r| ≤ 1037) :
    |(offset Config.precision x : ℝ) - 2 * 2 ^ Config.precision - 2 ^ Config.precision * r| ≤ 1037 := by
  have hlarge := precision_large
  have hxlow : -(2 ^ Config.precision : ℝ) * 2 ≤ x := by
    rw [abs_le] at hr hx
    nlinarith
  rw [cast_offset hxlow, add_sub_cancel_left]
  exact hx

/-- The point of the unit circle at an angle. -/
theorem exists_circle_point (α : ℝ) : ∃ z : ℂ, ‖z‖ = 1 ∧ z.re = Real.cos α :=
  ⟨Complex.exp (α * Complex.I), Complex.norm_exp_ofReal_mul_I α, Complex.exp_ofReal_mul_I_re α⟩

theorem turning_sin (α : ℝ) : Turning (Real.cos α) fun n => Real.sin (n * α) where
  abs_le n := Real.abs_sin_le_one _
  next n := by
    have hsum := Real.sin_add ((n + 1 : ℕ) * α) α
    have hdiff := Real.sin_sub ((n + 1 : ℕ) * α) α
    rw [show ((n + 2 : ℕ) : ℝ) * α = (n + 1 : ℕ) * α + α by push_cast; ring,
      show ((n : ℕ) : ℝ) * α = (n + 1 : ℕ) * α - α by push_cast; ring, hsum, hdiff]
    ring

/-- Every other cosine, from that of -α on. -/
theorem turning_cos (α : ℝ) : Turning (Real.cos (2 * α)) fun n => Real.cos ((2 * n - 1) * α) where
  abs_le n := Real.abs_cos_le_one _
  next n := by
    have hsum := Real.cos_add ((2 * (n + 1 : ℕ) - 1) * α) (2 * α)
    have hdiff := Real.cos_sub ((2 * (n + 1 : ℕ) - 1) * α) (2 * α)
    rw [show (2 * ((n + 2 : ℕ) : ℝ) - 1) * α = (2 * (n + 1 : ℕ) - 1) * α + 2 * α by push_cast; ring,
      show (2 * ((n : ℕ) : ℝ) - 1) * α = (2 * (n + 1 : ℕ) - 1) * α - 2 * α by push_cast; ring, hsum, hdiff]
    ring

/-! ### The real sums -/

/-- V_j(i) for H_j = `hs` (R234). -/
noncomputable def sawReal (hs i : ℕ) : ℝ :=
  -∑ n ∈ Finset.range hs, Real.sin (2 * Real.pi * (n + 1) * i / 1024) / (n + 1)

/-- W_j(i) for H_j = `hs` (R234). -/
noncomputable def triReal (hs i : ℕ) : ℝ :=
  ∑ n ∈ Finset.range ((hs + 1) / 2), Real.cos (2 * Real.pi * (2 * n + 1) * i / 1024) / (2 * n + 1) ^ 2

theorem sawSum_eq (p len hs i : ℕ) :
    sawSum p len hs i =
      ((∑ n ∈ Finset.range hs, turnSeq p (kappaOf p len i) (offset p 0) (offset p (sineTurn p len i)) (1 + n) / (1 + n)
        : ℕ) : Int) - ((∑ n ∈ Finset.range hs, offset p 0 / (1 + n) : ℕ) : Int) := by
  have hturn := sawTail_eq_sum p (kappaOf p len i) (offset p 0) (offset p (sineTurn p len i)) hs 0 1 0
  have hconst := sawTail_eq_sum p 0 (offset p 0) (offset p 0) hs 0 1 0
  simp only [turnSeq_const] at hconst
  rw [sawSum, force_eq, force_eq]
  simp only [turnSeq, Nat.zero_add] at hturn hconst ⊢
  rw [hturn, hconst]

theorem triSum_eq (p len hs i : ℕ) :
    triSum p len hs i =
      ((∑ n ∈ Finset.range ((hs + 1) / 2),
          turnSeq p (kappaOf p len (2 * i)) (offset p (cosineTurn p len i)) (offset p (cosineTurn p len i)) (1 + n) /
            ((1 + 2 * n) * (1 + 2 * n)) : ℕ) : Int) -
        ((∑ n ∈ Finset.range ((hs + 1) / 2), offset p 0 / ((1 + 2 * n) * (1 + 2 * n)) : ℕ) : Int) := by
  have hturn := triTail_eq_sum p (kappaOf p len (2 * i)) (offset p (cosineTurn p len i)) (offset p (cosineTurn p len i))
    ((hs + 1) / 2) 0 1 0
  have hconst := triTail_eq_sum p 0 (offset p 0) (offset p 0) ((hs + 1) / 2) 0 1 0
  simp only [turnSeq_const] at hconst
  rw [triSum, force_eq, force_eq]
  simp only [turnSeq, Nat.zero_add] at hturn hconst ⊢
  rw [hturn, hconst]

theorem cast_offset_zero : ((offset Config.precision 0 : ℕ) : ℝ) = 2 * 2 ^ Config.precision := by
  rw [cast_offset (by push_cast; nlinarith [precision_large]), Int.cast_zero, add_zero]

/-- The fixed-point saw sum, in units. -/
theorem abs_sawSum_sub_le {hs : ℕ} (hhs : hs ≤ 2 ^ 17) (i : ℕ) :
    |(sawSum Config.precision Config.tableLen hs i : ℝ) + 2 ^ Config.precision * sawReal hs i| ≤ 2 ^ 48 := by
  obtain ⟨α, hα⟩ : ∃ α : ℝ, α = 2 * Real.pi * i / 1024 := ⟨_, rfl⟩
  obtain ⟨z, hz, hre⟩ := exists_circle_point α
  have hturning := turning_sin α
  have hκ := abs_kappaOf_sub_le i
  have hsine := abs_sineTurn_sub_le i
  rw [← hα] at hκ hsine
  rw [← hre] at hturning hκ
  have h0 : |((offset Config.precision 0 : ℕ) : ℝ) - 2 * 2 ^ Config.precision -
      2 ^ Config.precision * Real.sin ((0 : ℕ) * α)| ≤ 1037 := by
    rw [cast_offset_zero, Nat.cast_zero, zero_mul, Real.sin_zero]
    norm_num
  have h1 := abs_offset_sub_le (Real.abs_sin_le_one α) hsine
  rw [show Real.sin α = Real.sin ((1 : ℕ) * α) by rw [Nat.cast_one, one_mul]] at h1
  have hterm (n : ℕ) (hn : n < hs) := abs_term_sub_le (d := 1 + n) (by omega) cast_offset_zero
    (abs_turnSeq_sub_le precision_large hz hturning hκ h0 h1 (n := 1 + n) (by omega))
    ((turnError_le_mul_sq (by omega)).trans (by
      have hn' : (n : ℝ) + 1 ≤ 2 ^ 17 := by exact_mod_cast (by omega : n + 1 ≤ 2 ^ 17)
      push_cast
      nlinarith [(Nat.cast_nonneg n : (0 : ℝ) ≤ n)]))
  have hsum := abs_sum_sub_le hhs hterm
  have hreal : -sawReal hs i = ∑ n ∈ Finset.range hs, Real.sin ((1 + n : ℕ) * α) / (1 + n : ℕ) := by
    rw [sawReal, neg_neg, hα]
    refine Finset.sum_congr rfl fun n _ => ?_
    push_cast
    rw [show 2 * Real.pi * ((n : ℝ) + 1) * i / 1024 = (1 + n) * (2 * Real.pi * i / 1024) by ring, add_comm (n : ℝ) 1]
  rw [← hreal] at hsum
  rw [sawSum_eq, Int.cast_sub, Int.cast_natCast, Int.cast_natCast]
  rwa [mul_neg, sub_neg_eq_add] at hsum

/-- The fixed-point triangle sum, in units. -/
theorem abs_triSum_sub_le {hs : ℕ} (hhs : hs ≤ 2 ^ 17) (i : ℕ) :
    |(triSum Config.precision Config.tableLen hs i : ℝ) - 2 ^ Config.precision * triReal hs i| ≤ 2 ^ 48 := by
  obtain ⟨α, hα⟩ : ∃ α : ℝ, α = 2 * Real.pi * i / 1024 := ⟨_, rfl⟩
  obtain ⟨z, hz, hre⟩ := exists_circle_point (2 * α)
  have hturning := turning_cos α
  have hκ := abs_kappaOf_sub_le (2 * i)
  have hcosine := abs_cosineTurn_sub_le i
  rw [show 2 * Real.pi * ((2 * i : ℕ) : ℝ) / 1024 = 2 * α by rw [hα]; push_cast; ring] at hκ
  rw [← hα] at hcosine
  rw [← hre] at hturning hκ
  have hstart := abs_offset_sub_le (Real.abs_cos_le_one α) hcosine
  have h0 := hstart
  have h1 := hstart
  rw [show Real.cos α = Real.cos ((2 * (0 : ℕ) - 1) * α) by rw [← Real.cos_neg]; congr 1; push_cast; ring] at h0
  rw [show Real.cos α = Real.cos ((2 * (1 : ℕ) - 1) * α) by congr 1; push_cast; ring] at h1
  have hterm (n : ℕ) (hn : n < (hs + 1) / 2) := abs_term_sub_le (d := (1 + 2 * n) * (1 + 2 * n)) (by positivity)
    cast_offset_zero (abs_turnSeq_sub_le precision_large hz hturning hκ h0 h1 (n := 1 + n) (by omega))
    ((turnError_le_mul_sq (by omega)).trans (by
      push_cast
      nlinarith [(Nat.cast_nonneg n : (0 : ℝ) ≤ n)]))
  have hsum := abs_sum_sub_le (by omega) hterm
  have hreal : triReal hs i = ∑ n ∈ Finset.range ((hs + 1) / 2),
      Real.cos ((2 * (1 + n : ℕ) - 1) * α) / ((1 + 2 * n) * (1 + 2 * n) : ℕ) := by
    rw [triReal, hα]
    refine Finset.sum_congr rfl fun n _ => ?_
    push_cast
    rw [show 2 * Real.pi * (2 * (n : ℝ) + 1) * i / 1024 = (2 * (1 + n) - 1) * (2 * Real.pi * i / 1024) by ring,
      show (2 * (n : ℝ) + 1) ^ 2 = (1 + 2 * n) * (1 + 2 * n) by ring]
  rw [← hreal] at hsum
  rw [triSum_eq, Int.cast_sub, Int.cast_natCast, Int.cast_natCast]
  exact hsum

end Sys2Proof.Machine
end

section
/-! The entries of the bank as quotients by their peak, rounded once (spec 42_wavetable.md R234). -/

namespace Sys2Proof.Machine

open Sys2Proof

/-! ### The largest of a list -/

theorem le_maxUpTo (f : ℕ → ℕ) {n i : ℕ} (h : i ≤ n) : f i ≤ maxUpTo f n := by
  induction n with
  | zero => rw [Nat.le_zero.mp h]; rfl
  | succ n ih =>
    rw [maxUpTo, force_eq, force_eq]
    rcases Nat.le_succ_iff.mp h with hle | rfl
    · exact (ih hle).trans (le_max_right ..)
    · exact le_max_left ..

theorem exists_maxUpTo_eq (f : ℕ → ℕ) (n : ℕ) : ∃ i ≤ n, maxUpTo f n = f i := by
  induction n with
  | zero => exact ⟨0, le_rfl, rfl⟩
  | succ n ih =>
    obtain ⟨i, hi, heq⟩ := ih
    rw [maxUpTo, force_eq, force_eq]
    rcases le_total (maxUpTo f n) (f (n + 1)) with hle | hle
    · exact ⟨n + 1, le_rfl, max_eq_left hle⟩
    · exact ⟨i, by omega, by rw [max_eq_right hle, heq]⟩

/-- The fixed-point maximum is as near to the real one as each value is to its own. -/
theorem abs_maxUpTo_sub_le {f : ℕ → ℕ} {g : ℕ → ℝ} {n : ℕ} {P ε m : ℝ} (hP : 0 ≤ P)
    (h : ∀ i ≤ n, |(f i : ℝ) - P * g i| ≤ ε) (hle : ∀ i ≤ n, g i ≤ m) (hmax : ∃ i ≤ n, g i = m) :
    |(maxUpTo f n : ℝ) - P * m| ≤ ε := by
  obtain ⟨i, hi, hfi⟩ := exists_maxUpTo_eq f n
  obtain ⟨j, hj, hgj⟩ := hmax
  have hupper := (abs_le.mp (h i hi)).2
  have hlower := (abs_le.mp (h j hj)).1
  have hij := mul_le_mul_of_nonneg_left (hle i hi) hP
  have hfj : (f j : ℝ) ≤ maxUpTo f n := Nat.cast_le.mpr (le_maxUpTo f hj)
  rw [hgj] at hlower
  rw [abs_le]
  constructor
  · linarith
  · rw [hfi]
    linarith

/-! ### One rounding of a quotient in [0, 1] -/

/-- 2^-53 in units. -/
def gridUnit : ℕ := 2 ^ 1021

theorem unitsPerOne_eq_gridUnit : unitsPerOne = 2 ^ 53 * gridUnit := by
  rw [unitsPerOne_eq, gridUnit, ← pow_add]

theorem gridUnit_pos : 0 < gridUnit := Nat.pow_pos two_pos

/-- Every multiple of 2^-53 up to 1 is a binary64. -/
theorem exists_fInt_eq_gridUnits {k : ℕ} (hk : k ≤ 2 ^ 53) (neg : Bool) :
    ∃ y : F64, fIsFinite y = true ∧ fInt y = signedNat neg (k * gridUnit) := by
  have hunits := unitsPerOne_eq_gridUnit
  have hle : k * gridUnit ≤ 2 * unitsPerOne := by
    rw [hunits]
    exact (Nat.mul_le_mul_right _ hk).trans (by omega)
  rcases lt_or_eq_of_le hk with hlt | heq
  · obtain ⟨hfin, hmag⟩ := fRound_exact neg (e := 1021) hlt hle
    exact ⟨_, hfin, by rw [fInt_fRound, hmag]; rfl⟩
  · refine ⟨if neg then fMinusOne else fOne, by cases neg <;> decide, ?_⟩
    rw [heq, ← hunits]
    cases neg with
    | false => exact fInt_fOne
    | true => exact fInt_fMinusOne

theorem cast_signedNat (neg : Bool) (n : ℕ) : ((signedNat neg n : Int) : ℝ) = withSign neg n := by
  cases neg <;> simp [signedNat, withSign]

theorem withSign_div (neg : Bool) (x c : ℝ) : withSign neg x / c = withSign neg (x / c) := by
  rw [div_eq_mul_inv, ← withSign_mul, ← div_eq_mul_inv]

theorem natCast_mul_div_mul {k a g : ℕ} (hg : 0 < g) : ((k * g : ℕ) : ℝ) / (a * g : ℕ) = k / a := by
  rw [Nat.cast_mul, Nat.cast_mul, mul_div_mul_right _ _ (by exact_mod_cast hg.ne')]

theorem cast_eq_withSign (v : Int) : (v : ℝ) = withSign (decide (v < 0)) v.natAbs := by
  rw [← cast_signedNat, signedNat_natAbs]

/-- The grid point nearest to a real in [0, 1]. -/
theorem exists_grid_near {t : ℝ} (ht0 : 0 ≤ t) (ht1 : t ≤ 1) :
    ∃ k : ℕ, k ≤ 2 ^ 53 ∧ |(k : ℝ) / 2 ^ 53 - t| ≤ 1 / 2 ^ 54 := by
  refine ⟨⌊t * 2 ^ 53 + 1 / 2⌋₊, ?_, ?_⟩
  · refine Nat.le_of_lt_succ ((Nat.floor_lt' (Nat.succ_ne_zero _)).mpr ?_)
    push_cast
    linarith
  · have hlo := Nat.floor_le (show 0 ≤ t * 2 ^ 53 + 1 / 2 by positivity)
    have hhi := Nat.lt_floor_add_one (t * 2 ^ 53 + 1 / 2)
    rw [abs_le]
    constructor <;> linarith

/-- A quotient of at most 1 rounds to within half of 2^-53. -/
theorem abs_fRound_unit_sub_le {n d : ℕ} (hd : 0 < d) (hn : n ≤ d) (neg : Bool) :
    |(fInt (fRound neg (n * unitsPerOne) d) : ℝ) / unitsPerOne - withSign neg ((n : ℝ) / d)| ≤ 1 / 2 ^ 54 := by
  have hd' : (0 : ℝ) < d := by exact_mod_cast hd
  have hu : (0 : ℝ) < unitsPerOne := by exact_mod_cast unitsPerOne_pos
  have hquotient : ((n * unitsPerOne : ℕ) : ℝ) / (d * unitsPerOne) = n / d := by
    rw [Nat.cast_mul, mul_div_mul_right _ _ hu.ne']
  obtain ⟨t, ht⟩ : ∃ t : ℝ, t = n / d := ⟨_, rfl⟩
  have ht0 : 0 ≤ t := by rw [ht]; exact div_nonneg (Nat.cast_nonneg n) hd'.le
  have ht1 : t ≤ 1 := by rw [ht]; exact div_le_one_of_le₀ (by exact_mod_cast hn) hd'.le
  obtain ⟨k, hk, hgrid⟩ := exists_grid_near ht0 ht1
  obtain ⟨y, hyfin, hy⟩ := exists_fInt_eq_gridUnits hk neg
  have hyreal : (fInt y : ℝ) / unitsPerOne = withSign neg ((k : ℝ) / 2 ^ 53) := by
    rw [hy, cast_signedNat, unitsPerOne_eq_gridUnit, withSign_div, natCast_mul_div_mul gridUnit_pos]
    norm_num
  have hnear := abs_fRound_div_sub_le (n := n * unitsPerOne) (ε := 0) hd neg hyfin hu (X := t)
    (by rw [hquotient, ht, sub_self, abs_zero])
  rw [hyreal, abs_withSign_sub, mul_zero, add_zero] at hnear
  rw [← ht]
  exact hnear.trans hgrid

/-! ### `normalized` -/

theorem normalized_of_ne_zero {v : Int} (hv : v ≠ 0) (peak : ℕ) :
    normalized v peak = fRound (decide (v < 0)) (v.natAbs * unitsPerOne) peak := by
  rw [normalized, if_neg hv, round64]

theorem withinNat_fZero : WithinNat 1 fZero := withinNat_one_of_unitPhase (by decide)

/-- An entry is at most 1 in magnitude, its numerator being one of those that the peak is the largest of. -/
theorem withinNat_normalized {v : Int} {peak : ℕ} (h : v.natAbs ≤ peak) : WithinNat 1 (normalized v peak) := by
  by_cases hv : v = 0
  · rw [normalized, if_pos hv]
    exact withinNat_fZero
  · rw [normalized_of_ne_zero hv]
    refine withinNat_fRound _ (by norm_num) (by omega) ?_
    rw [one_mul, mul_comm unitsPerOne]
    exact Nat.mul_le_mul_right _ h

theorem abs_normalized_sub_le {v : Int} {peak : ℕ} (hpeak : 0 < peak) (h : v.natAbs ≤ peak) :
    |(fInt (normalized v peak) : ℝ) / unitsPerOne - v / peak| ≤ 1 / 2 ^ 54 := by
  by_cases hv : v = 0
  · rw [normalized, if_pos hv, hv, fInt_fZero, Int.cast_zero, zero_div, zero_div, sub_zero, abs_zero]
    positivity
  · have hsign : (v : ℝ) / peak = withSign (decide (v < 0)) ((v.natAbs : ℝ) / peak) := by
      rw [← withSign_div, ← cast_eq_withSign]
    rw [normalized_of_ne_zero hv, hsign]
    exact abs_fRound_unit_sub_le hpeak h _

/-- The numerator that is the peak gives ±1. -/
theorem fRound_peak {d : ℕ} (hd : 0 < d) (neg : Bool) :
    fRound neg (d * unitsPerOne) d = fRound neg unitsPerOne 1 := by
  have hsame : d * unitsPerOne * 1 = unitsPerOne * d := by rw [Nat.mul_one, Nat.mul_comm]
  rw [fRound, fRound, roundMag_congr hd one_pos hsame]

theorem fRound_unitsPerOne : fRound false unitsPerOne 1 = fOne := by
  have hself := fRound_self (x := fOne) (by decide)
  rwa [fMag_fOne, show fSign fOne = false by decide] at hself

theorem normalized_peak {peak : ℕ} (hpeak : 0 < peak) : normalized peak peak = fOne := by
  have hnonneg : ¬ (peak : Int) < 0 := by omega
  rw [normalized_of_ne_zero (by omega), decide_eq_false hnonneg, Int.natAbs_natCast, fRound_peak hpeak,
    fRound_unitsPerOne]

theorem fMag_normalized_of_natAbs {v : Int} {peak : ℕ} (hpeak : 0 < peak) (h : v.natAbs = peak) :
    fMag (normalized v peak) = unitsPerOne := by
  rw [normalized_of_ne_zero (by omega), h, fRound_peak hpeak, fMag_eq_low, fLow_fRound, ← fLow_fRound false,
    ← fMag_eq_low, fRound_unitsPerOne, fMag_fOne]

/-- An entry times the real peak is near its real sum: the rounding, and what the fixed-point sums are off. -/
theorem abs_normalized_mul_sub_le {v : Int} {peak : ℕ} {V m : ℝ} (h : v.natAbs ≤ peak) (hm : 1 / 2 ≤ m)
    (hVm : |V| ≤ m) (hv : |(v : ℝ) - 2 ^ Config.precision * V| ≤ 2 ^ 48)
    (hpeak : |(peak : ℝ) - 2 ^ Config.precision * m| ≤ 2 ^ 48) :
    |(fInt (normalized v peak) : ℝ) / unitsPerOne * m - V| ≤ m / 2 ^ 53 := by
  have hP : (2 : ℝ) ^ 110 ≤ 2 ^ Config.precision := pow_le_pow_right₀ one_le_two (by decide)
  have hlarge : (2 : ℝ) ^ 104 ≤ peak := by
    rw [abs_le] at hpeak
    nlinarith
  have hpos : (0 : ℝ) < peak := lt_of_lt_of_le (by positivity) hlarge
  have hround := abs_normalized_sub_le (by exact_mod_cast hpos) h
  generalize (fInt (normalized v peak) : ℝ) / unitsPerOne = q at hround ⊢
  have hsums : |(v : ℝ) / peak * m - V| ≤ m / 2 ^ 54 := by
    have hsplit : (v : ℝ) / peak * m - V =
        ((v - 2 ^ Config.precision * V) * m - V * (peak - 2 ^ Config.precision * m)) / peak := by
      field_simp
      ring
    have hfirst : |((v : ℝ) - 2 ^ Config.precision * V) * m| ≤ 2 ^ 48 * m := by
      rw [abs_mul, abs_of_nonneg (by linarith : 0 ≤ m)]
      exact mul_le_mul_of_nonneg_right hv (by linarith)
    have hsecond : |V * ((peak : ℝ) - 2 ^ Config.precision * m)| ≤ m * 2 ^ 48 := by
      rw [abs_mul]
      exact mul_le_mul hVm hpeak (abs_nonneg _) (by linarith)
    rw [hsplit, abs_div, abs_of_pos hpos, div_le_iff₀ hpos]
    refine (abs_sub _ _).trans ((add_le_add hfirst hsecond).trans ?_)
    have hscale : m / 2 ^ 54 * 2 ^ 104 ≤ m / 2 ^ 54 * peak :=
      mul_le_mul_of_nonneg_left hlarge (by positivity)
    linarith
  have hqm : |(q - v / peak) * m| ≤ m / 2 ^ 54 := by
    rw [abs_mul, abs_of_nonneg (by linarith : 0 ≤ m), div_eq_inv_mul m, ← one_div]
    exact mul_le_mul_of_nonneg_right hround (by linarith)
  calc |q * m - V| = |(q - v / peak) * m + (v / peak * m - V)| := by ring_nf
    _ ≤ |(q - v / peak) * m| + |(v : ℝ) / peak * m - V| := abs_add_le _ _
    _ ≤ m / 2 ^ 54 + m / 2 ^ 54 := add_le_add hqm hsums
    _ = m / 2 ^ 53 := by ring

end Sys2Proof.Machine
end

section
/-! The saw of the bank and its correction factor (spec 42_wavetable.md R234, R235, R239). -/

namespace Sys2Proof.Machine

open Sys2Proof

/-! ### The real saw sum -/

theorem sawReal_zero (hs : ℕ) : sawReal hs 0 = 0 := by
  rw [sawReal, Finset.sum_eq_zero, neg_zero]
  intro n _
  rw [Nat.cast_zero, mul_zero, zero_div, Real.sin_zero, zero_div]

theorem sawReal_half (hs : ℕ) : sawReal hs 512 = 0 := by
  rw [sawReal, Finset.sum_eq_zero, neg_zero]
  intro n _
  have hangle : 2 * Real.pi * ((n : ℝ) + 1) * (512 : ℕ) / 1024 = (n + 1 : ℕ) * Real.pi := by
    push_cast
    ring
  rw [hangle, Real.sin_nat_mul_pi, zero_div]

theorem sawReal_sub {hs i : ℕ} (hi : i ≤ 1024) : sawReal hs (1024 - i) = -sawReal hs i := by
  rw [sawReal, sawReal, neg_inj, ← Finset.sum_neg_distrib]
  refine Finset.sum_congr rfl fun n _ => ?_
  have hangle : 2 * Real.pi * ((n : ℝ) + 1) * ((1024 - i : ℕ) : ℝ) / 1024 =
      (n + 1 : ℕ) * (2 * Real.pi) - 2 * Real.pi * (n + 1) * i / 1024 := by
    rw [Nat.cast_sub hi]
    push_cast
    ring
  rw [hangle, Real.sin_nat_mul_two_pi_sub, neg_div]

theorem abs_sawReal_le (hs i : ℕ) : |sawReal hs i| ≤ hs := by
  rw [sawReal, abs_neg]
  refine (Finset.abs_sum_le_sum_abs _ _).trans ?_
  refine (Finset.sum_le_card_nsmul _ _ 1 fun n _ => ?_).trans (by simp)
  have hn : (1 : ℝ) ≤ n + 1 := by linarith [(Nat.cast_nonneg n : (0 : ℝ) ≤ n)]
  rw [abs_div, abs_of_pos (by linarith : (0 : ℝ) < n + 1), div_le_one (by linarith)]
  exact (Real.abs_sin_le_one _).trans hn

/-- A falling alternating sum lies between 0 and its first term. -/
theorem altSum_mem {w : ℕ → ℝ} (hanti : Antitone w) (hpos : ∀ i, 0 ≤ w i) (n : ℕ) :
    0 ≤ altSum w n ∧ altSum w n ≤ w 0 := by
  induction n generalizing w with
  | zero => exact ⟨le_rfl, hpos 0⟩
  | succ n ih =>
    have hshift : Antitone fun i => w (i + 1) := fun a b hab => hanti (Nat.succ_le_succ hab)
    obtain ⟨hlo, hhi⟩ := ih hshift fun i => hpos (i + 1)
    have hfirst := hanti (Nat.zero_le 1)
    rw [altSum_succ]
    constructor <;> linarith

/-- The terms of Leibniz's series for π/4. -/
noncomputable def leibnizTerm (k : ℕ) : ℝ := 1 / (2 * k + 1)

theorem leibnizTerm_antitone : Antitone leibnizTerm := by
  intro a b hab
  have hab' : (a : ℝ) ≤ b := by exact_mod_cast hab
  exact one_div_le_one_div_of_le (by positivity) (by linarith)

theorem two_thirds_le_altSum (n : ℕ) : 2 / 3 ≤ altSum leibnizTerm (n + 1) := by
  have hshift : Antitone fun i => leibnizTerm (i + 1) := fun a b hab => leibnizTerm_antitone (Nat.succ_le_succ hab)
  have hpos (i : ℕ) : 0 ≤ leibnizTerm (i + 1) := by unfold leibnizTerm; positivity
  obtain ⟨-, hrest⟩ := altSum_mem hshift hpos n
  have h0 : leibnizTerm 0 = 1 := by norm_num [leibnizTerm]
  have h1 : leibnizTerm (0 + 1) = 1 / 3 := by norm_num [leibnizTerm]
  rw [altSum_succ, h0]
  rw [h1] at hrest
  linarith

/-- At a quarter turn every other harmonic is 0 and the rest alternate. -/
theorem sawReal_quarter (k : ℕ) :
    -sawReal (2 * k) 256 = altSum leibnizTerm k ∧ -sawReal (2 * k + 1) 256 = altSum leibnizTerm (k + 1) := by
  have hodd (k : ℕ) : Real.sin (2 * Real.pi * (((2 * k : ℕ) : ℝ) + 1) * (256 : ℕ) / 1024) / (((2 * k : ℕ) : ℝ) + 1) =
      (-1) ^ k * leibnizTerm k := by
    have hangle : 2 * Real.pi * (((2 * k : ℕ) : ℝ) + 1) * (256 : ℕ) / 1024 = k * Real.pi + Real.pi / 2 := by
      push_cast
      ring
    rw [hangle, Real.sin_add_pi_div_two, Real.cos_nat_mul_pi, leibnizTerm]
    push_cast
    ring
  have heven (k : ℕ) : Real.sin (2 * Real.pi * (((2 * k + 1 : ℕ) : ℝ) + 1) * (256 : ℕ) / 1024) = 0 := by
    have hangle : 2 * Real.pi * (((2 * k + 1 : ℕ) : ℝ) + 1) * (256 : ℕ) / 1024 = (k + 1 : ℕ) * Real.pi := by
      push_cast
      ring
    rw [hangle, Real.sin_nat_mul_pi]
  have hstep (k : ℕ) (h : -sawReal (2 * k) 256 = altSum leibnizTerm k) :
      -sawReal (2 * k + 1) 256 = altSum leibnizTerm (k + 1) := by
    rw [sawReal, neg_neg] at h ⊢
    rw [Finset.sum_range_succ, h, hodd, altSum, altSum, Finset.sum_range_succ]
  induction k with
  | zero =>
    have hbase : -sawReal (2 * 0) 256 = altSum leibnizTerm 0 := by simp [sawReal, altSum]
    exact ⟨hbase, hstep 0 hbase⟩
  | succ k ih =>
    obtain ⟨-, ih⟩ := ih
    have hnext : -sawReal (2 * (k + 1)) 256 = altSum leibnizTerm (k + 1) := by
      rw [← ih, sawReal, sawReal, neg_neg, neg_neg, show 2 * (k + 1) = 2 * k + 1 + 1 by ring, Finset.sum_range_succ,
        heven, zero_div, add_zero]
    exact ⟨hnext, hstep (k + 1) hnext⟩

theorem two_thirds_le_sawReal {hs : ℕ} (hhs : 1 ≤ hs) : 2 / 3 ≤ |sawReal hs 256| := by
  obtain ⟨k, rfl | rfl⟩ : ∃ k, hs = 2 * (k + 1) ∨ hs = 2 * k + 1 := ⟨(hs - 1) / 2, by omega⟩
  · rw [← abs_neg, (sawReal_quarter (k + 1)).1]
    exact (two_thirds_le_altSum k).trans (le_abs_self _)
  · rw [← abs_neg, (sawReal_quarter k).2]
    exact (two_thirds_le_altSum k).trans (le_abs_self _)

/-- A function that the half turn mirrors, up to its sign, has its largest magnitude in the first half turn. -/
theorem exists_peak {f : ℕ → ℝ} (hsym : ∀ i ≤ 1024, |f (1024 - i)| = |f i|) :
    ∃ m, (∀ i ≤ 512, |f i| ≤ m) ∧ (∃ i ≤ 512, |f i| = m) ∧ ∀ i < 1024, |f i| ≤ m := by
  obtain ⟨i, hi, hmax⟩ := Finset.exists_max_image (Finset.range 513) (fun i => |f i|) ⟨0, by simp⟩
  have hlow (k : ℕ) (hk : k ≤ 512) : |f k| ≤ |f i| := hmax k (Finset.mem_range.mpr (by omega))
  refine ⟨|f i|, hlow, ⟨i, Nat.le_of_lt_succ (Finset.mem_range.mp hi), rfl⟩, fun k hk => ?_⟩
  rcases le_total k 512 with hle | hge
  · exact hlow k hle
  · rw [← hsym k hk.le]
    exact hlow (1024 - k) (by omega)

/-! ### The entries -/

theorem sawEntryAt_zero (peak hs : ℕ) : sawEntryAt peak hs 0 = fZero := rfl

theorem sawEntryAt_half (peak hs : ℕ) : sawEntryAt peak hs 512 = fZero := rfl

theorem sawEntryAt_low (peak hs : ℕ) {i : ℕ} (h0 : 0 < i) (hi : i < 512) :
    sawEntryAt peak hs i = normalized (-sawSum Config.precision Config.tableLen hs i) peak := by
  have hlen : Config.tableLen = 1024 := rfl
  have hhalf : Config.tableLen / 2 = 512 := rfl
  have hmod : i % Config.tableLen = i := by rw [hlen]; omega
  unfold sawEntryAt
  dsimp only
  rw [hmod, hhalf, if_neg (by omega), if_pos hi]

theorem sawEntryAt_high (peak hs : ℕ) {i : ℕ} (hi : 512 < i) (hlt : i < 1024) :
    sawEntryAt peak hs i = fNeg (sawEntryAt peak hs (1024 - i)) := by
  have hlen : Config.tableLen = 1024 := rfl
  have hhalf : Config.tableLen / 2 = 512 := rfl
  have hmod : i % Config.tableLen = i := by rw [hlen]; omega
  rw [sawEntryAt_low peak hs (show 0 < 1024 - i by omega) (by omega)]
  unfold sawEntryAt
  dsimp only
  rw [hmod, hhalf, if_neg (by omega), if_neg (by omega), hlen]

theorem natAbs_sawSum_le_peak {hs i : ℕ} (hi : i ≤ 512) :
    (-sawSum Config.precision Config.tableLen hs i).natAbs ≤ sawPeakOf hs := by
  rw [Int.natAbs_neg]
  exact le_maxUpTo (fun i => (sawSum Config.precision Config.tableLen hs i).natAbs) hi

theorem withinNat_sawEntryAt (hs : ℕ) {i : ℕ} (hi : i < 1024) : WithinNat 1 (sawEntryAt (sawPeakOf hs) hs i) := by
  have hlow {k : ℕ} (h0 : 0 < k) (hk : k < 512) : WithinNat 1 (sawEntryAt (sawPeakOf hs) hs k) := by
    rw [sawEntryAt_low _ hs h0 hk]
    exact withinNat_normalized (natAbs_sawSum_le_peak hk.le)
  rcases Nat.eq_zero_or_pos i with rfl | h0
  · exact withinNat_fZero
  · rcases lt_trichotomy i 512 with hlt | rfl | hgt
    · exact hlow h0 hlt
    · exact withinNat_fZero
    · rw [sawEntryAt_high _ hs hgt hi]
      exact withinNat_fNeg (hlow (by omega) (by omega))

/-! ### The peak -/

theorem abs_natAbs_sub_le {v : Int} {x y : ℝ} (h : |(v : ℝ) - x| ≤ y) : |((v.natAbs : ℕ) : ℝ) - (|x|)| ≤ y := by
  rw [Nat.cast_natAbs, Int.cast_abs]
  exact (abs_abs_sub_abs_le _ _).trans h

theorem abs_neg_sawSum_sub_le {hs : ℕ} (hhs : hs ≤ 2 ^ 17) (i : ℕ) :
    |((-sawSum Config.precision Config.tableLen hs i : Int) : ℝ) - 2 ^ Config.precision * sawReal hs i| ≤ 2 ^ 48 := by
  have h := abs_sawSum_sub_le hhs i
  rwa [← abs_neg, neg_add, ← sub_eq_add_neg, ← Int.cast_neg] at h

/-- The largest magnitude of the real saw sum, and the fixed-point peak near it. -/
structure SawPeak (hs : ℕ) (m : ℝ) : Prop where
  le : ∀ i < 1024, |sawReal hs i| ≤ m
  attained : ∃ i ≤ 512, |sawReal hs i| = m
  two_thirds_le : 2 / 3 ≤ m
  near : |(sawPeakOf hs : ℝ) - 2 ^ Config.precision * m| ≤ 2 ^ 48

theorem exists_sawPeak {hs : ℕ} (h1 : 1 ≤ hs) (hhs : hs ≤ 2 ^ 17) : ∃ m, SawPeak hs m := by
  obtain ⟨m, hlow, hmax, hle⟩ := exists_peak (f := sawReal hs) fun i hi => by rw [sawReal_sub hi, abs_neg]
  have hvalue (i : ℕ) : |(((sawSum Config.precision Config.tableLen hs i).natAbs : ℕ) : ℝ) -
      2 ^ Config.precision * (|sawReal hs i|)| ≤ 2 ^ 48 := by
    have h := abs_natAbs_sub_le (abs_neg_sawSum_sub_le hhs i)
    rwa [Int.natAbs_neg, abs_mul, abs_of_pos (show (0 : ℝ) < 2 ^ Config.precision by positivity)] at h
  exact ⟨m, hle, hmax, (two_thirds_le_sawReal h1).trans (hle 256 (by norm_num)),
    abs_maxUpTo_sub_le (f := fun i => (sawSum Config.precision Config.tableLen hs i).natAbs) (by positivity)
      (fun i _ => hvalue i) hlow hmax⟩

theorem SawPeak.large {hs : ℕ} {m : ℝ} (h : SawPeak hs m) : (2 : ℝ) ^ 60 ≤ sawPeakOf hs := by
  have hP : (2 : ℝ) ^ 110 ≤ 2 ^ Config.precision := pow_le_pow_right₀ one_le_two (by decide)
  have hm := h.two_thirds_le
  have hnear := (abs_le.mp h.near).1
  nlinarith

theorem SawPeak.pos {hs : ℕ} {m : ℝ} (h : SawPeak hs m) : 0 < sawPeakOf hs := by
  have hlarge : (0 : ℝ) < sawPeakOf hs := lt_of_lt_of_le (by positivity) h.large
  exact_mod_cast hlarge

/-- Each entry against the real quotient. -/
theorem SawPeak.abs_entry_sub_le {hs : ℕ} {m : ℝ} (h : SawPeak hs m) (hhs : hs ≤ 2 ^ 17) {i : ℕ} (hi : i < 1024) :
    |(fInt (sawEntryAt (sawPeakOf hs) hs i) : ℝ) / unitsPerOne * m - sawReal hs i| ≤ m / 2 ^ 53 := by
  have hm := h.two_thirds_le
  have hzero : |(fInt fZero : ℝ) / unitsPerOne * m - 0| ≤ m / 2 ^ 53 := by
    rw [fInt_fZero, Int.cast_zero, zero_div, zero_mul, sub_zero, abs_zero]
    positivity
  have hlow {k : ℕ} (h0 : 0 < k) (hk : k < 512) :
      |(fInt (sawEntryAt (sawPeakOf hs) hs k) : ℝ) / unitsPerOne * m - sawReal hs k| ≤ m / 2 ^ 53 := by
    rw [sawEntryAt_low _ hs h0 hk]
    exact abs_normalized_mul_sub_le (natAbs_sawSum_le_peak hk.le) (by linarith) (h.le k (by omega))
      (abs_neg_sawSum_sub_le hhs k) h.near
  rcases Nat.eq_zero_or_pos i with rfl | h0
  · rw [sawReal_zero]
    exact hzero
  · rcases lt_trichotomy i 512 with hlt | rfl | hgt
    · exact hlow h0 hlt
    · rw [sawReal_half]
      exact hzero
    · have hmirror := sawReal_sub (hs := hs) hi.le
      have hfirst := hlow (k := 1024 - i) (by omega) (by omega)
      rw [hmirror] at hfirst
      rwa [sawEntryAt_high _ hs hgt hi, fInt_fNeg, Int.cast_neg, neg_div, neg_mul, ← abs_neg, neg_sub, sub_neg_eq_add,
        add_comm, ← sub_neg_eq_add]

/-- The peak is not at 0 or half a turn, where the entry is 0, so an entry is exactly ±1. -/
theorem SawPeak.exists_entry_one {hs : ℕ} {m : ℝ} (h : SawPeak hs m) (hhs : hs ≤ 2 ^ 17) :
    ∃ i < 1024, fMag (sawEntryAt (sawPeakOf hs) hs i) = unitsPerOne := by
  obtain ⟨i, hi, hpeak⟩ :=
    exists_maxUpTo_eq (fun i => (sawSum Config.precision Config.tableLen hs i).natAbs) (Config.tableLen / 2)
  have hpeak : sawPeakOf hs = (-sawSum Config.precision Config.tableLen hs i).natAbs := by
    rw [Int.natAbs_neg]
    exact hpeak
  have hne : sawReal hs i ≠ 0 := by
    intro h0
    have hsmall := abs_natAbs_sub_le (abs_neg_sawSum_sub_le hhs i)
    rw [h0, mul_zero, abs_zero, sub_zero, ← hpeak, Nat.abs_cast] at hsmall
    have hlarge := h.large
    linarith
  have h0 : 0 < i := Nat.pos_of_ne_zero fun h0 => hne (h0 ▸ sawReal_zero hs)
  have hhalf : i ≠ 512 := fun h512 => hne (h512 ▸ sawReal_half hs)
  have hi' : i ≤ 512 := hi
  refine ⟨i, by omega, ?_⟩
  rw [sawEntryAt_low _ hs h0 (by omega)]
  exact fMag_normalized_of_natAbs h.pos hpeak.symm

/-! ### The correction factor (R235) -/

/-- The difference of the entries half a turn apart, in units. -/
def spreadAt (hs i : ℕ) : Int :=
  fInt (sawEntryAt (sawPeakOf hs) hs ((i + 512) % 1024)) - fInt (sawEntryAt (sawPeakOf hs) hs i)

theorem sawSpread_eq (hs : ℕ) :
    sawSpread (sawPeakOf hs) hs = maxUpTo (fun i => (spreadAt hs i).natAbs) 511 := rfl

/-- Half a turn later the difference has the other sign. -/
theorem natAbs_spreadAt_le {hs i : ℕ} (hi : i < 1024) :
    (spreadAt hs i).natAbs ≤ sawSpread (sawPeakOf hs) hs := by
  rw [sawSpread_eq]
  rcases Nat.lt_or_ge i 512 with hlt | hge
  · exact le_maxUpTo (fun i => (spreadAt hs i).natAbs) (by omega)
  · have hback : (i - 512 + 512) % 1024 = i := by omega
    have hforth : (i + 512) % 1024 = i - 512 := by omega
    have hsame : (spreadAt hs i).natAbs = (spreadAt hs (i - 512)).natAbs := by
      rw [spreadAt, spreadAt, hback, hforth, ← Int.natAbs_neg, neg_sub]
    rw [hsame]
    exact le_maxUpTo (fun i => (spreadAt hs i).natAbs) (by omega)

theorem SawPeak.sawSpread_pos {hs : ℕ} {m : ℝ} (h : SawPeak hs m) (h1 : 1 ≤ hs) (hhs : hs ≤ 2 ^ 17) :
    0 < sawSpread (sawPeakOf hs) hs := by
  have hquarter := natAbs_spreadAt_le (hs := hs) (i := 256) (by norm_num)
  have hmirror : sawEntryAt (sawPeakOf hs) hs 768 = fNeg (sawEntryAt (sawPeakOf hs) hs 256) :=
    sawEntryAt_high _ hs (by norm_num) (by norm_num)
  have hne : fInt (sawEntryAt (sawPeakOf hs) hs 256) ≠ 0 := by
    intro h0
    have hentry := h.abs_entry_sub_le hhs (i := 256) (by norm_num)
    rw [h0, Int.cast_zero, zero_div, zero_mul, zero_sub, abs_neg] at hentry
    obtain ⟨i, -, hattained⟩ := h.attained
    have hm : m ≤ 2 ^ 17 := by
      rw [← hattained]
      exact (abs_sawReal_le hs i).trans (by exact_mod_cast hhs)
    have hlarge := two_thirds_le_sawReal h1
    linarith
  rw [spreadAt, show (256 + 512) % 1024 = 768 by norm_num, hmirror, fInt_fNeg] at hquarter
  omega

/-- The factor is a binary64 nearest to the reciprocal of the exact spread. -/
theorem abs_corrFactor_sub_le {rate : F64} {j : ℕ} {y : F64} (hy : fIsFinite y = true)
    (hpos : 0 < sawSpread (sawPeakOf (harmonics rate j)) (harmonics rate j)) :
    |(fInt (corrFactor rate j) : ℝ) / unitsPerOne -
        1 / ((sawSpread (sawPeakOf (harmonics rate j)) (harmonics rate j) : ℝ) / unitsPerOne)| ≤
      |(fInt y : ℝ) / unitsPerOne -
        1 / ((sawSpread (sawPeakOf (harmonics rate j)) (harmonics rate j) : ℝ) / unitsPerOne)| := by
  have hu : (0 : ℝ) < unitsPerOne := by exact_mod_cast unitsPerOne_pos
  have hcorr : corrFactor rate j = fRound false (unitsPerOne * unitsPerOne)
      (sawSpread (sawPeakOf (harmonics rate j)) (harmonics rate j)) := rfl
  have hquotient : ((unitsPerOne * unitsPerOne : ℕ) : ℝ) /
      ((sawSpread (sawPeakOf (harmonics rate j)) (harmonics rate j) : ℕ) * unitsPerOne) =
      1 / ((sawSpread (sawPeakOf (harmonics rate j)) (harmonics rate j) : ℝ) / unitsPerOne) := by
    rw [Nat.cast_mul, mul_div_mul_right _ _ hu.ne', one_div, inv_div]
  have hnear := abs_fRound_div_sub_le (n := unitsPerOne * unitsPerOne) (ε := 0) hpos false hy hu (by
    rw [hquotient, sub_self, abs_zero])
  rw [mul_zero, add_zero, ← hcorr] at hnear
  exact hnear

end Sys2Proof.Machine
end

section
/-! The triangle of the bank, and the bounds of its entries (spec 42_wavetable.md R233 to R235, R239). -/

namespace Sys2Proof.Machine

open Sys2Proof

/-! ### The real triangle sum -/

theorem triReal_quarter (hs : ℕ) : triReal hs 256 = 0 := by
  rw [triReal, Finset.sum_eq_zero]
  intro n _
  have hangle : 2 * Real.pi * (2 * (n : ℝ) + 1) * (256 : ℕ) / 1024 = n * Real.pi + Real.pi / 2 := by
    push_cast
    ring
  rw [hangle, Real.cos_add_pi_div_two, Real.sin_nat_mul_pi, neg_zero, zero_div]

theorem triReal_sub {hs i : ℕ} (hi : i ≤ 1024) : triReal hs (1024 - i) = triReal hs i := by
  refine Finset.sum_congr rfl fun n _ => ?_
  have hangle : 2 * Real.pi * (2 * (n : ℝ) + 1) * ((1024 - i : ℕ) : ℝ) / 1024 =
      (2 * n + 1 : ℕ) * (2 * Real.pi) - 2 * Real.pi * (2 * n + 1) * i / 1024 := by
    rw [Nat.cast_sub hi]
    push_cast
    ring
  rw [hangle, Real.cos_nat_mul_two_pi_sub]

theorem triReal_half_sub {hs i : ℕ} (hi : i ≤ 512) : triReal hs (512 - i) = -triReal hs i := by
  rw [triReal, triReal, ← Finset.sum_neg_distrib]
  refine Finset.sum_congr rfl fun n _ => ?_
  have hangle : 2 * Real.pi * (2 * (n : ℝ) + 1) * ((512 - i : ℕ) : ℝ) / 1024 =
      Real.pi - 2 * Real.pi * (2 * n + 1) * i / 1024 + n * (2 * Real.pi) := by
    rw [Nat.cast_sub hi]
    push_cast
    ring
  rw [hangle, Real.cos_add_nat_mul_two_pi, Real.cos_pi_sub, neg_div]

theorem triReal_zero (hs : ℕ) : triReal hs 0 = ∑ n ∈ Finset.range ((hs + 1) / 2), 1 / (2 * (n : ℝ) + 1) ^ 2 := by
  refine Finset.sum_congr rfl fun n _ => ?_
  rw [Nat.cast_zero, mul_zero, zero_div, Real.cos_zero]

/-- One term is at most what it is at the angle 0. -/
theorem abs_cos_div_sq_le (x : ℝ) (n : ℕ) : |Real.cos x / (2 * n + 1) ^ 2| ≤ 1 / (2 * (n : ℝ) + 1) ^ 2 := by
  rw [abs_div, abs_of_pos (show (0 : ℝ) < (2 * n + 1) ^ 2 by positivity)]
  gcongr
  exact Real.abs_cos_le_one x

theorem abs_triReal_le (hs i : ℕ) : |triReal hs i| ≤ triReal hs 0 := by
  rw [triReal_zero, triReal]
  exact (Finset.abs_sum_le_sum_abs _ _).trans (Finset.sum_le_sum fun n _ => abs_cos_div_sq_le _ n)

theorem one_le_triReal_zero {hs : ℕ} (h1 : 1 ≤ hs) : 1 ≤ triReal hs 0 := by
  obtain ⟨k, hk⟩ : ∃ k, (hs + 1) / 2 = k + 1 := ⟨(hs + 1) / 2 - 1, by omega⟩
  have hrest : 0 ≤ ∑ n ∈ Finset.range k, 1 / (2 * ((n + 1 : ℕ) : ℝ) + 1) ^ 2 :=
    Finset.sum_nonneg fun n _ => by positivity
  rw [triReal_zero, hk, Finset.sum_range_succ', Nat.cast_zero]
  linarith

/-- Within the first quarter turn the cosine is below 1 by at least 2^-17 from one step of 1024 on. -/
theorem abs_cos_turn_le {i : ℕ} (h0 : 1 ≤ i) (hi : i ≤ 256) : |Real.cos (2 * Real.pi * i / 1024)| ≤ 1 - 1 / 2 ^ 17 := by
  have hi0 : (1 : ℝ) ≤ i := by exact_mod_cast h0
  have hi1 : (i : ℝ) ≤ 256 := by exact_mod_cast hi
  have hpi := Real.pi_pos
  have hnonneg : 0 ≤ Real.cos (2 * Real.pi * i / 1024) := by
    refine Real.cos_nonneg_of_neg_pi_div_two_le_of_le ?_ ?_
    · have hangle : 0 ≤ 2 * Real.pi * i / 1024 := by positivity
      linarith
    · nlinarith
  have hsin : (i : ℝ) / 512 ≤ Real.sin (Real.pi * i / 1024) := by
    have h := Real.mul_le_sin (x := Real.pi * i / 1024) (by positivity) (by nlinarith)
    calc (i : ℝ) / 512 = 2 / Real.pi * (Real.pi * i / 1024) := by field_simp; norm_num
      _ ≤ _ := h
  have hdouble : Real.cos (2 * Real.pi * i / 1024) = 1 - 2 * Real.sin (Real.pi * i / 1024) ^ 2 := by
    rw [show 2 * Real.pi * i / 1024 = 2 * (Real.pi * i / 1024) by ring, Real.cos_two_mul, Real.cos_sq']
    ring
  rw [abs_of_nonneg hnonneg, hdouble]
  nlinarith

theorem abs_triReal_le_sub {hs i : ℕ} (h1 : 1 ≤ hs) (h0 : 1 ≤ i) (hi : i ≤ 256) :
    |triReal hs i| ≤ triReal hs 0 - 1 / 2 ^ 17 := by
  obtain ⟨k, hk⟩ : ∃ k, (hs + 1) / 2 = k + 1 := ⟨(hs + 1) / 2 - 1, by omega⟩
  have hfirst := abs_cos_turn_le h0 hi
  have hrest : |∑ n ∈ Finset.range k, Real.cos (2 * Real.pi * (2 * ((n + 1 : ℕ) : ℝ) + 1) * i / 1024) /
      (2 * ((n + 1 : ℕ) : ℝ) + 1) ^ 2| ≤ ∑ n ∈ Finset.range k, 1 / (2 * ((n + 1 : ℕ) : ℝ) + 1) ^ 2 :=
    (Finset.abs_sum_le_sum_abs _ _).trans (Finset.sum_le_sum fun n _ => abs_cos_div_sq_le _ (n + 1))
  rw [triReal_zero, triReal, hk, Finset.sum_range_succ', Finset.sum_range_succ', Nat.cast_zero, mul_zero, zero_add, mul_one,
    one_pow, div_one, div_one]
  refine (abs_add_le _ _).trans ?_
  linarith

/-! ### The peak -/

theorem natAbs_triSum_le_peak {hs i : ℕ} (hi : i ≤ 256) :
    (triSum Config.precision Config.tableLen hs i).natAbs ≤ triPeakOf hs :=
  le_maxUpTo (fun i => (triSum Config.precision Config.tableLen hs i).natAbs) hi

theorem abs_natAbs_triSum_sub_le {hs : ℕ} (hhs : hs ≤ 2 ^ 17) (i : ℕ) :
    |(((triSum Config.precision Config.tableLen hs i).natAbs : ℕ) : ℝ) - 2 ^ Config.precision * (|triReal hs i|)| ≤
      2 ^ 48 := by
  have h := abs_natAbs_sub_le (abs_triSum_sub_le hhs i)
  rwa [abs_mul, abs_of_pos (show (0 : ℝ) < 2 ^ Config.precision by positivity)] at h

/-- The peak of the triangle is at 0, in fixed point too: the next value is lower by more than the sums are off. -/
theorem triPeakOf_eq {hs : ℕ} (h1 : 1 ≤ hs) (hhs : hs ≤ 2 ^ 17) :
    triSum Config.precision Config.tableLen hs 0 = triPeakOf hs ∧ 0 < triPeakOf hs := by
  have hP : (2 : ℝ) ^ 110 ≤ 2 ^ Config.precision := pow_le_pow_right₀ one_le_two (by decide)
  have hone := one_le_triReal_zero h1
  have hstart := (abs_le.mp (abs_triSum_sub_le hhs 0)).1
  have hpos : 0 < triSum Config.precision Config.tableLen hs 0 := by
    have hreal : (0 : ℝ) < triSum Config.precision Config.tableLen hs 0 := by nlinarith
    exact_mod_cast hreal
  have hcast : (((triSum Config.precision Config.tableLen hs 0).natAbs : ℕ) : ℝ) =
      triSum Config.precision Config.tableLen hs 0 := by
    rw [Nat.cast_natAbs, abs_of_pos hpos]
  have hmax (i : ℕ) (hi : i ≤ 256) : (triSum Config.precision Config.tableLen hs i).natAbs ≤
      (triSum Config.precision Config.tableLen hs 0).natAbs := by
    rcases Nat.eq_zero_or_pos i with rfl | h0
    · exact le_rfl
    · have hvalue := (abs_le.mp (abs_natAbs_triSum_sub_le hhs i)).2
      have hgap := mul_le_mul_of_nonneg_left (abs_triReal_le_sub h1 h0 hi) (show (0 : ℝ) ≤ 2 ^ Config.precision by positivity)
      have hreal : (((triSum Config.precision Config.tableLen hs i).natAbs : ℕ) : ℝ) ≤
          ((triSum Config.precision Config.tableLen hs 0).natAbs : ℕ) := by
        rw [hcast]
        linarith
      exact_mod_cast hreal
  obtain ⟨i, hi, hpeak⟩ :=
    exists_maxUpTo_eq (fun i => (triSum Config.precision Config.tableLen hs i).natAbs) (Config.tableLen / 4)
  have hle : triPeakOf hs ≤ (triSum Config.precision Config.tableLen hs 0).natAbs := hpeak.trans_le (hmax i hi)
  have hge := natAbs_triSum_le_peak (hs := hs) (Nat.zero_le 256)
  omega

/-! ### The entries -/

theorem triQuarterAt_quarter (peak hs : ℕ) : triQuarterAt peak hs 256 = fZero := rfl

theorem triQuarterAt_of_lt (peak hs : ℕ) {i : ℕ} (hi : i < 256) :
    triQuarterAt peak hs i = normalized (triSum Config.precision Config.tableLen hs i) peak := by
  rw [triQuarterAt, show Config.tableLen / 4 = 256 by rfl, if_neg hi.ne]

theorem triEntryAt_first (peak hs : ℕ) {i : ℕ} (hi : i ≤ 256) : triEntryAt peak hs i = triQuarterAt peak hs i := by
  have hlen : Config.tableLen = 1024 := rfl
  have hhalf : Config.tableLen / 2 = 512 := rfl
  have hquarter : Config.tableLen / 4 = 256 := rfl
  have hmod : i % Config.tableLen = i := by rw [hlen]; omega
  unfold triEntryAt
  dsimp only
  rw [hmod, hhalf, hquarter, if_pos (show i ≤ 512 by omega), if_pos hi]

theorem triEntryAt_second (peak hs : ℕ) {i : ℕ} (h : 256 < i) (hi : i ≤ 512) :
    triEntryAt peak hs i = fNeg (triQuarterAt peak hs (512 - i)) := by
  have hlen : Config.tableLen = 1024 := rfl
  have hhalf : Config.tableLen / 2 = 512 := rfl
  have hquarter : Config.tableLen / 4 = 256 := rfl
  have hmod : i % Config.tableLen = i := by rw [hlen]; omega
  unfold triEntryAt
  dsimp only
  rw [hmod, hhalf, hquarter, if_pos hi, if_neg (by omega)]

theorem triEntryAt_mirror (peak hs : ℕ) {i : ℕ} (h : 512 < i) (hi : i < 1024) :
    triEntryAt peak hs i = triEntryAt peak hs (1024 - i) := by
  have hlen : Config.tableLen = 1024 := rfl
  have hmod : i % 1024 = i := Nat.mod_eq_of_lt hi
  have hmod' : (1024 - i) % 1024 = 1024 - i := Nat.mod_eq_of_lt (by omega)
  unfold triEntryAt
  dsimp only
  rw [hlen, hmod, hmod', show 1024 / 2 = 512 by norm_num, if_neg (show ¬ i ≤ 512 by omega),
    if_pos (show 1024 - i ≤ 512 by omega)]

/-- What holds of the first quarter turn and of negatives holds of the turn. -/
theorem triEntryAt_induction {motive : F64 → ℕ → Prop} {peak hs : ℕ}
    (hquarter : ∀ i ≤ 256, motive (triQuarterAt peak hs i) i)
    (hneg : ∀ x, ∀ i ≤ 512, motive x i → motive (fNeg x) (512 - i))
    (hmirror : ∀ x, ∀ i ≤ 1024, motive x i → motive x (1024 - i)) {i : ℕ} (hi : i < 1024) :
    motive (triEntryAt peak hs i) i := by
  have hhalf {k : ℕ} (hk : k ≤ 512) : motive (triEntryAt peak hs k) k := by
    rcases Nat.lt_or_ge 256 k with hgt | hle
    · have h := hneg _ (512 - k) (by omega) (hquarter (512 - k) (by omega))
      rw [triEntryAt_second peak hs hgt hk]
      rwa [show 512 - (512 - k) = k by omega] at h
    · rw [triEntryAt_first peak hs hle]
      exact hquarter k hle
  rcases Nat.lt_or_ge 512 i with hgt | hle
  · have h := hmirror _ (1024 - i) (by omega) (hhalf (k := 1024 - i) (by omega))
    rw [triEntryAt_mirror peak hs hgt hi]
    rwa [show 1024 - (1024 - i) = i by omega] at h
  · exact hhalf hle

theorem withinNat_triQuarterAt (hs : ℕ) {i : ℕ} (hi : i ≤ 256) : WithinNat 1 (triQuarterAt (triPeakOf hs) hs i) := by
  rcases lt_or_eq_of_le hi with hlt | rfl
  · rw [triQuarterAt_of_lt _ hs hlt]
    exact withinNat_normalized (natAbs_triSum_le_peak hi)
  · exact withinNat_fZero

theorem withinNat_triEntryAt (hs : ℕ) {i : ℕ} (hi : i < 1024) : WithinNat 1 (triEntryAt (triPeakOf hs) hs i) :=
  triEntryAt_induction (motive := fun x _ => WithinNat 1 x) (fun _ h => withinNat_triQuarterAt hs h)
    (fun _ _ _ h => withinNat_fNeg h) (fun _ _ _ h => h) hi

theorem abs_triEntryAt_sub_le {hs : ℕ} (h1 : 1 ≤ hs) (hhs : hs ≤ 2 ^ 17) {i : ℕ} (hi : i < 1024) :
    |(fInt (triEntryAt (triPeakOf hs) hs i) : ℝ) / unitsPerOne * triReal hs 0 - triReal hs i| ≤
      triReal hs 0 / 2 ^ 53 := by
  have hone := one_le_triReal_zero h1
  refine triEntryAt_induction
    (motive := fun x i => |(fInt x : ℝ) / unitsPerOne * triReal hs 0 - triReal hs i| ≤ triReal hs 0 / 2 ^ 53)
    (fun k hk => ?_) (fun x k hk h => ?_) (fun x k hk h => ?_) hi
  · rcases lt_or_eq_of_le hk with hlt | rfl
    · have hpeak := abs_triSum_sub_le hhs 0
      rw [(triPeakOf_eq h1 hhs).1, Int.cast_natCast] at hpeak
      rw [triQuarterAt_of_lt _ hs hlt]
      exact abs_normalized_mul_sub_le (natAbs_triSum_le_peak hk) (by linarith) (abs_triReal_le hs k)
        (abs_triSum_sub_le hhs k) hpeak
    · rw [triQuarterAt_quarter, triReal_quarter, fInt_fZero, Int.cast_zero, zero_div, zero_mul, sub_zero, abs_zero]
      positivity
  · rwa [triReal_half_sub hk, fInt_fNeg, Int.cast_neg, neg_div, neg_mul, ← abs_neg, neg_sub, sub_neg_eq_add, add_comm,
      ← sub_neg_eq_add, neg_neg]
  · rwa [triReal_sub hk]

theorem triEntryAt_ends {hs : ℕ} (h1 : 1 ≤ hs) (hhs : hs ≤ 2 ^ 17) :
    triEntryAt (triPeakOf hs) hs 0 = fOne ∧ triEntryAt (triPeakOf hs) hs 512 = fMinusOne := by
  obtain ⟨hsum, hpos⟩ := triPeakOf_eq h1 hhs
  have hfirst : triQuarterAt (triPeakOf hs) hs 0 = fOne := by
    rw [triQuarterAt_of_lt _ hs (by norm_num), hsum, normalized_peak hpos]
  refine ⟨by rw [triEntryAt_first _ hs (by norm_num), hfirst], ?_⟩
  rw [triEntryAt_second _ hs (by norm_num) le_rfl, Nat.sub_self, hfirst]
  decide

/-! ### The sine entries -/

theorem quarterSineFix_le (m : ℕ) :
    quarterSineFix Config.precision (4 * 256) m ≤ fixOne Config.precision := by
  by_cases hlow : 8 * m ≤ 4 * 256
  · rw [quarterSineFix_of_low hlow]
    exact (trigTail_le _ _ _ _ _).trans (angleFix_bounds precision_suffices (by norm_num) hlow).2
  · rw [quarterSineFix_of_high hlow]
    exact trigTail_le _ _ _ _ _

theorem withinNat_sineEntry (i : ℕ) : WithinNat 1 (sineEntry i) := by
  obtain ⟨m, -, neg, hturn, -⟩ := exists_quarter_of_turn Config.precision (q := 256) (by norm_num) i
  have hlen : Config.tableLen = 4 * 256 := rfl
  refine withinNat_normalized ?_
  rw [hlen, hturn]
  refine le_trans (le_of_eq ?_) (quarterSineFix_le m)
  cases neg with
  | false => exact Int.natAbs_natCast _
  | true => exact (Int.natAbs_neg _).trans (Int.natAbs_natCast _)

/-! ### Legal rates -/

/-- At a legal rate no table holds more than 2^17 harmonics: at most 2^24 Hz, over twice 80 Hz. -/
theorem harmonics_le_of_legal {rate : F64} (hrate : rate.toNat ≤ 0x4170000000000000) {j : ℕ} (hj : j < 9) :
    harmonics rate j ≤ 2 ^ 17 := by
  have hfin : rate.toNat < 0x7FF0000000000000 := by omega
  have hmax : fMag Config.srMax = 2 ^ 24 * unitsPerOne :=
    fMag_of_natural (e := 1046) (c := 28) (by decide) (by decide) rfl
  have hsignMax : fSign Config.srMax = false := by decide
  have hmag : fMag rate ≤ 2 ^ 24 * unitsPerOne := by
    have hint := (fInt_le_iff_toNat_le (x := rate) (y := Config.srMax) hfin (by decide)).mpr hrate
    rw [fInt_of_fSign (fSign_of_toNat_lt (by omega)), fInt_of_fSign hsignMax, hmax] at hint
    exact_mod_cast hint
  have hceiling := fMag_bandCeiling_mono (Nat.zero_le j) (by omega : j ≤ 9)
  rw [fMag_bandCeiling (Nat.zero_le 9)] at hceiling
  rw [harmonics]
  refine max_le (by norm_num) (Nat.div_le_of_le_mul ?_)
  have hunits := unitsPerOne_pos
  generalize fMag (bandCeiling j) = S at hceiling ⊢
  generalize unitsPerOne = u at *
  omega

end Sys2Proof.Machine
end

section
/-! The bounds of the bank's entries, put together (spec 42_wavetable.md R233 to R235, R239). -/

namespace Sys2Proof.Machine

open Sys2Proof

theorem fMag_fZero : fMag fZero = 0 := by decide

/-- At any rate: the bounds, and the exact zeros. -/
theorem bankEntries_bounded (rate : F64) (j : ℕ) {i : ℕ} (hi : i < 1024) :
    WithinMagnitude fOne (sineEntry i) ∧ WithinMagnitude fOne (sawEntry rate j i) ∧
    WithinMagnitude fOne (triEntry rate j i) ∧ sawEntry rate j 0 = 0#64 ∧ sawEntry rate j 512 = 0#64 ∧
    fMag (triEntry rate j 256) = 0 ∧ fMag (triEntry rate j 768) = 0 := by
  have hquarter : triEntryAt (triPeakOf (harmonics rate j)) (harmonics rate j) 256 = fZero := by
    rw [triEntryAt_first _ _ le_rfl, triQuarterAt_quarter]
  have hthird : triEntryAt (triPeakOf (harmonics rate j)) (harmonics rate j) 768 = fZero := by
    rw [triEntryAt_mirror _ _ (by norm_num) (by norm_num)]
    exact hquarter
  refine ⟨withinMagnitude_fOne_of_withinNat (withinNat_sineEntry i),
    withinMagnitude_fOne_of_withinNat (withinNat_sawEntryAt _ hi),
    withinMagnitude_fOne_of_withinNat (withinNat_triEntryAt _ hi), sawEntryAt_zero _ _, sawEntryAt_half _ _, ?_, ?_⟩
  · rw [triEntry, hquarter, fMag_fZero]
  · rw [triEntry, hthird, fMag_fZero]

/-- A largest magnitude over the turn. -/
def IsPeak (m : ℝ) (f : ℕ → ℝ) : Prop := (∀ i < 1024, |f i| ≤ m) ∧ ∃ i < 1024, |f i| = m

theorem SawPeak.isPeak {hs : ℕ} {m : ℝ} (h : SawPeak hs m) : IsPeak m (sawReal hs) := by
  obtain ⟨i, hi, heq⟩ := h.attained
  exact ⟨h.le, i, by omega, heq⟩

theorem isPeak_triReal {hs : ℕ} (h1 : 1 ≤ hs) : IsPeak (triReal hs 0) (triReal hs) :=
  ⟨fun i _ => abs_triReal_le hs i, 0, by norm_num, abs_of_nonneg (by linarith [one_le_triReal_zero h1])⟩

/-- The spread is the largest difference, over the whole turn. -/
theorem isPeak_sawSpread (hs : ℕ) :
    IsPeak ((sawSpread (sawPeakOf hs) hs : ℝ) / unitsPerOne) fun i =>
      ((fInt (sawEntryAt (sawPeakOf hs) hs ((i + 512) % 1024)) : ℝ) -
        (fInt (sawEntryAt (sawPeakOf hs) hs i) : ℝ)) / unitsPerOne := by
  have hu : (0 : ℝ) < unitsPerOne := by exact_mod_cast unitsPerOne_pos
  have habs (i : ℕ) : |((fInt (sawEntryAt (sawPeakOf hs) hs ((i + 512) % 1024)) : ℝ) -
      (fInt (sawEntryAt (sawPeakOf hs) hs i) : ℝ)) / unitsPerOne| = ((spreadAt hs i).natAbs : ℝ) / unitsPerOne := by
    rw [abs_div, abs_of_pos hu, Nat.cast_natAbs, spreadAt, Int.cast_abs, Int.cast_sub]
  constructor
  · intro i hi
    rw [habs]
    exact div_le_div_of_nonneg_right (Nat.cast_le.mpr (natAbs_spreadAt_le hi)) hu.le
  · obtain ⟨i, hi, heq⟩ := exists_maxUpTo_eq (fun i => (spreadAt hs i).natAbs) 511
    refine ⟨i, by omega, ?_⟩
    rw [habs, sawSpread_eq, heq]

/-- A sum within 2^48 units is within 2^-200. -/
theorem abs_div_sub_le {s x : ℝ} (h : |s - 2 ^ Config.precision * x| ≤ 2 ^ 48) :
    |s / 2 ^ Config.precision - x| ≤ 1 / 2 ^ 200 := by
  have hP : (2 : ℝ) ^ 48 * 2 ^ 200 ≤ 2 ^ Config.precision := by
    rw [← pow_add]
    exact pow_le_pow_right₀ one_le_two (by decide)
  have hpos : (0 : ℝ) < 2 ^ Config.precision := by positivity
  generalize (2 : ℝ) ^ Config.precision = P at *
  rw [div_sub' hpos.ne', abs_div, abs_of_pos hpos, div_le_div_iff₀ hpos (by positivity)]
  linarith

/-- Settles O45: the sums follow the real ones by `abs_turnSeq_sub_le`, and every entry is one rounding of a quotient by
the largest of them. -/
theorem tableEntriesAreBounded : Obligations.TableEntriesAreBounded := by
  unfold Obligations.TableEntriesAreBounded
  intro V W isMax
  have hV : V = sawReal := rfl
  have hW : W = triReal := rfl
  have hisMax : isMax = IsPeak := rfl
  refine ⟨fun rate j i hi => bankEntries_bounded rate j hi, fun rate j _ hrate hj => ?_, fun hs i hhs _ => ?_,
    fun hs i hhs _ => ?_⟩
  · have h1 := one_le_harmonics rate j
    have hhs := harmonics_le_of_legal hrate hj
    obtain ⟨hstart, hhalf⟩ := triEntryAt_ends h1 hhs
    obtain ⟨m, hpeak⟩ := exists_sawPeak h1 hhs
    rw [hV, hW, hisMax, ← unitsPerOne_eq, ← unitsPerOne_cast]
    exact ⟨hstart, hhalf, hpeak.exists_entry_one hhs, ⟨m, hpeak.isPeak, fun i hi => hpeak.abs_entry_sub_le hhs hi⟩,
      ⟨_, isPeak_triReal h1, fun i hi => abs_triEntryAt_sub_le h1 hhs hi⟩,
      ⟨_, isPeak_sawSpread _, fun y hy => abs_corrFactor_sub_le hy (hpeak.sawSpread_pos h1 hhs)⟩⟩
  · have h := abs_div_sub_le (x := -sawReal hs i) (by rw [mul_neg, sub_neg_eq_add]; exact abs_sawSum_sub_le hhs i)
    rw [sub_neg_eq_add] at h
    exact h
  · exact abs_div_sub_le (abs_triSum_sub_le hhs i)

end Sys2Proof.Machine
end
